-- ==== Sys2Proof/Word.lean ====
section
/-! DEFINITION. The word types of the Nacorin 620 (spec/00_scope.md, section 1.6). -/

namespace Sys2Proof

/-- One byte of memory. -/
abbrev Byte := BitVec 8

/-- A 16-bit value: a sample, a sequence number, a cycle number, an event serial, the tally. -/
abbrev Half := BitVec 16

/-- A word is 32 bits. -/
abbrev Word := BitVec 32

/-- A byte address of the 16 MB memory space, 0 to 0FFFFFFH. -/
abbrev Addr := BitVec 24

/-- A word address, 0 to 3FFFFFH: the 22 address lines of the bus. -/
abbrev WordAddr := BitVec 22

/-- The four byte enables of a bus access; lane i is bit i. -/
abbrev Enables := BitVec 4

/-- A stream time or a local time: a count of microseconds that wraps at 2^32. -/
abbrev Time := BitVec 32

end Sys2Proof
end

