-- ==== Sys2Proof/Syntax.lean ====
section
/-! DEFINITION. The commands of the Nacorin 620: one constructor per row of spec/opcode_table.json.

A row is one whole, indivisible step of the part (spec/95_what_each_step_holds.md). The rows of the commands of
R32 are the arrival of the CLOSING WRITE of that command's frame: CD hands the owner "the latched parameters 1 to
count" (R26), so a command's parameters are not operands here; they are written by PARAMETER_WORD_WRITE and
stand in CD's latches. What such a row does carry is the level of an input pin it samples. -/

namespace Sys2Proof

/-- One single-word upstream access (R1): the word address, the byte enables and, for a write, the data. -/
inductive Access where
  | read (addr : WordAddr) (be : Enables)
  | write (addr : WordAddr) (be : Enables) (data : Word)
  deriving DecidableEq, Repr

/-- The 45 rows of the table, in its order. -/
inductive Instr where
  | resetnAssert
  /-- `straps`: the level of CWSEL3 to CWSEL0 at the release (R4). -/
  | resetnRelease (straps : BitVec 4)
  | upstreamAccessPresented (a : Access)
  | upstreamWrite (addr : WordAddr) (be : Enables) (data : Word)
  | upstreamRead (addr : WordAddr) (be : Enables)
  /-- A full-word write of `value` to word 0 of the command window. -/
  | openingWordWrite (value : Word)
  /-- A full-word write of `value` to word `index`, 1 to 14, of the command window. -/
  | parameterWordWrite (index : BitVec 4) (value : Word)
  /-- A write with a byte enable clear to word `index` of the command window. -/
  | partialWrite (index : BitVec 4) (be : Enables) (value : Word)
  /-- A closing write of `value` that finds the decoder READY. -/
  | noFrame (value : Word)
  /-- A closing write of `value` that ends a poisoned frame or fails check 1. -/
  | invalidSequence (value : Word)
  /-- The closing write of a well-formed frame whose code is not known. -/
  | refusedCode
  | defineLayout
  /-- `straps`: the level of CWSEL3 to CWSEL0 when the command is taken (R4, R33). -/
  | resetPart (straps : BitVec 4)
  | defineRing
  | ringOn
  | ringOff
  | resetRing
  | setFraming
  | load
  /-- `service`: the level of SERVICE when the command is taken (R27, R139). -/
  | lockSlot (service : Bool)
  | clearLocks (service : Bool)
  | setMasterLock (service : Bool)
  | clearSlot (service : Bool)
  | sweep
  | suspendSweep
  | resumeSweep
  | mount
  | checkpoint
  | release
  | clearCavity
  | clearMould
  | setReporting
  | setCounter
  | clearStatus
  | acknowledge
  | postWordPerformed
  | taskRecordEnqueue
  | dirtyRecordPost
  | taskReadData
  | taskWaitExpiry
  | blockTimeout (ring : Fin 8)
  | ringStale (ring : Fin 8)
  | alarmPulseEnd
  | blockBegin
  | sampleProcessed
  deriving DecidableEq, Repr

end Sys2Proof
end

