-- ==== Sys2Proof/WellFormed.lean ====
section
/-! DEFINITION. Which commands are well formed: the operand of a row is one that the row's own rule admits. -/

namespace Sys2Proof

/-- The parameter words of the window are words 1 to 14 (R19, R23). -/
def parameterIndexOk (index : BitVec 4) : Bool := index != 0 && index != 15

/-- A partial write has one or more byte enables clear (R20). -/
def partialEnablesOk (be : Enables) : Bool := be != 15

/-- A well-formed command. Every other operand is admitted at every value of its type. -/
def Instr.wellFormed : Instr → Bool
  | .parameterWordWrite index _ => parameterIndexOk index
  | .partialWrite _ be _ => partialEnablesOk be
  | .resetnAssert | .resetnRelease _ | .upstreamAccessPresented _ | .upstreamWrite _ _ _ | .upstreamRead _ _
  | .openingWordWrite _ | .noFrame _ | .invalidSequence _ | .refusedCode | .defineLayout | .resetPart _
  | .defineRing | .ringOn | .ringOff | .resetRing | .setFraming | .load | .lockSlot _ | .clearLocks _
  | .setMasterLock _ | .clearSlot _ | .sweep | .suspendSweep | .resumeSweep | .mount | .checkpoint | .release
  | .clearCavity | .clearMould | .setReporting | .setCounter | .clearStatus | .acknowledge
  | .postWordPerformed | .taskRecordEnqueue | .dirtyRecordPost | .taskReadData | .taskWaitExpiry
  | .blockTimeout _ | .ringStale _ | .alarmPulseEnd | .blockBegin | .sampleProcessed => true

end Sys2Proof
end

