-- ==== Sys2Proof/Config.lean ====
section
/-! DEFINITION. What one Nacorin 620 installation fixes: sizes the spec states, and the one value the model
chooses for memory that nothing has written (log 6). -/

namespace Sys2Proof.Config

/-- What a byte of memory reads as before anything has written it. The spec does not state the SRAM's contents
at power-on. DESIGN CHOICE (log 6), unsafe. -/
def unlistedByte : Byte := 0

/-- The post queue holds at most 32 words (R10). -/
def postCapacity : Nat := 32

/-- The accepted-block queue holds at most 16 entries (R50). -/
def acceptedCapacity : Nat := 16

/-- The hit pool holds at most 32 hits (R75). -/
def poolCapacity : Nat := 32

/-- The cycle queue holds at most four entries (R97). -/
def cycleCapacity : Nat := 4

/-- The block buffer pool (R51). -/
def bufferCount : Nat := 25

/-- A task read is promoted when it has waited 200 local microseconds (R17). -/
def taskWaitLimit : Time := 200

/-- An alarm pulse lasts 50,000 local microseconds (R109). -/
def pulseLength : Time := 50000

/-! ### Values the spec does not state (log 8)

What the part shows in bits to which the spec gives no value. Each is an opaque constant of how many such values have
been shown before, so nothing constrains it. -/

/-- Bits 15 to 0 of status word 4 and counter word 18 while the newest cycle number is none. -/
opaque unstatedCycle : Nat → Half

/-- Bits 23 to 0 of status word 7 while no dropped-write address is kept. -/
opaque unstatedDrop : Nat → Addr

/-- The lanes of a read whose byte enable is clear. -/
opaque unstatedLanes : Nat → Word

end Sys2Proof.Config
end

