-- ==== Sys2Proof/Machine/State.lean ====
section
/-! DEFINITION. The state of the Nacorin 620: every item that spec/ gives its eight blocks, the memory behind the
part, its pins, and the queue of the commands that wait. Plain data throughout. -/

namespace Sys2Proof.Machine

/-! ### Memory -/

/-- The memory array, as the bytes that differ from `Config.unlistedByte`, at strictly rising byte addresses. -/
abbrev Memory := List Host.Cell

/-! ### Command Decoder (R20) -/

inductive DecoderState where
  | ready | collecting | poisoned
  deriving DecidableEq, Repr

structure CommandDecoder where
  state : DecoderState
  opening : Word
  /-- latch i is the latch of parameter word i + 1 -/
  latch : Vector Word 14
  written : Vector Bool 14
  tally : Half
  deriving DecidableEq, Repr

/-! ### Path Unit (R1, R5, R10, R14, R18) -/

/-- Which record a group of queued words is (R10, R153, R134). -/
inductive RecordId where
  | status
  | counter
  | directory
  /-- the verdict word of cavity c + 1 -/
  | verdict (c : Fin 48)
  | trace (half : Fin 2)
  | log (entry : Byte)
  | slot (slot : Fin 12) (record : Nat)
  deriving DecidableEq, Repr

/-- A record in the post queue: the words of it that are not yet performed, and the word address of the first. -/
structure QueuedRecord where
  id : RecordId
  addr : WordAddr
  words : List Word
  /-- its first word has been performed (R12) -/
  begun : Bool
  deriving DecidableEq, Repr

/-- Which holds have been reported for the outstanding access (each is reported once, section 1.8). -/
structure HoldMarks where
  postFull : Bool
  recordRead : Bool
  taskWait : Bool
  deriving DecidableEq, Repr

/-- The presented upstream access that is not yet complete: upstream ready is withheld (R1). -/
structure Outstanding where
  access : Access
  reported : HoldMarks
  /-- the hold cases that applied to it when they were last tested (section 1.8; log 19) -/
  standing : HoldMarks
  /-- it has arrived: the arbiter has taken it, and its own row completes it (R1, R13; log 33) -/
  arrived : Bool
  deriving DecidableEq, Repr

/-- The one task read that TU has presented (R14), and whether it has been promoted (R17). -/
structure TaskRead where
  addr : WordAddr
  presentedAt : Time
  promoted : Bool
  deriving DecidableEq, Repr

structure PathUnit where
  strap : BitVec 4
  layoutDefined : Bool
  resultsBase : Addr
  archiveBase : Addr
  queue : List QueuedRecord
  access : Option Outstanding
  taskRead : Option TaskRead
  deriving DecidableEq, Repr

/-! ### Stream Framer (R38, R40, R50) -/

inductive CrcPoly where
  | polyA | polyB
  deriving DecidableEq, Repr

inductive CrcPreset where
  | zeros | ones
  deriving DecidableEq, Repr

structure Framing where
  sync : Half
  poly : CrcPoly
  preset : CrcPreset
  /-- local microseconds -/
  blockTimeout : Nat
  /-- milliseconds -/
  staleTime : Nat
  deriving DecidableEq, Repr

/-- A capture in progress: its block position, the next word expected, the words in its buffer, the CRC register
with the polynomial it began with, and its last-write time. -/
structure Capture where
  position : Nat
  nextWord : Nat
  words : List Word
  crc : Half
  poly : CrcPoly
  lastWrite : Time
  deriving DecidableEq, Repr

inductive RingPhase where
  | collecting (c : Capture)
  /-- the position of the block that was last closed -/
  | waiting (position : Nat)
  deriving DecidableEq, Repr

inductive RingState where
  | off
  | hunt
  | locked (phase : RingPhase)
  deriving DecidableEq, Repr

structure Ring where
  defined : Bool
  channel : Fin 8
  base : Addr
  blocks : Nat
  state : RingState
  /-- sequence number and timestamp of the last accepted block -/
  continuity : Option (Half × Time)
  forced : Bool
  /-- none: the stale timer is not running -/
  staleRef : Option Time
  stale : Bool
  deriving DecidableEq, Repr

inductive BlockMark where
  | continuous
  | sequence
  | timestamp
  deriving DecidableEq, Repr

/-- An entry of the accepted-block queue (R50), with the contents of its buffer. -/
structure AcceptedBlock where
  ring : Fin 8
  channel : Fin 8
  sequence : Half
  cycle : Half
  phase : BitVec 3
  timestamp : Time
  mark : BlockMark
  acceptedAt : Time
  samples : List Half
  deriving DecidableEq, Repr

structure StreamFramer where
  rings : Vector Ring 8
  framing : Framing
  queue : List AcceptedBlock
  deriving DecidableEq, Repr

/-! ### Profiles (R113, R114) -/

inductive ThresholdMode where
  | fixed | floating
  deriving DecidableEq, Repr

structure ExtractionParams where
  mode : ThresholdMode
  fixedThreshold : Nat
  f : Nat
  m : Nat
  k : Nat
  hdt : Nat
  hlt : Nat
  mindur : Nat
  maxdur : Nat
  deriving DecidableEq, Repr

structure EventParams where
  w : Nat
  risemax : Nat
  peakmin : Nat
  phaseMask : Byte
  deriving DecidableEq, Repr

structure EvidenceParams where
  evmin : Nat
  watchOn : Nat
  watchOff : Nat
  suspectOn : Nat
  suspectOff : Nat
  crackOn : Nat
  eCrack : Nat
  deriving DecidableEq, Repr

structure Profile where
  extraction : ExtractionParams
  event : EventParams
  evidence : EvidenceParams
  deriving DecidableEq, Repr

/-- The default table of R114. -/
def Profile.default : Profile where
  extraction := { mode := .floating, fixedThreshold := 2000, f := 48, m := 100, k := 8, hdt := 8, hlt := 40,
                  mindur := 2, maxdur := 1000 }
  event := { w := 400, risemax := 20, peakmin := 1000, phaseMask := 0x30 }
  evidence := { evmin := 1, watchOn := 3, watchOff := 0, suspectOn := 8, suspectOff := 4, crackOn := 16,
                eCrack := 2000000 }

/-! ### Hit Extractor (R56, R63, R64) -/

structure OpenHit where
  /-- T_h, frozen for the life of the hit -/
  threshold : Nat
  arrival : Time
  phase : BitVec 3
  cycle : Half
  startAccept : Time
  count : Nat
  peak : Nat
  peakOffset : Nat
  energy : Nat
  lastAbove : Nat
  belowRun : Nat
  deriving DecidableEq, Repr

/-- A channel's state with the items R56 gives it there: the background `b` (scaled by 256) and the threshold `t`. -/
inductive ChannelState where
  | idle
  | settling
  | armed (b t : Nat)
  | inHit (b t : Nat) (hit : OpenHit)
  | lockout (b t remaining : Nat)
  deriving DecidableEq, Repr

structure Channel where
  state : ChannelState
  params : Option ExtractionParams
  lastFinished : Option Time
  lastEnd : Option Time
  coveredTo : Option Time
  /-- the model's own mark: the channel has been in the horizon since the reset (R91; log 36) -/
  joined : Bool
  deriving DecidableEq, Repr

/-- The block HX is processing: its entry, the index of the next sample, the sum of a settling block. -/
structure BlockInWork where
  entry : AcceptedBlock
  next : Nat
  sum : Nat
  deriving DecidableEq, Repr

structure HitExtractor where
  channels : Vector Channel 8
  block : Option BlockInWork
  deriving DecidableEq, Repr

/-! ### Event Locator (R75, R83) -/

structure Hit where
  channel : Fin 8
  arrival : Time
  phase : BitVec 3
  cycle : Half
  peak : Nat
  rise : Nat
  duration : Nat
  energy : Nat
  startAccept : Time
  deriving DecidableEq, Repr

structure Band where
  first : Fin 8
  second : Fin 8
  low : Nat
  high : Nat
  cavity : Nat
  deriving DecidableEq, Repr

/-- ID 0 with no bands is "none" (R83). -/
structure ZoneMap where
  id : Half
  bands : List Band
  deriving DecidableEq, Repr

structure EventLocator where
  pool : List Hit
  floor : Option Time
  /-- none: unbounded (R78) -/
  horizon : Option Time
  zones : ZoneMap
  serial : Half
  deriving DecidableEq, Repr

/-! ### Evidence Unit (R92, R94, R95, R97) -/

inductive EvidenceState where
  | empty | changing | running | held
  deriving DecidableEq, Repr

inductive Verdict where
  | sound | watch | suspect | cracked
  deriving DecidableEq, Repr

structure CavityRecord where
  verdict : Verdict
  /-- mark n in bit n -/
  history : Word
  hot : Nat
  totalEnergy : Nat
  suspectEnergy : Nat
  lifetime : Nat
  lastCycle : Nat
  deriving DecidableEq, Repr

structure MouldHeader where
  mouldId : Word
  count : Nat
  profile : Fin 4
  zoneId : Half
  observed : Nat
  lastClosed : Half
  deriving DecidableEq, Repr

/-- The mounted mould: its header and the records of cavities 1 to the count, in that order. -/
structure Mould where
  header : MouldHeader
  cavities : List CavityRecord
  deriving DecidableEq, Repr

structure CavityTally where
  count : Nat
  energy : Nat
  deriving DecidableEq, Repr

structure CycleEntry where
  cycle : Half
  start : Time
  /-- tally i is that of cavity i + 1 -/
  tallies : Vector CavityTally 48
  deriving DecidableEq, Repr

structure EvidenceUnit where
  state : EvidenceState
  mould : Option Mould
  cycles : List CycleEntry
  newest : Option Half
  pulse : Option Time
  deriving DecidableEq, Repr

/-! ### Task Unit (R126) -/

inductive SlotState where
  | unchecked | valid | empty | damaged | mounted | loading | saving | clearing
  deriving DecidableEq, Repr

structure DirEntry where
  state : SlotState
  mouldId : Word
  lock : Bool
  deriving DecidableEq, Repr

inductive SweepState where
  | none | running | yielded | suspended
  deriving DecidableEq, Repr

inductive StopRequest where
  | none | yield | suspend
  deriving DecidableEq, Repr

structure SlotCheck where
  slot : Fin 12
  void : Bool
  deriving DecidableEq, Repr

structure Sweep where
  state : SweepState
  next : Nat
  stop : StopRequest
  check : Option SlotCheck
  deriving DecidableEq, Repr

inductive LoadKind where
  | profile (p : Fin 4)
  | zones
  deriving DecidableEq, Repr

structure MountParams where
  slot : Fin 12
  mouldId : Word
  count : Nat
  profile : Fin 4
  zoneId : Half
  deriving DecidableEq, Repr

/-- A task's kind and parameters. -/
inductive Task where
  | load (kind : LoadKind) (source : Addr)
  | mount (p : MountParams)
  | checkpoint
  | release
  | clearSlot (slot : Fin 12)
  | sweep
  deriving DecidableEq, Repr

/-- Whether the running task is reading (a table, or a slot for judgement) or writing a slot image. -/
inductive TaskPhase where
  | reading | writing
  deriving DecidableEq, Repr

structure RunningTask where
  task : Task
  phase : TaskPhase
  deriving DecidableEq, Repr

/-- The slot image being written: `next` is the number of the record TU asks for next, 16 when all are accepted. -/
structure ImageWriter where
  slot : Fin 12
  image : List Word
  next : Nat
  deriving DecidableEq, Repr

structure TaskUnit where
  running : Option RunningTask
  pendingTask : Option Task
  sweep : Sweep
  directory : Vector DirEntry 12
  masterLock : Bool
  snapshot : Option Mould
  profiles : Vector Profile 4
  staging : List Word
  /-- the words of the slot under judgement that have returned (log 30) -/
  slotWords : List Word
  /-- the check register they are fed through (R133) -/
  slotCrc : Half
  writer : Option ImageWriter
  deriving DecidableEq, Repr

/-! ### Report Unit (R154 to R163) -/

inductive AlarmMode where
  | off | level | pulseCrack | pulseSuspect
  deriving DecidableEq, Repr

structure Counter where
  value : Word
  select : BitVec 4
  mask : BitVec 12
  deriving DecidableEq, Repr

structure DirtyMarks where
  status : Bool
  counter : Bool
  directory : Bool
  verdicts : Vector Bool 48
  traces : Vector Bool 2
  deriving DecidableEq, Repr

structure ReportUnit where
  seqErr : Bool
  paramAdj : Bool
  protect : Bool
  taskFail : Bool
  firstDrop : Option Addr
  causes : Byte
  enables : Byte
  masterEnable : Bool
  lastCode : Byte
  lastOutcome : Byte
  lastTask : BitVec 3
  lastResult : BitVec 4
  counters : Vector Counter 4
  traceInterval : Half
  countdown : Half
  logMask : Byte
  logHead : Byte
  alarmMode : AlarmMode
  dirty : DirtyMarks
  verdictWords : Vector Word 48
  traceWords : Vector Word 32
  traceAwait : Bool
  deriving DecidableEq, Repr

/-! ### The whole part -/

/-- The input pins that a step samples. -/
structure Pins where
  cwsel : BitVec 4
  service : Bool
  deriving DecidableEq, Repr

/-- Bits the spec does not state (log 8): what the newest-cycle field and the first dropped-write address field show
while their item is none, and what a read passes upstream on lanes whose byte enable is clear. Nothing constrains
them. -/
structure FreeBits where
  cycle : Half
  drop : Addr
  lanes : Word
  deriving DecidableEq, Repr

/-- Where the free bits come from: the values a run has been given, in order, and then the opaque constants of
`Config` at the number of values shown so far. -/
structure FreeSource where
  given : List FreeBits
  shown : Nat
  deriving DecidableEq, Repr

structure State where
  pins : Pins
  /-- RESETn is asserted -/
  inReset : Bool
  localTime : Time
  mem : Memory
  /-- the word last passed upstream -/
  readData : Word
  cd : CommandDecoder
  pu : PathUnit
  sf : StreamFramer
  hx : HitExtractor
  el : EventLocator
  eu : EvidenceUnit
  tu : TaskUnit
  ru : ReportUnit
  /-- the model's own: the free bits to be shown (log 8) -/
  free : FreeSource
  /-- the model's own: the commands that wait, first in, first out -/
  pending : List Instr
  deriving DecidableEq, Repr

/-- The part never stops with a fault: a bad access is dropped (R8), a bad frame has an outcome (R29), a task that
cannot end as intended has a result (R135). So there is no fault. -/
inductive Fault where
  deriving DecidableEq, Repr

/-- Why the model gives a command no meaning. -/
inductive Refusal where
  /-- Raised by a refused arm of `exec` for a row not yet modelled; safe. No arm raises it now. -/
  | notModelled (mnemonic : String)
  deriving DecidableEq, Repr

/-! ### The reset state -/

/-- R34. -/
def CommandDecoder.reset : CommandDecoder where
  state := .ready
  opening := 0
  latch := Vector.replicate 14 0
  written := Vector.replicate 14 false
  tally := 0

/-- R18, with the strap value given. -/
def PathUnit.reset (strap : BitVec 4) : PathUnit where
  strap := strap
  layoutDefined := false
  resultsBase := 0
  archiveBase := 0
  queue := []
  access := none
  taskRead := none

/-- R55: a ring record after reset. -/
def Ring.reset : Ring where
  defined := false
  channel := 0
  base := 0
  blocks := 0
  state := .off
  continuity := none
  forced := false
  staleRef := none
  stale := false

/-- R55. -/
def StreamFramer.reset : StreamFramer where
  rings := Vector.replicate 8 Ring.reset
  framing := { sync := 0xB4E1, poly := .polyA, preset := .ones, blockTimeout := 2000, staleTime := 20 }
  queue := []

/-- R74: a channel after reset. -/
def Channel.reset : Channel where
  state := .idle
  params := none
  lastFinished := none
  lastEnd := none
  coveredTo := none
  joined := false

/-- R74. -/
def HitExtractor.reset : HitExtractor where
  channels := Vector.replicate 8 Channel.reset
  block := none

/-- R75, R91. -/
def EventLocator.reset : EventLocator where
  pool := []
  floor := none
  horizon := none
  zones := { id := 0, bands := [] }
  serial := 0

/-- R112. -/
def EvidenceUnit.reset : EvidenceUnit where
  state := .empty
  mould := none
  cycles := []
  newest := none
  pulse := none

/-- R126: the sweep after reset. -/
def Sweep.reset : Sweep where
  state := .none
  next := 0
  stop := .none
  check := none

/-- R126, R113. -/
def TaskUnit.reset : TaskUnit where
  running := none
  pendingTask := none
  sweep := Sweep.reset
  directory := Vector.replicate 12 { state := .unchecked, mouldId := 0, lock := false }
  masterLock := false
  snapshot := none
  profiles := Vector.replicate 4 Profile.default
  staging := []
  slotWords := []
  slotCrc := 0xFFFF
  writer := none

/-- Every dirty mark clear. -/
def DirtyMarks.clear : DirtyMarks where
  status := false
  counter := false
  directory := false
  verdicts := Vector.replicate 48 false
  traces := Vector.replicate 2 false

/-- R163. -/
def ReportUnit.reset : ReportUnit where
  seqErr := false
  paramAdj := false
  protect := false
  taskFail := false
  firstDrop := none
  causes := 0
  enables := 0
  masterEnable := false
  lastCode := 0
  lastOutcome := 0
  lastTask := 0
  lastResult := 0
  counters := Vector.replicate 4 { value := 0, select := 0, mask := 0 }
  traceInterval := 0
  countdown := 0
  logMask := 0x80
  logHead := 0
  alarmMode := .level
  dirty := DirtyMarks.clear
  verdictWords := Vector.replicate 48 0
  traceWords := Vector.replicate 32 0
  traceAwait := false

/-- The part right after RESETn has been released with the straps tied low (log 5), the SERVICE key not turned
(log 4), memory with nothing listed and no command waiting. -/
def State.reset : State where
  pins := { cwsel := 0, service := false }
  inReset := false
  localTime := 0
  mem := []
  readData := 0
  cd := CommandDecoder.reset
  pu := PathUnit.reset 0
  sf := StreamFramer.reset
  hx := HitExtractor.reset
  el := EventLocator.reset
  eu := EvidenceUnit.reset
  tu := TaskUnit.reset
  ru := ReportUnit.reset
  free := { given := [], shown := 0 }
  pending := []

end Sys2Proof.Machine
end

