-- ==== Sys2Proof/Machine/Ops.lean ====
section
/-! DEFINITION. The operations shared by the blocks: updates of one block, modular time, memory, record bit fields, windows
and protection, the post queue, and the reset of the blocks. -/

namespace Sys2Proof.Machine

/-! ### Updating one block -/

def State.withMem (s : State) (m : Memory) : State := { s with mem := m }
def State.withCd (s : State) (x : CommandDecoder) : State := { s with cd := x }
def State.withPu (s : State) (x : PathUnit) : State := { s with pu := x }
def State.withSf (s : State) (x : StreamFramer) : State := { s with sf := x }
def State.withHx (s : State) (x : HitExtractor) : State := { s with hx := x }
def State.withEl (s : State) (x : EventLocator) : State := { s with el := x }
def State.withEu (s : State) (x : EvidenceUnit) : State := { s with eu := x }
def State.withTu (s : State) (x : TaskUnit) : State := { s with tu := x }
def State.withRu (s : State) (x : ReportUnit) : State := { s with ru := x }
def State.withPins (s : State) (x : Pins) : State := { s with pins := x }
def State.withReadData (s : State) (x : Word) : State := { s with readData := x }
def State.withPending (s : State) (x : List Instr) : State := { s with pending := x }

/-! ### Time (section 1.6 of spec/00_scope.md) -/

/-- "Time a is at or after time b": (a - b) mod 2^32, read as a signed value, is zero or greater. -/
def atOrAfter (a b : Time) : Bool := !(a - b).msb

/-- "a is after b": at or after, and not the same. -/
def isAfter (a b : Time) : Bool := atOrAfter a b && a != b

/-- "a is before b" is the opposite of "at or after". -/
def isBefore (a b : Time) : Bool := !atOrAfter a b

/-- Time t is earlier than time u, measured from the reference r (R75). -/
def earlier (r t u : Time) : Bool := (t - r).slt (u - r)

/-! ### Bit fields -/

/-- The value of bits lo + width - 1 to lo of a word. -/
def bits (w : Word) (lo width : Nat) : Nat := w.toNat / 2 ^ lo % 2 ^ width

/-- Bit n of a word. -/
def bit (w : Word) (n : Nat) : Bool := w.getLsbD n

/-- A word with the low `width` bits of v at bit `lo` and zeros elsewhere. -/
def field (lo width v : Nat) : Word := BitVec.ofNat 32 (v % 2 ^ width * 2 ^ lo)

/-- A word with one bit at place n. -/
def flag (n : Nat) (b : Bool) : Word := field n 1 b.toNat

/-- The upper half of a word. -/
def upperHalf (w : Word) : Half := BitVec.ofNat 16 (bits w 16 16)

/-- The lower half of a word. -/
def lowerHalf (w : Word) : Half := BitVec.ofNat 16 (bits w 0 16)

/-- A value brought into the range lo to hi. -/
def clampTo (lo hi v : Nat) : Nat := if v < lo then lo else if hi < v then hi else v

/-- A sum that stops at the largest value. -/
def satAdd (largest a b : Nat) : Nat := if a + b ≤ largest then a + b else largest

/-- Largest 48-bit, 32-bit and 8-bit values. -/
def max48 : Nat := 281474976710655
def max32 : Nat := 4294967295
def max8 : Nat := 255

/-! ### Memory

A byte is addressed by its byte address; lane i of word w is byte 4w + i (log 7). -/

/-- The byte at an address; an address not listed reads as `Config.unlistedByte`. -/
def Memory.readByte : Memory → Nat → Byte
  | [], _ => Config.unlistedByte
  | (k, v) :: rest, a => if k = a then v else Memory.readByte rest a

/-- Put a byte in front of a memory whose listed addresses are all above its address, keeping the canonical form. -/
def Memory.consByte (a : Nat) (b : Byte) (m : Memory) : Memory :=
  if b = Config.unlistedByte then m else (a, b) :: m

/-- Write one byte. -/
def Memory.writeByte : Memory → Nat → Byte → Memory
  | [], a, b => Memory.consByte a b []
  | (k, v) :: rest, a, b =>
    if a < k then Memory.consByte a b ((k, v) :: rest)
    else if a = k then Memory.consByte a b rest
    else (k, v) :: Memory.writeByte rest a b

/-- The canonical form above an address: listed addresses rise strictly from `lo` on, and no listed byte is the
unlisted one. -/
def Memory.wfFrom : Nat → Memory → Bool
  | _, [] => true
  | lo, (k, v) :: rest => decide (lo ≤ k) && v != Config.unlistedByte && Memory.wfFrom (k + 1) rest

/-- The canonical form of a memory. -/
def Memory.wf (m : Memory) : Bool := Memory.wfFrom 0 m

/-- Lane i of a word. -/
def lane (d : Word) (i : Nat) : Byte := BitVec.ofNat 8 (bits d (8 * i) 8)

/-- Write lane i of word w when its byte enable is set. -/
def Memory.writeLane (w : WordAddr) (be : Enables) (d : Word) (m : Memory) (i : Nat) : Memory :=
  if be.getLsbD i then m.writeByte (4 * w.toNat + i) (lane d i) else m

/-- A write performed at memory with its data and byte enables (R1). -/
def Memory.writeWord (m : Memory) (w : WordAddr) (be : Enables) (d : Word) : Memory :=
  [0, 1, 2, 3].foldl (Memory.writeLane w be d) m

/-- The word at a word address. -/
def Memory.readWord (m : Memory) (w : WordAddr) : Word :=
  let a := 4 * w.toNat
  field 0 8 (m.readByte a).toNat ||| field 8 8 (m.readByte (a + 1)).toNat |||
    field 16 8 (m.readByte (a + 2)).toNat ||| field 24 8 (m.readByte (a + 3)).toNat

/-- All four byte enables. -/
def fullEnables : Enables := 15

/-- The word of lanes of `be`, taken from `d` on enabled lanes and from `other` on the rest. -/
def mergeLanes (be : Enables) (d other : Word) : Word :=
  let pick (i : Nat) : Word := field (8 * i) 8 (lane (if be.getLsbD i then d else other) i).toNat
  pick 0 ||| pick 1 ||| pick 2 ||| pick 3

/-! ### Free bits (log 8) -/

/-- The next free bits. -/
def State.freeBits (s : State) : FreeBits :=
  s.free.given.headD
    { cycle := Config.unstatedCycle s.free.shown, drop := Config.unstatedDrop s.free.shown,
      lanes := Config.unstatedLanes s.free.shown }

/-- The state after they have been shown. -/
def State.takeFree (s : State) : State :=
  { s with free := { given := s.free.given.tail, shown := s.free.shown + 1 } }

/-! ### Numbered things -/

def allChannels : List (Fin 8) := [0, 1, 2, 3, 4, 5, 6, 7]

def allSlots : List (Fin 12) := [0, 1, 2, 3, 4, 5, 6, 7, 8, 9, 10, 11]

def allCavities : List (Fin 48) :=
  [0, 1, 2, 3, 4, 5, 6, 7, 8, 9, 10, 11, 12, 13, 14, 15, 16, 17, 18, 19, 20, 21, 22, 23] ++
  [24, 25, 26, 27, 28, 29, 30, 31, 32, 33, 34, 35, 36, 37, 38, 39, 40, 41, 42, 43, 44, 45, 46, 47]

/-! ### Windows (sections 1.2 to 1.4 of chapter 1) -/

/-- A window of memory as its first byte address and its size in bytes. -/
structure Window where
  first : Nat
  size : Nat
  deriving DecidableEq, Repr

/-- A byte address lies in the window. -/
def Window.holds (v : Window) (a : Nat) : Bool := decide (v.first ≤ a) && decide (a < v.first + v.size)

/-- Two windows overlap when some byte address lies in both. -/
def Window.overlaps (v u : Window) : Bool :=
  decide (max v.first u.first < min (v.first + v.size) (u.first + u.size))

/-- The command window: the last 64 bytes of the megabyte the straps select, from n × 100000H + 0FFFC0H on (R4). -/
def commandWindow (strap : BitVec 4) : Window :=
  { first := (strap ++ (0xFFFC0 : BitVec 20)).toNat, size := 64 }

/-- The results area (R5). -/
def resultsWindow (resultsBase : Nat) : Window := { first := resultsBase, size := 0x1400 }

/-- The archive: twelve slots of 256 words (R5). -/
def archiveWindow (archiveBase : Nat) : Window := { first := archiveBase, size := 0x3000 }

/-- Slot s of the archive (R5, R131). -/
def slotWindow (archiveBase : Nat) (slot : Fin 12) : Window :=
  { first := archiveBase + 0x400 * slot.val, size := 0x400 }

/-- A defined ring's window (R38). -/
def ringWindow (r : Ring) : Window := { first := r.base.toNat, size := 272 * r.blocks }

/-- The byte address of a word address. -/
def byteAddr (w : WordAddr) : Nat := 4 * w.toNat

/-- The word address of word n of the command window. -/
def commandWordAddr (strap : BitVec 4) (n : Nat) : WordAddr :=
  BitVec.ofNat 22 ((commandWindow strap).first / 4 + n)

/-- The window an address lies in (R3). -/
inductive Place where
  | command (index : Nat)
  /-- word offset within the ring -/
  | ring (r : Fin 8) (offset : Nat)
  /-- word number within the results area -/
  | results (word : Nat)
  | slot (s : Fin 12) (word : Nat)
  | other
  deriving DecidableEq, Repr

/-- Whether a defined ring's window holds the address. -/
def ringHolds (sf : StreamFramer) (a : Nat) (r : Fin 8) : Bool :=
  sf.rings[r].defined && (ringWindow sf.rings[r]).holds a

/-- PU's window decode (R3). An address lies in at most one window, so the order of the tests makes no difference
to a layout and rings that passed their checks. -/
def placeOf (pu : PathUnit) (sf : StreamFramer) (w : WordAddr) : Place :=
  let a := byteAddr w
  if (commandWindow pu.strap).holds a then .command ((a - (commandWindow pu.strap).first) / 4)
  else if pu.layoutDefined && (resultsWindow pu.resultsBase.toNat).holds a then
    .results ((a - pu.resultsBase.toNat) / 4)
  else if pu.layoutDefined && (archiveWindow pu.archiveBase.toNat).holds a then
    .slot (Fin.ofNat 12 ((a - pu.archiveBase.toNat) / 0x400)) ((a - pu.archiveBase.toNat) % 0x400 / 4)
  else
    match allChannels.find? (ringHolds sf a) with
    | some r => .ring r ((a - sf.rings[r].base.toNat) / 4)
    | none => .other

/-- Sub-kinds of a dropped write (R8). -/
inductive DropKind where
  | results | busySlot | lockedSlot
  deriving DecidableEq, Repr

/-- The slot states that protect a slot (R7). -/
def SlotState.busy : SlotState → Bool
  | .mounted | .loading | .saving | .clearing => true
  | .unchecked | .valid | .empty | .damaged => false

/-- How a directory entry protects its slot. -/
def DirEntry.protection (e : DirEntry) : Option DropKind :=
  if e.state.busy then some .busySlot else if e.lock then some .lockedSlot else none

/-- Membership of the protected window set, by the window an address lies in (R7, R8). -/
def protection (tu : TaskUnit) : Place → Option DropKind
  | .results _ => some .results
  | .slot n _ => tu.directory[n].protection
  | .command _ | .ring _ _ | .other => none

/-! ### The post queue (R10 to R12) -/

/-- Words in the queue. -/
def queueLength (q : List QueuedRecord) : Nat := (q.map fun r => r.words.length).sum

/-- A record's position as a word of the results area, or of the archive for a slot record (R153, R134). -/
def recordOffset : RecordId → Nat
  | .status => 0
  | .counter => 12
  | .directory => 20
  | .verdict c => 64 + c.val
  | .trace h => 128 + 16 * h.val
  | .log e => 256 + 4 * e.toNat
  | .slot s r => 256 * s.val + 16 * r

/-- The base that a record's offset counts from. -/
def recordBase (pu : PathUnit) : RecordId → Addr
  | .slot _ _ => pu.archiveBase
  | .status | .counter | .directory | .verdict _ | .trace _ | .log _ => pu.resultsBase

/-- The word address of a record's first word. -/
def recordAddr (pu : PathUnit) (id : RecordId) : WordAddr :=
  BitVec.ofNat 22 ((recordBase pu id).toNat / 4 + recordOffset id)

/-- R10: PU accepts a record of n words when the layout is defined and the queue holds at most 32 - n words. -/
def accepts (pu : PathUnit) (n : Nat) : Bool :=
  pu.layoutDefined && decide (queueLength pu.queue + n ≤ Config.postCapacity)

/-- Ask PU to enqueue a record; none is PU's refusal, which places none of its words (R10). -/
def enqueue (id : RecordId) (ws : List Word) (s : State) : Option State :=
  if accepts s.pu ws.length then
    some (s.withPu { s.pu with
      queue := s.pu.queue ++ [{ id := id, addr := recordAddr s.pu id, words := ws, begun := false }] })
  else none

/-- The copy state of a replaceable record (R154), read from the queue it follows (log 11). -/
inductive CopyState where
  | none | queued | begun
  deriving DecidableEq, Repr

/-- The record r is an unbegun copy of the record `id`. -/
def QueuedRecord.isCopy (id : RecordId) (r : QueuedRecord) : Bool := decide (r.id = id) && !r.begun

def copyState (q : List QueuedRecord) (id : RecordId) : CopyState :=
  if q.any (QueuedRecord.isCopy id) then .queued
  else if q.any fun r => decide (r.id = id) then .begun
  else .none

/-- R11: the copy keeps its place and its size, and takes the new data, word for word. -/
def QueuedRecord.replaceWords (id : RecordId) (ws : List Word) (r : QueuedRecord) : QueuedRecord :=
  if r.isCopy id then { r with words := (ws ++ r.words.drop ws.length).take r.words.length } else r

def replaceQueued (id : RecordId) (ws : List Word) (s : State) : State :=
  s.withPu { s.pu with queue := s.pu.queue.map (QueuedRecord.replaceWords id ws) }

/-- The record r still holds a write to word address w. -/
def QueuedRecord.writes (w : WordAddr) (r : QueuedRecord) : Bool :=
  decide (r.addr.toNat ≤ w.toNat) && decide (w.toNat < r.addr.toNat + r.words.length)

/-- The post queue holds a write to word address w (R14, R16). -/
def queuedWriteTo (q : List QueuedRecord) (w : WordAddr) : Bool := q.any (QueuedRecord.writes w)

/-- The record a word of the results area belongs to (R16). -/
def recordOfResultsWord (n : Nat) : Option RecordId :=
  if n < 12 then some .status
  else if n < 20 then some .counter
  else if n < 32 then some .directory
  else if 64 ≤ n ∧ n < 112 then some (.verdict (Fin.ofNat 48 (n - 64)))
  else if 128 ≤ n ∧ n < 144 then some (.trace 0)
  else if 144 ≤ n ∧ n < 160 then some (.trace 1)
  else if 256 ≤ n ∧ n < 1280 then some (.log (BitVec.ofNat 8 ((n - 256) / 4)))
  else none

/-! ### Presenting a task read (R14) -/

def presentTaskRead (w : WordAddr) (s : State) : State :=
  s.withPu { s.pu with taskRead := some { addr := w, presentedAt := s.localTime, promoted := false } }

/-- The word address of word w of slot s (R131). -/
def slotWordAddr (pu : PathUnit) (slot : Fin 12) (w : Nat) : WordAddr :=
  BitVec.ofNat 22 (pu.archiveBase.toNat / 4 + 256 * slot.val + w)

/-! ### CRC (R37) -/

def CrcPoly.value : CrcPoly → Half
  | .polyA => 0x8005
  | .polyB => 0x1021

def CrcPreset.value : CrcPreset → Half
  | .zeros => 0
  | .ones => 0xFFFF

/-- One data bit through the register. -/
def crcBit (poly : CrcPoly) (reg : Half) (d : Bool) : Half :=
  if Bool.xor reg.msb d then (reg <<< 1) ^^^ poly.value else reg <<< 1

/-- One byte, most significant bit first. -/
def crcByte (poly : CrcPoly) (reg : Half) (b : Byte) : Half :=
  [7, 6, 5, 4, 3, 2, 1, 0].foldl (fun g n => crcBit poly g (b.getLsbD n)) reg

/-- One word, least significant byte first. -/
def crcWord (poly : CrcPoly) (reg : Half) (w : Word) : Half :=
  [0, 1, 2, 3].foldl (fun g i => crcByte poly g (lane w i)) reg

def crcWords (poly : CrcPoly) (reg : Half) (ws : List Word) : Half := ws.foldl (crcWord poly) reg

/-! ### Reset of the blocks (R18, R33, R34, R55, R74, R91, R112, R126, R163) -/

/-- Every block in its reset state, with what a reset does not touch kept: the memory array, the pins, the word last
passed upstream and the waiting commands. -/
def resetBlocks (s : State) : State :=
  { State.reset with
    pins := s.pins, mem := s.mem, readData := s.readData, free := s.free, pending := s.pending }

/-- A directory after RESET PART: every state UNCHECKED, every ID 0, locks kept (R126). -/
def DirEntry.uncheck (e : DirEntry) : DirEntry := { e with state := .unchecked, mouldId := 0 }

end Sys2Proof.Machine
end

