-- ==== Sys2Proof/Machine/Operands.lean ====
section
/-! DEFINITION. Operands: the parameter latches, the frame checks and the command code table of chapter 2, the outcomes, and
the fields of a sample block's words. -/

namespace Sys2Proof.Machine

/-! ### The command code table (R32) -/

/-- The commands CD knows. -/
inductive Command where
  | defineLayout | resetPart | defineRing | ringOn | ringOff | resetRing | setFraming | load
  | lockSlot | clearLocks | setMasterLock | clearSlot | sweep | suspendSweep | resumeSweep
  | mount | checkpoint | release | clearCavity | clearMould
  | setReporting | setCounter | clearStatus | acknowledge
  deriving DecidableEq, Repr

def Command.code : Command → Byte
  | .defineLayout => 0x10
  | .resetPart => 0x1F
  | .defineRing => 0x20
  | .ringOn => 0x21
  | .ringOff => 0x22
  | .resetRing => 0x23
  | .setFraming => 0x24
  | .load => 0x30
  | .lockSlot => 0x40
  | .clearLocks => 0x41
  | .setMasterLock => 0x42
  | .clearSlot => 0x43
  | .sweep => 0x44
  | .suspendSweep => 0x45
  | .resumeSweep => 0x46
  | .mount => 0x50
  | .checkpoint => 0x51
  | .release => 0x52
  | .clearCavity => 0x53
  | .clearMould => 0x54
  | .setReporting => 0x60
  | .setCounter => 0x61
  | .clearStatus => 0x62
  | .acknowledge => 0x63

/-- The parameter count that check 3 requires. -/
def Command.count : Command → Nat
  | .defineLayout => 2
  | .resetPart => 0
  | .defineRing => 4
  | .ringOn | .ringOff | .resetRing => 1
  | .setFraming => 5
  | .load => 2
  | .lockSlot => 1
  | .clearLocks | .setMasterLock => 0
  | .clearSlot => 1
  | .sweep | .suspendSweep | .resumeSweep => 0
  | .mount => 5
  | .checkpoint | .release => 0
  | .clearCavity => 1
  | .clearMould => 0
  | .setReporting => 4
  | .setCounter => 3
  | .clearStatus => 0
  | .acknowledge => 1

def allCommands : List Command :=
  [.defineLayout, .resetPart, .defineRing, .ringOn, .ringOff, .resetRing, .setFraming, .load, .lockSlot, .clearLocks,
   .setMasterLock, .clearSlot, .sweep, .suspendSweep, .resumeSweep, .mount, .checkpoint, .release, .clearCavity,
   .clearMould, .setReporting, .setCounter, .clearStatus, .acknowledge]

/-- The command of a code, none for a code that is not in the table. -/
def Command.ofCode (c : Byte) : Option Command := allCommands.find? fun k => k.code == c

/-- Taken although SEQ_ERR is set (R26 check 4, R30). -/
def Command.exempt : Command → Bool
  | .clearStatus | .acknowledge | .resetPart => true
  | .defineLayout | .defineRing | .ringOn | .ringOff | .resetRing | .setFraming | .load | .lockSlot | .clearLocks
  | .setMasterLock | .clearSlot | .sweep | .suspendSweep | .resumeSweep | .mount | .checkpoint | .release
  | .clearCavity | .clearMould | .setReporting | .setCounter => false

/-- Needs the layout (R31). -/
def Command.needsLayout : Command → Bool
  | .load | .lockSlot | .clearLocks | .setMasterLock | .clearSlot | .sweep | .suspendSweep | .resumeSweep
  | .mount | .checkpoint | .release | .clearCavity | .clearMould => true
  | .defineLayout | .resetPart | .defineRing | .ringOn | .ringOff | .resetRing | .setFraming
  | .setReporting | .setCounter | .clearStatus | .acknowledge => false

/-! ### Outcomes (R29) -/

inductive FrameOutcome where
  | noFrame | invalidSequence | refusedCode | refusedHeld | refusedNotSetUp | refusedParam
  | done | started | refusedBusy | refusedState | refusedLocked
  deriving DecidableEq, Repr

def FrameOutcome.code : FrameOutcome → Byte
  | .noFrame => 0x08
  | .invalidSequence => 0x10
  | .refusedCode => 0x11
  | .refusedHeld => 0x13
  | .refusedNotSetUp => 0x14
  | .refusedParam => 0x12
  | .done => 0x00
  | .started => 0x01
  | .refusedBusy => 0x15
  | .refusedState => 0x16
  | .refusedLocked => 0x17

/-! ### The opening word and the frame checks (R19, R26) -/

/-- Bits 31 to 24 of an opening word. -/
def codeOf (opening : Word) : Byte := BitVec.ofNat 8 (bits opening 24 8)

/-- Bits 23 to 20 of an opening word. -/
def countOf (opening : Word) : Nat := bits opening 20 4

/-- The closing word is the bitwise complement of the opening word (R19). -/
def closingOf (opening : Word) : Word := ~~~opening

/-- Every word from 1 to n is marked written. -/
def writtenUpTo (written : Vector Bool 14) (n : Nat) : Bool := (written.toList.take n).all id

/-- Check 1 of R26 on a closing word. -/
def checkOne (cd : CommandDecoder) (closing : Word) : Bool :=
  closing == closingOf cd.opening && bits cd.opening 0 20 == 0 && decide (countOf cd.opening ≤ 14) &&
    writtenUpTo cd.written (countOf cd.opening)

/-- The latched parameter word n, 1 to 14. -/
def parameter (cd : CommandDecoder) (n : Fin 14) : Word := cd.latch[n]

/-- Parameters 1 to 5 of the latched frame. -/
def param1 (s : State) : Word := parameter s.cd 0
def param2 (s : State) : Word := parameter s.cd 1
def param3 (s : State) : Word := parameter s.cd 2
def param4 (s : State) : Word := parameter s.cd 3
def param5 (s : State) : Word := parameter s.cd 4

/-- CD is collecting a frame of this command that passes checks 1 and 2 when it is closed by its complement. -/
def framesCommand (c : Command) (s : State) : Bool :=
  s.cd.state == .collecting && checkOne s.cd (closingOf s.cd.opening) && codeOf s.cd.opening == c.code

/-! ### The words of a sample block (R35, R36) -/

/-- The channel field, bits 2 to 0 of word 0. -/
def blockChannel (w : Word) : Nat := bits w 0 3

/-- The phase code, bits 6 to 4 of word 0. -/
def blockPhase (w : Word) : BitVec 3 := BitVec.ofNat 3 (bits w 4 3)

/-- The two samples of a sample word, the earlier one in the lower half. -/
def samplesOf (w : Word) : List Half := [lowerHalf w, upperHalf w]

/-- The 128 samples of a buffer holding words 0 to 66. -/
def blockSamples (ws : List Word) : List Half := (ws.drop 3).flatMap samplesOf

end Sys2Proof.Machine
end

