-- ==== Sys2Proof/Machine/Flags.lean ====
section
/-! DEFINITION. Status flags, attention causes, the two output lines and the event counters (sections 10.5 to 10.7, 6.8). -/

namespace Sys2Proof.Machine

/-! ### Occurrences (R158) -/

inductive RefuseReason where
  | crc | badHeader | partialWrite | order | timeout | queueFull
  deriving DecidableEq, Repr

inductive HitDisposal where
  | accepted | short | truncated | broken | late
  deriving DecidableEq, Repr

inductive EventOutcome where
  | held | unlocated | excluded | outside | impact | gated | late | crack
  deriving DecidableEq, Repr

inductive HoldKind where
  | postFull | recordRead | taskWait
  deriving DecidableEq, Repr

/-- Outcome codes of events (R153). -/
def EventOutcome.code : EventOutcome → Nat
  | .held => 0
  | .unlocated => 1
  | .excluded => 2
  | .outside => 3
  | .impact => 4
  | .gated => 5
  | .late => 6
  | .crack => 7

/-- An occurrence: an event with one sub-kind. -/
inductive Occurrence where
  | blockAccepted (ring : Fin 8)
  | blockRefused (why : RefuseReason)
  | discontinuitySequence
  | discontinuityTimestamp
  | hit (what : HitDisposal)
  | event (outcome : EventOutcome)
  | eventForced
  | writeDropped (kind : DropKind)
  | hold (kind : HoldKind)
  | logWritten
  | logDropped
  | cycleClosed
  | cycleForced
  | cycleDiscarded
  | cycleGap
  deriving DecidableEq, Repr

/-- The event code of an occurrence (R158). -/
def Occurrence.eventCode : Occurrence → BitVec 4
  | .blockAccepted _ => 1
  | .blockRefused _ => 2
  | .discontinuitySequence | .discontinuityTimestamp => 3
  | .hit _ => 4
  | .event _ | .eventForced => 5
  | .writeDropped _ => 6
  | .hold _ => 7
  | .logWritten | .logDropped => 8
  | .cycleClosed | .cycleForced | .cycleDiscarded | .cycleGap => 9

/-- The unit mask bit of an occurrence's sub-kind (R158). -/
def Occurrence.subBit : Occurrence → Nat
  | .blockAccepted r => r.val
  | .blockRefused .crc => 0
  | .blockRefused .badHeader => 1
  | .blockRefused .partialWrite => 2
  | .blockRefused .order => 3
  | .blockRefused .timeout => 4
  | .blockRefused .queueFull => 5
  | .discontinuitySequence => 0
  | .discontinuityTimestamp => 1
  | .hit .accepted => 0
  | .hit .short => 1
  | .hit .truncated => 2
  | .hit .broken => 3
  | .hit .late => 4
  | .event o => o.code
  | .eventForced => 8
  | .writeDropped .results => 0
  | .writeDropped .busySlot => 1
  | .writeDropped .lockedSlot => 2
  | .hold .postFull => 0
  | .hold .recordRead => 1
  | .hold .taskWait => 2
  | .logWritten => 0
  | .logDropped => 1
  | .cycleClosed => 0
  | .cycleForced => 1
  | .cycleDiscarded => 2
  | .cycleGap => 3

/-- One counter under one occurrence: it adds 1, wrapping, when its select is the event and its mask has the bit. -/
def Counter.occur (o : Occurrence) (c : Counter) : Counter :=
  if c.select = o.eventCode ∧ c.mask.getLsbD o.subBit = true then { c with value := c.value + 1 } else c

/-- An occurrence is counted (R158). -/
def countOccurrence (o : Occurrence) (s : State) : State :=
  s.withRu { s.ru with counters := s.ru.counters.map (Counter.occur o) }

/-! ### Causes and ATTN (R153, R160) -/

inductive Cause where
  | crack | suspect | archive | protect | stream | task | trace | cycle
  deriving DecidableEq, Repr

/-- The cause bit, in order of priority. -/
def Cause.bitNo : Cause → Nat
  | .crack => 0
  | .suspect => 1
  | .archive => 2
  | .protect => 3
  | .stream => 4
  | .task => 5
  | .trace => 6
  | .cycle => 7

/-- A cause becomes, or stays, pending. -/
def raiseCause (c : Cause) (s : State) : State :=
  s.withRu { s.ru with causes := s.ru.causes ||| (1#8 <<< c.bitNo) }

/-- The number of the lowest bit set among the bits listed, plus 1, or 0. -/
def firstSet (b : Byte) : List Nat → Nat
  | [] => 0
  | n :: ns => if b.getLsbD n then n + 1 else firstSet b ns

/-- The top cause field: the bit number plus 1 of the cause of highest priority that is pending and enabled, or 0. -/
def topCause (ru : ReportUnit) : Nat := firstSet (ru.causes &&& ru.enables) [0, 1, 2, 3, 4, 5, 6, 7]

/-- ATTN is asserted exactly when the master enable is set and a pending cause is enabled (R160). -/
def attn (s : State) : Bool := s.ru.masterEnable && s.ru.causes &&& s.ru.enables != 0

/-! ### ALARM (R108, R109) -/

/-- EU is RUNNING or HELD: a mould is mounted. -/
def EvidenceState.live : EvidenceState → Bool
  | .running | .held => true
  | .empty | .changing => false

/-- Some cavity of the mould is CRACKED. -/
def Mould.anyCracked (m : Mould) : Bool := m.cavities.any fun c => c.verdict == .cracked

/-- The ALARM line. -/
def alarm (s : State) : Bool :=
  match s.ru.alarmMode with
  | .off => false
  | .level => s.eu.state.live && (s.eu.mould.map Mould.anyCracked).getD false
  | .pulseCrack | .pulseSuspect => s.eu.pulse.isSome

/-! ### Sticky flags (R159) -/

def setSeqErr (s : State) : State := s.withRu { s.ru with seqErr := true }

def setParamAdj (s : State) : State := s.withRu { s.ru with paramAdj := true }

def setTaskFail (s : State) : State := s.withRu { s.ru with taskFail := true }

/-- The reports of a dropped write at byte address a (R8): WRITES DROPPED, PROTECT flag and cause, and the first address. -/
def noteDrop (kind : DropKind) (a : Addr) (s : State) : State :=
  let s := countOccurrence (.writeDropped kind) s
  let s := raiseCause .protect s
  s.withRu { s.ru with protect := true, firstDrop := some (s.ru.firstDrop.getD a) }

end Sys2Proof.Machine
end

