-- ==== Sys2Proof/Machine/Report.lean ====
section
/-! DEFINITION. The Report Unit's records and their posting (chapter 10): the words of each record, the offer of a record by
its copy state, one round of reports, and the posting of dirty records. -/

namespace Sys2Proof.Machine

/-! ### Codes of the status fields (R153, R126, R135) -/

def EvidenceState.code : EvidenceState → Nat
  | .empty => 0
  | .changing => 1
  | .running => 2
  | .held => 3

def Task.kind : Task → Nat
  | .load _ _ => 1
  | .mount _ => 2
  | .checkpoint => 3
  | .release => 4
  | .clearSlot _ => 5
  | .sweep => 6

def SweepState.code : SweepState → Nat
  | .none => 0
  | .running => 1
  | .yielded => 2
  | .suspended => 3

def AlarmMode.code : AlarmMode → Nat
  | .off => 0
  | .level => 1
  | .pulseCrack => 2
  | .pulseSuspect => 3

def SlotState.code : SlotState → Nat
  | .unchecked => 0
  | .valid => 1
  | .empty => 2
  | .damaged => 3
  | .mounted => 4
  | .loading => 5
  | .saving => 6
  | .clearing => 7

def Verdict.code : Verdict → Nat
  | .sound => 0
  | .watch => 1
  | .suspect => 2
  | .cracked => 3

def RingState.code : RingState → Nat
  | .off => 0
  | .hunt => 1
  | .locked _ => 2

/-! ### What the records mirror -/

/-- The mounted mould while EU is RUNNING or HELD (R94). -/
def liveMould (s : State) : Option Mould := if s.eu.state.live then s.eu.mould else none

/-- The slot in MOUNTED, if any (R137). -/
def mountedSlot (tu : TaskUnit) : Option (Fin 12) := allSlots.find? fun n => tu.directory[n].state == .mounted

/-- The number of cavities in a verdict: the verdict census, all zero without a live mould (R111). -/
def census (s : State) (v : Verdict) : Nat :=
  match liveMould s with
  | some m => (m.cavities.filter fun c => c.verdict == v).length
  | none => 0

/-- Marks of a vector of eight as bits `lo` to `lo + 7`. -/
def ringMarks (sf : StreamFramer) (lo : Nat) (f : Ring → Bool) : Word :=
  allChannels.foldl (fun w r => w ||| flag (lo + r.val) (f sf.rings[r])) 0

/-- Status word 5, bits 15 to 0: two bits for each ring. -/
def ringStates (sf : StreamFramer) : Word :=
  allChannels.foldl (fun w r => w ||| field (2 * r.val) 2 sf.rings[r].state.code) 0

/-! ### The records (R153) -/

def statusWord0 (s : State) : Word :=
  field 0 16 s.cd.tally.toNat ||| field 16 8 s.ru.lastCode.toNat ||| field 24 8 s.ru.lastOutcome.toNat

def statusWord1 (s : State) : Word :=
  flag 0 s.ru.seqErr ||| flag 1 s.ru.paramAdj ||| flag 2 s.ru.protect ||| flag 3 s.ru.taskFail |||
    field 8 8 s.ru.causes.toNat ||| field 16 8 s.ru.enables.toNat ||| flag 24 s.ru.masterEnable |||
    field 28 4 (topCause s.ru)

def statusWord2 (s : State) : Word :=
  field 0 2 s.eu.state.code ||| field 4 3 ((s.tu.running.map fun r => r.task.kind).getD 0) |||
    field 8 3 ((s.tu.pendingTask.map Task.kind).getD 0) ||| field 12 2 s.tu.sweep.state.code |||
    field 16 3 s.ru.lastTask.toNat ||| field 20 4 s.ru.lastResult.toNat |||
    field 24 4 (((mountedSlot s.tu).map Fin.val).getD 15) ||| flag 28 s.tu.masterLock |||
    field 29 2 s.ru.alarmMode.code

def statusWord3 (s : State) : Word := ((liveMould s).map fun m => m.header.mouldId).getD 0

/-- Status word 4, and counter word 18. While the newest cycle number is none the spec does not state bits 15 to 0:
they are free bits (log 8). -/
def cycleWord (f : FreeBits) (s : State) : Word :=
  field 0 16 (s.eu.newest.getD f.cycle).toNat ||| field 16 3 s.eu.cycles.length ||| flag 19 s.eu.newest.isNone

def statusWord5 (s : State) : Word :=
  ringStates s.sf ||| ringMarks s.sf 16 Ring.stale ||| ringMarks s.sf 24 Ring.defined

def statusWord6 (s : State) : Word := field 0 8 s.ru.logHead.toNat ||| field 16 16 s.el.serial.toNat

/-- Status word 7. While no address is kept the spec does not state bits 23 to 0: they are free bits (log 8). -/
def dropWord (f : FreeBits) (s : State) : Word :=
  field 0 24 (s.ru.firstDrop.getD f.drop).toNat ||| flag 31 s.ru.firstDrop.isSome

def statusWord8 (s : State) : Word :=
  field 0 8 (census s .sound) ||| field 8 8 (census s .watch) ||| field 16 8 (census s .suspect) |||
    field 24 8 (census s .cracked)

def statusWord9 (s : State) : Word :=
  field 0 16 s.el.zones.id.toNat ||| field 16 16 (((liveMould s).map fun m => m.header.zoneId.toNat).getD 0)

/-- The fields of the status record other than the local time. -/
def statusFields (f : FreeBits) (s : State) : List Word :=
  [statusWord0 s, statusWord1 s, statusWord2 s, statusWord3 s, cycleWord f s, statusWord5 s, statusWord6 s,
   dropWord f s, statusWord8 s, statusWord9 s, 0]

/-- The free bits held equal on both sides of a comparison of status fields. -/
def sameFree : FreeBits := { cycle := 0, drop := 0, lanes := 0 }

/-- Some field of the status record other than the local time differs (R155). -/
def statusChanged (before after : State) : Bool := statusFields sameFree before != statusFields sameFree after

def selectWord (lower upper : Counter) : Word :=
  field 0 4 lower.select.toNat ||| field 4 12 lower.mask.toNat ||| field 16 4 upper.select.toNat |||
    field 20 12 upper.mask.toNat

def counterWords (f : FreeBits) (s : State) : List Word :=
  let c (n : Fin 4) : Counter := s.ru.counters[n]
  [(c 0).value, (c 1).value, (c 2).value, (c 3).value, selectWord (c 0) (c 1), selectWord (c 2) (c 3),
   cycleWord f s, s.localTime]

def directoryWord (e : DirEntry) : Word :=
  field 0 3 e.state.code ||| flag 3 e.lock ||| field 16 16 (bits e.mouldId 0 16)

/-- A cavity's verdict word; BEYOND for a cavity above the count (R153). -/
def verdictWord (r : Option CavityRecord) : Word :=
  match r with
  | some r => field 0 2 r.verdict.code ||| field 8 6 r.hot ||| field 16 8 r.lastCycle
  | none => flag 31 true

/-- The words of a replaceable record as its contents stand. -/
def recordWords (f : FreeBits) (s : State) : RecordId → List Word
  | .status => statusFields f s ++ [s.localTime]
  | .counter => counterWords f s
  | .directory => s.tu.directory.toList.map directoryWord
  | .verdict c => [s.ru.verdictWords[c]]
  | .trace h => (s.ru.traceWords.toList.drop (16 * h.val)).take 16
  | .log _ => []
  | .slot _ _ => []

/-! ### Dirty marks and offers (R154) -/

def DirtyMarks.get (d : DirtyMarks) : RecordId → Bool
  | .status => d.status
  | .counter => d.counter
  | .directory => d.directory
  | .verdict c => d.verdicts[c]
  | .trace h => d.traces[h]
  | .log _ => false
  | .slot _ _ => false

def DirtyMarks.put (d : DirtyMarks) (b : Bool) : RecordId → DirtyMarks
  | .status => { d with status := b }
  | .counter => { d with counter := b }
  | .directory => { d with directory := b }
  | .verdict c => { d with verdicts := d.verdicts.set c b }
  | .trace h => { d with traces := d.traces.set h b }
  | .log _ => d
  | .slot _ _ => d

def markDirty (id : RecordId) (b : Bool) (s : State) : State :=
  s.withRu { s.ru with dirty := s.ru.dirty.put b id }

/-- Ask PU to enqueue the record with its contents as they stand; none is a refusal. -/
def enqueueRecord (id : RecordId) (s : State) : Option State :=
  (enqueue id (recordWords s.freeBits s id) s).map fun t => markDirty id false t.takeFree

/-- RU has new contents for a replaceable record: it acts by the copy state (R154). -/
def offer (id : RecordId) (s : State) : State :=
  match copyState s.pu.queue id with
  | .queued => (replaceQueued id (recordWords s.freeBits s id) s).takeFree
  | .none | .begun => (enqueueRecord id s).getD (markDirty id true s)

/-- R157: when both halves of a traced event have been placed in the queue, TRACE becomes pending, and the status
record with it. -/
def raiseTrace (s : State) : State :=
  if s.ru.traceAwait && !s.ru.dirty.traces[(0 : Fin 2)] && !s.ru.dirty.traces[(1 : Fin 2)] then
    let t := raiseCause .trace (s.withRu { s.ru with traceAwait := false })
    if statusChanged s t then offer .status t else t
  else s

/-- What one event at another block has RU post, beside the status and directory records, which are posted when they
change (R155). -/
structure Posting where
  /-- the event log entry, if the event is admitted -/
  log : Option (List Word) := none
  counter : Bool := false
  verdicts : List (Fin 48) := []
  trace : Bool := false

/-- The event log entry is offered at the head; it is never deferred (R156). -/
def offerLog (ws : List Word) (s : State) : State :=
  match enqueue (.log s.ru.logHead) ws s with
  | some t => (countOccurrence .logWritten t).withRu
      { (countOccurrence .logWritten t).ru with logHead := s.ru.logHead + 1 }
  | none => countOccurrence .logDropped s

/-- Offer when the condition holds. -/
def offerIf (b : Bool) (id : RecordId) (s : State) : State := if b then offer id s else s

/-- One round of reports (R154): the reports of one event at another block have all been applied, taking the state from
`before` to `after`; RU offers the event log entry first and then each changed replaceable record, in the order status,
counter, directory, verdict words by cavity, trace halves. -/
def report (p : Posting) (before after : State) : State :=
  let s := match p.log with
    | some ws => offerLog ws after
    | none => after
  let s := offerIf (statusChanged before s) .status s
  let s := offerIf p.counter .counter s
  let s := offerIf (before.tu.directory != after.tu.directory) .directory s
  let s := p.verdicts.foldl (fun t c => offer (.verdict c) t) s
  let s := offerIf p.trace (.trace 1) (offerIf p.trace (.trace 0) s)
  raiseTrace s

/-- The replaceable records in the order in which dirty ones are offered (R154). -/
def replaceableIds : List RecordId :=
  [.status, .counter, .directory] ++ allCavities.map RecordId.verdict ++ [.trace 0, .trace 1]

/-- Offer the dirty records of the list in order, stopping at the first refusal. -/
def postDirtyList : List RecordId → State → State
  | [], s => s
  | id :: ids, s =>
    if s.ru.dirty.get id then
      match enqueueRecord id s with
      | some t => postDirtyList ids t
      | none => s
    else postDirtyList ids s

/-- RU goes through its dirty records (R154); a deferred trace half that is placed completes its trace (R157). -/
def postDirty (s : State) : State := raiseTrace (postDirtyList replaceableIds s)

/-- EU hands over the verdict words of the cavities listed, as the mounted mould's records stand (R104, R106, R149). -/
def handVerdicts (cs : List (Fin 48)) (s : State) : State :=
  match s.eu.mould with
  | some m =>
    s.withRu { s.ru with
      verdictWords := cs.foldl (fun (v : Vector Word 48) (c : Fin 48) => v.set c.val (verdictWord m.cavities[c.val]?)) s.ru.verdictWords }
  | none => s

end Sys2Proof.Machine
end

