-- ==== Sys2Proof/Machine/Evidence.lean ====
section
/-! DEFINITION. The Evidence Unit (chapter 6): the profile in use, the close of a cycle with the verdict ladder, the cycle
queue, crack events, and the clearing of evidence. -/

namespace Sys2Proof.Machine

/-! ### The profile in use (R113) -/

/-- The number of the profile in use: the mounted header's while EU is RUNNING or HELD, else 0. -/
def profileNumberInUse (s : State) : Fin 4 := ((liveMould s).map fun m => m.header.profile).getD 0

def profileInUse (s : State) : Profile := s.tu.profiles[profileNumberInUse s]

/-! ### One cavity at a close (R102, R103) -/

/-- R102, steps 1 to 5: one cycle entry's figures folded into a cavity record. -/
def foldTally (p : EvidenceParams) (t : CavityTally) (r : CavityRecord) : CavityRecord :=
  let mark : Bool := decide (p.evmin ≤ t.count)
  { verdict := r.verdict
    history := (r.history <<< 1) ||| flag 0 mark
    hot := r.hot + mark.toNat - r.history.msb.toNat
    totalEnergy := satAdd max48 r.totalEnergy t.energy
    suspectEnergy := if r.verdict = .suspect then satAdd max48 r.suspectEnergy t.energy else r.suspectEnergy
    lifetime := satAdd max32 r.lifetime t.count
    lastCycle := t.count }

/-- R103: at most one step on the verdict ladder. -/
def stepVerdict (p : EvidenceParams) (r : CavityRecord) : CavityRecord :=
  match r.verdict with
  | .sound => if p.watchOn ≤ r.hot then { r with verdict := .watch } else r
  | .watch =>
    if p.suspectOn ≤ r.hot then { r with verdict := .suspect, suspectEnergy := 0 }
    else if r.hot ≤ p.watchOff then { r with verdict := .sound }
    else r
  | .suspect =>
    if p.crackOn ≤ r.hot ∧ p.eCrack ≤ r.suspectEnergy then { r with verdict := .cracked }
    else if r.hot ≤ p.suspectOff then { r with verdict := .watch, suspectEnergy := 0 }
    else r
  | .cracked => r

/-- One cavity's whole step at a close. -/
def closeCavity (p : EvidenceParams) (t : CavityTally) (r : CavityRecord) : CavityRecord :=
  stepVerdict p (foldTally p t r)

/-- Every cavity's step, and the header's (R102 to R104). -/
def closeMould (p : EvidenceParams) (e : CycleEntry) (m : Mould) : Mould where
  header := { m.header with observed := satAdd max32 m.header.observed 1, lastClosed := e.cycle }
  cavities := List.zipWith (closeCavity p) e.tallies.toList m.cavities

/-- A cavity whose verdict, hot count or last-cycle events differ (R104). -/
def verdictWordChanged (old new : Mould) (c : Fin 48) : Bool :=
  match old.cavities[c.val]?, new.cavities[c.val]? with
  | some a, some b => a.verdict != b.verdict || a.hot != b.hot || a.lastCycle != b.lastCycle
  | _, _ => false

def changedCavities (old new : Mould) : List (Fin 48) := allCavities.filter (verdictWordChanged old new)

/-- Some cavity enters the verdict. -/
def someEnters (v : Verdict) (old new : Mould) : Bool :=
  (List.zipWith (fun (a b : CavityRecord) => a.verdict != b.verdict && b.verdict == v) old.cavities new.cavities).any id

/-- The close starts, or restarts, an alarm pulse (R109). -/
def startsPulse (mode : AlarmMode) (old new : Mould) : Bool :=
  match mode with
  | .off | .level => false
  | .pulseCrack => someEnters .cracked old new
  | .pulseSuspect => someEnters .suspect old new || someEnters .cracked old new

/-- Raise a cause when the condition holds. -/
def raiseIf (b : Bool) (c : Cause) (s : State) : State := if b then raiseCause c s else s

/-- Count an occurrence when the condition holds. -/
def countIf (b : Bool) (o : Occurrence) (s : State) : State := if b then countOccurrence o s else s

/-- EU takes the closed entry off the queue, holds the stepped mould, and starts the pulse the close starts. -/
def applyClose (e : CycleEntry) (rest : List CycleEntry) (m : Mould) (s : State) : State :=
  let m' := closeMould (profileInUse s).evidence e m
  s.withEu { s.eu with
    mould := some m'
    cycles := rest
    pulse := if startsPulse s.ru.alarmMode m m' then some s.localTime else s.eu.pulse }

/-- The oldest entry closed, with all that the close reports applied and nothing posted (R102 to R104, R99). -/
def closeEffect (forced : Bool) (s : State) : State :=
  match s.eu.cycles, s.eu.mould with
  | [], _ => s
  | _ :: rest, none => s.withEu { s.eu with cycles := rest }
  | e :: rest, some m =>
    let m' := closeMould (profileInUse s).evidence e m
    let t := countIf forced .cycleForced (countOccurrence .cycleClosed (applyClose e rest m s))
    let t := raiseIf (someEnters .cracked m m') .crack (raiseIf (someEnters .suspect m m') .suspect (raiseCause .cycle t))
    handVerdicts (changedCavities m m') t

/-- What RU posts of a close of the oldest entry: the counter record, and the verdict words that the close changes (R155). -/
def closePosting (s : State) : Posting :=
  match s.eu.cycles, s.eu.mould with
  | e :: _, some m =>
    { counter := true, verdicts := changedCavities m (closeMould (profileInUse s).evidence e m) }
  | _, _ => {}

/-- Close the oldest entry and report the close (R102 to R104). -/
def closeOldest (s : State) : State := report (closePosting s) s (closeEffect false s)

/-! ### The closure condition (R100) -/

/-- The horizon is at or after t, or unbounded (R78). -/
def horizonReached (el : EventLocator) (t : Time) : Bool :=
  match el.horizon with
  | some h => atOrAfter h t
  | none => true

/-- The oldest entry closes: a newer entry, the horizon at its start, and no pooled hit before it. -/
def closeReady (s : State) : Bool :=
  match s.eu.cycles with
  | _ :: e :: _ => horizonReached s.el e.start && s.el.pool.all fun h => atOrAfter h.arrival e.start
  | [] | [_] => false

/-- Close while the condition holds, at most n times. -/
def closeLoop : Nat → State → State
  | 0, s => s
  | n + 1, s => if closeReady s then closeLoop n (closeOldest s) else s

/-- EU tests the closure condition (R100). -/
def testClose (s : State) : State := closeLoop s.eu.cycles.length s

/-! ### The cycle queue (R97 to R99) -/

def emptyEntry (cycle : Half) (start : Time) : CycleEntry where
  cycle := cycle
  start := start
  tallies := Vector.replicate 48 { count := 0, energy := 0 }

/-- The block belongs to a cycle already closed or passed over (R97). -/
def passedOver (newest : Option Half) (c : Half) : Bool :=
  match newest with
  | some n => decide (1 ≤ (n - c).toNat) && decide ((n - c).toNat ≤ 4)
  | none => false

/-- The new entry is a gap entry (R98). -/
def isGap (newest : Option Half) (c : Half) : Bool :=
  match newest with
  | some n => c != n + 1
  | none => false

/-- The entry created at the tail, with all that its creation reports applied and nothing posted (R97, R98). -/
def createEntry (c : Half) (start : Time) (s : State) : State :=
  countIf (isGap s.eu.newest c) .cycleGap
    (s.withEu { s.eu with cycles := s.eu.cycles ++ [emptyEntry c start], newest := some c })

/-- The entry is created and reported. With four entries open the oldest is first closed as forced; the forced close and
the creation are one event at EU, and RU applies both before it posts (R97, R99, R111, R154). -/
def openCycle (c : Half) (start : Time) (s : State) : State :=
  if s.eu.cycles.length < Config.cycleCapacity then report {} s (createEntry c start s)
  else report (closePosting s) s (createEntry c start (closeEffect true s))

/-- HX reports the beginning of a block (R97). EU tests its closure condition once, after the creation
(log 38). -/
def blockBegun (c : Half) (start : Time) (s : State) : State :=
  if !s.eu.state.live || s.eu.cycles.any (fun e => e.cycle == c) || passedOver s.eu.newest c then s
  else testClose (openCycle c start s)

/-- Every open entry is discarded unclosed, one DISCARDED each, on leaving RUNNING or HELD for CHANGING (R92, R98). -/
def discardCycles (s : State) : State :=
  let t := s.eu.cycles.foldl (fun t _ => countOccurrence .cycleDiscarded t) s
  t.withEu { t.eu with cycles := [], newest := none }

/-! ### Crack events (R101) -/

/-- Add an event to the tally of a cavity, 1 to 48. -/
def addToTally (cavity energy : Nat) (e : CycleEntry) : CycleEntry :=
  let i := cavity - 1
  match e.tallies[i]? with
  | some t => { e with
      tallies := e.tallies.setIfInBounds i { count := satAdd max8 t.count 1, energy := satAdd max32 t.energy energy } }
  | none => e

/-- An open entry carries the cycle number. -/
def cycleOpen (s : State) (c : Half) : Bool := s.eu.cycles.any fun e => e.cycle == c

/-- EU counts the event in the entry of its cycle. -/
def takeCrackEvent (c : Half) (cavity energy : Nat) (s : State) : State :=
  s.withEu { s.eu with cycles := s.eu.cycles.map fun e => if e.cycle = c then addToTally cavity energy e else e }

/-! ### Clearing (R106, R107) -/

/-- A cavity record after CLEAR CAVITY. -/
def CavityRecord.cleared (r : CavityRecord) : CavityRecord :=
  { r with verdict := .sound, history := 0, hot := 0, suspectEnergy := 0, lastCycle := 0 }

/-- Cavity c, counted from 0, cleared. -/
def Mould.clearCavity (m : Mould) (c : Nat) : Mould :=
  { m with cavities := m.cavities.modify c CavityRecord.cleared }

def Mould.clearAll (m : Mould) : Mould := { m with cavities := m.cavities.map CavityRecord.cleared }

/-- EU holds another mould in place of the mounted one. -/
def withMould (m : Option Mould) (s : State) : State := s.withEu { s.eu with mould := m }

/-- RUNNING or HELD by the comparison of the mould's zone map ID with the active map's (R92, R93). -/
def liveStateFor (zoneId active : Half) : EvidenceState := if zoneId = active then .running else .held

/-- EL reports a replaced zone map: EU compares the IDs (R93). -/
def compareMap (s : State) : State :=
  match liveMould s with
  | some m => s.withEu { s.eu with state := liveStateFor m.header.zoneId s.el.zones.id }
  | none => s

end Sys2Proof.Machine
end

