-- ==== Sys2Proof/Machine/Locator.lean ====
section
/-! DEFINITION. The Event Locator (chapter 5): the pool's order, the horizon, formation, location, classification, and the
report of an event for counting, logging and tracing (R156, R157). -/

namespace Sys2Proof.Machine

/-! ### The order of the pool (R75) -/

/-- The reference times are measured from: the floor, or 0 while it is none. -/
def reference (el : EventLocator) : Time := el.floor.getD 0

/-- Pool order: by arrival from the reference, then by channel. -/
def hitBefore (r : Time) (h g : Hit) : Bool :=
  earlier r h.arrival g.arrival || (h.arrival == g.arrival && decide (h.channel < g.channel))

/-- Insert a hit at its place. -/
def insertHit (r : Time) (h : Hit) : List Hit → List Hit
  | [] => [h]
  | g :: rest => if hitBefore r h g then h :: g :: rest else g :: insertHit r h rest

/-- The pool in the order measured from a new reference (log 23). -/
def sortHits (r : Time) (hs : List Hit) : List Hit := hs.foldr (insertHit r) []

/-! ### The horizon (R78) -/

/-- The earlier of two covered-to times, none standing for a channel that has none. -/
def earliestOf (r : Time) (a b : Option Time) : Option Time :=
  match a, b with
  | some t, some u => if earlier r u t then some u else some t
  | some t, none => some t
  | none, u => u

/-- The earliest covered-to time over the channels that have one, none when unbounded. -/
def horizonOf (s : State) : Option Time :=
  allChannels.foldl (fun a c => earliestOf (reference s.el) a s.hx.channels[c].coveredTo) none

/-! ### Location (R85, R86) -/

/-- The first band of the list, counted from n, whose bounds hold dt: its index and cavity. -/
def findBand : List Band → Nat → Nat → Option (Nat × Nat)
  | [], _, _ => none
  | b :: rest, n, dt => if b.low ≤ dt ∧ dt ≤ b.high then some (n, b.cavity) else findBand rest (n + 1) dt

/-- The bands of one ordered channel pair, in table order (R83). -/
def bandsOf (z : ZoneMap) (first second : Fin 8) : List Band :=
  z.bands.filter fun b => b.first == first && b.second == second

/-- The lookup of an event in the active zone map. -/
def locate (z : ZoneMap) (first second : Fin 8) (dt : Nat) : Option (Nat × Nat) := findBand (bandsOf z first second) 0 dt

/-! ### An event -/

/-- The event record of R90. `band` is the matched band's index and cavity. -/
structure EventRecord where
  serial : Half
  outcome : EventOutcome
  forced : Bool
  anchor : Hit
  /-- the event's other hits, in pool order -/
  others : List Hit
  dt : Nat
  band : Option (Nat × Nat)
  energy : Nat
  locatedAt : Time

def EventRecord.hits (e : EventRecord) : List Hit := e.anchor :: e.others

/-- The second channel: that of the second hit, or the anchor's for a single-hit event (R85). -/
def secondChannel (anchor : Hit) (others : List Hit) : Fin 8 := (others.head?.map Hit.channel).getD anchor.channel

/-- The arrival of the second hit minus that of the first, modulo 2^32; 0 for a single-hit event (R85). -/
def deltaT (anchor : Hit) (others : List Hit) : Nat :=
  ((others.head?.map fun h => h.arrival - anchor.arrival).getD 0).toNat

/-- The sum of the energies of the hits, limited (R89). -/
def eventEnergy (hs : List Hit) : Nat := min (hs.map Hit.energy).sum max32

/-- Tests 1 to 6 of the classification (R87); none when the event passes them all. -/
def classify (s : State) (anchor : Hit) (band : Option (Nat × Nat)) : Option EventOutcome :=
  let p := (profileInUse s).event
  if s.eu.state ≠ .running then some .held
  else
    match band with
    | none => some .unlocated
    | some (_, cavity) =>
      if cavity = 0 then some .excluded
      else if ((s.eu.mould.map fun m => m.header.count).getD 0) < cavity then some .outside
      else if p.risemax < anchor.rise ∨ anchor.peak < p.peakmin then some .impact
      else if p.phaseMask.getLsbD anchor.phase.toNat = false then some .gated
      else none

/-! ### The event's words (R153) -/

def EventRecord.cavity (e : EventRecord) : Nat := (e.band.map Prod.snd).getD 0

def EventRecord.word0 (e : EventRecord) : Word :=
  field 0 16 e.serial.toNat ||| field 16 3 e.outcome.code ||| flag 19 e.forced ||| field 20 4 e.hits.length |||
    field 24 6 e.cavity

def EventRecord.word1 (e : EventRecord) : Word :=
  field 0 16 e.anchor.cycle.toNat ||| field 16 3 e.anchor.phase.toNat ||| field 20 3 e.anchor.channel.val |||
    field 24 3 (secondChannel e.anchor e.others).val ||| field 28 4 ((e.band.map Prod.fst).getD 15)

def EventRecord.logWords (e : EventRecord) : List Word :=
  [e.word0, e.word1, e.anchor.arrival, BitVec.ofNat 32 e.energy]

/-- The event's hit on a channel, if it has one. -/
def EventRecord.hitOn (e : EventRecord) (c : Fin 8) : Option Hit := e.hits.find? fun h => h.channel == c

/-- Trace word 130: the time difference and the participation mask. -/
def EventRecord.word2 (e : EventRecord) : Word :=
  field 0 16 e.dt ||| allChannels.foldl (fun w c => w ||| flag (16 + c.val) (e.hitOn c).isSome) 0

/-- The three trace words of one channel, zero without a hit. -/
def EventRecord.arrivalWord (e : EventRecord) (c : Fin 8) : Word :=
  match e.hitOn c with
  | some h => field 0 16 (h.arrival - e.anchor.arrival).toNat ||| field 16 16 h.peak
  | none => 0

def EventRecord.shapeWord (e : EventRecord) (c : Fin 8) : Word :=
  match e.hitOn c with
  | some h => field 0 12 h.rise ||| field 16 12 h.duration
  | none => 0

def EventRecord.energyWord (e : EventRecord) (c : Fin 8) : Word :=
  match e.hitOn c with
  | some h => BitVec.ofNat 32 h.energy
  | none => 0

/-- The trace record, words 128 to 159 (R157). -/
def EventRecord.traceWords (e : EventRecord) : Vector Word 32 :=
  #v[e.word0, e.word1, e.word2, e.anchor.arrival, BitVec.ofNat 32 e.energy,
     e.locatedAt - e.anchor.startAccept, e.locatedAt,
     e.arrivalWord 0, e.shapeWord 0, e.energyWord 0, e.arrivalWord 1, e.shapeWord 1, e.energyWord 1,
     e.arrivalWord 2, e.shapeWord 2, e.energyWord 2, e.arrivalWord 3, e.shapeWord 3, e.energyWord 3,
     e.arrivalWord 4, e.shapeWord 4, e.energyWord 4, e.arrivalWord 5, e.shapeWord 5, e.energyWord 5,
     e.arrivalWord 6, e.shapeWord 6, e.energyWord 6, e.arrivalWord 7, e.shapeWord 7, e.energyWord 7,
     field 0 16 e.serial.toNat]

/-! ### RU takes the event (R90, R156, R157) -/

/-- The event decreases a running countdown to 0: it is traced. -/
def tracedNow (ru : ReportUnit) : Bool := ru.traceInterval != 0 && ru.countdown == 1

/-- The trace countdown under one event, and the trace record when the event is traced. -/
def countTrace (e : EventRecord) (s : State) : State :=
  if s.ru.traceInterval = 0 then s
  else if tracedNow s.ru then
    s.withRu { s.ru with countdown := s.ru.traceInterval, traceWords := e.traceWords, traceAwait := true }
  else s.withRu { s.ru with countdown := s.ru.countdown - 1 }

/-- The log mask admits the outcome (R156). -/
def logAdmits (ru : ReportUnit) (o : EventOutcome) : Bool := ru.logMask.getLsbD o.code

/-- EL hands the event record to RU, which counts, logs and traces it (R90); `before` is the state before the event. -/
def reportEvent (e : EventRecord) (before s : State) : State :=
  let traced := tracedNow s.ru
  let log := if logAdmits s.ru e.outcome then some e.logWords else none
  let t := countIf e.forced .eventForced (countOccurrence (.event e.outcome) s)
  report { log := log, trace := traced } before (countTrace e t)

/-! ### Formation (R79 to R81) -/

/-- From the hits behind the anchor, the earliest of each channel not yet represented whose arrival is at or before the
end of the window (R80). -/
def takeHits (last : Time) : List (Fin 8) → List Hit → List Hit
  | _, [] => []
  | seen, h :: rest =>
    if !seen.contains h.channel && atOrAfter last h.arrival then h :: takeHits last (h.channel :: seen) rest
    else takeHits last seen rest

/-- The hits that `takeHits` leaves, in their order. -/
def leaveHits (last : Time) : List (Fin 8) → List Hit → List Hit
  | _, [] => []
  | seen, h :: rest =>
    if !seen.contains h.channel && atOrAfter last h.arrival then leaveHits last (h.channel :: seen) rest
    else h :: leaveHits last seen rest

/-- The end of the event window (R76, R80). -/
def windowEnd (s : State) (anchor : Hit) : Time := anchor.arrival + BitVec.ofNat 32 (profileInUse s).event.w

/-- The hits leave the pool, the floor becomes the anchor and the serial advances (R80, R89). The horizon stays as it was
(log 35). -/
def takeEvent (anchor : Hit) (rest : List Hit) (s : State) : State :=
  s.withEl { s.el with
    pool := sortHits anchor.arrival (leaveHits (windowEnd s anchor) [anchor.channel] rest)
    floor := some anchor.arrival
    serial := s.el.serial + 1 }

/-- Form one event from the pool, locate it, classify it and report it (R80, R81, R85 to R90). -/
def formEvent (forced : Bool) (s : State) : State :=
  match s.el.pool with
  | [] => s
  | anchor :: rest =>
    let others := takeHits (windowEnd s anchor) [anchor.channel] rest
    let t := takeEvent anchor rest s
    let dt := deltaT anchor others
    let band := locate s.el.zones anchor.channel (secondChannel anchor others) dt
    let energy := eventEnergy (anchor :: others)
    let record (o : EventOutcome) : EventRecord :=
      { serial := t.el.serial, outcome := o, forced := forced, anchor := anchor, others := others, dt := dt,
        band := band, energy := energy, locatedAt := s.localTime }
    match classify s anchor band with
    | some o => reportEvent (record o) s t
    | none =>
      if cycleOpen s anchor.cycle then
        reportEvent (record .crack) s (takeCrackEvent anchor.cycle ((band.map Prod.snd).getD 0) energy t)
      else reportEvent (record .late) s t

/-- No channel but c has been in the horizon since the reset: the hits of c are the first hits of R91 (log 36). -/
def firstInHorizon (s : State) (c : Fin 8) : Bool := allChannels.all fun q => q == c || !s.hx.channels[q].joined

/-- The formation condition (R79); the first hits after a reset form events as soon as they are delivered (R91; log 36). -/
def formReady (s : State) : Bool :=
  match s.el.pool with
  | [] => false
  | h :: _ => horizonReached s.el (windowEnd s h) || firstInHorizon s h.channel

/-- Form events while the condition holds, at most n; EU tests its closure condition after each (R79, R100). -/
def formLoop : Nat → State → State
  | 0, s => s
  | n + 1, s => if formReady s then formLoop n (testClose (formEvent false s)) else s

/-- EL tests the formation condition; EU then tests the closure condition (R78, R79, R100; log 15). -/
def locatorTest (s : State) : State := testClose (formLoop s.el.pool.length s)

/-! ### Hits arriving (R77, R81) -/

/-- The arrival is before the grouping floor. -/
def lateHit (el : EventLocator) (h : Hit) : Bool :=
  match el.floor with
  | some f => isBefore h.arrival f
  | none => false

/-- Discard a late hit, or insert it. -/
def placeHit (h : Hit) (s : State) : State :=
  if lateHit s.el h then countOccurrence (.hit .late) s
  else s.withEl { s.el with pool := insertHit (reference s.el) h s.el.pool }

/-- HX delivers a hit. With 32 hits in the pool a forced event is formed first, and the hit is dealt with again. -/
def deliverHit (h : Hit) (s : State) : State :=
  if lateHit s.el h then countOccurrence (.hit .late) s
  else if s.el.pool.length < Config.poolCapacity then locatorTest (placeHit h s)
  else locatorTest (placeHit h (testClose (formEvent true s)))

end Sys2Proof.Machine
end

