-- ==== Sys2Proof/Machine/Extractor.lean ====
section
/-! DEFINITION. The Hit Extractor (chapter 4): the threshold and background arithmetic, taking a block, one sample under the
channel's state, the disposal of a hit, and the covered-to times. -/

namespace Sys2Proof.Machine

/-! ### Access to a channel -/

def channelOf (s : State) (c : Fin 8) : Channel := s.hx.channels[c]

def putChannel (c : Fin 8) (x : Channel) (s : State) : State :=
  s.withHx { s.hx with channels := s.hx.channels.set c x }

/-- Put the channel in another state, its other items kept. -/
def putChannelState (c : Fin 8) (x : ChannelState) (s : State) : State :=
  putChannel c { channelOf s c with state := x } s

/-- The parameters in force. A channel that has begun a block has some; the default stands for a channel that has not
(log 26). -/
def paramsOf (s : State) (c : Fin 8) : ExtractionParams := (channelOf s c).params.getD Profile.default.extraction

/-! ### Covered-to times (R73) -/

/-- The ring bound to a channel, if one is defined (R39 lets at most one be). -/
def ringOfChannel (sf : StreamFramer) (c : Fin 8) : Option Ring :=
  (allChannels.find? fun r => sf.rings[r].defined && sf.rings[r].channel == c).map fun r => sf.rings[r]

/-- A ring that is on and whose stale flag is clear. -/
def ringCounts (r : Ring) : Bool := r.state != .off && !r.stale

/-- The covered-to time of a channel, by the first condition of the table that applies (R73). -/
def coveredTo (s : State) (c : Fin 8) : Option Time :=
  let x := channelOf s c
  if x.state = .idle ∨ ((ringOfChannel s.sf c).map ringCounts).getD false = false then none
  else
    match x.lastFinished, x.state with
    | none, _ => none
    | some _, .inHit _ _ h => some h.arrival
    | some t, .idle | some t, .settling | some t, .armed _ _ | some t, .lockout _ _ _ => some (t + 640)

/-- The channel with a changed covered-to time; one that has such a time has joined the horizon (log 36). -/
def Channel.cover (x : Channel) (t : Option Time) : Channel := { x with coveredTo := t, joined := x.joined || t.isSome }

/-- HX reports a changed covered-to time; EL recomputes the horizon, and a change of it is a cause to test
(R73, R78, R79). -/
def refreshCovered (c : Fin 8) (s : State) : State :=
  let new := coveredTo s c
  if new = (channelOf s c).coveredTo then s
  else
    let t := putChannel c ((channelOf s c).cover new) s
    let h := horizonOf t
    if h = s.el.horizon then t else locatorTest (t.withEl { t.el with horizon := h })

/-! ### Threshold and background (R60, R61) -/

/-- The background level b = floor(B / 256). -/
def backgroundLevel (b : Nat) : Nat := b / 256

/-- R61. -/
def thresholdOf (p : ExtractionParams) (b : Nat) : Nat :=
  match p.mode with
  | .fixed => p.fixedThreshold
  | .floating => clampTo 1 65535 (backgroundLevel b * p.f / 16 + p.m)

/-- R60: B + floor(d / 2^k) with d = 256 s - B; the quotient is rounded toward minus infinity. -/
def updateBackground (k b sample : Nat) : Nat :=
  ((b : Int) + ((256 * sample : Int) - (b : Int)) / ((2 ^ k : Nat) : Int)).toNat

/-- ARMED with T computed from B (R61). -/
def armedAt (p : ExtractionParams) (b : Nat) : ChannelState := .armed b (thresholdOf p b)

/-! ### A hit (R63 to R66) -/

/-- The open hit that the sample at index i of a block creates, before it is taken into the running items. -/
def openHitAt (e : AcceptedBlock) (i t : Nat) : OpenHit where
  threshold := t
  arrival := e.timestamp + BitVec.ofNat 32 (5 * i)
  phase := e.phase
  cycle := e.cycle
  startAccept := e.acceptedAt
  count := 0
  peak := 0
  peakOffset := 0
  energy := 0
  lastAbove := 0
  belowRun := 0

/-- One sample taken into the running items (R64). Its offset is the count before it; the opening sample sets the first
peak. -/
def takeSample (h : OpenHit) (sample : Nat) : OpenHit :=
  let offset := h.count
  let newPeak : Bool := decide (h.peak < sample) || offset == 0
  let above : Bool := decide (h.threshold ≤ sample)
  { h with
    count := offset + 1
    peak := if newPeak then sample else h.peak
    peakOffset := if newPeak then offset else h.peakOffset
    energy := if above then h.energy + (sample - h.threshold) else h.energy
    lastAbove := if above then offset else h.lastAbove
    belowRun := if above then 0 else h.belowRun + 1 }

/-- How a hit stands after a sample: open, closed by HDT (R65), or closed as TRUNCATED (R66). -/
inductive HitEnd where
  | stillOpen | closed | truncated
  deriving DecidableEq, Repr

def hitEnd (p : ExtractionParams) (h : OpenHit) : HitEnd :=
  if p.hdt ≤ h.belowRun then .closed else if p.maxdur ≤ h.count then .truncated else .stillOpen

/-- The duration of a closed hit: to its last-above sample, or to the closing sample of a truncated hit. -/
def hitDuration (h : OpenHit) (truncated : Bool) : Nat := if truncated then h.count else h.lastAbove + 1

/-- The hit record of R67. -/
def hitRecord (c : Fin 8) (h : OpenHit) (duration : Nat) : Hit where
  channel := c
  arrival := h.arrival
  phase := h.phase
  cycle := h.cycle
  peak := h.peak
  rise := h.peakOffset
  duration := duration
  energy := h.energy
  startAccept := h.startAccept

/-- The stream time of the last sample of a hit. -/
def hitLastTime (arrival : Time) (duration : Nat) : Time := arrival + BitVec.ofNat 32 (5 * (duration - 1))

/-- The hit does not arrive after the channel's last delivered end (R67 step 2). -/
def arrivesLate (lastEnd : Option Time) (arrival : Time) : Bool :=
  match lastEnd with
  | some e => !isAfter arrival e
  | none => false

/-- The channel's state after a hit closes (R65, R66). -/
def afterHit (p : ExtractionParams) (b t : Nat) : ChannelState :=
  if p.hlt = 0 then armedAt p b else .lockout b t p.hlt

/-- HX disposes of a closed hit (R67): SHORT, LATE, or accepted and delivered, counted before EL takes it (log 34). -/
def disposeHit (c : Fin 8) (h : OpenHit) (truncated : Bool) (s : State) : State :=
  let duration := hitDuration h truncated
  if duration < (paramsOf s c).mindur then countOccurrence (.hit .short) s
  else if arrivesLate (channelOf s c).lastEnd h.arrival then countOccurrence (.hit .late) s
  else
    let t := countIf truncated (.hit .truncated) (countOccurrence (.hit .accepted) s)
    let t := putChannel c { channelOf t c with lastEnd := some (hitLastTime h.arrival duration) } t
    deliverHit (hitRecord c h duration) t

/-- The hit closes: the channel leaves IN_HIT, the hit is disposed of, and then the new covered-to time is reported
(R65, R66, R67, R73). -/
def closeHit (c : Fin 8) (b t : Nat) (h : OpenHit) (truncated : Bool) (s : State) : State :=
  let u := putChannelState c (afterHit (paramsOf s c) b t) s
  refreshCovered c (disposeHit c h truncated u)

/-- An open hit of the channel takes a sample, and closes if that closes it. -/
def followHit (c : Fin 8) (b t : Nat) (h : OpenHit) (sample : Nat) (s : State) : State :=
  let h' := takeSample h sample
  match hitEnd (paramsOf s c) h' with
  | .stillOpen => putChannelState c (.inHit b t h') s
  | .closed => closeHit c b t h' false s
  | .truncated => closeHit c b t h' true s

/-- A sample at or above T opens a hit; the opening is reported, and the sample is its first (R62, R63, R73). -/
def openHit (c : Fin 8) (b t : Nat) (e : AcceptedBlock) (i sample : Nat) (s : State) : State :=
  let h := openHitAt e i t
  followHit c b t h sample (refreshCovered c (putChannelState c (.inHit b t h) s))

/-- A sample below T moves the background (R60). -/
def quietSample (c : Fin 8) (b sample : Nat) (s : State) : State :=
  let p := paramsOf s c
  putChannelState c (armedAt p (updateBackground p.k b sample)) s

/-- One lockout sample (R68). -/
def lockoutSample (c : Fin 8) (b t remaining : Nat) (s : State) : State :=
  if remaining ≤ 1 then putChannelState c (armedAt (paramsOf s c) b) s
  else putChannelState c (.lockout b t (remaining - 1)) s

/-! ### The block in extraction -/

def putBlock (b : Option BlockInWork) (s : State) : State := s.withHx { s.hx with block := b }

/-- The block's sample at an index. -/
def sampleAt (e : AcceptedBlock) (i : Nat) : Nat := ((e.samples[i]?).getD 0).toNat

/-- One sample under the channel's state at that sample (R59, R62, R64, R68). -/
def sampleEffect (w : BlockInWork) (s : State) : State :=
  let c := w.entry.channel
  let x := sampleAt w.entry w.next
  match (channelOf s c).state with
  | .idle => s
  | .settling => putBlock (some { w with next := w.next + 1, sum := w.sum + x }) s
  | .armed b t => if t ≤ x then openHit c b t w.entry w.next x s else quietSample c b x s
  | .inHit b t h => followHit c b t h x s
  | .lockout b t n => lockoutSample c b t n s

/-- The seed at the end of a settling block (R59). -/
def seedChannel (c : Fin 8) (sum : Nat) (s : State) : State :=
  if (channelOf s c).state = .settling then putChannelState c (armedAt (paramsOf s c) (256 * (sum / 128))) s else s

/-- R72: the seed of a settling block, the last finished block, HX free, and the covered-to time. -/
def finishBlock (w : BlockInWork) (sum : Nat) (s : State) : State :=
  let c := w.entry.channel
  let t := seedChannel c sum s
  let t := putChannel c { channelOf t c with lastFinished := some w.entry.timestamp } t
  refreshCovered c (putBlock none t)

/-- HX processes the next sample of its current block; after sample 127 it finishes the block. -/
def processSample (w : BlockInWork) (s : State) : State :=
  let sum := w.sum + sampleAt w.entry w.next
  let t := sampleEffect w (putBlock (some { w with next := w.next + 1 }) s)
  if w.next < 127 then t else finishBlock w sum t

/-! ### Taking a block (R57, R58, R70) -/

/-- Step 1 of R58: the parameters of the extraction profile. -/
def takeParams (c : Fin 8) (s : State) : State :=
  putChannel c { channelOf s c with params := some (profileInUse s).extraction } s

/-- Step 2 of R58: T of an ARMED or LOCKOUT channel under the new parameters. -/
def recomputeThreshold (c : Fin 8) (s : State) : State :=
  match (channelOf s c).state with
  | .armed b _ => putChannelState c (armedAt (paramsOf s c) b) s
  | .lockout b _ n => putChannelState c (.lockout b (thresholdOf (paramsOf s c) b) n) s
  | .idle | .settling | .inHit _ _ _ => s

/-- Step 3 of R58, R70: a DISCONTINUOUS block discards an open hit as BROKEN and ends a lockout. The hit is counted before
EL takes the new covered-to time (log 34). -/
def breakChannel (c : Fin 8) (s : State) : State :=
  match (channelOf s c).state with
  | .inHit b _ _ =>
    refreshCovered c (countOccurrence (.hit .broken) (putChannelState c (armedAt (paramsOf s c) b) s))
  | .lockout b _ _ | .armed b _ => putChannelState c (armedAt (paramsOf s c) b) s
  | .idle | .settling => s

/-- HX takes the entry e and begins its block (R58). -/
def beginBlock (e : AcceptedBlock) (s : State) : State :=
  let c := e.channel
  let t := putBlock (some { entry := e, next := 0, sum := 0 }) s
  let t := recomputeThreshold c (takeParams c t)
  let t := if e.mark = .continuous then t else breakChannel c t
  blockBegun e.cycle e.timestamp t

/-! ### Ring changes (R59, R71) -/

/-- HX abandons its block if it is one of this channel. -/
def abandonBlock (c : Fin 8) (s : State) : State :=
  match s.hx.block with
  | some w => if w.entry.channel = c then putBlock none s else s
  | none => s

/-- The channel's record at RING OFF (to IDLE), and at RING ON and RESET RING (to SETTLING): the open hit, the lockout,
B, T and the last finished block go; the last delivered end is kept. -/
def dropChannel (next : ChannelState) (c : Fin 8) (s : State) : State :=
  putChannel c { channelOf s c with state := next, lastFinished := none } s

end Sys2Proof.Machine
end

