-- ==== Sys2Proof/Machine/Framer.lean ====
section
/-! DEFINITION. The Stream Framer (chapter 3): ring writes, captures, the check of a finished block, acceptance, and the
framer's side of the ring commands. -/

namespace Sys2Proof.Machine

/-! ### Access to a ring -/

def ringOf (s : State) (r : Fin 8) : Ring := s.sf.rings[r]

def putRing (r : Fin 8) (x : Ring) (s : State) : State := s.withSf { s.sf with rings := s.sf.rings.set r x }

def putRingState (r : Fin 8) (x : RingState) (s : State) : State := putRing r { ringOf s r with state := x } s

/-! ### The buffer pool (R51; log 12) -/

/-- A ring with a capture in progress holds one buffer. -/
def capturing (r : Ring) : Bool :=
  match r.state with
  | .locked (.collecting _) => true
  | .off | .hunt | .locked (.waiting _) => false

/-- Buffers bound to captures, queued entries and HX's block. -/
def boundBuffers (s : State) : Nat :=
  (allChannels.filter fun r => capturing s.sf.rings[r]).length + s.sf.queue.length + s.hx.block.isSome.toNat

/-- Buffers that are free. -/
def freeBuffers (s : State) : Nat := Config.bufferCount - boundBuffers s

/-! ### Refusals (R54) -/

/-- A block is refused: the refusal is counted, the ring takes its next state, and STREAM becomes pending where the
table of R54 says so. -/
def refuseBlock (why : RefuseReason) (stream : Bool) (r : Fin 8) (next : RingState) (s : State) : State :=
  report {} s (raiseIf stream .stream (countOccurrence (.blockRefused why) (putRingState r next s)))

/-! ### Captures (R44) -/

/-- A sync write at a block position: full-word, at word 0 of a block, with the sync pattern in the upper half. -/
def isSyncWrite (f : Framing) (offset : Nat) (be : Enables) (d : Word) : Bool :=
  be == fullEnables && offset % 68 == 0 && upperHalf d == f.sync

/-- The capture that begins with word 0 at position p. -/
def newCapture (f : Framing) (p : Nat) (d : Word) (now : Time) : Capture where
  position := p
  nextWord := 1
  words := [d]
  crc := crcWord f.poly f.preset.value d
  poly := f.poly
  lastWrite := now

/-- The ring locks on the block at position p. A change from HUNT is reported. -/
def startCapture (r : Fin 8) (p : Nat) (d : Word) (s : State) : State :=
  report {} s (putRingState r (.locked (.collecting (newCapture s.sf.framing p d s.localTime))) s)

/-- The channel field of a sync write is the ring's channel. -/
def channelMatches (x : Ring) (d : Word) : Bool := blockChannel d == x.channel.val

/-- A write handled under HUNT (R44). -/
def huntWrite (r : Fin 8) (offset : Nat) (be : Enables) (d : Word) (s : State) : State :=
  if isSyncWrite s.sf.framing offset be d then
    if channelMatches (ringOf s r) d then startCapture r (offset / 68) d s
    else refuseBlock .badHeader false r .hunt s
  else s

/-! ### A finished block (R48 to R50) -/

/-- The continuity mark of a good block (R49). -/
def continuityMark (x : Ring) (sequence : Half) (timestamp : Time) : BlockMark :=
  if x.forced then .sequence
  else
    match x.continuity with
    | none => .continuous
    | some (q, t) =>
      if sequence ≠ q + 1 then .sequence else if timestamp ≠ t + 640 then .timestamp else .continuous

/-- The word of a buffer at an index. -/
def bufferWord (c : Capture) (i : Nat) : Word := (c.words[i]?).getD 0

/-- The entry a good block makes (R36, R50). -/
def acceptedBlock (r : Fin 8) (x : Ring) (c : Capture) (now : Time) : AcceptedBlock where
  ring := r
  channel := x.channel
  sequence := upperHalf (bufferWord c 1)
  cycle := lowerHalf (bufferWord c 1)
  phase := blockPhase (bufferWord c 0)
  timestamp := bufferWord c 2
  mark := continuityMark x (upperHalf (bufferWord c 1)) (bufferWord c 2)
  acceptedAt := now
  samples := blockSamples c.words

/-- The ring's record after the acceptance of an entry (R50). -/
def ringAfterAccept (x : Ring) (c : Capture) (e : AcceptedBlock) : Ring :=
  { x with
    state := .locked (.waiting c.position)
    continuity := some (e.sequence, e.timestamp)
    forced := false
    staleRef := some e.acceptedAt
    stale := false }

/-- The DISCONTINUITY occurrence of an accepted block. -/
def countMark (m : BlockMark) (s : State) : State :=
  match m with
  | .continuous => s
  | .sequence => countOccurrence .discontinuitySequence s
  | .timestamp => countOccurrence .discontinuityTimestamp s

/-- The block enters the accepted-block queue (R50); a stale flag it clears returns the channel to the horizon (R73). -/
def acceptBlock (r : Fin 8) (c : Capture) (s : State) : State :=
  let x := ringOf s r
  let e := acceptedBlock r x c s.localTime
  let t := putRing r (ringAfterAccept x c e) s
  let t := t.withSf { t.sf with queue := t.sf.queue ++ [e] }
  let t := countMark e.mark (countOccurrence (.blockAccepted r) t)
  refreshCovered x.channel (report {} s t)

/-- A good block that meets a full queue (R50). -/
def refuseQueueFull (r : Fin 8) (c : Capture) (s : State) : State :=
  refuseBlock .queueFull false r (.locked (.waiting c.position)) (putRing r { ringOf s r with forced := true } s)

/-- Word 67 closes the capture (R48). -/
def closeCapture (r : Fin 8) (c : Capture) (d : Word) (s : State) : State :=
  if c.crc ≠ lowerHalf d then refuseBlock .crc false r (.locked (.waiting c.position)) s
  else if s.sf.queue.length < Config.acceptedCapacity then acceptBlock r c s
  else refuseQueueFull r c s

/-! ### Writes in LOCKED (R45, R46) -/

/-- The expected word of a capture is taken. -/
def takeWord (r : Fin 8) (c : Capture) (d : Word) (s : State) : State :=
  putRingState r (.locked (.collecting
    { c with nextWord := c.nextWord + 1, words := c.words ++ [d], crc := crcWord c.poly c.crc d,
             lastWrite := s.localTime })) s

/-- The ring falls to HUNT and the write is handled again there. -/
def fallAndHunt (why : RefuseReason) (r : Fin 8) (offset : Nat) (be : Enables) (d : Word) (s : State) : State :=
  huntWrite r offset be d (refuseBlock why true r .hunt s)

/-- A write in LOCKED, COLLECTING (R45). -/
def collectingWrite (r : Fin 8) (c : Capture) (offset : Nat) (be : Enables) (d : Word) (s : State) : State :=
  if be ≠ fullEnables then fallAndHunt .partialWrite r offset be d s
  else if offset ≠ 68 * c.position + c.nextWord then fallAndHunt .order r offset be d s
  else if c.nextWord < 67 then takeWord r c d s
  else closeCapture r c d s

/-- A write in LOCKED, WAITING (R46). -/
def waitingWrite (r : Fin 8) (p offset : Nat) (be : Enables) (d : Word) (s : State) : State :=
  let next := (p + 1) % (ringOf s r).blocks
  if isSyncWrite s.sf.framing offset be d && offset == 68 * next then
    if channelMatches (ringOf s r) d then startCapture r next d s
    else refuseBlock .badHeader true r .hunt s
  else fallAndHunt .order r offset be d s

/-- SF handles one write of a ring, at a word offset within the ring (R44 to R46). -/
def ringWrite (r : Fin 8) (offset : Nat) (be : Enables) (d : Word) (s : State) : State :=
  match (ringOf s r).state with
  | .off => s
  | .hunt => huntWrite r offset be d s
  | .locked (.collecting c) => collectingWrite r c offset be d s
  | .locked (.waiting p) => waitingWrite r p offset be d s

/-! ### Timers (R47, R53) -/

/-- The capture's block timeout has expired (R47). -/
def blockTimedOut (s : State) (c : Capture) : Bool :=
  atOrAfter s.localTime (c.lastWrite + BitVec.ofNat 32 s.sf.framing.blockTimeout)

/-- R47: the expiry is taken. -/
def timeoutBlock (r : Fin 8) (s : State) : State :=
  match (ringOf s r).state with
  | .locked (.collecting c) => if blockTimedOut s c then refuseBlock .timeout true r .hunt s else s
  | .off | .hunt | .locked (.waiting _) => s

/-- The ring's stale time has expired (R53). -/
def staleDue (s : State) (x : Ring) : Bool :=
  x.state != .off && !x.stale &&
    match x.staleRef with
    | some t => atOrAfter s.localTime (t + BitVec.ofNat 32 (1000 * s.sf.framing.staleTime))
    | none => false

/-- R53: the ring becomes stale; its channel leaves the horizon (R73). -/
def staleRing (r : Fin 8) (s : State) : State :=
  let x := ringOf s r
  if staleDue s x then
    refreshCovered x.channel (report {} s (raiseCause .stream (putRing r { x with stale := true } s)))
  else s

/-! ### Ring commands (R41 to R43) -/

/-- The ring's entries leave the accepted-block queue. -/
def dropEntries (r : Fin 8) (s : State) : State :=
  s.withSf { s.sf with queue := s.sf.queue.filter fun e => e.ring != r }

/-- A ring turned on, or restarted, in HUNT with its continuity record none, the mark and the flag clear, and the stale
reference at the present local time. -/
def huntingRing (x : Ring) (now : Time) : Ring :=
  { x with state := .hunt, continuity := none, forced := false, stale := false, staleRef := some now }

/-- A ring turned off. -/
def silentRing (x : Ring) : Ring :=
  { x with state := .off, continuity := none, forced := false, stale := false, staleRef := none }

/-- R41: the effect of RING ON. -/
def ringToHunt (r : Fin 8) (s : State) : State :=
  let x := ringOf s r
  dropChannel .settling x.channel (putRing r (huntingRing x s.localTime) s)

/-- R42: the effect of RING OFF on a ring that is on. -/
def ringToOff (r : Fin 8) (s : State) : State :=
  let x := ringOf s r
  dropChannel .idle x.channel (abandonBlock x.channel (dropEntries r (putRing r (silentRing x) s)))

/-- R43: the effect of RESET RING. -/
def ringRestart (r : Fin 8) (s : State) : State :=
  let x := ringOf s r
  dropChannel .settling x.channel
    (abandonBlock x.channel (dropEntries r (putRing r (huntingRing x s.localTime) s)))

end Sys2Proof.Machine
end

