-- ==== Sys2Proof/Machine/Tasks.lean ====
section
/-! DEFINITION. The Task Unit (chapters 7, 8 and 9): tables and their judgement, slot images and their judgement, the beginning
and end of tasks, the sweep, the mould changes, and what a returned task read does. -/

namespace Sys2Proof.Machine

/-! ### Task results (R135) -/

inductive TaskResult where
  | done | badTable | damaged | wrongMould | wrongCount
  deriving DecidableEq, Repr

def TaskResult.code : TaskResult → BitVec 4
  | .done => 0
  | .badTable => 1
  | .damaged => 2
  | .wrongMould => 3
  | .wrongCount => 4

/-- A task's kind and result are recorded, TASK becomes pending, and TASK_FAIL is set unless the result is DONE. -/
def noteResult (t : Task) (r : TaskResult) (s : State) : State :=
  let u := raiseCause .task (s.withRu { s.ru with lastTask := BitVec.ofNat 3 t.kind, lastResult := r.code })
  if r = .done then u else setTaskFail u

/-! ### The slot directory (R136, section 8.5) -/

def slotEntry (s : State) (n : Fin 12) : DirEntry := s.tu.directory[n]

def putEntry (n : Fin 12) (e : DirEntry) (s : State) : State :=
  s.withTu { s.tu with directory := s.tu.directory.set n e }

/-- A slot's new state and cached ID; the lock bit is kept through every change of state (R137). -/
def putSlot (n : Fin 12) (st : SlotState) (mouldId : Word) (s : State) : State :=
  putEntry n { slotEntry s n with state := st, mouldId := mouldId } s

/-- The slot is the slot under check of a RUNNING sweep. -/
def underCheck (tu : TaskUnit) (n : Fin 12) : Bool :=
  tu.sweep.state == .running && (tu.sweep.check.map SlotCheck.slot) == some n

/-- R136: an upstream write into an unprotected slot. -/
def slotTouched (n : Fin 12) (s : State) : State :=
  let t := putSlot n .unchecked 0 s
  let t := if underCheck s.tu n then
      t.withTu { t.tu with sweep := { t.tu.sweep with check := some { slot := n, void := true } } }
    else t
  report {} s t

/-! ### Slot images (R131, R132) -/

/-- The word of a list at an index, 0 beyond its end. -/
def wordAt (ws : List Word) (i : Nat) : Word := (ws[i]?).getD 0

def occupiedMarker : Word := 0x00004E43

def headerWords (h : MouldHeader) : List Word :=
  [h.mouldId, occupiedMarker, BitVec.ofNat 32 h.count, field 0 16 h.zoneId.toNat ||| field 16 2 h.profile.val,
   BitVec.ofNat 32 h.observed, field 0 16 h.lastClosed.toNat, 0, 0]

/-- The five words of a cavity; lifetime crack events are stored in 22 bits, limited. -/
def cavityWords (r : CavityRecord) : List Word :=
  [field 0 8 r.lastCycle ||| field 8 2 r.verdict.code ||| field 10 22 (min r.lifetime 4194303), r.history,
   BitVec.ofNat 32 r.totalEnergy, BitVec.ofNat 32 r.suspectEnergy,
   field 0 16 (r.suspectEnergy / 2 ^ 32) ||| field 16 16 (r.totalEnergy / 2 ^ 32)]

/-- 255 words followed by their check word (R132). -/
def sealImage (ws : List Word) : List Word :=
  let body := (ws ++ List.replicate 255 0).take 255
  body ++ [field 0 16 (crcWords .polyB CrcPreset.ones.value body).toNat]

/-- The OCCUPIED image of a saved mould. -/
def mouldImage (m : Mould) : List Word :=
  sealImage (headerWords m.header ++ (m.cavities.take m.header.count).flatMap cavityWords)

/-- The EMPTY image of CLEAR SLOT. -/
def emptyImage : List Word := sealImage []

/-! ### Judging a slot (R133) -/

inductive Judgement where
  | bad
  | goodEmpty
  | goodOccupied (mouldId : Word) (count : Nat)
  deriving DecidableEq, Repr

/-- The judgement of the 256 words of a slot whose words 0 to 254 gave the register result `crc`. -/
def judgeSlot (crc : Half) (ws : List Word) : Judgement :=
  if crc ≠ lowerHalf (wordAt ws 255) then .bad
  else if wordAt ws 1 ≠ occupiedMarker ∧ wordAt ws 1 ≠ 0 then .bad
  else if wordAt ws 1 = 0 then .goodEmpty
  else if wordAt ws 0 = 0 ∨ (wordAt ws 2).toNat < 1 ∨ 48 < (wordAt ws 2).toNat then .bad
  else .goodOccupied (wordAt ws 0) (wordAt ws 2).toNat

/-! ### Taking a mould in (R148) -/

/-- The number of 1 bits among the low n bits of a word. -/
def countBits (w : Word) : Nat → Nat
  | 0 => 0
  | n + 1 => countBits w n + (w.getLsbD n).toNat

/-- The number of 1 bits of a history. -/
def hotCount (history : Word) : Nat := countBits history 32

def Verdict.ofCode (n : Nat) : Verdict :=
  if n = 0 then .sound else if n = 1 then .watch else if n = 2 then .suspect else .cracked

/-- The stored record of cavity c + 1. -/
def storedCavity (ws : List Word) (c : Nat) : CavityRecord :=
  let w (i : Nat) : Word := wordAt ws (8 + 5 * c + i)
  { verdict := Verdict.ofCode (bits (w 0) 8 2)
    history := w 1
    hot := hotCount (w 1)
    totalEnergy := (w 2).toNat + bits (w 4) 16 16 * 2 ^ 32
    suspectEnergy := (w 3).toNat + bits (w 4) 0 16 * 2 ^ 32
    lifetime := bits (w 0) 10 22
    lastCycle := bits (w 0) 0 8 }

/-- The records of cavities 1 to n, counted from c. -/
def storedCavities (ws : List Word) : Nat → Nat → List CavityRecord
  | _, 0 => []
  | c, n + 1 => storedCavity ws c :: storedCavities ws (c + 1) n

def storedMould (p : MountParams) (ws : List Word) : Mould where
  header := { mouldId := p.mouldId, count := p.count, profile := p.profile, zoneId := p.zoneId,
              observed := (wordAt ws 4).toNat, lastClosed := lowerHalf (wordAt ws 5) }
  cavities := storedCavities ws 0 p.count

def freshCavity : CavityRecord where
  verdict := .sound
  history := 0
  hot := 0
  totalEnergy := 0
  suspectEnergy := 0
  lifetime := 0
  lastCycle := 0

def freshMould (p : MountParams) : Mould where
  header := { mouldId := p.mouldId, count := p.count, profile := p.profile, zoneId := p.zoneId,
              observed := 0, lastClosed := 0 }
  cavities := List.replicate p.count freshCavity

/-! ### Profile tables (R114, R116, R117) -/

/-- A table word read as an unsigned number. -/
def numberAt (ws : List Word) (i : Nat) : Nat := (wordAt ws i).toNat

/-- R116: the table is not refused. -/
def profileTableOk (ws : List Word) : Bool :=
  let n := numberAt ws
  wordAt ws 0 == 0x50460020 && decide (n 1 ≤ 1) &&
    decide (1 ≤ n 15) && decide (n 15 ≤ n 17) && decide (n 17 ≤ n 19) && decide (n 19 ≤ 32) &&
    decide (n 16 < n 15) && decide (n 18 < n 17) && decide (n 16 ≤ n 18)

/-- The fields that are clamped, by word, with their ranges; MAXDUR's lowest value is the clamped MINDUR (R117). -/
def clampedFields (ws : List Word) : List (Nat × Nat × Nat) :=
  [(2, 1, 65535), (3, 16, 255), (4, 0, 65535), (5, 4, 12), (6, 1, 255), (7, 0, 1023), (8, 1, 15),
   (9, clampTo 1 15 (numberAt ws 8), 4095), (10, 10, 5000), (11, 0, 4095), (12, 0, 65535), (14, 1, 255)]

/-- E_CRACK is limited when bits 31 to 16 of word 21 are not all zero. -/
def eCrackOf (ws : List Word) : Nat :=
  if bits (wordAt ws 21) 16 16 = 0 then numberAt ws 20 + bits (wordAt ws 21) 0 16 * 2 ^ 32 else max48

/-- Some field was clamped. -/
def tableClamped (ws : List Word) : Bool :=
  (clampedFields ws).any (fun x => clampTo x.2.1 x.2.2 (numberAt ws x.1) != numberAt ws x.1) ||
    bits (wordAt ws 21) 16 16 != 0

/-- The profile a table that passes R116 stores. -/
def profileOfTable (ws : List Word) : Profile :=
  let n := numberAt ws
  let mindur := clampTo 1 15 (n 8)
  { extraction :=
      { mode := if n 1 = 0 then .fixed else .floating
        fixedThreshold := clampTo 1 65535 (n 2)
        f := clampTo 16 255 (n 3)
        m := clampTo 0 65535 (n 4)
        k := clampTo 4 12 (n 5)
        hdt := clampTo 1 255 (n 6)
        hlt := clampTo 0 1023 (n 7)
        mindur := mindur
        maxdur := clampTo mindur 4095 (n 9) }
    event :=
      { w := clampTo 10 5000 (n 10)
        risemax := clampTo 0 4095 (n 11)
        peakmin := clampTo 0 65535 (n 12)
        phaseMask := lane (wordAt ws 13) 0 }
    evidence :=
      { evmin := clampTo 1 255 (n 14)
        watchOn := n 15
        watchOff := n 16
        suspectOn := n 17
        suspectOff := n 18
        crackOn := n 19
        eCrack := eCrackOf ws } }

/-! ### Zone map tables (R118 to R120) -/

def bandOf (a b : Word) : Band where
  first := Fin.ofNat 8 (bits a 0 3)
  second := Fin.ofNat 8 (bits a 4 3)
  cavity := bits a 8 6
  low := bits b 0 16
  high := bits b 16 16

/-- The bands of the words that follow the header. -/
def bandsOfWords : List Word → List Band
  | a :: b :: rest => bandOf a b :: bandsOfWords rest
  | [_] => []
  | [] => []

/-- The band's key. -/
def Band.key (b : Band) : Nat := b.first.val * 8 + b.second.val

/-- The header word passes: map ID not 0, count 1 to 256, and the table within memory (R119). -/
def zoneHeaderOk (source : Addr) (header : Word) : Bool :=
  bits header 16 16 != 0 && decide (1 ≤ bits header 0 16) && decide (bits header 0 16 ≤ 256) &&
    decide (source.toNat + 4 * (1 + 2 * bits header 0 16) - 1 ≤ 0xFFFFFF)

/-- The order against the band before it: a greater key, or the same key with a low bound above its high bound. -/
def bandFollows (previous : Option Band) (b : Band) : Bool :=
  match previous with
  | some p => decide (p.key < b.key) || (b.key == p.key && decide (p.high < b.low))
  | none => true

/-- R120: the band passes after the bands before it. -/
def bandOk (before : List Band) (b : Band) : Bool :=
  decide (b.cavity ≤ 48) && decide (b.low ≤ b.high) &&
    !(b.first == b.second && !(b.low == 0 && b.high == 0)) && bandFollows before.getLast? b &&
    decide ((before.filter fun x => x.key == b.key).length < 8)

/-- The zone map of a table read whole. -/
def zoneMapOf (ws : List Word) : ZoneMap where
  id := upperHalf (wordAt ws 0)
  bands := bandsOfWords ws.tail

/-- How a table stands after a word of it has been read. -/
inductive TableState where
  | reading | good | bad
  deriving DecidableEq, Repr

/-- A profile table after the words read so far (R115, R116). -/
def profileState (ws : List Word) : TableState :=
  if ws.length < 32 then .reading else if profileTableOk ws then .good else .bad

/-- A zone map table after the words read so far (R119). -/
def zoneState (source : Addr) (ws : List Word) : TableState :=
  let n := ws.length
  if n ≤ 1 then (if zoneHeaderOk source (wordAt ws 0) then .reading else .bad)
  else if n % 2 = 0 then .reading
  else
    let bands := bandsOfWords ws.tail
    match bands.getLast? with
    | none => .reading
    | some b =>
      if !bandOk bands.dropLast b then .bad
      else if n = 1 + 2 * bits (wordAt ws 0) 0 16 then .good
      else .reading

/-! ### Writing a slot image (R134) -/

/-- Record r of an image: words 16r to 16r + 15. -/
def imageRecord (image : List Word) (r : Nat) : List Word := (image.drop (16 * r)).take 16

/-- TU asks for the records of its image in order, at most n, until PU refuses one. -/
def askRecords : Nat → State → State
  | 0, s => s
  | n + 1, s =>
    match s.tu.writer with
    | some w =>
      if w.next < 16 then
        match enqueue (.slot w.slot w.next) (imageRecord w.image w.next) s with
        | some t => askRecords n (t.withTu { t.tu with writer := some { w with next := w.next + 1 } })
        | none => s
      else s
    | none => s

/-- A slot image write begins. -/
def beginWriting (slot : Fin 12) (image : List Word) (s : State) : State :=
  askRecords 16 (s.withTu { s.tu with writer := some { slot := slot, image := image, next := 0 } })

/-- A slot is read for judgement (R133). -/
def beginReading (slot : Fin 12) (s : State) : State :=
  presentTaskRead (slotWordAddr s.pu slot 0)
    (s.withTu { s.tu with slotWords := [], slotCrc := CrcPreset.ones.value })

def setRunning (t : Option RunningTask) (s : State) : State := s.withTu { s.tu with running := t }

def setSnapshot (m : Option Mould) (s : State) : State := s.withTu { s.tu with snapshot := m }

def setEuState (x : EvidenceState) (s : State) : State := s.withEu { s.eu with state := x }

/-! ### The phases of a mould change (R144, R146) -/

/-- The save phase opens: the snapshot, EU to CHANGING with its queue discarded and its records dropped, and the mounted
slot to SAVING with its cached ID (R144, R92). -/
def openSave (task : Task) (m : Mould) (slot : Fin 12) (s : State) : State :=
  let t := discardCycles (setSnapshot (some m) s)
  let t := withMould none (setEuState .changing t)
  let t := putSlot slot .saving (slotEntry t slot).mouldId t
  beginWriting slot (mouldImage m) (setRunning (some { task := task, phase := .writing }) t)

/-- The load phase begins: the target to LOADING with its cached ID, EU in CHANGING (R146). -/
def openLoad (p : MountParams) (s : State) : State :=
  let t := putSlot p.slot .loading (slotEntry s p.slot).mouldId (setEuState .changing s)
  beginReading p.slot (setRunning (some { task := .mount p, phase := .reading }) t)

/-- The mounted mould and its slot while EU is RUNNING or HELD. -/
def mountedMould (s : State) : Option (Mould × Fin 12) :=
  match liveMould s, mountedSlot s.tu with
  | some m, some n => some (m, n)
  | some _, none => none
  | none, _ => none

/-! ### The beginning of a task -/

def beginLoad (kind : LoadKind) (source : Addr) (s : State) : State :=
  presentTaskRead (BitVec.ofNat 22 (source.toNat / 4))
    (setRunning (some { task := .load kind source, phase := .reading }) (s.withTu { s.tu with staging := [] }))

/-- R143, R144, R146: a MOUNT saves the mounted mould first, or goes straight to its load phase. -/
def beginMount (p : MountParams) (s : State) : State :=
  match mountedMould s with
  | some (m, n) => openSave (.mount p) m n s
  | none => openLoad p s

/-- R151: the snapshot is taken and the mounted slot written; it stays MOUNTED. -/
def beginCheckpoint (s : State) : State :=
  match mountedMould s with
  | some (m, n) =>
    beginWriting n (mouldImage m)
      (setRunning (some { task := .checkpoint, phase := .writing }) (setSnapshot (some m) s))
  | none => s

/-- R152. -/
def beginRelease (s : State) : State :=
  match mountedMould s with
  | some (m, n) => openSave .release m n s
  | none => s

/-- R141. -/
def beginClearSlot (n : Fin 12) (s : State) : State :=
  beginWriting n emptyImage
    (setRunning (some { task := .clearSlot n, phase := .writing }) (putSlot n .clearing 0 s))

/-- A task other than a sweep begins as the running task. -/
def beginTask (t : Task) (s : State) : State :=
  match t with
  | .load kind source => beginLoad kind source s
  | .mount p => beginMount p s
  | .checkpoint => beginCheckpoint s
  | .release => beginRelease s
  | .clearSlot n => beginClearSlot n s
  | .sweep => s

/-- The pending task, if there is one, begins. -/
def beginPending (s : State) : State :=
  match s.tu.pendingTask with
  | some t => beginTask t (s.withTu { s.tu with pendingTask := none })
  | none => s

/-! ### The sweep (R128, R138) -/

def setSweep (x : Sweep) (s : State) : State := s.withTu { s.tu with sweep := x }

/-- The slot the sweep takes: the lowest at or above its next slot that no task holds (R138 step 1). -/
def sweepSlot (tu : TaskUnit) : Option (Fin 12) :=
  allSlots.find? fun n => decide (tu.sweep.next ≤ n.val) && !tu.directory[n].state.busy

/-- The sweep ends with DONE, and a pending task begins (R128). A stop request that still stands is dropped (log 40). -/
def endSweep (s : State) : State :=
  let t := setSweep { s.tu.sweep with state := .none, stop := .none, check := none } s
  beginPending (setRunning none (noteResult .sweep .done t))

/-- The sweep goes on as the running task with the slot it takes, or ends if there is none. -/
def sweepGo (s : State) : State :=
  match sweepSlot s.tu with
  | some n =>
    let t := setSweep { s.tu.sweep with state := .running, next := n.val + 1, check := some { slot := n, void := false } } s
    beginReading n (setRunning (some { task := .sweep, phase := .reading }) t)
  | none => endSweep s

/-- A slot boundary (R128). -/
def sweepBoundary (s : State) : State :=
  let s := setSweep { s.tu.sweep with check := none } s
  match sweepSlot s.tu, s.tu.sweep.stop with
  | none, _ => endSweep s
  | some _, .none => sweepGo s
  | some _, .yield =>
    beginPending (setRunning none (setSweep { s.tu.sweep with state := .yielded, stop := .none } s))
  | some _, .suspend =>
    beginPending (setRunning none (setSweep { s.tu.sweep with state := .suspended, stop := .none } s))

/-- A task other than a sweep ends (R135): its result is noted, and the pending task begins or a YIELDED sweep goes on. -/
def endTask (t : Task) (r : TaskResult) (s : State) : State :=
  let u := setRunning none (noteResult t r s)
  if u.tu.pendingTask.isSome then beginPending u
  else if u.tu.sweep.state = .yielded then sweepGo u
  else u

/-! ### Admission (R127) -/

inductive Admission where
  | busy | now | later
  deriving DecidableEq, Repr

def admission (t : Task) (tu : TaskUnit) : Admission :=
  if t = .sweep ∧ tu.sweep.state ≠ .none then .busy
  else
    match tu.running with
    | none => .now
    | some r => if r.task = .sweep ∧ tu.pendingTask = none then .later else .busy

/-- A SWEEP that begins starts with next slot 0 (R127, R138), and with no stop request (log 40). -/
def startSweep (s : State) : State := sweepGo (setSweep { s.tu.sweep with next := 0, stop := .none } s)

/-- The stop request becomes YIELD, unless it is already SUSPEND. -/
def requestYield (x : Sweep) : Sweep := { x with stop := if x.stop = .suspend then .suspend else .yield }

/-- The effect of an admitted task command. -/
def admitTask (t : Task) (s : State) : FrameOutcome × State :=
  match admission t s.tu with
  | .busy => (.refusedBusy, s)
  | .now => (.started, if t = .sweep then startSweep s else beginTask t s)
  | .later => (.started, s.withTu { s.tu with pendingTask := some t, sweep := requestYield s.tu.sweep })

/-! ### The end of an image write (R134, R141, R145, R151, R152) -/

/-- Record 15 of the slot image has completed. -/
def imageComplete (n : Fin 12) (s : State) : State :=
  let t := s.withTu { s.tu with writer := none }
  match s.tu.running.map RunningTask.task with
  | some (.clearSlot k) => endTask (.clearSlot k) .done (putSlot k .empty 0 t)
  | some .checkpoint => endTask .checkpoint .done (setSnapshot none t)
  | some .release =>
    endTask .release .done (setEuState .empty (setSnapshot none (putSlot n .valid (slotEntry t n).mouldId t)))
  | some (.mount p) => openLoad p (setSnapshot none (putSlot n .valid (slotEntry t n).mouldId t))
  | some (.load _ _) | some .sweep | none => t

/-! ### Words of a table (R115, R119, R122 to R124) -/

/-- The judged profile replaces profile p, and the clamp is reported with the result. -/
def storeProfile (p : Fin 4) (ws : List Word) (s : State) : State :=
  let t := s.withTu { s.tu with profiles := s.tu.profiles.set p (profileOfTable ws) }
  if tableClamped ws then setParamAdj t else t

/-- The staged map becomes the active zone map, and EU compares its ID (R84, R93, R124). -/
def storeZones (ws : List Word) (s : State) : State :=
  compareMap (s.withEl { s.el with zones := zoneMapOf ws })

/-- What a LOAD replaces when its table is good. -/
def storeTable (kind : LoadKind) (ws : List Word) (s : State) : State :=
  match kind with
  | .profile p => storeProfile p ws s
  | .zones => storeZones ws s

/-- A table after the words read so far. -/
def tableState (kind : LoadKind) (source : Addr) (ws : List Word) : TableState :=
  match kind with
  | .profile _ => profileState ws
  | .zones => zoneState source ws

/-- A word of a table has returned to a LOAD. Its staging is emptied when the LOAD ends, however it ends (R122, R124;
log 39). -/
def tableWord (kind : LoadKind) (source : Addr) (d : Word) (s : State) : State :=
  let ws := s.tu.staging ++ [d]
  match tableState kind source ws with
  | .reading =>
    presentTaskRead (BitVec.ofNat 22 (source.toNat / 4 + ws.length)) (s.withTu { s.tu with staging := ws })
  | .good => endTask (.load kind source) .done (storeTable kind ws (s.withTu { s.tu with staging := [] }))
  | .bad => endTask (.load kind source) .badTable (s.withTu { s.tu with staging := [] })

/-- The profile in use is the one that a LOAD replaces when it completes with DONE (R123). -/
def loadsProfileInUse (kind : LoadKind) (d : Word) (s : State) : Bool :=
  match kind with
  | .profile p => profileState (s.tu.staging ++ [d]) == .good && p == profileNumberInUse s
  | .zones => false

/-! ### A judged slot (R138, R146 to R149) -/

/-- The sweep applies a judgement to the slot under check (R138 step 3). -/
def applyJudgement (n : Fin 12) (j : Judgement) (s : State) : State :=
  match j with
  | .bad => raiseCause .archive (putSlot n .damaged 0 s)
  | .goodEmpty => putSlot n .empty 0 s
  | .goodOccupied mouldId _ => putSlot n .valid mouldId s

/-- The sweep's slot is judged: applied unless void, and then a boundary. -/
def sweepJudged (j : Judgement) (s : State) : State :=
  match s.tu.sweep.check with
  | some k => sweepBoundary (if k.void then s else applyJudgement k.slot j s)
  | none => sweepBoundary s

/-- A MOUNT fails (R147). -/
def mountFails (p : MountParams) (r : TaskResult) (st : SlotState) (mouldId : Word) (s : State) : State :=
  let t := setEuState .empty (putSlot p.slot st mouldId s)
  endTask (.mount p) r (if r = .damaged then raiseCause .archive t else t)

/-- A MOUNT succeeds: the target becomes MOUNTED, EU holds the records, and every verdict word is handed over (R149). -/
def mountSucceeds (p : MountParams) (m : Mould) (s : State) : State :=
  let t := putSlot p.slot .mounted p.mouldId s
  let t := withMould (some m) (setEuState (liveStateFor p.zoneId t.el.zones.id) t)
  endTask (.mount p) .done (handVerdicts allCavities t)

/-- The target's words the mould is taken in from, or the result the MOUNT fails with (R146, R148). -/
def mountJudged (p : MountParams) (j : Judgement) (ws : List Word) (s : State) : State :=
  match j with
  | .bad => mountFails p .damaged .damaged 0 s
  | .goodEmpty => mountSucceeds p (freshMould p) s
  | .goodOccupied mouldId count =>
    if mouldId ≠ p.mouldId then mountFails p .wrongMould .valid mouldId s
    else if count ≠ p.count then mountFails p .wrongCount .valid mouldId s
    else mountSucceeds p (storedMould p ws) s

/-- The judgement makes a MOUNT succeed. -/
def mountWillSucceed (p : MountParams) (j : Judgement) : Bool :=
  match j with
  | .bad => false
  | .goodEmpty => true
  | .goodOccupied mouldId count => mouldId == p.mouldId && count == p.count

/-- The check register after a word: words 0 to 254 are fed through it (R133). -/
def feedCheck (read : Nat) (crc : Half) (d : Word) : Half := if read < 255 then crcWord .polyB crc d else crc

/-- The slot's words with the one that has returned. -/
def keepSlotWord (d : Word) (s : State) : State :=
  s.withTu { s.tu with
    slotWords := s.tu.slotWords ++ [d], slotCrc := feedCheck s.tu.slotWords.length s.tu.slotCrc d }

/-- The slot a reading task reads. -/
def readSlot (s : State) : Option (Fin 12) :=
  match s.tu.running with
  | some r =>
    match r.task with
    | .mount p => some p.slot
    | .sweep => s.tu.sweep.check.map SlotCheck.slot
    | .load _ _ | .checkpoint | .release | .clearSlot _ => none
  | none => none

/-! ### A task read returns its data (R14, R115, R133) -/

/-- The next word of the slot is read. -/
def readOn (s : State) : State :=
  match readSlot s with
  | some n => presentTaskRead (slotWordAddr s.pu n s.tu.slotWords.length) s
  | none => s

/-- A word of a slot has returned to a MOUNT or a sweep; after word 255 the slot is judged. -/
def slotWord (t : Task) (d : Word) (s : State) : State :=
  let u := keepSlotWord d s
  if u.tu.slotWords.length < 256 then readOn u
  else
    let j := judgeSlot u.tu.slotCrc u.tu.slotWords
    match t with
    | .mount p => mountJudged p j u.tu.slotWords u
    | .sweep => sweepJudged j u
    | .load _ _ | .checkpoint | .release | .clearSlot _ => u

/-- The data of a task read return to TU. -/
def taskData (d : Word) (s : State) : State :=
  match s.tu.running with
  | some r =>
    match r.task with
    | .load kind source => tableWord kind source d s
    | .mount p => slotWord (.mount p) d s
    | .sweep => slotWord .sweep d s
    | .checkpoint | .release | .clearSlot _ => s
  | none => s

/-- The data complete a LOAD of the profile in use. -/
def dataLoadsProfile (d : Word) (s : State) : Bool :=
  match s.tu.running with
  | some r =>
    match r.task with
    | .load kind _ => loadsProfileInUse kind d s
    | .mount _ | .sweep | .checkpoint | .release | .clearSlot _ => false
  | none => false

/-- The data make a MOUNT succeed: the whole verdict table is posted (R149). -/
def dataMounts (d : Word) (s : State) : Bool :=
  match s.tu.running with
  | some r =>
    match r.task with
    | .mount p =>
      let u := keepSlotWord d s
      decide (256 ≤ u.tu.slotWords.length) && mountWillSucceed p (judgeSlot u.tu.slotCrc u.tu.slotWords)
    | .load _ _ | .sweep | .checkpoint | .release | .clearSlot _ => false
  | none => false

/-- EL's test when the profile in use has changed, or a LOAD has replaced it (R76, R123). -/
def followProfile (loaded : Bool) (before after : State) : State :=
  if loaded || profileNumberInUse before != profileNumberInUse after then locatorTest after else after

/-- The reports of one step at TU, and then EL's test (log 14). `loaded`: a LOAD of the profile in use completed. -/
def reportTask (p : Posting) (loaded : Bool) (before after : State) : State :=
  followProfile loaded before (report p before after)

end Sys2Proof.Machine
end

