-- ==== Sys2Proof/Machine/Owners.lean ====
section
/-! DEFINITION. What the owner of a taken command does (R27): the checks in order, the outcome, the new state, and what
follows once the outcome has been reported. The parameters are CD's latches. -/

namespace Sys2Proof.Machine

/-- What follows after the outcome has been reported (log 14). -/
inductive Follow where
  | nothing
  /-- HX reports the channel's covered-to time if it has changed (R73) -/
  | channel (c : Fin 8)
  /-- EL tests its formation condition if the profile in use has changed (R76) -/
  | profile
  deriving DecidableEq, Repr

/-- The owner's answer. -/
structure Answer where
  outcome : FrameOutcome
  state : State
  posting : Posting := {}
  follow : Follow := .nothing

def refuse (o : FrameOutcome) (s : State) : Answer := { outcome := o, state := s }

def accept (s : State) : Answer := { outcome := .done, state := s }

/-! ### DEFINE LAYOUT (R5, R6) -/

/-- Bits 31 to 24 of an address parameter are zero. -/
def addressFits (w : Word) : Bool := bits w 24 8 == 0

/-- The address of a parameter that fits. -/
def addressOf (w : Word) : Addr := BitVec.ofNat 24 (bits w 0 24)

/-- A window overlaps the window of some defined ring of the list. -/
def overlapsRing (v : Window) (sf : StreamFramer) (rs : List (Fin 8)) : Bool :=
  rs.any fun r => sf.rings[r].defined && v.overlaps (ringWindow sf.rings[r])

/-- Check 1 of R5. -/
def layoutFree (s : State) : Bool :=
  !s.eu.state.live && s.tu.running.isNone && s.tu.pendingTask.isNone && s.tu.sweep.state != .suspended

/-- Checks 2 to 5 of R5 on the two bases. -/
def basesOk (s : State) (results archive : Word) : Bool :=
  let rw := resultsWindow results.toNat
  let aw := archiveWindow archive.toNat
  addressFits results && addressFits archive &&
    bits results 0 6 == 0 && bits archive 0 10 == 0 &&
    decide (results.toNat ≤ 0xFFEC00) && decide (archive.toNat ≤ 0xFFD000) &&
    !rw.overlaps aw && !rw.overlaps (commandWindow s.pu.strap) && !aw.overlaps (commandWindow s.pu.strap) &&
    !overlapsRing rw s.sf allChannels && !overlapsRing aw s.sf allChannels

/-- A copy of the trace half is in the queue. -/
def traceQueued (s : State) (h : Fin 2) : Bool := s.pu.queue.any fun r => decide (r.id = .trace h)

/-- The dirty marks that DEFINE LAYOUT sets (R155). -/
def dirtyAfterLayout (s : State) : DirtyMarks where
  status := true
  counter := true
  directory := true
  verdicts := Vector.replicate 48 true
  traces := #v[s.ru.dirty.traces[(0 : Fin 2)] || traceQueued s 0, s.ru.dirty.traces[(1 : Fin 2)] || traceQueued s 1]

/-- R6: the queue discarded, the layout set, every slot UNCHECKED with its lock, the log head 0 and every record to be
posted into the new area, the verdict words zero. Whether TRACE is still due is kept: halves that had been placed are posted
again without raising it (log 41). -/
def applyLayout (results archive : Word) (s : State) : State :=
  let t := s.withPu { s.pu with
    layoutDefined := true, resultsBase := addressOf results, archiveBase := addressOf archive, queue := [] }
  let t := t.withTu { t.tu with directory := t.tu.directory.map DirEntry.uncheck }
  t.withRu { t.ru with
    logHead := 0, dirty := dirtyAfterLayout s, verdictWords := Vector.replicate 48 0 }

def ownDefineLayout (s : State) : Answer :=
  if layoutFree s = false then refuse .refusedState s
  else if basesOk s (param1 s) (param2 s) = false then refuse .refusedParam s
  else accept (applyLayout (param1 s) (param2 s) s)

/-! ### Ring commands (R39 to R43) -/

/-- The ring number of a parameter. -/
def ringParam (w : Word) : Fin 8 := Fin.ofNat 8 w.toNat

/-- The window a DEFINE RING asks for. -/
def newRingWindow (base : Word) (blocks : Nat) : Window := { first := base.toNat, size := 272 * blocks }

/-- Check 3 of R39. -/
def ringShapeOk (base : Word) (blocks : Nat) : Bool :=
  decide (2 ≤ blocks) && decide (blocks ≤ 1024) && addressFits base && bits base 0 4 == 0 &&
    decide (base.toNat + 272 * blocks - 1 ≤ 0xFFFFFF)

/-- The rings other than r. -/
def otherRings (r : Fin 8) : List (Fin 8) := allChannels.filter fun q => q != r

/-- Check 4 of R39: another defined ring is bound to the channel. -/
def channelTaken (sf : StreamFramer) (r c : Fin 8) : Bool :=
  (otherRings r).any fun q => sf.rings[q].defined && sf.rings[q].channel == c

/-- Check 5 of R39: the new window overlaps another. -/
def windowTaken (s : State) (r : Fin 8) (v : Window) : Bool :=
  v.overlaps (commandWindow s.pu.strap) ||
    (s.pu.layoutDefined && (v.overlaps (resultsWindow s.pu.resultsBase.toNat) ||
      v.overlaps (archiveWindow s.pu.archiveBase.toNat))) ||
    overlapsRing v s.sf (otherRings r)

/-- The record of a ring newly defined: OFF, its stale flag clear, its continuity record none. -/
def definedRing (c : Fin 8) (base : Word) (blocks : Nat) : Ring where
  defined := true
  channel := c
  base := addressOf base
  blocks := blocks
  state := .off
  continuity := none
  forced := false
  staleRef := none
  stale := false

def ownDefineRing (s : State) : Answer :=
  let r := ringParam (param1 s)
  let c := ringParam (param2 s)
  if 7 < (param1 s).toNat ∨ 7 < (param2 s).toNat then refuse .refusedParam s
  else if (ringOf s r).state ≠ .off then refuse .refusedState s
  else if ringShapeOk (param3 s) (param4 s).toNat = false then refuse .refusedParam s
  else if channelTaken s.sf r c = true then refuse .refusedParam s
  else if windowTaken s r (newRingWindow (param3 s) (param4 s).toNat) = true then refuse .refusedParam s
  else accept (putRing r (definedRing c (param3 s) (param4 s).toNat) s)

def ownRingOn (s : State) : Answer :=
  let r := ringParam (param1 s)
  if 7 < (param1 s).toNat then refuse .refusedParam s
  else if (ringOf s r).defined = false ∨ (ringOf s r).state ≠ .off then refuse .refusedState s
  else { accept (ringToHunt r s) with follow := .channel (ringOf s r).channel }

def ownRingOff (s : State) : Answer :=
  let r := ringParam (param1 s)
  if 7 < (param1 s).toNat then refuse .refusedParam s
  else if (ringOf s r).defined = false then refuse .refusedState s
  else if (ringOf s r).state = .off then accept s
  else { accept (ringToOff r s) with follow := .channel (ringOf s r).channel }

def ownResetRing (s : State) : Answer :=
  let r := ringParam (param1 s)
  if 7 < (param1 s).toNat then refuse .refusedParam s
  else if (ringOf s r).defined = false ∨ (ringOf s r).state = .off then refuse .refusedState s
  else { accept (ringRestart r s) with follow := .channel (ringOf s r).channel }

/-- Words 1 to 3 of SET FRAMING hold allowed values (R40). -/
def framingOk (s : State) : Bool :=
  bits (param1 s) 16 16 == 0 && decide ((param2 s).toNat ≤ 1) && decide ((param3 s).toNat ≤ 1)

/-- The settings of SET FRAMING, its timers clamped. -/
def framingOf (s : State) : Framing where
  sync := lowerHalf (param1 s)
  poly := if (param2 s).toNat = 0 then .polyA else .polyB
  preset := if (param3 s).toNat = 0 then .zeros else .ones
  blockTimeout := clampTo 100 10000 (param4 s).toNat
  staleTime := clampTo 1 1000 (param5 s).toNat

/-- One of the timers is clamped. -/
def framingClamped (s : State) : Bool :=
  (framingOf s).blockTimeout != (param4 s).toNat || (framingOf s).staleTime != (param5 s).toNat

def ownSetFraming (s : State) : Answer :=
  if framingOk s = false then refuse .refusedParam s
  else
    let t := s.withSf { s.sf with framing := framingOf s }
    accept (if framingClamped s then setParamAdj t else t)

/-! ### Task commands (R121, R138, R141, R143, R151, R152) -/

/-- The task rules come last (R127). -/
def admitAnswer (t : Task) (s : State) : Answer :=
  { outcome := (admitTask t s).1, state := (admitTask t s).2, follow := .profile }

/-- The kind of a LOAD (R121). -/
def loadKindOf (w : Word) : Option LoadKind :=
  if w.toNat < 4 then some (.profile (Fin.ofNat 4 w.toNat)) else if w.toNat = 0xFF then some .zones else none

/-- Check 3 of R121: a profile table lies within memory. -/
def tableFits (kind : LoadKind) (source : Word) : Bool :=
  match kind with
  | .profile _ => decide (source.toNat + 0x7F ≤ 0xFFFFFF)
  | .zones => true

def ownLoad (s : State) : Answer :=
  match loadKindOf (param1 s) with
  | none => refuse .refusedParam s
  | some kind =>
    if addressFits (param2 s) = false ∨ bits (param2 s) 0 2 ≠ 0 then refuse .refusedParam s
    else if tableFits kind (param2 s) = false then refuse .refusedParam s
    else admitAnswer (.load kind (addressOf (param2 s))) s

def ownClearSlot (s : State) : Answer :=
  let n := Fin.ofNat 12 (param1 s).toNat
  if 11 < (param1 s).toNat then refuse .refusedParam s
  else if (slotEntry s n).state = .mounted then refuse .refusedState s
  else if (slotEntry s n).lock = true ∧ s.pins.service = false then refuse .refusedLocked s
  else admitAnswer (.clearSlot n) s

def ownSweep (s : State) : Answer := admitAnswer .sweep s

/-- Check 1 of R143. -/
def mountParamsOk (s : State) : Bool :=
  decide ((param1 s).toNat ≤ 11) && param2 s != 0 && decide (1 ≤ (param3 s).toNat) &&
    decide ((param3 s).toNat ≤ 48) && decide ((param4 s).toNat ≤ 3) && bits (param5 s) 16 16 == 0

def mountParamsOf (s : State) : MountParams where
  slot := Fin.ofNat 12 (param1 s).toNat
  mouldId := param2 s
  count := (param3 s).toNat
  profile := Fin.ofNat 4 (param4 s).toNat
  zoneId := lowerHalf (param5 s)

/-- Check 2 of R143. -/
def mountTargetOk (x : SlotState) : Bool :=
  match x with
  | .damaged | .clearing | .loading | .saving => false
  | .unchecked | .valid | .empty | .mounted => true

def ownMount (s : State) : Answer :=
  let p := mountParamsOf s
  if mountParamsOk s = false then refuse .refusedParam s
  else if mountTargetOk (slotEntry s p.slot).state = false then refuse .refusedState s
  else admitAnswer (.mount p) s

def ownCheckpoint (s : State) : Answer :=
  if s.eu.state.live = false then refuse .refusedState s else admitAnswer .checkpoint s

def ownRelease (s : State) : Answer :=
  if s.eu.state.live = false then refuse .refusedState s else admitAnswer .release s

/-! ### Sweep control (R129, R130) -/

def ownSuspendSweep (s : State) : Answer :=
  match s.tu.sweep.state with
  | .running => accept (setSweep { s.tu.sweep with stop := .suspend } s)
  | .yielded => accept (setSweep { s.tu.sweep with state := .suspended } s)
  | .none | .suspended => refuse .refusedState s

def ownResumeSweep (s : State) : Answer :=
  if s.tu.sweep.state ≠ .suspended then refuse .refusedState s
  else if s.tu.running.isSome then refuse .refusedBusy s
  else { outcome := .started, state := sweepGo s, follow := .profile }

/-! ### Locks (R139, R140) -/

/-- The master lock is set and SERVICE is not asserted. -/
def locksHeld (s : State) : Bool := s.tu.masterLock && !s.pins.service

def setLock (b : Bool) (e : DirEntry) : DirEntry := { e with lock := b }

def ownLockSlot (s : State) : Answer :=
  let n := Fin.ofNat 12 (param1 s).toNat
  if 11 < (param1 s).toNat then refuse .refusedParam s
  else if locksHeld s = true then refuse .refusedLocked s
  else accept (putEntry n (setLock true (slotEntry s n)) s)

def ownClearLocks (s : State) : Answer :=
  if locksHeld s = true then refuse .refusedLocked s
  else accept (s.withTu { s.tu with directory := s.tu.directory.map (setLock false) })

def ownSetMasterLock (s : State) : Answer :=
  if s.pins.service = false then refuse .refusedLocked s
  else accept (s.withTu { s.tu with masterLock := true })

/-! ### Evidence (R106, R107) -/

def ownClearCavity (s : State) : Answer :=
  match liveMould s with
  | none => refuse .refusedState s
  | some m =>
    if (param1 s).toNat < 1 ∨ m.header.count < (param1 s).toNat then refuse .refusedParam s
    else
      let c := (param1 s).toNat - 1
      { accept (handVerdicts [Fin.ofNat 48 c] (withMould (some (m.clearCavity c)) s)) with
        posting := { verdicts := [Fin.ofNat 48 c] } }

/-- Cavities 1 to the count: those whose verdict words CLEAR MOULD hands over (R107; log 37). -/
def cavitiesOf (m : Mould) : List (Fin 48) := allCavities.filter fun c => decide (c.val < m.header.count)

/-- CLEAR MOULD (R107). -/
def ownClearMould (s : State) : Answer :=
  match liveMould s with
  | none => refuse .refusedState s
  | some m =>
    { accept (handVerdicts (cavitiesOf m) (withMould (some m.clearAll) s)) with
      posting := { verdicts := cavitiesOf m } }

/-! ### Reporting (R110, R158, R159, R161, R162) -/

def AlarmMode.ofCode (n : Nat) : AlarmMode :=
  if n = 0 then .off else if n = 1 then .level else if n = 2 then .pulseCrack else .pulseSuspect

/-- A pulse runs on only under a pulse mode (R110). -/
def pulseUnder (mode : AlarmMode) (pulse : Option Time) : Option Time :=
  match mode with
  | .off | .level => none
  | .pulseCrack | .pulseSuspect => pulse

/-- The rules of the table of R162 hold. -/
def reportingOk (s : State) : Bool :=
  bits (param1 s) 9 23 == 0 && decide ((param2 s).toNat ≤ 3) && bits (param3 s) 8 24 == 0 &&
    decide ((param4 s).toNat ≤ 65535)

def ownSetReporting (s : State) : Answer :=
  if reportingOk s = false then refuse .refusedParam s
  else
    let mode := AlarmMode.ofCode (param2 s).toNat
    let t := s.withRu { s.ru with
      enables := lane (param1 s) 0, masterEnable := bit (param1 s) 8, alarmMode := mode,
      logMask := lane (param3 s) 0, traceInterval := lowerHalf (param4 s), countdown := lowerHalf (param4 s) }
    accept (t.withEu { t.eu with pulse := pulseUnder mode t.eu.pulse })

def ownSetCounter (s : State) : Answer :=
  if 3 < (param1 s).toNat ∨ 9 < (param2 s).toNat ∨ 0xFFF < (param3 s).toNat then refuse .refusedParam s
  else
    let c : Counter :=
      { value := 0, select := BitVec.ofNat 4 (param2 s).toNat, mask := BitVec.ofNat 12 (param3 s).toNat }
    { accept (s.withRu { s.ru with counters := s.ru.counters.set (Fin.ofNat 4 (param1 s).toNat) c }) with
      posting := { counter := true } }

def ownClearStatus (s : State) : Answer :=
  accept (s.withRu { s.ru with
    seqErr := false, paramAdj := false, protect := false, taskFail := false, firstDrop := none })

def ownAcknowledge (s : State) : Answer :=
  if bits (param1 s) 8 24 ≠ 0 then refuse .refusedParam s
  else accept (s.withRu { s.ru with causes := s.ru.causes &&& ~~~(lane (param1 s) 0) })

/-! ### RESET PART (R33) -/

/-- Every block in its reset state, with the lock bits and the master lock kept, the straps resampled and local time
restarted. The level sampled is the one in `pins`: the row RESET_PART sets it, and a closing write given as UPSTREAM_WRITE
leaves it as it was (log 4). -/
def resetPart (s : State) : State :=
  let t := resetBlocks s
  let t := t.withPu (PathUnit.reset s.pins.cwsel)
  t.withTu { t.tu with directory := s.tu.directory.map DirEntry.uncheck, masterLock := s.tu.masterLock }

def ownResetPart (s : State) : Answer := accept s

/-! ### The owner of each command (R32) -/

def own (c : Command) (s : State) : Answer :=
  match c with
  | .defineLayout => ownDefineLayout s
  | .resetPart => ownResetPart s
  | .defineRing => ownDefineRing s
  | .ringOn => ownRingOn s
  | .ringOff => ownRingOff s
  | .resetRing => ownResetRing s
  | .setFraming => ownSetFraming s
  | .load => ownLoad s
  | .lockSlot => ownLockSlot s
  | .clearLocks => ownClearLocks s
  | .setMasterLock => ownSetMasterLock s
  | .clearSlot => ownClearSlot s
  | .sweep => ownSweep s
  | .suspendSweep => ownSuspendSweep s
  | .resumeSweep => ownResumeSweep s
  | .mount => ownMount s
  | .checkpoint => ownCheckpoint s
  | .release => ownRelease s
  | .clearCavity => ownClearCavity s
  | .clearMould => ownClearMould s
  | .setReporting => ownSetReporting s
  | .setCounter => ownSetCounter s
  | .clearStatus => ownClearStatus s
  | .acknowledge => ownAcknowledge s

end Sys2Proof.Machine
end

