-- ==== Sys2Proof/Machine/Decoder.lean ====
section
/-! DEFINITION. The Command Decoder (chapter 2): collecting a frame, the checks of a closing write, taking a command, and the
recording of an outcome. -/

namespace Sys2Proof.Machine

/-! ### Outcomes (R28, R30) -/

/-- The tally advances and RU keeps the code and the outcome; INVALID SEQUENCE sets SEQ_ERR. -/
def recordOutcome (code : Byte) (o : FrameOutcome) (s : State) : State :=
  let t := s.withCd { s.cd with tally := s.cd.tally + 1 }
  let t := t.withRu { t.ru with lastCode := code, lastOutcome := o.code }
  if o = .invalidSequence then setSeqErr t else t

def setDecoder (x : DecoderState) (s : State) : State := s.withCd { s.cd with state := x }

/-- A frame ends undispatched with an outcome, which is reported; CD returns to READY. -/
def endFrame (code : Byte) (o : FrameOutcome) (s : State) : State :=
  report {} s (recordOutcome code o (setDecoder .ready s))

/-! ### Collecting a frame (R21 to R24) -/

/-- A new frame opens with its latches zero and its marks clear (R21). -/
def beginFrame (value : Word) (s : State) : State :=
  s.withCd { s.cd with
    state := .collecting, opening := value, latch := Vector.replicate 14 0, written := Vector.replicate 14 false }

/-- A full-word write to word 0. An open frame is abandoned first (R22). -/
def openingWrite (value : Word) (s : State) : State :=
  match s.cd.state with
  | .ready => beginFrame value s
  | .collecting | .poisoned =>
    beginFrame value (report {} s (recordOutcome (codeOf s.cd.opening) .invalidSequence s))

/-- A full-word write to parameter word n + 1 (R23). -/
def parameterWrite (n : Fin 14) (value : Word) (s : State) : State :=
  match s.cd.state with
  | .collecting => s.withCd { s.cd with latch := s.cd.latch.set n value, written := s.cd.written.set n true }
  | .ready | .poisoned => s

/-- A partial write to any word (R24). -/
def poisonFrame (s : State) : State :=
  match s.cd.state with
  | .collecting => setDecoder .poisoned s
  | .ready | .poisoned => s

/-! ### Closing a frame (R25 to R27) -/

/-- Checks 3 to 5 of R26: the outcome of the first that fails. -/
def gate (c : Command) (s : State) : Option FrameOutcome :=
  if countOf s.cd.opening ≠ c.count then some .refusedParam
  else if s.ru.seqErr = true ∧ c.exempt = false then some .refusedHeld
  else if s.pu.layoutDefined = false ∧ c.needsLayout = true then some .refusedNotSetUp
  else none

/-- What follows the report of an outcome (log 14). -/
def followUp (f : Follow) (before after : State) : State :=
  match f with
  | .nothing => after
  | .channel c => refreshCovered c after
  | .profile => followProfile false before after

/-- The owner's effect and the outcome are reported together (R27). -/
def answerReport (c : Command) (a : Answer) (before : State) : State :=
  let t := recordOutcome c.code a.outcome (setDecoder .ready a.state)
  if c = .defineLayout ∧ a.outcome = .done then postDirty t else report a.posting before t

/-- A frame that passes all five checks is taken. RESET PART records DONE, and the reset that follows clears it
(R33, R34). -/
def takeCommand (c : Command) (s : State) : State :=
  if c = .resetPart then resetPart s
  else followUp (own c s).follow s (answerReport c (own c s) s)

/-- The closing write of a frame that passes checks 1 and 2. -/
def closeCommand (c : Command) (s : State) : State :=
  match gate c s with
  | some o => endFrame c.code o s
  | none => takeCommand c s

/-- A full-word write to word 15. -/
def closingWrite (value : Word) (s : State) : State :=
  match s.cd.state with
  | .ready => endFrame (codeOf (~~~value)) .noFrame s
  | .poisoned => endFrame (codeOf s.cd.opening) .invalidSequence s
  | .collecting =>
    if checkOne s.cd value = false then endFrame (codeOf s.cd.opening) .invalidSequence s
    else
      match Command.ofCode (codeOf s.cd.opening) with
      | none => endFrame (codeOf s.cd.opening) .refusedCode s
      | some c => closeCommand c s

/-- CD acts on the copy of a write to word `index` of the window (section 2.2). -/
def cdWrite (index : Nat) (be : Enables) (d : Word) (s : State) : State :=
  if be ≠ fullEnables then poisonFrame s
  else if index = 0 then openingWrite d s
  else if index = 15 then closingWrite d s
  else parameterWrite (Fin.ofNat 14 (index - 1)) d s

end Sys2Proof.Machine
end

