-- ==== Sys2Proof/Machine/Path.lean ====
section
/-! DEFINITION. The Path Unit (chapter 1): the holds, presentation and arrival of an upstream access, the arbiter's choices, the
performing of queued words, and the serving of task reads. -/

namespace Sys2Proof.Machine

/-! ### Holds (R15 to R17) -/

/-- The task read has waited 200 local microseconds (R17). -/
def promoted (s : State) (t : TaskRead) : Bool :=
  t.promoted || atOrAfter s.localTime (t.presentedAt + Config.taskWaitLimit)

/-- POST FULL (R15). -/
def postFullHolds (s : State) : Bool := decide (Config.postCapacity ≤ queueLength s.pu.queue)

/-- A word of the record is queued. -/
def recordQueued (q : List QueuedRecord) (id : RecordId) : Bool := q.any fun r => decide (r.id = id)

/-- RECORD READ (R16). -/
def recordReadHolds (s : State) : Access → Bool
  | .write _ _ _ => false
  | .read w _ =>
    match placeOf s.pu s.sf w with
    | .results n => ((recordOfResultsWord n).map (recordQueued s.pu.queue)).getD false
    | .slot _ _ => queuedWriteTo s.pu.queue w
    | .command _ | .ring _ _ | .other => false

/-- TASK WAIT (R17). -/
def taskWaitHolds (s : State) : Bool := (s.pu.taskRead.map (promoted s)).getD false

/-- The hold cases that apply to an access. -/
def holdsNow (s : State) (a : Access) : HoldMarks where
  postFull := postFullHolds s
  recordRead := recordReadHolds s a
  taskWait := taskWaitHolds s

/-- Some hold case applies. -/
def isHeld (s : State) (a : Access) : Bool := postFullHolds s || recordReadHolds s a || taskWaitHolds s

def HoldMarks.none : HoldMarks := { postFull := false, recordRead := false, taskWait := false }

/-- The outstanding access. -/
def setAccess (o : Option Outstanding) (s : State) : State := s.withPu { s.pu with access := o }

/-- A hold case that waits for a record or a task read held the access when it was last tested, and holds it still. -/
def waitsOn (s : State) (o : Outstanding) : Bool :=
  (o.standing.recordRead && recordReadHolds s o.access) || (o.standing.taskWait && taskWaitHolds s)

/-- The hold cases that are reported of an access. While it goes on waiting for another case to end, the queue's size does not
affect it; once that case has ended, every case is tested again (sections 1.8 and 1.11, R15; log 19). -/
def holdsOn (s : State) (o : Outstanding) : HoldMarks :=
  { holdsNow s o.access with postFull := postFullHolds s && !waitsOn s o }

/-- The hold cases are tested on the outstanding access o, and each that applies is reported once for it (section 1.8). -/
def noteHolds (o : Outstanding) (s : State) : State :=
  let m := holdsOn s o
  let t := countIf (m.postFull && !o.reported.postFull) (.hold .postFull) s
  let t := countIf (m.recordRead && !o.reported.recordRead) (.hold .recordRead) t
  let t := countIf (m.taskWait && !o.reported.taskWait) (.hold .taskWait) t
  setAccess (some { o with
    standing := holdsNow s o.access
    reported := { postFull := o.reported.postFull || m.postFull
                  recordRead := o.reported.recordRead || m.recordRead
                  taskWait := o.reported.taskWait || m.taskWait } }) t

/-- The hold cases are tested on the outstanding access, unless it has arrived. -/
def reportHolds (s : State) : State :=
  match s.pu.access with
  | .none => s
  | some o => if o.arrived then s else noteHolds o s

/-! ### Presentation and arrival (R1) -/

/-- The access is outstanding, with no hold reported. -/
def outstanding (a : Access) (arrived : Bool) (s : State) : State :=
  setAccess (some { access := a, reported := HoldMarks.none, standing := HoldMarks.none, arrived := arrived }) s

/-- PU tests the hold cases on an access that is presented: it arrives at once when none applies, and the holds that apply
are reported. -/
def meetHolds (a : Access) (s : State) : State := reportHolds (outstanding a (!isHeld s a) s)

/-- The access is presented; while RESETn is asserted it only waits. -/
def startAccess (a : Access) (s : State) : State := if s.inReset then outstanding a false s else meetHolds a s

/-- An access is presented; a master presents none while one is outstanding. It stays outstanding until its row completes it
(log 33). -/
def presentAccess (a : Access) (s : State) : State :=
  match s.pu.access with
  | .none => startAccess a s
  | some _ => s

/-- The outstanding access waits for a hold. -/
def accessHeld (s : State) : Bool := (s.pu.access.map fun o => !o.arrived && isHeld s o.access).getD false

/-- The outstanding access is completed, with the effect `k`, unless it is held. -/
def tryAccess (k : State → State) (s : State) : State :=
  if s.inReset then s
  else
    let t := reportHolds s
    if accessHeld t then t else k (setAccess .none t)

/-- The row of the access `a`, which is presented by this step if it is not outstanding already. -/
def arrive (a : Access) (k : State → State) (s : State) : State :=
  match s.pu.access with
  | .none => tryAccess k (startAccess a s)
  | some o => if o.access = a then tryAccess k s else s

/-! ### An upstream write (R1 to R3, R7, R8) -/

/-- The copy of a write that is not dropped goes to the block of its window (R3). -/
def copyWrite (p : Place) (be : Enables) (d : Word) (s : State) : State :=
  match p with
  | .command n => cdWrite n be d s
  | .ring r off => ringWrite r off be d s
  | .slot n _ => slotTouched n s
  | .results _ | .other => s

/-- A write that arrives: dropped, or performed at memory and copied. -/
def writeArrives (w : WordAddr) (be : Enables) (d : Word) (s : State) : State :=
  match protection s.tu (placeOf s.pu s.sf w) with
  | some kind => report {} s (noteDrop kind (BitVec.ofNat 24 (byteAddr w)) s)
  | none => copyWrite (placeOf s.pu s.sf w) be d (s.withMem (s.mem.writeWord w be d))

/-- An upstream write. -/
def busWrite (w : WordAddr) (be : Enables) (d : Word) (s : State) : State :=
  arrive (.write w be d) (writeArrives w be d) s

/-- A full-word write to word n of the command window. -/
def windowWrite (n : Nat) (d : Word) (s : State) : State := busWrite (commandWordAddr s.pu.strap n) fullEnables d s

/-! ### An upstream read (R1) -/

/-- A read that arrives: the word at memory is passed upstream. The spec does not state the lanes that are not enabled:
they are free bits (log 8). -/
def readArrives (w : WordAddr) (be : Enables) (s : State) : State :=
  (s.withReadData (mergeLanes be (s.mem.readWord w) s.freeBits.lanes)).takeFree

def busRead (w : WordAddr) (be : Enables) (s : State) : State := arrive (.read w be) (readArrives w be) s

/-! ### The arbiter (R13, R14) -/

/-- The access has arrived and is not complete: the port is busy with it (R13). -/
def portTaken (s : State) : Bool := (s.pu.access.map Outstanding.arrived).getD false

/-- An upstream access has arrived, or is presented and no hold case applies to it (choice 2). -/
def accessEligible (s : State) : Bool := (s.pu.access.map fun o => o.arrived || !isHeld s o.access).getD false

/-- The task read is not behind a queued write to its word (R14). -/
def readClear (s : State) (t : TaskRead) : Bool := !queuedWriteTo s.pu.queue t.addr

/-- Choice 1: a promoted task read that can be served. -/
def choiceOne (s : State) : Bool := (s.pu.taskRead.map fun t => promoted s t && readClear s t).getD false

/-- The arbiter serves the head of the post queue: choice 3, or the words ahead of a promoted task read. -/
def servesPost (s : State) : Bool := !s.pu.queue.isEmpty && !choiceOne s && !accessEligible s

/-- The arbiter serves this task read: choice 1 or choice 4, and no access that has arrived is interrupted. -/
def servesRead (s : State) (t : TaskRead) : Bool :=
  readClear s t && ((promoted s t && !portTaken s) || (!accessEligible s && s.pu.queue.isEmpty))

/-! ### A queued word is performed (R12) -/

/-- The post queue after the head word d of its head record r. -/
def queueAfter (r : QueuedRecord) (ds : List Word) (rest : List QueuedRecord) : List QueuedRecord :=
  if ds = [] then rest else { r with addr := r.addr + 1, words := ds, begun := true } :: rest

/-- Record 15 of a slot image ends the image; TU acts on its completion (R134). -/
def recordCompletes (id : RecordId) (before s : State) : State :=
  match id with
  | .slot n k => if k = 15 then reportTask {} false before (imageComplete n s) else s
  | .status | .counter | .directory | .verdict _ | .trace _ | .log _ => s

/-- The head word of the queue is written at memory and leaves the queue. A word that completes a record brings both the report
of the completion (R12) and the report that room appears (R10), and the spec gives them no order: the model applies the
completion first, with what TU and RU do at it, and the room is asked for in later rows (log 42). -/
def performWord (s : State) : State :=
  match s.pu.queue with
  | [] => s
  | r :: rest =>
    match r.words with
    | [] => s.withPu { s.pu with queue := rest }
    | d :: ds =>
      let t := s.withMem (s.mem.writeWord r.addr fullEnables d)
      let t := t.withPu { t.pu with queue := queueAfter r ds rest }
      if ds = [] then recordCompletes r.id s t else t

/-! ### A task read is served (R14, R17) -/

/-- What RU posts beside the status and directory records when the data return. -/
def readPosting (d : Word) (s : State) : Posting := if dataMounts d s then { verdicts := allCavities } else {}

/-- The word at memory goes to TU. -/
def serveRead (t : TaskRead) (s : State) : State :=
  let d := s.mem.readWord t.addr
  let u := s.withPu { s.pu with taskRead := none }
  reportTask (readPosting d u) (dataLoadsProfile d u) s (taskData d u)

/-- The task read becomes promoted. -/
def promoteRead (t : TaskRead) (s : State) : State :=
  s.withPu { s.pu with taskRead := some { t with promoted := true } }

end Sys2Proof.Machine
end

