-- ==== Sys2Proof/Machine/Resets.lean ====
section
/-! DEFINITION. The meanings of the reset rows (R1, R4, R18). The outcome of every row is a next state. -/

namespace Sys2Proof.Machine

/-- The outcome of a step of the part. -/
abbrev Result := Host.Outcome State Fault Refusal

/-- The state while RESETn is asserted: every block in its reset state, local time not running, and an access that is
outstanding still presented (R1; log 20). The strap value of the last sampling stays until the release (log 32). -/
def assertReset (s : State) : State :=
  let t := { resetBlocks s with inReset := true }
  t.withPu { PathUnit.reset s.pu.strap with
    access := s.pu.access.map fun o => { o with reported := HoldMarks.none, standing := HoldMarks.none, arrived := false } }

/-- RESETn is released: PU samples the straps and local time starts from 0 (R4). An access that was presented during reset
now meets the holds, on the same terms as any other access (R1). -/
def releaseReset (straps : BitVec 4) (s : State) : State :=
  let t := { s with pins := { s.pins with cwsel := straps }, inReset := false, localTime := 0 }
  let t := t.withPu { t.pu with strap := straps }
  match t.pu.access with
  | .none => t
  | some o => meetHolds o.access t

/-- RESETN_ASSERT. -/
def execResetnAssert (s : State) : Result := .next (assertReset s)

/-- RESETN_RELEASE; it takes place while RESETn is asserted. -/
def execResetnRelease (straps : BitVec 4) (s : State) : Result :=
  .next (if s.inReset then releaseReset straps s else s)

end Sys2Proof.Machine
end

