-- ==== Sys2Proof/Machine/Bus.lean ====
section
/-! DEFINITION. The meanings of the bus rows (chapter 1): an access presented, an upstream write, an upstream read. -/

namespace Sys2Proof.Machine

/-- UPSTREAM_ACCESS_PRESENTED. -/
def execUpstreamAccessPresented (a : Access) (s : State) : Result := .next (presentAccess a s)

/-- UPSTREAM_WRITE. The row carries no pin level: a command that it closes finds SERVICE and the straps as `pins` holds them
(R27, R140, R4; log 4). -/
def execUpstreamWrite (addr : WordAddr) (be : Enables) (data : Word) (s : State) : Result :=
  .next (busWrite addr be data s)

/-- UPSTREAM_READ. -/
def execUpstreamRead (addr : WordAddr) (be : Enables) (s : State) : Result := .next (busRead addr be s)

end Sys2Proof.Machine
end

