-- ==== Sys2Proof/Machine/Frames.lean ====
section
/-! DEFINITION. The meanings of the rows of chapter 2 that are writes to the command window: the collecting writes, and the
closing writes that end a frame undispatched. Each is an upstream write; a row whose condition does not hold does not
take place (log 1). -/

namespace Sys2Proof.Machine

/-- OPENING_WORD_WRITE (R21, R22). -/
def execOpeningWordWrite (value : Word) (s : State) : Result := .next (windowWrite 0 value s)

/-- PARAMETER_WORD_WRITE (R23). -/
def execParameterWordWrite (index : BitVec 4) (value : Word) (s : State) : Result :=
  .next (if parameterIndexOk index then windowWrite index.toNat value s else s)

/-- PARTIAL_WRITE (R24). -/
def execPartialWrite (index : BitVec 4) (be : Enables) (value : Word) (s : State) : Result :=
  .next (if partialEnablesOk be then busWrite (commandWordAddr s.pu.strap index.toNat) be value s else s)

/-- NO_FRAME (R25): the decoder is READY. -/
def execNoFrame (value : Word) (s : State) : Result :=
  .next (if s.cd.state = .ready then windowWrite 15 value s else s)

/-- The closing write ends a poisoned frame or fails check 1. -/
def endsInvalid (s : State) (value : Word) : Bool :=
  match s.cd.state with
  | .ready => false
  | .poisoned => true
  | .collecting => !checkOne s.cd value

/-- INVALID_SEQUENCE (R25, R26). -/
def execInvalidSequence (value : Word) (s : State) : Result :=
  .next (if endsInvalid s value then windowWrite 15 value s else s)

/-- A well-formed frame with a code that is not known is open. -/
def framesUnknown (s : State) : Bool :=
  s.cd.state == .collecting && checkOne s.cd (closingOf s.cd.opening) &&
    (Command.ofCode (codeOf s.cd.opening)).isNone

/-- REFUSED_CODE (R26 check 2, R32). -/
def execRefusedCode (s : State) : Result :=
  .next (if framesUnknown s then windowWrite 15 (closingOf s.cd.opening) s else s)

end Sys2Proof.Machine
end

