-- ==== Sys2Proof/Machine/Commands.lean ====
section
/-! DEFINITION. The meanings of the rows of the commands of R32: the arrival of the closing write of a frame of that command.
The frame is the one in CD's latches (R26); where no such frame is open the row does not take place (log 1). -/

namespace Sys2Proof.Machine

/-- The closing write of the open frame, if it is a frame of this command, taken with the pins at these levels. -/
def commandRow (c : Command) (pins : Pins) (s : State) : State :=
  if framesCommand c s then windowWrite 15 (closingOf s.cd.opening) (s.withPins pins) else s

/-- The pins with the SERVICE key at this level. -/
def withService (b : Bool) (s : State) : Pins := { s.pins with service := b }

/-- The pins with the straps at these levels. -/
def withStraps (x : BitVec 4) (s : State) : Pins := { s.pins with cwsel := x }

/-- DEFINE_LAYOUT (R5, R6). -/
def execDefineLayout (s : State) : Result := .next (commandRow .defineLayout s.pins s)

/-- RESET_PART (R33), with the levels of the straps. -/
def execResetPart (straps : BitVec 4) (s : State) : Result :=
  .next (commandRow .resetPart (withStraps straps s) s)

/-- DEFINE_RING (R39). -/
def execDefineRing (s : State) : Result := .next (commandRow .defineRing s.pins s)

/-- RING_ON (R41). -/
def execRingOn (s : State) : Result := .next (commandRow .ringOn s.pins s)

/-- RING_OFF (R42). -/
def execRingOff (s : State) : Result := .next (commandRow .ringOff s.pins s)

/-- RESET_RING (R43). -/
def execResetRing (s : State) : Result := .next (commandRow .resetRing s.pins s)

/-- SET_FRAMING (R40). -/
def execSetFraming (s : State) : Result := .next (commandRow .setFraming s.pins s)

/-- LOAD (R121). -/
def execLoad (s : State) : Result := .next (commandRow .load s.pins s)

/-- LOCK_SLOT (R139), with the level of SERVICE. -/
def execLockSlot (service : Bool) (s : State) : Result :=
  .next (commandRow .lockSlot (withService service s) s)

/-- CLEAR_LOCKS (R139), with the level of SERVICE. -/
def execClearLocks (service : Bool) (s : State) : Result :=
  .next (commandRow .clearLocks (withService service s) s)

/-- SET_MASTER_LOCK (R140), with the level of SERVICE. -/
def execSetMasterLock (service : Bool) (s : State) : Result :=
  .next (commandRow .setMasterLock (withService service s) s)

/-- CLEAR_SLOT (R141), with the level of SERVICE. -/
def execClearSlot (service : Bool) (s : State) : Result :=
  .next (commandRow .clearSlot (withService service s) s)

/-- SWEEP (R138). -/
def execSweep (s : State) : Result := .next (commandRow .sweep s.pins s)

/-- SUSPEND_SWEEP (R129). -/
def execSuspendSweep (s : State) : Result := .next (commandRow .suspendSweep s.pins s)

/-- RESUME_SWEEP (R130). -/
def execResumeSweep (s : State) : Result := .next (commandRow .resumeSweep s.pins s)

/-- MOUNT (R143). -/
def execMount (s : State) : Result := .next (commandRow .mount s.pins s)

/-- CHECKPOINT (R151). -/
def execCheckpoint (s : State) : Result := .next (commandRow .checkpoint s.pins s)

/-- RELEASE (R152). -/
def execRelease (s : State) : Result := .next (commandRow .release s.pins s)

/-- CLEAR_CAVITY (R106). -/
def execClearCavity (s : State) : Result := .next (commandRow .clearCavity s.pins s)

/-- CLEAR_MOULD (R107). -/
def execClearMould (s : State) : Result := .next (commandRow .clearMould s.pins s)

/-- SET_REPORTING (R162). -/
def execSetReporting (s : State) : Result := .next (commandRow .setReporting s.pins s)

/-- SET_COUNTER (R158). -/
def execSetCounter (s : State) : Result := .next (commandRow .setCounter s.pins s)

/-- CLEAR_STATUS (R159). -/
def execClearStatus (s : State) : Result := .next (commandRow .clearStatus s.pins s)

/-- ACKNOWLEDGE (R161). -/
def execAcknowledge (s : State) : Result := .next (commandRow .acknowledge s.pins s)

end Sys2Proof.Machine
end

