-- ==== Sys2Proof/Machine/Events.lean ====
section
/-! DEFINITION. The meanings of the rows that are the part's own steps: the arbiter's completions, the retries on room, the
timers, and the Hit Extractor's progress. A row whose condition does not hold does not take place (log 1). -/

namespace Sys2Proof.Machine

/-- A step of the part's own: none happens while RESETn is asserted (R1). The holds are tested before it, since the local time
may have promoted the task read, and so an access that a word or a read goes before is counted under what holds it (R15, R17;
log 18); and after it, since it may have ended a hold or brought one, by the words it performs and the records it enqueues
(section 1.8; log 19). -/
def whileRunning (f : State → State) (s : State) : State := if s.inReset then s else reportHolds (f (reportHolds s))

/-- POST_WORD_PERFORMED (R12, R13). -/
def execPostWordPerformed (s : State) : Result :=
  .next (whileRunning (fun s => if servesPost s then performWord s else s) s)

/-- TASK_RECORD_ENQUEUE (R134): TU asks again. -/
def execTaskRecordEnqueue (s : State) : Result := .next (whileRunning (askRecords 16) s)

/-- DIRTY_RECORD_POST (R154). -/
def execDirtyRecordPost (s : State) : Result := .next (whileRunning postDirty s)

/-- The task read is served when the arbiter chooses it. -/
def serveIfChosen (s : State) : State :=
  match s.pu.taskRead with
  | some t => if servesRead s t then serveRead t s else s
  | none => s

/-- TASK_READ_DATA (R13, R14). -/
def execTaskReadData (s : State) : Result := .next (whileRunning serveIfChosen s)

/-- The task read is promoted when it has waited long enough. -/
def promoteIfDue (s : State) : State :=
  match s.pu.taskRead with
  | some t => if promoted s t then promoteRead t s else s
  | none => s

/-- TASK_WAIT_EXPIRY (R17). -/
def execTaskWaitExpiry (s : State) : Result := .next (whileRunning promoteIfDue s)

/-- BLOCK_TIMEOUT of a ring (R47). -/
def execBlockTimeout (ring : Fin 8) (s : State) : Result := .next (whileRunning (timeoutBlock ring) s)

/-- RING_STALE of a ring (R53). -/
def execRingStale (ring : Fin 8) (s : State) : Result := .next (whileRunning (staleRing ring) s)

/-- An alarm pulse ends 50,000 local microseconds after its start (R109). -/
def endPulse (s : State) : State :=
  match s.eu.pulse with
  | some t => if atOrAfter s.localTime (t + Config.pulseLength) then s.withEu { s.eu with pulse := none } else s
  | none => s

/-- ALARM_PULSE_END (R109). -/
def execAlarmPulseEnd (s : State) : Result := .next (whileRunning endPulse s)

/-- HX, when it is free, takes the entry at the head of the accepted-block queue (R52, R58). -/
def takeBlock (s : State) : State :=
  match s.hx.block, s.sf.queue with
  | none, e :: rest => beginBlock e (s.withSf { s.sf with queue := rest })
  | none, [] => s
  | some _, _ => s

/-- BLOCK_BEGIN (R58). -/
def execBlockBegin (s : State) : Result := .next (whileRunning takeBlock s)

/-- HX processes a sample of the block it holds. -/
def takeNextSample (s : State) : State :=
  match s.hx.block with
  | some w => if w.next < 128 then processSample w s else s
  | none => s

/-- SAMPLE_PROCESSED (R62). -/
def execSampleProcessed (s : State) : Result := .next (whileRunning takeNextSample s)

end Sys2Proof.Machine
end

