-- ==== Sys2Proof/Machine/Dispatch.lean ====
section
/-! DEFINITION. The dispatch: one arm per row of the table, each one call of the row's meaning. -/

namespace Sys2Proof.Machine

/-- The effect of a command on everything but the queue. -/
def exec (i : Instr) (s : State) : Host.Outcome State Fault Refusal :=
  match i with
  | .resetnAssert => Sys2Proof.Machine.execResetnAssert s
  | .resetnRelease straps => Sys2Proof.Machine.execResetnRelease straps s
  | .upstreamAccessPresented a => Sys2Proof.Machine.execUpstreamAccessPresented a s
  | .upstreamWrite addr be data => Sys2Proof.Machine.execUpstreamWrite addr be data s
  | .upstreamRead addr be => Sys2Proof.Machine.execUpstreamRead addr be s
  | .openingWordWrite value => Sys2Proof.Machine.execOpeningWordWrite value s
  | .parameterWordWrite index value => Sys2Proof.Machine.execParameterWordWrite index value s
  | .partialWrite index be value => Sys2Proof.Machine.execPartialWrite index be value s
  | .noFrame value => Sys2Proof.Machine.execNoFrame value s
  | .invalidSequence value => Sys2Proof.Machine.execInvalidSequence value s
  | .refusedCode => Sys2Proof.Machine.execRefusedCode s
  | .defineLayout => Sys2Proof.Machine.execDefineLayout s
  | .resetPart straps => Sys2Proof.Machine.execResetPart straps s
  | .defineRing => Sys2Proof.Machine.execDefineRing s
  | .ringOn => Sys2Proof.Machine.execRingOn s
  | .ringOff => Sys2Proof.Machine.execRingOff s
  | .resetRing => Sys2Proof.Machine.execResetRing s
  | .setFraming => Sys2Proof.Machine.execSetFraming s
  | .load => Sys2Proof.Machine.execLoad s
  | .lockSlot service => Sys2Proof.Machine.execLockSlot service s
  | .clearLocks service => Sys2Proof.Machine.execClearLocks service s
  | .setMasterLock service => Sys2Proof.Machine.execSetMasterLock service s
  | .clearSlot service => Sys2Proof.Machine.execClearSlot service s
  | .sweep => Sys2Proof.Machine.execSweep s
  | .suspendSweep => Sys2Proof.Machine.execSuspendSweep s
  | .resumeSweep => Sys2Proof.Machine.execResumeSweep s
  | .mount => Sys2Proof.Machine.execMount s
  | .checkpoint => Sys2Proof.Machine.execCheckpoint s
  | .release => Sys2Proof.Machine.execRelease s
  | .clearCavity => Sys2Proof.Machine.execClearCavity s
  | .clearMould => Sys2Proof.Machine.execClearMould s
  | .setReporting => Sys2Proof.Machine.execSetReporting s
  | .setCounter => Sys2Proof.Machine.execSetCounter s
  | .clearStatus => Sys2Proof.Machine.execClearStatus s
  | .acknowledge => Sys2Proof.Machine.execAcknowledge s
  | .postWordPerformed => Sys2Proof.Machine.execPostWordPerformed s
  | .taskRecordEnqueue => Sys2Proof.Machine.execTaskRecordEnqueue s
  | .dirtyRecordPost => Sys2Proof.Machine.execDirtyRecordPost s
  | .taskReadData => Sys2Proof.Machine.execTaskReadData s
  | .taskWaitExpiry => Sys2Proof.Machine.execTaskWaitExpiry s
  | .blockTimeout ring => Sys2Proof.Machine.execBlockTimeout ring s
  | .ringStale ring => Sys2Proof.Machine.execRingStale ring s
  | .alarmPulseEnd => Sys2Proof.Machine.execAlarmPulseEnd s
  | .blockBegin => Sys2Proof.Machine.execBlockBegin s
  | .sampleProcessed => Sys2Proof.Machine.execSampleProcessed s

end Sys2Proof.Machine
end

