-- ==== Sys2Proof/Machine/Step.lean ====
section
/-! DEFINITION. One step: the command at the front of the queue, or one local microsecond when none waits. -/

namespace Sys2Proof.Machine

/-- One microsecond of local time passes; local time does not run while RESETn is asserted (log 3). -/
def tick (s : State) : State := if s.inReset then s else { s with localTime := s.localTime + 1 }

/-- The command at the front of the queue acts on the state with the queue's rest; on an empty queue local time passes. -/
def step (s : State) : Host.Outcome State Fault Refusal :=
  match s.pending with
  | [] => .next (tick s)
  | c :: rest => exec c (s.withPending rest)

/-- The state with the command that the word spells at the front of the queue; unchanged where it spells none. -/
def State.withFetchWord (s : State) (nbits w : Nat) : State :=
  match decodeTableWord nbits w with
  | some c => s.withPending (c :: s.pending)
  | none => s

end Sys2Proof.Machine
end

