-- ==== Sys2Proof/Safety.lean ====
section
/-! DEFINITION. What a safe run is, and the conditions the statements are made under: when an access arrives at once, when a
command is taken, and the invariants of the part. -/

namespace Sys2Proof.Machine

/-! ### Runs -/

/-- A run of n steps from s reaches t without a fault or a refusal. -/
def reaches : Nat → State → State → Prop
  | 0, s, t => s = t
  | n + 1, s, t => ∃ u, step s = .next u ∧ reaches n u t

/-- A state from which no step faults or is refused, now and after. -/
def safe (s : State) : Prop := ∀ n t, reaches n s t → ∃ u, step t = .next u

/-! ### Conditions -/

/-- The access arrives as soon as it is presented: RESETn is not asserted, no other access is outstanding and no hold
case applies (R1). -/
def arrivesAtOnce (s : State) (a : Access) : Prop := s.inReset = false ∧ s.pu.access = none ∧ isHeld s a = false

/-- A write arrives as soon as it is presented: no hold case of a write applies (R15, R17). -/
def writesFreely (s : State) : Prop :=
  s.inReset = false ∧ s.pu.access = none ∧ postFullHolds s = false ∧ taskWaitHolds s = false

/-- A frame of the command is open and complete, and passes every check of R26 when it is closed by its complement. -/
def taken (c : Command) (s : State) : Prop := framesCommand c s = true ∧ gate c s = none

/-- The state in which the owner of a command finds the part: the closing write has been performed at memory. -/
def closed (s : State) : State :=
  s.withMem (s.mem.writeWord (commandWordAddr s.pu.strap 15) fullEnables (closingOf s.cd.opening))

/-- The head word of the post queue, with its word address. -/
def headWord : List QueuedRecord → Option (WordAddr × Word)
  | [] => none
  | r :: _ => r.words.head?.map fun d => (r.addr, d)

/-! ### Invariants -/

/-- No queue or pool holds more than its size (R10, R50, R75, R97). -/
structure withinCapacity (s : State) : Prop where
  post : queueLength s.pu.queue ≤ Config.postCapacity
  accepted : s.sf.queue.length ≤ Config.acceptedCapacity
  pool : s.el.pool.length ≤ Config.poolCapacity
  cycles : s.eu.cycles.length ≤ Config.cycleCapacity

/-- The hot count of a cavity is the number of 1 bits of its history (R95). -/
def hotMatches (r : CavityRecord) : Prop := r.hot = hotCount r.history

/-- Every cavity of the mould EU holds has the hot count of its history. -/
def hotCountsMatch (s : State) : Prop := ∀ m, s.eu.mould = some m → ∀ r ∈ m.cavities, hotMatches r

/-! ### What a step leaves alone -/

/-- The parts of the state that an operation may change. Pins, RESETn, local time and the waiting commands are changed by
none of the operations below. `queue` is the post queue, `read` the presented task read, `pu` the rest of PU. -/
structure Touch where
  mem : Bool := false
  readData : Bool := false
  cd : Bool := false
  pu : Bool := false
  access : Bool := false
  queue : Bool := false
  read : Bool := false
  sf : Bool := false
  hx : Bool := false
  el : Bool := false
  zones : Bool := false
  eu : Bool := false
  euState : Bool := false
  tu : Bool := false
  ru : Bool := false
  free : Bool := false

/-- From s to t nothing has changed but the parts that `m` names. -/
structure Within (m : Touch) (s t : State) : Prop where
  pins : t.pins = s.pins
  inReset : t.inReset = s.inReset
  localTime : t.localTime = s.localTime
  pending : t.pending = s.pending
  mem : m.mem = false → t.mem = s.mem
  readData : m.readData = false → t.readData = s.readData
  cd : m.cd = false → t.cd = s.cd
  strap : m.pu = false → t.pu.strap = s.pu.strap
  layoutDefined : m.pu = false → t.pu.layoutDefined = s.pu.layoutDefined
  resultsBase : m.pu = false → t.pu.resultsBase = s.pu.resultsBase
  archiveBase : m.pu = false → t.pu.archiveBase = s.pu.archiveBase
  access : m.access = false → t.pu.access = s.pu.access
  queue : m.queue = false → t.pu.queue = s.pu.queue
  taskRead : m.read = false → t.pu.taskRead = s.pu.taskRead
  sf : m.sf = false → t.sf = s.sf
  hx : m.hx = false → t.hx = s.hx
  el : m.el = false → t.el = s.el
  zones : m.zones = false → t.el.zones = s.el.zones
  eu : m.eu = false → t.eu = s.eu
  euState : m.euState = false → t.eu.state = s.eu.state
  tu : m.tu = false → t.tu = s.tu
  ru : m.ru = false → t.ru = s.ru
  free : m.free = false → t.free = s.free

/-! ### Touches in use -/

/-- RU alone. -/
abbrev Touch.onlyRu : Touch := { ru := true }

/-- RU posts: the post queue, RU and the free bits. -/
abbrev Touch.post : Touch := { queue := true, ru := true, free := true }

/-- A cycle closes: what posting touches, and EU's records. -/
abbrev Touch.close : Touch := { queue := true, ru := true, free := true, eu := true }

/-- An event forms: what a close touches, and EL but not the zone map. -/
abbrev Touch.locate : Touch := { queue := true, ru := true, free := true, eu := true, el := true }

/-- A hit or a covered-to time: what an event touches, and HX. -/
abbrev Touch.extract : Touch := { queue := true, ru := true, free := true, eu := true, el := true, hx := true }

/-- A write of a ring: what HX touches, and SF. -/
abbrev Touch.frame : Touch :=
  { queue := true, ru := true, free := true, eu := true, el := true, hx := true, sf := true }

/-- A step of a task: PU's queue and task read, EL, EU, TU and RU. -/
abbrev Touch.task : Touch :=
  { queue := true, read := true, ru := true, free := true, eu := true, euState := true, el := true, zones := true,
    tu := true }

/-- The RU items that no posting changes. -/
structure PostKeeps (s t : State) : Prop where
  seqErr : t.ru.seqErr = s.ru.seqErr
  paramAdj : t.ru.paramAdj = s.ru.paramAdj
  protect : t.ru.protect = s.ru.protect
  taskFail : t.ru.taskFail = s.ru.taskFail
  firstDrop : t.ru.firstDrop = s.ru.firstDrop
  enables : t.ru.enables = s.ru.enables
  masterEnable : t.ru.masterEnable = s.ru.masterEnable
  lastCode : t.ru.lastCode = s.ru.lastCode
  lastOutcome : t.ru.lastOutcome = s.ru.lastOutcome
  lastTask : t.ru.lastTask = s.ru.lastTask
  lastResult : t.ru.lastResult = s.ru.lastResult
  traceInterval : t.ru.traceInterval = s.ru.traceInterval
  countdown : t.ru.countdown = s.ru.countdown
  logMask : t.ru.logMask = s.ru.logMask
  alarmMode : t.ru.alarmMode = s.ru.alarmMode
  verdictWords : t.ru.verdictWords = s.ru.verdictWords
  traceWords : t.ru.traceWords = s.ru.traceWords
  /-- only TRACE can become pending -/
  causes : t.ru.causes = s.ru.causes ∨ t.ru.causes = s.ru.causes ||| (1#8 <<< Cause.trace.bitNo)

/-- The counters are kept too: what no posting but that of a log entry changes. -/
def CountersKept (s t : State) : Prop := t.ru.counters = s.ru.counters ∧ t.ru.logHead = s.ru.logHead

/-- What stands in the post queue for a record: which it is, where it goes, how much of it is left, and whether it has
begun. -/
def QueuedRecord.place (r : QueuedRecord) : RecordId × WordAddr × Nat × Bool := (r.id, r.addr, r.words.length, r.begun)

/-- The records whose queued copies may be replaced (R154): all but the log entries (R156) and TU's slot records. -/
def RecordId.replaceable : RecordId → Bool
  | .status | .counter | .directory | .verdict _ | .trace _ => true
  | .log _ | .slot _ _ => false

/-- The records queued in s keep their places in t and new ones stand behind them (R10); only the words of a replaceable
copy that has not begun can differ (R11). -/
structure QueueKept (s t : State) : Prop where
  places : ∃ new, t.pu.queue.map QueuedRecord.place = s.pu.queue.map QueuedRecord.place ++ new
  words : ∀ (i : Nat) (r : QueuedRecord), s.pu.queue[i]? = some r → r.begun = true ∨ r.id.replaceable = false →
    t.pu.queue[i]? = some r

/-- t is s but for the records that RU has posted (R154): the queue is kept, new records stand behind it, and of RU only the
dirty marks and the TRACE cause can differ. -/
structure PostedFrom (s t : State) : Prop where
  within : Within .post s t
  keeps : PostKeeps s t
  counters : CountersKept s t
  queue : QueueKept s t

/-- The RU items that no event and no close of a cycle changes; no cause stops being pending. -/
structure EventsKeep (s t : State) : Prop where
  seqErr : t.ru.seqErr = s.ru.seqErr
  paramAdj : t.ru.paramAdj = s.ru.paramAdj
  protect : t.ru.protect = s.ru.protect
  taskFail : t.ru.taskFail = s.ru.taskFail
  firstDrop : t.ru.firstDrop = s.ru.firstDrop
  enables : t.ru.enables = s.ru.enables
  masterEnable : t.ru.masterEnable = s.ru.masterEnable
  lastCode : t.ru.lastCode = s.ru.lastCode
  lastOutcome : t.ru.lastOutcome = s.ru.lastOutcome
  lastTask : t.ru.lastTask = s.ru.lastTask
  lastResult : t.ru.lastResult = s.ru.lastResult
  traceInterval : t.ru.traceInterval = s.ru.traceInterval
  logMask : t.ru.logMask = s.ru.logMask
  alarmMode : t.ru.alarmMode = s.ru.alarmMode
  causes : t.ru.causes &&& s.ru.causes = s.ru.causes

/-- A counter that counts neither EVENTS nor LOG nor CYCLES (R158). -/
def Counter.apartFromEvents (c : Counter) : Prop := c.select ≠ 5 ∧ c.select ≠ 8 ∧ c.select ≠ 9

/-- t is s but for events that have formed, cycles that have closed, and what RU has posted of them: of the counters only
those of EVENTS, LOG and CYCLES can differ, and the queue is kept. -/
structure Located (s t : State) : Prop where
  within : Within .locate s t
  keeps : EventsKeep s t
  counters : ∀ n : Fin 4, s.ru.counters[n].apartFromEvents → t.ru.counters[n] = s.ru.counters[n]
  queue : QueueKept s t

/-! ### Frames and their ends -/

/-- The row of a command, with the pins it samples at these levels. -/
def Command.row (c : Command) (p : Pins) : Instr :=
  match c with
  | .defineLayout => .defineLayout
  | .resetPart => .resetPart p.cwsel
  | .defineRing => .defineRing
  | .ringOn => .ringOn
  | .ringOff => .ringOff
  | .resetRing => .resetRing
  | .setFraming => .setFraming
  | .load => .load
  | .lockSlot => .lockSlot p.service
  | .clearLocks => .clearLocks p.service
  | .setMasterLock => .setMasterLock p.service
  | .clearSlot => .clearSlot p.service
  | .sweep => .sweep
  | .suspendSweep => .suspendSweep
  | .resumeSweep => .resumeSweep
  | .mount => .mount
  | .checkpoint => .checkpoint
  | .release => .release
  | .clearCavity => .clearCavity
  | .clearMould => .clearMould
  | .setReporting => .setReporting
  | .setCounter => .setCounter
  | .clearStatus => .clearStatus
  | .acknowledge => .acknowledge

/-- Check 1 of R26 on a closing word d. -/
def passesCheckOne (s : State) (d : Word) : Prop :=
  d = ~~~s.cd.opening ∧ s.cd.opening.toNat % 2 ^ 20 = 0 ∧ countOf s.cd.opening ≤ 14 ∧
    ∀ i : Fin 14, i.val < countOf s.cd.opening → s.cd.written[i] = true

/-- A full-word write of d to word n of the command window has been performed, and nothing else. -/
def windowWritten (n : Nat) (d : Word) (s : State) : State :=
  { s with mem := s.mem.writeWord (commandWordAddr s.pu.strap n) fullEnables d }

/-- A closing write of d has ended a frame (R25, R26, R28): the write performed, the decoder READY, the tally advanced, the
code and the outcome kept, SEQ_ERR set by INVALID SEQUENCE, and nothing else changed. -/
def frameEnded (code : Byte) (o : FrameOutcome) (d : Word) (s : State) : State :=
  { windowWritten 15 d s with
    cd := { s.cd with state := .ready, tally := s.cd.tally + 1 }
    ru := { s.ru with
      seqErr := if o = .invalidSequence then true else s.ru.seqErr, lastCode := code, lastOutcome := o.code } }

/-- A frame of the command has ended with an outcome of its owner, or of the checks that follow its code, and nothing else
has changed. -/
def finished (c : Command) (o : FrameOutcome) (s : State) : State := frameEnded c.code o (~~~s.cd.opening) s

/-! ### Windows -/

/-- No byte address lies in both of two runs of bytes. -/
def apart (a n b m : Nat) : Prop := ∀ x, ¬ (a ≤ x ∧ x < a + n ∧ b ≤ x ∧ x < b + m)

/-- The first byte of the command window (R4). -/
def commandBase (s : State) : Nat := s.pu.strap.toNat * 0x100000 + 0xFFFC0

/-- The run of bytes overlaps no defined ring's window but that of the rings left out. -/
def apartFromRings (a n : Nat) (s : State) (leftOut : Fin 8 → Prop) : Prop :=
  ∀ q : Fin 8, s.sf.rings[q].defined = true → ¬ leftOut q →
    apart a n s.sf.rings[q].base.toNat (272 * s.sf.rings[q].blocks)

/-- Checks 2 to 5 of R5 on a results base and an archive base. -/
def layoutFits (s : State) (results archive : Nat) : Prop :=
  results < 2 ^ 24 ∧ archive < 2 ^ 24 ∧ results % 0x40 = 0 ∧ archive % 0x400 = 0 ∧
    results ≤ 0xFFEC00 ∧ archive ≤ 0xFFD000 ∧ apart results 0x1400 archive 0x3000 ∧
    apart results 0x1400 (commandBase s) 64 ∧ apart archive 0x3000 (commandBase s) 64 ∧
    apartFromRings results 0x1400 s (fun _ => False) ∧ apartFromRings archive 0x3000 s (fun _ => False)

/-- Checks 3 to 5 of R39 on a ring's channel, base and number of blocks. -/
def ringFits (s : State) (r c : Fin 8) (base blocks : Nat) : Prop :=
  2 ≤ blocks ∧ blocks ≤ 1024 ∧ base < 2 ^ 24 ∧ base % 0x10 = 0 ∧ base + 272 * blocks - 1 ≤ 0xFFFFFF ∧
    (∀ q : Fin 8, q ≠ r → s.sf.rings[q].defined = true → s.sf.rings[q].channel ≠ c) ∧
    apart base (272 * blocks) (commandBase s) 64 ∧
    (s.pu.layoutDefined = true → apart base (272 * blocks) s.pu.resultsBase.toNat 0x1400 ∧
      apart base (272 * blocks) s.pu.archiveBase.toNat 0x3000) ∧
    apartFromRings base (272 * blocks) s (fun q => q = r)

/-- Every two of the windows that exist lie apart (section 1.2 of chapter 1), and while RESETn is asserted there are none
but the command window. -/
structure windowsApart (s : State) : Prop where
  inReset : s.inReset = true → s.pu.layoutDefined = false ∧ ∀ q : Fin 8, s.sf.rings[q].defined = false
  areas : s.pu.layoutDefined = true →
    apart s.pu.resultsBase.toNat 0x1400 s.pu.archiveBase.toNat 0x3000 ∧
    apart s.pu.resultsBase.toNat 0x1400 (commandBase s) 64 ∧ apart s.pu.archiveBase.toNat 0x3000 (commandBase s) 64 ∧
    apartFromRings s.pu.resultsBase.toNat 0x1400 s (fun _ => False) ∧
    apartFromRings s.pu.archiveBase.toNat 0x3000 s (fun _ => False)
  rings : ∀ r : Fin 8, s.sf.rings[r].defined = true →
    apart s.sf.rings[r].base.toNat (272 * s.sf.rings[r].blocks) (commandBase s) 64 ∧
    apartFromRings s.sf.rings[r].base.toNat (272 * s.sf.rings[r].blocks) s (fun q => q = r)

/-! ### Tasks -/

/-- The task that a task command asks for once its own checks have passed (R121, R138, R141, R143, R151, R152). -/
def taskOf (c : Command) (s : State) : Option Task :=
  match c with
  | .load =>
    match loadKindOf (param1 s) with
    | some k =>
      if addressFits (param2 s) && bits (param2 s) 0 2 == 0 && tableFits k (param2 s) then
        some (.load k (addressOf (param2 s)))
      else none
    | none => none
  | .clearSlot =>
    let n := Fin.ofNat 12 (param1 s).toNat
    if (param1 s).toNat ≤ 11 ∧ s.tu.directory[n].state ≠ .mounted ∧
        (s.tu.directory[n].lock = false ∨ s.pins.service = true) then some (.clearSlot n)
    else none
  | .sweep => some .sweep
  | .mount =>
    if mountParamsOk s && mountTargetOk s.tu.directory[(mountParamsOf s).slot].state then some (.mount (mountParamsOf s))
    else none
  | .checkpoint => if s.eu.state.live then some .checkpoint else none
  | .release => if s.eu.state.live then some .release else none
  | .defineLayout | .resetPart | .defineRing | .ringOn | .ringOff | .resetRing | .setFraming | .lockSlot | .clearLocks
  | .setMasterLock | .suspendSweep | .resumeSweep | .clearCavity | .clearMould | .setReporting | .setCounter
  | .clearStatus | .acknowledge => none

/-- TU presents a task read of a word (R14). -/
def readPresented (w : WordAddr) (s : State) : PathUnit :=
  { s.pu with taskRead := some { addr := w, presentedAt := s.localTime, promoted := false } }

/-- The slot that a sweep takes: the lowest at or above its next slot that no task holds (R138). -/
def takesSlot (s : State) (next : Nat) (n : Fin 12) : Prop :=
  next ≤ n.val ∧ s.tu.directory[n].state.busy = false ∧
    ∀ m : Fin 12, next ≤ m.val → m.val < n.val → s.tu.directory[m].state.busy = true

/-- n is the mounted slot (R137). -/
def mountedAt (s : State) (n : Fin 12) : Prop := ∀ k : Fin 12, s.tu.directory[k].state = .mounted ↔ k = n

/-- A task other than a sweep has ended (R135): its kind and result kept, TASK pending, TASK_FAIL set by every result but
DONE, and no task running. -/
def taskEnded (t : Task) (r : TaskResult) (s : State) : State :=
  { s with
    tu := { s.tu with running := none }
    ru := { s.ru with
      lastTask := BitVec.ofNat 3 t.kind, lastResult := r.code, causes := s.ru.causes ||| 0x20
      taskFail := if r = .done then s.ru.taskFail else true } }

/-- The sweep is the running task and reads the slot n for judgement (R133, R138). -/
def sweepReads (n : Fin 12) (s : State) : State :=
  { s with
    tu := { s.tu with
      running := some { task := .sweep, phase := .reading }
      sweep := { s.tu.sweep with state := .running, next := n.val + 1, check := some { slot := n, void := false } }
      slotWords := [], slotCrc := 0xFFFF }
    pu := readPresented (slotWordAddr s.pu n 0) s }

/-- A sweep has ended with DONE (R128, R135); a stop request that still stood is dropped (log 40). -/
def sweepEnded (s : State) : State :=
  taskEnded .sweep .done { s with tu := { s.tu with
    sweep := { s.tu.sweep with state := .none, stop := .none, check := none } } }

/-- From u, in which a task other than a sweep has ended and none is pending, to w: a YIELDED sweep goes on with the slot it
takes, or ends where there is none; without one nothing follows (R128, R135). -/
structure GoesOn (u w : State) : Prop where
  rests : u.tu.sweep.state ≠ .yielded → w = u
  reads : u.tu.sweep.state = .yielded → ∀ n, takesSlot u u.tu.sweep.next n → w = sweepReads n u
  ends : u.tu.sweep.state = .yielded → (∀ n, ¬ takesSlot u u.tu.sweep.next n) → w = sweepEnded u

/-- v is what RU's postings leave of the state in which a task has ended and TU has gone on. -/
def EndsWith (u v : State) : Prop := ∃ w, GoesOn u w ∧ PostedFrom w v

/-- From u, with no task running, to v: a pending task begins as the running task, and RU posts (R128). -/
structure PendingBegins (u v : State) : Prop where
  rests : u.tu.pendingTask = none → PostedFrom u v
  begins : ∀ k, u.tu.pendingTask = some k →
    Located (beginTask k { u with tu := { u.tu with pendingTask := none } }) v

/-- A word d of the slot n has returned that is not the slot's last: it is kept and fed through the check register, and the next
word is asked for (R133). -/
def slotWordKept (n : Fin 12) (d : Word) (s : State) : State :=
  { s with
    tu := { s.tu with slotWords := s.tu.slotWords ++ [d], slotCrc := crcWord .polyB s.tu.slotCrc d }
    pu := readPresented (slotWordAddr s.pu n (s.tu.slotWords.length + 1)) s }

/-- The check register holds the words of the slot that have returned, of words 0 to 254, fed through poly B from all ones, so
that with all of them it is their check code (R133, R37). -/
def slotCheckFed (s : State) : Prop := s.tu.slotCrc = crcWords .polyB 0xFFFF (s.tu.slotWords.take 255)

/-- The mounted mould, its slot, EU's state and the tasks agree (R92, R94, R97, R127, R137). -/
structure mouldAgrees (s : State) : Prop where
  /-- with no mould mounted, EU holds no records and no cycle, and no slot is MOUNTED -/
  unmounted : s.eu.state = .empty ∨ s.eu.state = .changing →
    s.eu.mould = none ∧ s.eu.cycles = [] ∧ s.eu.newest = none ∧ ∀ n : Fin 12, s.tu.directory[n].state ≠ .mounted
  /-- with one mounted, EU holds its records, one for each cavity, and exactly one slot is MOUNTED -/
  mounted : s.eu.state = .running ∨ s.eu.state = .held →
    (∃ m, s.eu.mould = some m ∧ m.cavities.length = m.header.count ∧ 1 ≤ m.header.count ∧ m.header.count ≤ 48) ∧
    ∃ n, mountedAt s n
  changing : ∀ r p, s.tu.running = some r → r.task = .mount p ∨ r.task = .release → s.eu.state = .changing
  counts : ∀ p, (∃ r, s.tu.running = some r ∧ r.task = .mount p) ∨ s.tu.pendingTask = some (.mount p) →
    1 ≤ p.count ∧ p.count ≤ 48
  clearing : ∀ r n, s.tu.running = some r → r.task = .clearSlot n → s.tu.directory[n].state = .clearing
  toClear : ∀ n, s.tu.pendingTask = some (.clearSlot n) → s.tu.directory[n].state ≠ .mounted
  checked : ∀ r k, s.tu.running = some r → r.task = .sweep → s.tu.sweep.check = some k →
    s.tu.directory[k.slot].state ≠ .mounted
  /-- a task is pending only behind a running sweep -/
  pending : s.tu.pendingTask ≠ none → ∃ r, s.tu.running = some r ∧ r.task = .sweep

/-! ### What is counted and what is shown -/

/-- The occurrences are counted, in order, and nothing else changes (R158). -/
def counted (os : List Occurrence) (s : State) : State :=
  { s with ru := { s.ru with counters := s.ru.counters.map fun c => os.foldl (fun c o => c.occur o) c } }

/-- The queued copies of a record that have not begun have all its words. -/
def wholeCopies (id : RecordId) (s : State) : Prop :=
  ∀ r ∈ s.pu.queue, r.id = id → r.begun = false → r.words.length = (recordWords s.freeBits s id).length

/-- The record as it stands is in the post queue, in a copy that has not begun, or it is dirty (R154). Bits that the spec
does not state are free (log 8). -/
def Shown (id : RecordId) (t : State) : Prop :=
  (∃ f, ∃ r ∈ t.pu.queue, r.id = id ∧ r.begun = false ∧ r.words = recordWords f t id) ∨ t.ru.dirty.get id = true

/-- Every queued copy of a record of RU that has not begun has all its words. -/
def wholeRecords (s : State) : Prop := ∀ id : RecordId, id.replaceable = true → wholeCopies id s

/-! ### What the records say -/

/-- The code of a running or pending task, 0 for none (R126). -/
def taskNumber : Option Task → Nat
  | none => 0
  | some (.load _ _) => 1
  | some (.mount _) => 2
  | some .checkpoint => 3
  | some .release => 4
  | some (.clearSlot _) => 5
  | some .sweep => 6

/-- A cause is pending and enabled. -/
def callsFor (i : Nat) (s : State) : Prop := s.ru.causes.getLsbD i = true ∧ s.ru.enables.getLsbD i = true

/-- The words ws are the status record of s (R153), each field at its bits. The spec states no bits for a newest cycle number
or an address while there is none, and nothing is said of them here (log 8), nor of bits that have no field (log 10). -/
structure SpellsStatus (s : State) (ws : List Word) : Prop where
  length : ws.length = 12
  frame : (wordAt ws 0).toNat =
    s.cd.tally.toNat + 2 ^ 16 * s.ru.lastCode.toNat + 2 ^ 24 * s.ru.lastOutcome.toNat
  seqErr : (wordAt ws 1).getLsbD 0 = s.ru.seqErr
  paramAdj : (wordAt ws 1).getLsbD 1 = s.ru.paramAdj
  protect : (wordAt ws 1).getLsbD 2 = s.ru.protect
  taskFail : (wordAt ws 1).getLsbD 3 = s.ru.taskFail
  causes : bits (wordAt ws 1) 8 8 = s.ru.causes.toNat
  enables : bits (wordAt ws 1) 16 8 = s.ru.enables.toNat
  masterEnable : (wordAt ws 1).getLsbD 24 = s.ru.masterEnable
  noTopCause : (∀ i < 8, ¬ callsFor i s) → bits (wordAt ws 1) 28 4 = 0
  topCause : ∀ i < 8, callsFor i s → (∀ j < i, ¬ callsFor j s) → bits (wordAt ws 1) 28 4 = i + 1
  euState : bits (wordAt ws 2) 0 2 =
    match s.eu.state with | .empty => 0 | .changing => 1 | .running => 2 | .held => 3
  running : bits (wordAt ws 2) 4 3 = taskNumber (s.tu.running.map RunningTask.task)
  pendingTask : bits (wordAt ws 2) 8 3 = taskNumber s.tu.pendingTask
  sweep : bits (wordAt ws 2) 12 2 =
    match s.tu.sweep.state with | .none => 0 | .running => 1 | .yielded => 2 | .suspended => 3
  lastTask : bits (wordAt ws 2) 16 3 = s.ru.lastTask.toNat
  lastResult : bits (wordAt ws 2) 20 4 = s.ru.lastResult.toNat
  mounted : ∀ n, mountedAt s n → bits (wordAt ws 2) 24 4 = n.val
  unmounted : (∀ n : Fin 12, s.tu.directory[n].state ≠ .mounted) → bits (wordAt ws 2) 24 4 = 15
  masterLock : (wordAt ws 2).getLsbD 28 = s.tu.masterLock
  alarmMode : bits (wordAt ws 2) 29 2 =
    match s.ru.alarmMode with | .off => 0 | .level => 1 | .pulseCrack => 2 | .pulseSuspect => 3
  /-- with a mould mounted: its ID and zone map ID, and the number of its cavities in each verdict -/
  mould : ∀ m, s.eu.state = .running ∨ s.eu.state = .held → s.eu.mould = some m → m.cavities.length ≤ 48 →
    wordAt ws 3 = m.header.mouldId ∧ bits (wordAt ws 9) 16 16 = m.header.zoneId.toNat ∧
    ∀ x ∈ [(0, Verdict.sound), (8, .watch), (16, .suspect), (24, .cracked)],
      bits (wordAt ws 8) x.1 8 = (m.cavities.filter fun c => c.verdict == x.2).length
  noMould : s.eu.state = .empty ∨ s.eu.state = .changing →
    wordAt ws 3 = 0 ∧ bits (wordAt ws 9) 16 16 = 0 ∧ wordAt ws 8 = 0
  newest : ∀ n, s.eu.newest = some n → bits (wordAt ws 4) 0 16 = n.toNat
  noNewest : (wordAt ws 4).getLsbD 19 = s.eu.newest.isNone
  depth : s.eu.cycles.length ≤ 4 → bits (wordAt ws 4) 16 3 = s.eu.cycles.length
  rings : ∀ r : Fin 8,
    (bits (wordAt ws 5) (2 * r.val) 2 =
      match s.sf.rings[r].state with | .off => 0 | .hunt => 1 | .locked _ => 2) ∧
    (wordAt ws 5).getLsbD (16 + r.val) = s.sf.rings[r].stale ∧
    (wordAt ws 5).getLsbD (24 + r.val) = s.sf.rings[r].defined
  logHead : bits (wordAt ws 6) 0 8 = s.ru.logHead.toNat
  serial : bits (wordAt ws 6) 16 16 = s.el.serial.toNat
  firstDrop : ∀ a, s.ru.firstDrop = some a → bits (wordAt ws 7) 0 24 = a.toNat
  dropKept : (wordAt ws 7).getLsbD 31 = s.ru.firstDrop.isSome
  zones : bits (wordAt ws 9) 0 16 = s.el.zones.id.toNat
  zero : wordAt ws 10 = 0
  time : wordAt ws 11 = s.localTime

/-- The words ws are the counter record of s (R153); word 18 is laid out as status word 4. -/
structure SpellsCounters (s : State) (ws : List Word) : Prop where
  length : ws.length = 8
  values : ∀ n : Fin 4, wordAt ws n.val = s.ru.counters[n].value
  selects : ∀ n : Fin 4, bits (wordAt ws (4 + n.val / 2)) (16 * (n.val % 2)) 4 = s.ru.counters[n].select.toNat
  masks : ∀ n : Fin 4, bits (wordAt ws (4 + n.val / 2)) (16 * (n.val % 2) + 4) 12 = s.ru.counters[n].mask.toNat
  newest : ∀ n, s.eu.newest = some n → bits (wordAt ws 6) 0 16 = n.toNat
  noNewest : (wordAt ws 6).getLsbD 19 = s.eu.newest.isNone
  depth : s.eu.cycles.length ≤ 4 → bits (wordAt ws 6) 16 3 = s.eu.cycles.length
  time : wordAt ws 7 = s.localTime

/-- The words ws are the directory record of s (R153). -/
structure SpellsDirectory (s : State) (ws : List Word) : Prop where
  length : ws.length = 12
  states : ∀ n : Fin 12, bits (wordAt ws n.val) 0 3 =
    match s.tu.directory[n].state with
    | .unchecked => 0 | .valid => 1 | .empty => 2 | .damaged => 3
    | .mounted => 4 | .loading => 5 | .saving => 6 | .clearing => 7
  locks : ∀ n : Fin 12, (wordAt ws n.val).getLsbD 3 = s.tu.directory[n].lock
  ids : ∀ n : Fin 12, bits (wordAt ws n.val) 16 16 = s.tu.directory[n].mouldId.toNat % 2 ^ 16

/-- w is the verdict word of a cavity with the record r (R153). -/
structure SpellsVerdict (r : CavityRecord) (w : Word) : Prop where
  verdict : bits w 0 2 = match r.verdict with | .sound => 0 | .watch => 1 | .suspect => 2 | .cracked => 3
  hot : r.hot < 2 ^ 6 → bits w 8 6 = r.hot
  lastCycle : r.lastCycle < 2 ^ 8 → bits w 16 8 = r.lastCycle
  withinCount : w.getLsbD 31 = false

/-- A row that ends a frame undispatched (R22, R25, R26): an opening word with a frame open, NO FRAME, INVALID SEQUENCE,
REFUSED-CODE, or a closing write that fails one of the checks 3 to 5. -/
def endsUndispatched (s : State) : Instr → Prop
  | .openingWordWrite _ => s.cd.state ≠ .ready
  | .noFrame _ => s.cd.state = .ready
  | .invalidSequence d => s.cd.state = .poisoned ∨ (s.cd.state = .collecting ∧ ¬ passesCheckOne s d)
  | .refusedCode => s.cd.state = .collecting ∧ passesCheckOne s (~~~s.cd.opening) ∧
      ∀ c : Command, BitVec.ofNat 8 (s.cd.opening.toNat / 2 ^ 24) ≠ c.code
  | i => ∃ c : Command, i = c.row s.pins ∧ framesCommand c s = true ∧ gate c s ≠ none

/-- The row closes the frame of a RESET PART that passes every check. -/
def closesReset (s : State) (i : Instr) : Prop :=
  taken .resetPart s ∧
    ((∃ n, i = .resetPart n) ∨ i = .upstreamWrite (commandWordAddr s.pu.strap 15) fullEnables (~~~s.cd.opening))

/-! ### Samples -/

/-- A block is finished in the state u (R72): its timestamp is the channel's last finished block, HX is free, and the
channel's covered-to time follows. -/
def blockFinished (w : BlockInWork) (u : State) : State :=
  let c := w.entry.channel
  refreshCovered c { u with hx :=
    { channels := u.hx.channels.set c { u.hx.channels[c] with lastFinished := some w.entry.timestamp }, block := none } }

end Sys2Proof.Machine
end

