-- ==== Sys2Proof/Certificates/Slice0/Obligations.lean ====
section
/-! DEFINITION. The statements for the provers: the queue and the invariants, the memory path, command frames, resets, the
commands of each owner, the part's own steps, and the arithmetic of the evidence. -/

open Sys2Proof Sys2Proof.Machine

/-! ### The queue of commands -/

/-- A step runs the command at the front of the queue. On an empty queue one local microsecond passes, and none while RESETn is
asserted: the tick is the model's choice (log 3). -/
def Obligations.StepRunsFrontCommand : Prop :=
  (∀ (c : Instr) (rest : List Instr) (s : State), s.pending = c :: rest → step s = exec c (s.withPending rest)) ∧
  ∀ s : State, s.pending = [] → step s = .next (if s.inReset then s else { s with localTime := s.localTime + 1 })

/-- Every command answers a next state and leaves the waiting commands as they are, and so no state ever stops. -/
def Obligations.EveryCommandCompletes : Prop :=
  (∀ (c : Instr) (s : State), ∃ t, exec c s = .next t ∧ t.pending = s.pending) ∧ ∀ s : State, safe s

/-! ### Invariants -/

/-- Every step keeps the canonical form of memory. -/
def Obligations.StepKeepsCanonicalMemory : Prop :=
  ∀ s t : State, s.mem.wf = true → step s = .next t → t.mem.wf = true

/-- Every step keeps every queue and pool within its size, and every hot count equal to the 1 bits of its history; the copies of
RU's records that have not begun whole; and the check register equal to the check code of the slot's words that have returned. -/
def Obligations.StepKeepsCapacitiesCountsAndChecks : Prop :=
  ∀ s t : State, step s = .next t →
    (withinCapacity s → hotCountsMatch s → withinCapacity t ∧ hotCountsMatch t) ∧
    (wholeRecords s → wholeRecords t) ∧ (slotCheckFed s → slotCheckFed t)

/-- Every step keeps the windows apart. -/
def Obligations.StepKeepsWindowsApart : Prop :=
  ∀ s t : State, windowsApart s → step s = .next t → windowsApart t

/-- Every step keeps the agreement of the mounted mould, its slot, EU's state and the tasks: with EU EMPTY or CHANGING there are
no records, no open cycle and no MOUNTED slot; with EU RUNNING or HELD there is a record for each cavity and exactly one
MOUNTED slot; and a task is pending only behind a running sweep. -/
def Obligations.StepKeepsTheMountedMould : Prop :=
  ∀ s t : State, mouldAgrees s → step s = .next t → mouldAgrees t

/-- Outside RESETn, a slot's lock bit changes only where a frame of LOCK SLOT or CLEAR LOCKS is open, and the master lock is
never cleared. -/
def Obligations.LocksChangeOnlyByLockCommands : Prop :=
  ∀ (c : Instr) (s t : State), c ≠ .resetnAssert → exec c s = .next t →
    (s.tu.masterLock = true → t.tu.masterLock = true) ∧
    (framesCommand .lockSlot s = false → framesCommand .clearLocks s = false →
      ∀ n : Fin 12, t.tu.directory[n].lock = s.tu.directory[n].lock)

/-! ### The memory path -/

/-- Which writes are dropped, and under which sub-kind, by the window of their address. -/
def Obligations.ProtectedWindowSet : Prop :=
  ∀ (s : State) (w : WordAddr),
    (commandBase s ≤ 4 * w.toNat ∧ 4 * w.toNat < commandBase s + 64 → protection s.tu (placeOf s.pu s.sf w) = none) ∧
    (¬ (commandBase s ≤ 4 * w.toNat ∧ 4 * w.toNat < commandBase s + 64) →
      (s.pu.layoutDefined = false → protection s.tu (placeOf s.pu s.sf w) = none) ∧
      (s.pu.layoutDefined = true →
        (s.pu.resultsBase.toNat ≤ 4 * w.toNat ∧ 4 * w.toNat < s.pu.resultsBase.toNat + 0x1400 →
          protection s.tu (placeOf s.pu s.sf w) = some .results) ∧
        (¬ (s.pu.resultsBase.toNat ≤ 4 * w.toNat ∧ 4 * w.toNat < s.pu.resultsBase.toNat + 0x1400) →
          (∀ n : Fin 12, s.pu.archiveBase.toNat + 0x400 * n.val ≤ 4 * w.toNat →
            4 * w.toNat < s.pu.archiveBase.toNat + 0x400 * n.val + 0x400 →
            protection s.tu (placeOf s.pu s.sf w) =
              if s.tu.directory[n].state ∈ [SlotState.mounted, .loading, .saving, .clearing] then some .busySlot
              else if s.tu.directory[n].lock then some .lockedSlot else none) ∧
          (4 * w.toNat < s.pu.archiveBase.toNat ∨ s.pu.archiveBase.toNat + 0x3000 ≤ 4 * w.toNat →
            protection s.tu (placeOf s.pu s.sf w) = none))))

/-- A write outside the protected set is performed with its data and byte enables, and no other byte changes; where it lies
in no window, nothing else changes. A read passes the word at memory upstream and changes nothing else; the lanes that are
not enabled are free (log 8). -/
def Obligations.UpstreamAccessIsPerformed : Prop :=
  (∀ (s : State) (w : WordAddr) (be : Enables) (d : Word), s.mem.wf = true → writesFreely s →
    protection s.tu (placeOf s.pu s.sf w) = none →
    ∃ t, exec (.upstreamWrite w be d) s = .next t ∧ t.mem = s.mem.writeWord w be d ∧
      (∀ a, t.mem.readByte a = if a / 4 = w.toNat ∧ be.getLsbD (a % 4) = true then lane d (a % 4) else s.mem.readByte a) ∧
      (placeOf s.pu s.sf w = .other → t = { s with mem := t.mem })) ∧
  ∀ (s : State) (w : WordAddr) (be : Enables), arrivesAtOnce s (.read w be) →
    ∃ t, exec (.upstreamRead w be) s = .next t ∧
      (∀ i, i < 4 → be.getLsbD i = true → lane t.readData i = s.mem.readByte (4 * w.toNat + i)) ∧
      t = { s with readData := t.readData, free := t.free }

/-- A write into the protected set is not performed; the drop is counted, PROTECT set and raised, and the address kept if
none is. -/
def Obligations.ProtectedWriteIsDropped : Prop :=
  ∀ (s : State) (w : WordAddr) (be : Enables) (d : Word) (k : DropKind), writesFreely s →
    protection s.tu (placeOf s.pu s.sf w) = some k →
    ∃ t, exec (.upstreamWrite w be d) s = .next t ∧
      PostedFrom { s with ru := { s.ru with
        counters := s.ru.counters.map (Counter.occur (.writeDropped k))
        causes := s.ru.causes ||| 0x08
        protect := true
        firstDrop := some (s.ru.firstDrop.getD (BitVec.ofNat 24 (4 * w.toNat))) } } t

/-- The three hold cases, and what a presented access meets. With no hold case it arrives at once: nothing is counted, no hold
meets it after, no queued word and no task read is served before it, and its own row completes it. With one, each that applies is
counted once, and it waits. An access that waits meets the holds again, at its row and wherever they are tested (`reportHolds`):
one that begins to apply is counted, but POST FULL not while a case goes on that held the access when it was last tested, and
again counted once that case has ended; when none applies, its row completes it, as that of an access that is presented then. No
other access is presented meanwhile. Every step of the part's own leaves the holds tested. That every hold that applies is
counted, when it is tested, is the model's (log 19), as is that a task read counts as promoted by the local time alone (log 18)
and that the row of an access completes it (log 33). -/
def Obligations.PresentedAccessMeetsItsHolds : Prop :=
  ∀ (s : State) (a : Access),
    ((holdsNow s a).postFull = true ↔ 32 ≤ queueLength s.pu.queue) ∧
    ((holdsNow s a).recordRead = true ↔ ∃ w be, a = .read w be ∧
      ((∃ n id r, placeOf s.pu s.sf w = .results n ∧ recordOfResultsWord n = some id ∧ r ∈ s.pu.queue ∧ r.id = id) ∨
       (∃ k n r, placeOf s.pu s.sf w = .slot k n ∧ r ∈ s.pu.queue ∧ r.addr.toNat ≤ w.toNat ∧
          w.toNat < r.addr.toNat + r.words.length))) ∧
    ((holdsNow s a).taskWait = true ↔ ∃ r, s.pu.taskRead = some r ∧
      (r.promoted = true ∨ atOrAfter s.localTime (r.presentedAt + 200) = true)) ∧
    (s.pu.access = none → reportHolds s = s) ∧
    (s.inReset = false → ∀ r : Fin 8, ∀ i ∈ [Instr.postWordPerformed, .taskRecordEnqueue, .dirtyRecordPost, .taskReadData,
      .taskWaitExpiry, .blockTimeout r, .ringStale r, .alarmPulseEnd, .blockBegin, .sampleProcessed],
      ∃ t, exec i s = .next t ∧ reportHolds t = t) ∧
    (s.inReset = false → s.pu.access = none →
      let m := holdsNow s a
      let held := (if m.postFull then [HoldKind.postFull] else []) ++ (if m.recordRead then [.recordRead] else []) ++
        (if m.taskWait then [.taskWait] else [])
      let t : State := { s with
        pu := { s.pu with access := some { access := a, reported := m, standing := m, arrived := held.isEmpty } }
        ru := { s.ru with counters := s.ru.counters.map fun c => held.foldl (fun c k => c.occur (.hold k)) c } }
      exec (.upstreamAccessPresented a) s = .next t ∧ ∀ w be d,
        (held ≠ [] → (a = .write w be d → exec (.upstreamWrite w be d) s = .next t) ∧
          (a = .read w be → exec (.upstreamRead w be) s = .next t)) ∧
        (held = [] → (a = .write w be d → exec (.upstreamWrite w be d) s = .next (writeArrives w be d s)) ∧
          (a = .read w be → exec (.upstreamRead w be) s = .next (readArrives w be s)))) ∧
    ∀ o : Outstanding, s.pu.access = some o →
      let free : State := { s with pu := { s.pu with access := none } }
      exec (.upstreamAccessPresented a) s = .next s ∧
      (∀ w be d, (o.access ≠ .write w be d → exec (.upstreamWrite w be d) s = .next s) ∧
        (o.access ≠ .read w be → exec (.upstreamRead w be) s = .next s)) ∧
      (s.inReset = false → o.arrived = true →
        reportHolds s = s ∧ exec .postWordPerformed s = .next s ∧ exec .taskReadData s = .next s ∧ ∀ w be d,
          (o.access = .write w be d → exec (.upstreamWrite w be d) s = .next (writeArrives w be d free)) ∧
          (o.access = .read w be → exec (.upstreamRead w be) s = .next (readArrives w be free))) ∧
      (s.inReset = false → o.arrived = false → o.access = a →
        let m := holdsNow s a
        let waits : Bool := (o.standing.recordRead && m.recordRead) || (o.standing.taskWait && m.taskWait)
        let full : Bool := m.postFull && !waits
        let new := (if full && !o.reported.postFull then [Occurrence.hold .postFull] else []) ++
          (if m.recordRead && !o.reported.recordRead then [.hold .recordRead] else []) ++
          (if m.taskWait && !o.reported.taskWait then [.hold .taskWait] else [])
        let marks : HoldMarks :=
          { postFull := o.reported.postFull || full, recordRead := o.reported.recordRead || m.recordRead
            taskWait := o.reported.taskWait || m.taskWait }
        let held : State := counted new { s with
          pu := { s.pu with access := some { access := a, reported := marks, standing := m, arrived := false } } }
        reportHolds s = held ∧ ∀ w be d,
          (a = .write w be d → exec (.upstreamWrite w be d) s =
            if m = HoldMarks.none then exec (.upstreamWrite w be d) free else .next held) ∧
          (a = .read w be → exec (.upstreamRead w be) s =
            if m = HoldMarks.none then exec (.upstreamRead w be) free else .next held))

/-- The post queue takes a record whole at its tail when the layout is defined and there is room, and else none of it; a
replacement changes the words of the copies that have not begun and no place. Each record has its address in the results area
or in its slot. The head word is written at memory and leaves the queue, its record begun; the holds are tested before it and
after (log 19). The last word of a slot image is another statement's. That the room a word leaves is asked for in later rows is
the model's (logs 17 and 42). -/
def Obligations.PostQueueTakesRecordsAndPerformsWords : Prop :=
  (∀ (s : State) (id : RecordId) (ws : List Word),
    (s.pu.layoutDefined = true ∧ queueLength s.pu.queue ≤ 32 - ws.length ∧ ws.length ≤ 32 →
      enqueue id ws s = some { s with pu := { s.pu with
        queue := s.pu.queue ++ [{ id := id, addr := recordAddr s.pu id, words := ws, begun := false }] } }) ∧
    (s.pu.layoutDefined = false ∨ 32 < queueLength s.pu.queue + ws.length → enqueue id ws s = none) ∧
    ((∀ r ∈ s.pu.queue, r.id = id → r.begun = false → r.words.length = ws.length) →
      replaceQueued id ws s = { s with pu := { s.pu with
        queue := s.pu.queue.map fun r => if r.id = id ∧ r.begun = false then { r with words := ws } else r } }) ∧
    recordAddr s.pu id = match id with
      | .status => BitVec.ofNat 22 (s.pu.resultsBase.toNat / 4)
      | .counter => BitVec.ofNat 22 (s.pu.resultsBase.toNat / 4 + 12)
      | .directory => BitVec.ofNat 22 (s.pu.resultsBase.toNat / 4 + 20)
      | .verdict c => BitVec.ofNat 22 (s.pu.resultsBase.toNat / 4 + 64 + c.val)
      | .trace h => BitVec.ofNat 22 (s.pu.resultsBase.toNat / 4 + 128 + 16 * h.val)
      | .log e => BitVec.ofNat 22 (s.pu.resultsBase.toNat / 4 + 256 + 4 * e.toNat)
      | .slot n k => BitVec.ofNat 22 (s.pu.archiveBase.toNat / 4 + 256 * n.val + 16 * k)) ∧
  ∀ (s₀ : State) (r : QueuedRecord) (rest : List QueuedRecord) (d : Word) (ds : List Word), s₀.inReset = false →
    s₀.pu.queue = r :: rest → r.words = d :: ds → choiceOne s₀ = false → accessEligible s₀ = false →
    (ds = [] → ∀ n, r.id ≠ .slot n 15) →
    let s := reportHolds s₀
    exec .postWordPerformed s₀ = .next (reportHolds { s with
      mem := s.mem.writeWord r.addr fullEnables d
      pu := { s.pu with queue :=
        if ds = [] then rest else { r with addr := r.addr + 1, words := ds, begun := true } :: rest } })

/-! ### Command frames -/

/-- A full-word write to word 0 opens a frame; with a frame open it first abandons it as INVALID SEQUENCE. -/
def Obligations.OpeningWordOpensAFrame : Prop :=
  ∀ (s : State) (d : Word), writesFreely s →
    let opened (u : State) : CommandDecoder :=
      { state := .collecting, opening := d, latch := Vector.replicate 14 0, written := Vector.replicate 14 false,
        tally := u.cd.tally }
    (s.cd.state = .ready → exec (.openingWordWrite d) s = .next { windowWritten 0 d s with cd := opened s }) ∧
    (s.cd.state ≠ .ready → ∃ t, exec (.openingWordWrite d) s = .next t ∧
      PostedFrom { windowWritten 0 d s with
        cd := { opened s with tally := s.cd.tally + 1 }
        ru := { s.ru with seqErr := true, lastCode := BitVec.ofNat 8 (s.cd.opening.toNat / 2 ^ 24), lastOutcome := 0x10 } } t)

/-- A full-word write to a parameter word is latched and marked while CD collects, and else only performed; a partial write
poisons the frame that is being collected, and else is only performed. -/
def Obligations.ParameterAndPartialWrites : Prop :=
  ∀ (s : State), writesFreely s →
    (∀ (n : Fin 14) (d : Word), exec (.parameterWordWrite (BitVec.ofNat 4 (n.val + 1)) d) s =
      .next { windowWritten (n.val + 1) d s with
        cd := if s.cd.state = .collecting then
            { s.cd with latch := s.cd.latch.set n d, written := s.cd.written.set n true }
          else s.cd }) ∧
    (∀ (index : BitVec 4) (be : Enables) (d : Word), be ≠ fullEnables → exec (.partialWrite index be d) s =
      .next { s with
        mem := s.mem.writeWord (commandWordAddr s.pu.strap index.toNat) be d
        cd := if s.cd.state = .collecting then { s.cd with state := .poisoned } else s.cd })

/-- The three ends of a closing write that reach no owner and no further check: NO FRAME, INVALID SEQUENCE, REFUSED-CODE. -/
def Obligations.ClosingWritesThatEndUndispatched : Prop :=
  ∀ (s : State) (d : Word), writesFreely s →
    (s.cd.state = .ready → ∃ t, exec (.noFrame d) s = .next t ∧
      PostedFrom (frameEnded (BitVec.ofNat 8 ((~~~d).toNat / 2 ^ 24)) .noFrame d s) t) ∧
    (s.cd.state = .poisoned ∨ (s.cd.state = .collecting ∧ ¬ passesCheckOne s d) →
      ∃ t, exec (.invalidSequence d) s = .next t ∧
        PostedFrom (frameEnded (BitVec.ofNat 8 (s.cd.opening.toNat / 2 ^ 24)) .invalidSequence d s) t) ∧
    (s.cd.state = .collecting ∧ passesCheckOne s (~~~s.cd.opening) ∧
        (∀ c : Command, BitVec.ofNat 8 (s.cd.opening.toNat / 2 ^ 24) ≠ c.code) →
      ∃ t, exec .refusedCode s = .next t ∧
        PostedFrom (frameEnded (BitVec.ofNat 8 (s.cd.opening.toNat / 2 ^ 24)) .refusedCode (~~~s.cd.opening) s) t)

/-- Checks 3 to 5 on a frame of a known command: the outcome of the first that fails, and nothing else changes. The commands
have the codes and parameter counts of the code table, and the outcomes their codes. -/
def Obligations.FrameChecksRefuse : Prop :=
  (∀ x ∈ [(Command.defineLayout, 0x10, 2), (.resetPart, 0x1F, 0), (.defineRing, 0x20, 4), (.ringOn, 0x21, 1),
      (.ringOff, 0x22, 1), (.resetRing, 0x23, 1), (.setFraming, 0x24, 5), (.load, 0x30, 2), (.lockSlot, 0x40, 1),
      (.clearLocks, 0x41, 0), (.setMasterLock, 0x42, 0), (.clearSlot, 0x43, 1), (.sweep, 0x44, 0),
      (.suspendSweep, 0x45, 0), (.resumeSweep, 0x46, 0), (.mount, 0x50, 5), (.checkpoint, 0x51, 0), (.release, 0x52, 0),
      (.clearCavity, 0x53, 1), (.clearMould, 0x54, 0), (.setReporting, 0x60, 4), (.setCounter, 0x61, 3),
      (.clearStatus, 0x62, 0), (.acknowledge, 0x63, 1)], x.1.code.toNat = x.2.1 ∧ x.1.count = x.2.2) ∧
  (∀ x ∈ [(FrameOutcome.done, 0x00), (.started, 0x01), (.noFrame, 0x08), (.invalidSequence, 0x10), (.refusedCode, 0x11),
      (.refusedParam, 0x12), (.refusedHeld, 0x13), (.refusedNotSetUp, 0x14), (.refusedBusy, 0x15), (.refusedState, 0x16),
      (.refusedLocked, 0x17)], x.1.code.toNat = x.2) ∧
  ∀ (c : Command) (s : State), writesFreely s → s.cd.state = .collecting → passesCheckOne s (~~~s.cd.opening) →
    BitVec.ofNat 8 (s.cd.opening.toNat / 2 ^ 24) = c.code →
    (countOf s.cd.opening ≠ c.count →
      ∃ t, exec (c.row s.pins) s = .next t ∧ PostedFrom (finished c .refusedParam s) t) ∧
    (countOf s.cd.opening = c.count → s.ru.seqErr = true → c ∉ [Command.clearStatus, .acknowledge, .resetPart] →
      ∃ t, exec (c.row s.pins) s = .next t ∧ PostedFrom (finished c .refusedHeld s) t) ∧
    (countOf s.cd.opening = c.count → (s.ru.seqErr = false ∨ c ∈ [Command.clearStatus, .acknowledge, .resetPart]) →
      s.pu.layoutDefined = false →
      c ∉ [Command.defineLayout, .defineRing, .ringOn, .ringOff, .resetRing, .setFraming, .setReporting, .setCounter,
        .clearStatus, .acknowledge, .resetPart] →
      ∃ t, exec (c.row s.pins) s = .next t ∧ PostedFrom (finished c .refusedNotSetUp s) t)

/-- A command that its owner refuses changes nothing but what the end of its frame changes. -/
def Obligations.RefusedCommandsChangeNothing : Prop :=
  ∀ (c : Command) (s t : State), c ≠ .resetPart → writesFreely s → taken c s → exec (c.row s.pins) s = .next t →
    ∀ o ∈ [FrameOutcome.refusedParam, .refusedBusy, .refusedState, .refusedLocked],
      t.ru.lastOutcome = o.code → PostedFrom (finished c o s) t

/-- Every row that ends a frame leads to a status record of the state it leaves: it is in the queue, in a copy that has not
begun, or it is dirty. So does every row that changes a field of the status record other than the local time; and every row
that changes the slot directory, a slot's state, cached ID or lock bit, leads so to a directory record. RESETn and RESET PART,
after which no record can be posted, are left out. Where the frame ends undispatched: a copy that has not begun is replaced in
place, else a new copy is queued, else the record is marked dirty. The twelve words of the status record have every field of
the record at its bits, with the codes of the task kinds and results; the bits that the spec does not state are free (log 8). -/
def Obligations.ChangesAreShownInTheRecords : Prop :=
  (∀ (s : State) (f : FreeBits), SpellsStatus s (recordWords f s .status)) ∧ (∀ k : Task, k.kind = taskNumber (some k)) ∧
  (∀ x ∈ [(TaskResult.done, 0), (.badTable, 1), (.damaged, 2), (.wrongMould, 3), (.wrongCount, 4)], x.1.code.toNat = x.2) ∧
  (∀ (i : Instr) (s t : State), i ≠ .resetnAssert → ¬ closesReset s i → exec i s = .next t →
    (wholeCopies .status s → (∃ f, statusFields f s ≠ statusFields f t) → Shown .status t) ∧
    (wholeCopies .directory s → s.tu.directory ≠ t.tu.directory → Shown .directory t)) ∧
  ∀ s : State, writesFreely s → wholeCopies .status s →
    (∀ i : Instr, endsUndispatched s i → ∃ t, exec i s = .next t ∧ Shown .status t) ∧
    (∀ c : Command, c ≠ .resetPart → framesCommand c s = true → ∃ t, exec (c.row s.pins) s = .next t ∧ Shown .status t) ∧
    (s.ru.traceAwait = false → ∀ i : Instr, endsUndispatched s i →
      ∃ t f, exec i s = .next t ∧
        let words := recordWords f t .status
        ((∃ r ∈ s.pu.queue, r.id = .status ∧ r.begun = false) →
          t.pu.queue =
            s.pu.queue.map fun r => if r.id = .status ∧ r.begun = false then { r with words := words } else r) ∧
        ((∀ r ∈ s.pu.queue, r.id = .status → r.begun = true) → s.pu.layoutDefined = true → queueLength s.pu.queue ≤ 20 →
          t.pu.queue = s.pu.queue ++
            [{ id := .status, addr := recordAddr s.pu .status, words := words, begun := false }]) ∧
        ((∀ r ∈ s.pu.queue, r.id = .status → r.begun = true) →
          (s.pu.layoutDefined = false ∨ 20 < queueLength s.pu.queue) →
          t.pu.queue = s.pu.queue ∧ t.ru.dirty.status = true))

/-! ### Resets -/

/-- The values of the reset state, and that it meets the invariants. -/
def Obligations.ResetValues : Prop :=
  let s := State.reset
  (s.pu.layoutDefined = false ∧ s.pu.resultsBase = 0 ∧ s.pu.archiveBase = 0 ∧ s.pu.queue = [] ∧ s.pu.access = none ∧
    s.pu.taskRead = none) ∧
  (s.cd.state = .ready ∧ s.cd.opening = 0 ∧ (∀ i : Fin 14, s.cd.latch[i] = 0 ∧ s.cd.written[i] = false) ∧
    s.cd.tally = 0) ∧
  ((∀ r : Fin 8, s.sf.rings[r].defined = false ∧ s.sf.rings[r].channel = 0 ∧ s.sf.rings[r].base = 0 ∧
      s.sf.rings[r].blocks = 0 ∧ s.sf.rings[r].state = .off ∧ s.sf.rings[r].continuity = none ∧
      s.sf.rings[r].forced = false ∧ s.sf.rings[r].staleRef = none ∧ s.sf.rings[r].stale = false) ∧
    s.sf.framing = { sync := 0xB4E1, poly := .polyA, preset := .ones, blockTimeout := 2000, staleTime := 20 } ∧
    s.sf.queue = [] ∧ freeBuffers s = 25) ∧
  ((∀ c : Fin 8, s.hx.channels[c].state = .idle ∧ s.hx.channels[c].params = none ∧
      s.hx.channels[c].lastFinished = none ∧ s.hx.channels[c].lastEnd = none ∧ s.hx.channels[c].coveredTo = none ∧
      s.hx.channels[c].joined = false) ∧
    s.hx.block = none) ∧
  (s.el.pool = [] ∧ s.el.floor = none ∧ s.el.horizon = none ∧ s.el.zones = { id := 0, bands := [] } ∧
    s.el.serial = 0) ∧
  (s.eu.state = .empty ∧ s.eu.mould = none ∧ s.eu.cycles = [] ∧ s.eu.newest = none ∧ s.eu.pulse = none ∧
    alarm s = false) ∧
  (s.tu.running = none ∧ s.tu.pendingTask = none ∧
    s.tu.sweep = { state := .none, next := 0, stop := .none, check := none } ∧
    (∀ n : Fin 12, s.tu.directory[n] = { state := .unchecked, mouldId := 0, lock := false }) ∧
    s.tu.masterLock = false ∧ s.tu.snapshot = none ∧ (∀ p : Fin 4, s.tu.profiles[p] = Profile.default) ∧
    s.tu.staging = []) ∧
  (s.ru.seqErr = false ∧ s.ru.paramAdj = false ∧ s.ru.protect = false ∧ s.ru.taskFail = false ∧
    s.ru.firstDrop = none ∧ s.ru.causes = 0 ∧ s.ru.enables = 0 ∧ s.ru.masterEnable = false ∧ s.ru.lastCode = 0 ∧
    s.ru.lastOutcome = 0 ∧ s.ru.lastTask = 0 ∧ s.ru.lastResult = 0 ∧
    (∀ n : Fin 4, s.ru.counters[n] = { value := 0, select := 0, mask := 0 }) ∧ s.ru.traceInterval = 0 ∧
    s.ru.countdown = 0 ∧ s.ru.logMask = 0x80 ∧ s.ru.logHead = 0 ∧ s.ru.alarmMode = .level ∧
    s.ru.dirty = DirtyMarks.clear ∧ attn s = false) ∧
  (s.mem.wf = true ∧ withinCapacity s ∧ hotCountsMatch s ∧ windowsApart s ∧ mouldAgrees s ∧ wholeRecords s ∧
    slotCheckFed s)

/-- RESETn puts every block in its reset state, and leaves memory and a presented access as they are. While it is asserted an
access is presented but does not arrive, and nothing of the part's own happens. At its release the straps are sampled, local
time starts from 0, and an access that is outstanding meets what one meets that is presented then; the command window lies at
the last 64 bytes of the megabyte they select. That an access presented
before the assertion stays presented, and that the strap value stays until the release, are the model's choices (logs 20
and 32). -/
def Obligations.ResetnAndItsRelease : Prop :=
  ((∀ s : State, exec .resetnAssert s = .next { State.reset with
    inReset := true
    pins := s.pins, mem := s.mem, readData := s.readData, free := s.free, pending := s.pending
    pu := { PathUnit.reset s.pu.strap with
      access := s.pu.access.map fun o =>
        { o with reported := HoldMarks.none, standing := HoldMarks.none, arrived := false } } }) ∧
  ∀ s : State, s.inReset = true →
    (∀ (w : WordAddr) (be : Enables) (d : Word),
      exec (.upstreamWrite w be d) s = exec (.upstreamAccessPresented (.write w be d)) s ∧
      exec (.upstreamRead w be) s = exec (.upstreamAccessPresented (.read w be)) s) ∧
    (∀ a : Access, s.pu.access = none → exec (.upstreamAccessPresented a) s = .next { s with pu := { s.pu with
      access := some { access := a, reported := HoldMarks.none, standing := HoldMarks.none, arrived := false } } }) ∧
    (∀ r : Fin 8, exec (.blockTimeout r) s = .next s ∧ exec (.ringStale r) s = .next s) ∧
    ∀ c ∈ [Instr.postWordPerformed, .taskRecordEnqueue, .dirtyRecordPost, .taskReadData, .taskWaitExpiry, .alarmPulseEnd,
      .blockBegin, .sampleProcessed], exec c s = .next s) ∧
  ∀ (s : State) (n : BitVec 4), s.inReset = true →
    let u : State := { s with
      pins := { s.pins with cwsel := n }, inReset := false, localTime := 0, pu := { s.pu with strap := n, access := none } }
    ∃ t, exec (.resetnRelease n) s = .next t ∧ (s.pu.access = none → t = u) ∧
      (∀ o : Outstanding, s.pu.access = some o → exec (.upstreamAccessPresented o.access) u = .next t) ∧
      ∀ w : WordAddr, (∃ k, placeOf t.pu t.sf w = .command k) ↔
        n.toNat * 0x100000 + 0xFFFC0 ≤ 4 * w.toNat ∧ 4 * w.toNat ≤ n.toNat * 0x100000 + 0xFFFFF

/-- RESET PART puts every block in its reset state, keeps the lock bits, the master lock and memory, resamples the straps and
restarts local time. -/
def Obligations.ResetPartKeepsTheLocks : Prop :=
  ∀ (s : State) (n : BitVec 4), writesFreely s → taken .resetPart s →
    ∃ t, exec (.resetPart n) s = .next t ∧
      t = { State.reset with
        pins := { s.pins with cwsel := n }
        mem := (windowWritten 15 (~~~s.cd.opening) s).mem
        readData := s.readData, free := s.free, pending := s.pending
        pu := PathUnit.reset n
        tu := { TaskUnit.reset with directory := t.tu.directory, masterLock := s.tu.masterLock } } ∧
      ∀ k : Fin 12, t.tu.directory[k] = { state := .unchecked, mouldId := 0, lock := s.tu.directory[k].lock }

/-! ### The commands of PU, SF and CD -/

/-- DEFINE LAYOUT: its checks in order, and its effect: the queue discarded, the bases taken, every slot UNCHECKED with its
lock, the log head 0, and the status, counter and directory records, as they then stand, posted into the new area with the
verdict words to follow. -/
def Obligations.DefineLayoutMovesTheAreas : Prop :=
  ∀ s : State, writesFreely s → taken .defineLayout s →
    let busy := s.eu.state = .running ∨ s.eu.state = .held ∨ s.tu.running ≠ none ∨ s.tu.pendingTask ≠ none ∨
      s.tu.sweep.state = .suspended
    ∃ t, exec .defineLayout s = .next t ∧
      (busy → PostedFrom (finished .defineLayout .refusedState s) t) ∧
      (¬ busy → ¬ layoutFits s (param1 s).toNat (param2 s).toNat →
        PostedFrom (finished .defineLayout .refusedParam s) t) ∧
      (¬ busy → layoutFits s (param1 s).toNat (param2 s).toNat →
        let u := finished .defineLayout .done s
        PostedFrom { u with
          pu := { s.pu with
            layoutDefined := true, queue := []
            resultsBase := BitVec.ofNat 24 (param1 s).toNat, archiveBase := BitVec.ofNat 24 (param2 s).toNat }
          tu := { s.tu with
            directory := Vector.ofFn fun n : Fin 12 =>
              { state := .unchecked, mouldId := 0, lock := s.tu.directory[n].lock } }
          ru := { u.ru with logHead := 0, verdictWords := Vector.replicate 48 0 } } t ∧
        t.pu.queue.map QueuedRecord.id = [.status, .counter, .directory] ∧
        (∀ q ∈ t.pu.queue, q.addr = recordAddr t.pu q.id ∧ q.begun = false ∧ ∃ f, q.words = recordWords f t q.id) ∧
        ∀ c : Fin 48, t.ru.dirty.verdicts[c] = true)

/-- DEFINE RING: its checks in order, and the ring's new record. -/
def Obligations.DefineRingBindsAWindow : Prop :=
  ∀ s : State, writesFreely s → taken .defineRing s →
    ∃ t, exec .defineRing s = .next t ∧
      (7 < (param1 s).toNat ∨ 7 < (param2 s).toNat → PostedFrom (finished .defineRing .refusedParam s) t) ∧
      ∀ r c : Fin 8, (param1 s).toNat = r.val → (param2 s).toNat = c.val →
        (s.sf.rings[r].state ≠ .off → PostedFrom (finished .defineRing .refusedState s) t) ∧
        (s.sf.rings[r].state = .off → ¬ ringFits s r c (param3 s).toNat (param4 s).toNat →
          PostedFrom (finished .defineRing .refusedParam s) t) ∧
        (s.sf.rings[r].state = .off → ringFits s r c (param3 s).toNat (param4 s).toNat →
          PostedFrom { finished .defineRing .done s with
            sf := { s.sf with
              rings := s.sf.rings.set r
                { defined := true, channel := c, base := BitVec.ofNat 24 (param3 s).toNat, blocks := (param4 s).toNat,
                  state := .off, continuity := none, forced := false, staleRef := none, stale := false } } } t)

/-- RING ON: the ring goes to HUNT and its channel to SETTLING. -/
def Obligations.RingOnStartsHunting : Prop :=
  ∀ s : State, writesFreely s → taken .ringOn s →
    ∃ t, exec .ringOn s = .next t ∧
      (7 < (param1 s).toNat → PostedFrom (finished .ringOn .refusedParam s) t) ∧
      ∀ r : Fin 8, (param1 s).toNat = r.val →
        let x := s.sf.rings[r]
        let c := s.hx.channels[x.channel]
        (x.defined = false ∨ x.state ≠ .off → PostedFrom (finished .ringOn .refusedState s) t) ∧
        (x.defined = true → x.state = .off →
          let u : State := { finished .ringOn .done s with
            sf := { s.sf with
              rings := s.sf.rings.set r
                { x with state := .hunt, continuity := none, forced := false, stale := false,
                         staleRef := some s.localTime } }
            hx := { s.hx with
              channels := s.hx.channels.set x.channel
                { c with state := .settling, lastFinished := none, coveredTo := none } } }
          Located u t ∧ (c.coveredTo = none → PostedFrom u t))

/-- RING OFF and RESET RING: the capture, the ring's queued blocks and a block of its channel in extraction are discarded, the
ring goes to OFF or HUNT and the channel to IDLE or SETTLING, without a covered-to time. -/
def Obligations.RingOffAndResetRingDiscard : Prop :=
  ∀ s : State, writesFreely s →
    let u (c : Command) (r : Fin 8) (st : RingState) (cs : ChannelState) (ref : Option Time) : State :=
      let x := s.sf.rings[r]
      { finished c .done s with
        sf := { s.sf with
          rings := s.sf.rings.set r
            { x with state := st, continuity := none, forced := false, stale := false, staleRef := ref }
          queue := s.sf.queue.filter fun e => e.ring != r }
        hx := { s.hx with
          channels := s.hx.channels.set x.channel
            { s.hx.channels[x.channel] with state := cs, lastFinished := none, coveredTo := none }
          block := s.hx.block.filter fun w => w.entry.channel != x.channel } }
    (taken .ringOff s → ∃ t, exec .ringOff s = .next t ∧
      (7 < (param1 s).toNat → PostedFrom (finished .ringOff .refusedParam s) t) ∧
      ∀ r : Fin 8, (param1 s).toNat = r.val →
        (s.sf.rings[r].defined = false → PostedFrom (finished .ringOff .refusedState s) t) ∧
        (s.sf.rings[r].defined = true → s.sf.rings[r].state = .off → PostedFrom (finished .ringOff .done s) t) ∧
        (s.sf.rings[r].defined = true → s.sf.rings[r].state ≠ .off →
          Located (u .ringOff r .off .idle none) t ∧
          (s.hx.channels[s.sf.rings[r].channel].coveredTo = none → PostedFrom (u .ringOff r .off .idle none) t))) ∧
    (taken .resetRing s → ∃ t, exec .resetRing s = .next t ∧
      (7 < (param1 s).toNat → PostedFrom (finished .resetRing .refusedParam s) t) ∧
      ∀ r : Fin 8, (param1 s).toNat = r.val →
        (s.sf.rings[r].defined = false ∨ s.sf.rings[r].state = .off →
          PostedFrom (finished .resetRing .refusedState s) t) ∧
        (s.sf.rings[r].defined = true → s.sf.rings[r].state ≠ .off →
          Located (u .resetRing r .hunt .settling (some s.localTime)) t ∧
          (s.hx.channels[s.sf.rings[r].channel].coveredTo = none →
            PostedFrom (u .resetRing r .hunt .settling (some s.localTime)) t)))

/-- SET FRAMING: words 1 to 3 tested, the two times clamped, PARAM_ADJ set by a clamp. -/
def Obligations.SetFramingTakesItsSettings : Prop :=
  ∀ s : State, writesFreely s → taken .setFraming s →
    let ok := (param1 s).toNat < 2 ^ 16 ∧ (param2 s).toNat ≤ 1 ∧ (param3 s).toNat ≤ 1
    let timeout := min (max 100 (param4 s).toNat) 10000
    let stale := min (max 1 (param5 s).toNat) 1000
    let u := finished .setFraming .done s
    ∃ t, exec .setFraming s = .next t ∧
      (¬ ok → PostedFrom (finished .setFraming .refusedParam s) t) ∧
      (ok → PostedFrom { u with
        sf := { s.sf with framing :=
          { sync := BitVec.ofNat 16 (param1 s).toNat
            poly := if (param2 s).toNat = 0 then .polyA else .polyB
            preset := if (param3 s).toNat = 0 then .zeros else .ones
            blockTimeout := timeout, staleTime := stale } }
        ru := { u.ru with
          paramAdj := s.ru.paramAdj || decide (timeout ≠ (param4 s).toNat ∨ stale ≠ (param5 s).toNat) } } t)

/-! ### The commands of TU -/

/-- A task command whose own checks pass: with no task running it begins at once; behind a running sweep it waits, and the
sweep is asked to yield; else it is refused; SWEEP is refused while the sweep is not NONE. That the slot records a task asks for
as it begins stand ahead of RU's records of the same step is the model's (log 13). -/
def Obligations.TaskCommandsWaitOrAreRefused : Prop :=
  ∀ (c : Command) (s : State) (k : Task), writesFreely s → taken c s → taskOf c s = some k →
    let behindSweep := (∃ r, s.tu.running = some r ∧ r.task = .sweep) ∧ s.tu.pendingTask = none
    ∃ t, exec (c.row s.pins) s = .next t ∧
      (k ≠ .sweep → s.tu.running = none → Located (beginTask k (finished c .started s)) t) ∧
      (k = .sweep → s.tu.sweep.state ≠ .none → PostedFrom (finished c .refusedBusy s) t) ∧
      ((k = .sweep → s.tu.sweep.state = .none) → s.tu.running ≠ none → ¬ behindSweep →
        PostedFrom (finished c .refusedBusy s) t) ∧
      ((k = .sweep → s.tu.sweep.state = .none) → behindSweep →
        PostedFrom { finished c .started s with tu := { s.tu with
          pendingTask := some k
          sweep := { s.tu.sweep with stop := if s.tu.sweep.stop = .suspend then .suspend else .yield } } } t)

/-- LOAD: its own checks in order; with no task running it starts at once, its staging empty and its first word asked for. -/
def Obligations.LoadStarts : Prop :=
  ∀ s : State, writesFreely s → taken .load s →
    let kindOk := (param1 s).toNat ≤ 3 ∨ (param1 s).toNat = 0xFF
    let sourceOk := (param2 s).toNat < 2 ^ 24 ∧ (param2 s).toNat % 4 = 0 ∧
      ((param1 s).toNat ≤ 3 → (param2 s).toNat + 0x7F ≤ 0xFFFFFF)
    ∃ t, exec .load s = .next t ∧
      (¬ kindOk ∨ ¬ sourceOk → PostedFrom (finished .load .refusedParam s) t) ∧
      (kindOk → sourceOk → s.tu.running = none →
        PostedFrom { finished .load .started s with
          tu := { s.tu with
            staging := []
            running := some
              { task := .load (if (param1 s).toNat ≤ 3 then .profile (Fin.ofNat 4 (param1 s).toNat) else .zones)
                  (BitVec.ofNat 24 (param2 s).toNat)
                phase := .reading } }
          pu := readPresented (BitVec.ofNat 22 ((param2 s).toNat / 4)) s } t)

/-- LOCK SLOT, CLEAR LOCKS and SET MASTER LOCK, with the level of SERVICE when they are taken. -/
def Obligations.LockCommands : Prop :=
  ∀ (s : State) (service : Bool), writesFreely s →
    let v : State := { s with pins := { s.pins with service := service } }
    let held := s.tu.masterLock = true ∧ service = false
    (taken .lockSlot s → ∃ t, exec (.lockSlot service) s = .next t ∧
      (11 < (param1 s).toNat → PostedFrom (finished .lockSlot .refusedParam v) t) ∧
      ∀ n : Fin 12, (param1 s).toNat = n.val →
        (held → PostedFrom (finished .lockSlot .refusedLocked v) t) ∧
        (¬ held → PostedFrom { finished .lockSlot .done v with
          tu := { s.tu with directory := s.tu.directory.set n { s.tu.directory[n] with lock := true } } } t)) ∧
    (taken .clearLocks s → ∃ t, exec (.clearLocks service) s = .next t ∧
      (held → PostedFrom (finished .clearLocks .refusedLocked v) t) ∧
      (¬ held → PostedFrom { finished .clearLocks .done v with
        tu := { s.tu with directory := s.tu.directory.map fun e => { e with lock := false } } } t)) ∧
    (taken .setMasterLock s → ∃ t, exec (.setMasterLock service) s = .next t ∧
      (service = false → PostedFrom (finished .setMasterLock .refusedLocked v) t) ∧
      (service = true → PostedFrom { finished .setMasterLock .done v with
        tu := { s.tu with masterLock := true } } t))

/-- CLEAR SLOT: its own checks in order; with no task running the slot becomes CLEARING and the EMPTY image is asked for.
CHECKPOINT: refused with no mould; with no task running the snapshot is taken and the mounted slot's image asked for. That
the slot records stand ahead of RU's records of the same step is the model's (log 13). -/
def Obligations.ClearSlotAndCheckpointStart : Prop :=
  (∀ (s : State) (service : Bool), writesFreely s → taken .clearSlot s →
    let v : State := { s with pins := { s.pins with service := service } }
    ∃ t, exec (.clearSlot service) s = .next t ∧
      (11 < (param1 s).toNat → PostedFrom (finished .clearSlot .refusedParam v) t) ∧
      ∀ n : Fin 12, (param1 s).toNat = n.val →
        (s.tu.directory[n].state = .mounted → PostedFrom (finished .clearSlot .refusedState v) t) ∧
        (s.tu.directory[n].state ≠ .mounted → s.tu.directory[n].lock = true → service = false →
          PostedFrom (finished .clearSlot .refusedLocked v) t) ∧
        (s.tu.directory[n].state ≠ .mounted → (s.tu.directory[n].lock = false ∨ service = true) →
          s.tu.running = none →
          PostedFrom (askRecords 16 { finished .clearSlot .started v with
            tu := { s.tu with
              directory := s.tu.directory.set n { s.tu.directory[n] with state := .clearing, mouldId := 0 }
              running := some { task := .clearSlot n, phase := .writing }
              writer := some { slot := n, image := emptyImage, next := 0 } } }) t)) ∧
  ∀ (s : State) (m : Mould) (n : Fin 12), writesFreely s → taken .checkpoint s →
    ∃ t, exec .checkpoint s = .next t ∧
      (s.eu.state = .empty ∨ s.eu.state = .changing → PostedFrom (finished .checkpoint .refusedState s) t) ∧
      ((s.eu.state = .running ∨ s.eu.state = .held) → s.eu.mould = some m → mountedAt s n → s.tu.running = none →
        PostedFrom (askRecords 16 { finished .checkpoint .started s with
          tu := { s.tu with
            snapshot := some m
            running := some { task := .checkpoint, phase := .writing }
            writer := some { slot := n, image := mouldImage m, next := 0 } } }) t)

/-- SWEEP, with no task running and no sweep: the lowest slot that no task holds is read for judgement; with none the sweep ends
at once. SUSPEND SWEEP and RESUME SWEEP by the state of the sweep; a resumed sweep with no slot left ends at once. That no stop
request stands at the start or the end of a sweep is the model's (log 40). -/
def Obligations.SweepCommands : Prop :=
  (∀ s : State, writesFreely s → taken .sweep s → s.tu.running = none → s.tu.sweep.state = .none →
    ∃ t, exec .sweep s = .next t ∧
      (∀ n : Fin 12, takesSlot s 0 n →
        PostedFrom { finished .sweep .started s with
          tu := { s.tu with
            running := some { task := .sweep, phase := .reading }
            sweep := { state := .running, next := n.val + 1, stop := .none, check := some { slot := n, void := false } }
            slotWords := [], slotCrc := 0xFFFF }
          pu := readPresented (slotWordAddr s.pu n 0) s } t) ∧
      ((∀ n : Fin 12, ¬ takesSlot s 0 n) → s.tu.pendingTask = none →
        PostedFrom (taskEnded .sweep .done { finished .sweep .started s with
          tu := { s.tu with sweep := { state := .none, next := 0, stop := .none, check := none } } }) t)) ∧
  ∀ s : State, writesFreely s →
    (taken .suspendSweep s → ∃ t, exec .suspendSweep s = .next t ∧
      (s.tu.sweep.state = .running → PostedFrom { finished .suspendSweep .done s with
        tu := { s.tu with sweep := { s.tu.sweep with stop := .suspend } } } t) ∧
      (s.tu.sweep.state = .yielded → PostedFrom { finished .suspendSweep .done s with
        tu := { s.tu with sweep := { s.tu.sweep with state := .suspended } } } t) ∧
      (s.tu.sweep.state = .none ∨ s.tu.sweep.state = .suspended →
        PostedFrom (finished .suspendSweep .refusedState s) t)) ∧
    (taken .resumeSweep s → ∃ t, exec .resumeSweep s = .next t ∧
      (s.tu.sweep.state ≠ .suspended → PostedFrom (finished .resumeSweep .refusedState s) t) ∧
      (s.tu.sweep.state = .suspended → s.tu.running ≠ none →
        PostedFrom (finished .resumeSweep .refusedBusy s) t) ∧
      (s.tu.sweep.state = .suspended → s.tu.running = none →
        ∀ n : Fin 12, takesSlot s s.tu.sweep.next n →
          PostedFrom { finished .resumeSweep .started s with
            tu := { s.tu with
              running := some { task := .sweep, phase := .reading }
              sweep := { s.tu.sweep with
                state := .running, next := n.val + 1, check := some { slot := n, void := false } }
              slotWords := [], slotCrc := 0xFFFF }
            pu := readPresented (slotWordAddr s.pu n 0) s } t) ∧
      (s.tu.sweep.state = .suspended → s.tu.running = none → s.tu.pendingTask = none →
        (∀ n : Fin 12, ¬ takesSlot s s.tu.sweep.next n) →
        PostedFrom (sweepEnded (finished .resumeSweep .started s)) t))

/-- MOUNT: its own checks in order; with no task running and no mould mounted its load phase begins. -/
def Obligations.MountBeginsItsLoadPhase : Prop :=
  ∀ s : State, writesFreely s → taken .mount s →
    let paramsOk := (param1 s).toNat ≤ 11 ∧ param2 s ≠ 0 ∧ 1 ≤ (param3 s).toNat ∧ (param3 s).toNat ≤ 48 ∧
      (param4 s).toNat ≤ 3 ∧ (param5 s).toNat < 2 ^ 16
    ∃ t, exec .mount s = .next t ∧
      (¬ paramsOk → PostedFrom (finished .mount .refusedParam s) t) ∧
      (paramsOk → ∀ n : Fin 12, (param1 s).toNat = n.val →
        let p : MountParams :=
          { slot := n, mouldId := param2 s, count := (param3 s).toNat, profile := Fin.ofNat 4 (param4 s).toNat,
            zoneId := BitVec.ofNat 16 (param5 s).toNat }
        (s.tu.directory[n].state ∈ [SlotState.damaged, .clearing, .loading, .saving] →
          PostedFrom (finished .mount .refusedState s) t) ∧
        (s.tu.directory[n].state ∉ [SlotState.damaged, .clearing, .loading, .saving] → s.tu.running = none →
          s.eu.state = .empty →
          PostedFrom { finished .mount .started s with
            eu := { s.eu with state := .changing }
            tu := { s.tu with
              directory := s.tu.directory.set n { s.tu.directory[n] with state := .loading }
              running := some { task := .mount p, phase := .reading }
              slotWords := [], slotCrc := 0xFFFF }
            pu := readPresented (slotWordAddr s.pu n 0) s } t))

/-- The save phase of MOUNT and RELEASE, begun at once with a mould mounted: the snapshot, EU in CHANGING with its cycles
discarded, one DISCARDED each, and its records dropped, the mounted slot SAVING, and the image asked for. RELEASE is refused
with no mould. With another profile than 0 in use before, the events that form under profile 0 follow; they change nothing
of EU, and count only EVENTS and LOG. That the slot records stand ahead of RU's records of the same step is the model's
(log 13). -/
def Obligations.SavePhaseOpens : Prop :=
  ∀ (s : State) (m : Mould) (n : Fin 12), writesFreely s →
    let u (c : Command) (k : Task) : State :=
      let v := finished c .started s
      askRecords 16 { v with
        eu := { s.eu with state := .changing, mould := none, cycles := [], newest := none }
        tu := { s.tu with
          snapshot := some m
          directory := s.tu.directory.set n { s.tu.directory[n] with state := .saving }
          running := some { task := k, phase := .writing }
          writer := some { slot := n, image := mouldImage m, next := 0 } }
        ru := { v.ru with
          counters := s.ru.counters.map fun c => s.eu.cycles.foldl (fun c _ => c.occur .cycleDiscarded) c } }
    let mounted := (s.eu.state = .running ∨ s.eu.state = .held) ∧ s.eu.mould = some m ∧ mountedAt s n ∧
      s.tu.running = none
    let opened (c : Command) (k : Task) (t : State) : Prop :=
      Located (u c k) t ∧ t.eu = (u c k).eu ∧ t.tu = (u c k).tu ∧
      (∀ i : Fin 4, (u c k).ru.counters[i].select ≠ 5 → (u c k).ru.counters[i].select ≠ 8 →
        t.ru.counters[i] = (u c k).ru.counters[i]) ∧
      (m.header.profile = 0 → PostedFrom (u c k) t)
    (taken .release s → ∃ t, exec .release s = .next t ∧
      (s.eu.state = .empty ∨ s.eu.state = .changing → PostedFrom (finished .release .refusedState s) t) ∧
      (mounted → opened .release .release t)) ∧
    (taken .mount s → ∀ p, taskOf .mount s = some (.mount p) → ∃ t, exec .mount s = .next t ∧
      (mounted → opened .mount (.mount p) t))

/-! ### The commands of EU and RU -/

/-- CLEAR CAVITY and CLEAR MOULD: the records they clear, and the verdict words that follow, which are posted. That CLEAR MOULD
hands over the words of the cavities up to the count is the model's (log 37), as is that the bits of a verdict word without a
field are zero, and so a cleared cavity's word is 0 (log 10). -/
def Obligations.ClearingEvidence : Prop :=
  ∀ (s : State) (m : Mould), writesFreely s →
    let cleared (r : CavityRecord) : CavityRecord :=
      { r with verdict := .sound, history := 0, hot := 0, suspectEnergy := 0, lastCycle := 0 }
    let mounted := (s.eu.state = .running ∨ s.eu.state = .held) ∧ s.eu.mould = some m ∧
      m.cavities.length = m.header.count ∧ m.header.count ≤ 48
    (taken .clearCavity s → ∃ t, exec .clearCavity s = .next t ∧
      (s.eu.state = .empty ∨ s.eu.state = .changing → PostedFrom (finished .clearCavity .refusedState s) t) ∧
      (mounted → (param1 s).toNat = 0 ∨ m.header.count < (param1 s).toNat →
        PostedFrom (finished .clearCavity .refusedParam s) t) ∧
      (mounted → ∀ (i : Fin 48) (r : CavityRecord), (param1 s).toNat = i.val + 1 → m.cavities[i.val]? = some r →
        let u := finished .clearCavity .done s
        PostedFrom { u with
          eu := { s.eu with mould := some { m with cavities := m.cavities.set i (cleared r) } }
          ru := { u.ru with verdictWords := s.ru.verdictWords.set i 0 } } t ∧
        (wholeCopies (.verdict i) s → Shown (.verdict i) t))) ∧
    (taken .clearMould s → ∃ t, exec .clearMould s = .next t ∧
      (s.eu.state = .empty ∨ s.eu.state = .changing → PostedFrom (finished .clearMould .refusedState s) t) ∧
      (mounted →
        let u := finished .clearMould .done s
        PostedFrom { u with
          eu := { s.eu with mould := some { m with cavities := m.cavities.map cleared } }
          ru := { u.ru with
            verdictWords := Vector.ofFn fun i : Fin 48 => if i.val < m.header.count then 0 else s.ru.verdictWords[i] } } t ∧
        ∀ i : Fin 48, i.val < m.header.count → wholeCopies (.verdict i) s → Shown (.verdict i) t))

/-- SET REPORTING: the rules of its table, and the controls it replaces; a running pulse ends under OFF and LEVEL. -/
def Obligations.SetReportingTakesItsControls : Prop :=
  ∀ s : State, writesFreely s → taken .setReporting s →
    let ok := (param1 s).toNat < 2 ^ 9 ∧ (param2 s).toNat ≤ 3 ∧ (param3 s).toNat < 2 ^ 8 ∧ (param4 s).toNat < 2 ^ 16
    let u := finished .setReporting .done s
    ∃ t, exec .setReporting s = .next t ∧
      (¬ ok → PostedFrom (finished .setReporting .refusedParam s) t) ∧
      (ok → PostedFrom { u with
        ru := { u.ru with
          enables := BitVec.ofNat 8 (param1 s).toNat
          masterEnable := (param1 s).getLsbD 8
          alarmMode := if (param2 s).toNat = 0 then .off else if (param2 s).toNat = 1 then .level
            else if (param2 s).toNat = 2 then .pulseCrack else .pulseSuspect
          logMask := BitVec.ofNat 8 (param3 s).toNat
          traceInterval := BitVec.ofNat 16 (param4 s).toNat
          countdown := BitVec.ofNat 16 (param4 s).toNat }
        eu := { s.eu with pulse := if (param2 s).toNat ≤ 1 then none else s.eu.pulse } } t)

/-- SET COUNTER: its ranges; the counter takes its select and mask and is set to 0, and the counter record is posted. An
occurrence adds 1, wrapping, to every counter whose select is its event and whose mask has the bit of its sub-kind, by the table
of events, and changes no other. -/
def Obligations.SetCounterRestartsACounter : Prop :=
  (let place : Occurrence → Nat × Nat
      | .blockAccepted r => (1, r.val)
      | .blockRefused why =>
        (2, match why with | .crc => 0 | .badHeader => 1 | .partialWrite => 2 | .order => 3 | .timeout => 4 | .queueFull => 5)
      | .discontinuitySequence => (3, 0)
      | .discontinuityTimestamp => (3, 1)
      | .hit what => (4, match what with | .accepted => 0 | .short => 1 | .truncated => 2 | .broken => 3 | .late => 4)
      | .event o =>
        (5, match o with
          | .held => 0 | .unlocated => 1 | .excluded => 2 | .outside => 3 | .impact => 4 | .gated => 5 | .late => 6 | .crack => 7)
      | .eventForced => (5, 8)
      | .writeDropped kind => (6, match kind with | .results => 0 | .busySlot => 1 | .lockedSlot => 2)
      | .hold kind => (7, match kind with | .postFull => 0 | .recordRead => 1 | .taskWait => 2)
      | .logWritten => (8, 0)
      | .logDropped => (8, 1)
      | .cycleClosed => (9, 0)
      | .cycleForced => (9, 1)
      | .cycleDiscarded => (9, 2)
      | .cycleGap => (9, 3)
    ∀ (o : Occurrence) (c : Counter),
      (c.select.toNat = (place o).1 ∧ c.mask.getLsbD (place o).2 = true → c.occur o = { c with value := c.value + 1 }) ∧
      (¬ (c.select.toNat = (place o).1 ∧ c.mask.getLsbD (place o).2 = true) → c.occur o = c)) ∧
  ∀ s : State, writesFreely s → taken .setCounter s →
    let u := finished .setCounter .done s
    ∃ t, exec .setCounter s = .next t ∧
      (3 < (param1 s).toNat ∨ 9 < (param2 s).toNat ∨ 0xFFF < (param3 s).toNat →
        PostedFrom (finished .setCounter .refusedParam s) t) ∧
      (∀ n : Fin 4, (param1 s).toNat = n.val → (param2 s).toNat ≤ 9 → (param3 s).toNat ≤ 0xFFF →
        PostedFrom { u with ru := { u.ru with
          counters := s.ru.counters.set n
            { value := 0, select := BitVec.ofNat 4 (param2 s).toNat, mask := BitVec.ofNat 12 (param3 s).toNat } } } t ∧
        (wholeCopies .counter s → Shown .counter t))

/-- CLEAR STATUS clears the four sticky flags and the first dropped-write address; ACKNOWLEDGE clears the causes it names. -/
def Obligations.ClearStatusAndAcknowledge : Prop :=
  ∀ s : State, writesFreely s →
    (taken .clearStatus s → ∃ t, exec .clearStatus s = .next t ∧
      let u := finished .clearStatus .done s
      PostedFrom { u with ru := { u.ru with
        seqErr := false, paramAdj := false, protect := false, taskFail := false, firstDrop := none } } t) ∧
    (taken .acknowledge s → ∃ t, exec .acknowledge s = .next t ∧
      let u := finished .acknowledge .done s
      (2 ^ 8 ≤ (param1 s).toNat → PostedFrom (finished .acknowledge .refusedParam s) t) ∧
      ((param1 s).toNat < 2 ^ 8 → PostedFrom { u with ru := { u.ru with
        causes := s.ru.causes &&& ~~~(BitVec.ofNat 8 (param1 s).toNat) } } t))

/-! ### The part's own steps: tasks -/

/-- TU asks for the records of its image in order: none without room or layout, one with room for one, two with an empty queue.
RU goes through its dirty records: the first in order is queued with its contents as they stand and its mark cleared when there
is room, and stays dirty when there is none. The directory record has each slot's state code, lock and ID; a verdict record is
the cavity's word at RU, and a trace half 16 of the 32 words of the trace. The holds are tested before each row and after it
(log 19). -/
def Obligations.WaitingRecordsAreAskedForInOrder : Prop :=
  (∀ (s₀ : State) (w : ImageWriter), s₀.inReset = false → s₀.tu.writer = some w → w.image.length = 256 →
    let s := reportHolds s₀
    let rec_ (r : Nat) : QueuedRecord :=
      { id := .slot w.slot r, addr := recordAddr s.pu (.slot w.slot r), words := (w.image.drop (16 * r)).take 16,
        begun := false }
    let after (q : List QueuedRecord) (n : Nat) : State :=
      { s with pu := { s.pu with queue := s.pu.queue ++ q }, tu := { s.tu with writer := some { w with next := n } } }
    (s.pu.layoutDefined = false ∨ 16 < queueLength s.pu.queue ∨ 16 ≤ w.next →
      exec .taskRecordEnqueue s₀ = .next (reportHolds s)) ∧
    (s.pu.layoutDefined = true → w.next < 16 → queueLength s.pu.queue ≤ 16 →
      (0 < queueLength s.pu.queue ∨ w.next = 15) →
      exec .taskRecordEnqueue s₀ = .next (reportHolds (after [rec_ w.next] (w.next + 1)))) ∧
    (s.pu.layoutDefined = true → w.next < 15 → queueLength s.pu.queue = 0 →
      exec .taskRecordEnqueue s₀ = .next (reportHolds (after [rec_ w.next, rec_ (w.next + 1)] (w.next + 2))))) ∧
  (∀ (s : State) (f : FreeBits), SpellsDirectory s (recordWords f s .directory) ∧
    (∀ c : Fin 48, recordWords f s (.verdict c) = [s.ru.verdictWords[c]]) ∧
    ∀ h : Fin 2, (recordWords f s (.trace h)).length = 16 ∧
      ∀ i : Fin 16, wordAt (recordWords f s (.trace h)) i.val = wordAt s.ru.traceWords.toList (16 * h.val + i.val)) ∧
  ∀ (s₀ : State) (id : RecordId) (before after : List RecordId), s₀.inReset = false →
    replaceableIds = before ++ id :: after → s₀.ru.dirty.get id = true → (∀ k ∈ before, s₀.ru.dirty.get k = false) →
    let s := reportHolds s₀
    ∃ t, exec .dirtyRecordPost s₀ = .next (reportHolds t) ∧ PostedFrom s t ∧
      (s.pu.layoutDefined = true → queueLength s.pu.queue + (recordWords s.freeBits s id).length ≤ 32 →
        t.ru.dirty.get id = false ∧
        ∃ f rest, t.pu.queue.drop s.pu.queue.length =
          { id := id, addr := recordAddr s.pu id, words := recordWords f t id, begun := false } :: rest) ∧
      (s.pu.layoutDefined = false ∨ 32 < queueLength s.pu.queue + (recordWords s.freeBits s id).length →
        s.ru.traceAwait = false → t = s)

/-- How tables and slots are judged: what refuses a profile table, the fields of the profile it stores with their clamps, and
when one is reported; what refuses the header and each band of a zone map table, word by word; and the judgement of a slot. -/
def Obligations.TablesAndSlotsAreJudged : Prop :=
  (∀ ws : List Word,
    let n := numberAt ws
    let clamp (lo hi v : Nat) : Nat := min (max lo v) hi
    let mindur := clamp 1 15 (n 8)
    let clamped : List (Nat × Nat) :=
      [(2, clamp 1 65535 (n 2)), (3, clamp 16 255 (n 3)), (4, clamp 0 65535 (n 4)), (5, clamp 4 12 (n 5)),
       (6, clamp 1 255 (n 6)), (7, clamp 0 1023 (n 7)), (8, mindur), (9, clamp mindur 4095 (n 9)),
       (10, clamp 10 5000 (n 10)), (11, clamp 0 4095 (n 11)), (12, clamp 0 65535 (n 12)), (14, clamp 1 255 (n 14))]
    (profileTableOk ws = true ↔ wordAt ws 0 = 0x50460020 ∧ (n 1 = 0 ∨ n 1 = 1) ∧
      1 ≤ n 15 ∧ n 15 ≤ n 17 ∧ n 17 ≤ n 19 ∧ n 19 ≤ 32 ∧ n 16 < n 15 ∧ n 18 < n 17 ∧ n 16 ≤ n 18) ∧
    profileOfTable ws =
      { extraction :=
          { mode := if n 1 = 0 then .fixed else .floating
            fixedThreshold := clamp 1 65535 (n 2), f := clamp 16 255 (n 3), m := clamp 0 65535 (n 4)
            k := clamp 4 12 (n 5), hdt := clamp 1 255 (n 6), hlt := clamp 0 1023 (n 7), mindur := mindur
            maxdur := clamp mindur 4095 (n 9) }
        event :=
          { w := clamp 10 5000 (n 10), risemax := clamp 0 4095 (n 11), peakmin := clamp 0 65535 (n 12)
            phaseMask := BitVec.ofNat 8 (n 13) }
        evidence :=
          { evmin := clamp 1 255 (n 14), watchOn := n 15, watchOff := n 16, suspectOn := n 17, suspectOff := n 18
            crackOn := n 19
            eCrack := if n 21 < 2 ^ 16 then n 20 + 2 ^ 32 * n 21 else 2 ^ 48 - 1 } } ∧
    (tableClamped ws = true ↔ (∃ x ∈ clamped, x.2 ≠ n x.1) ∨ 2 ^ 16 ≤ n 21)) ∧
  (∀ (source : Addr) (header : Word),
    let id := header.toNat / 2 ^ 16
    let count := header.toNat % 2 ^ 16
    zoneHeaderOk source header = true ↔
      id ≠ 0 ∧ 1 ≤ count ∧ count ≤ 256 ∧ source.toNat + 4 * (1 + 2 * count) - 1 ≤ 0xFFFFFF) ∧
  (∀ a b : Word, bandOf a b =
    { first := Fin.ofNat 8 a.toNat, second := Fin.ofNat 8 (a.toNat / 2 ^ 4), cavity := a.toNat / 2 ^ 8 % 2 ^ 6
      low := b.toNat % 2 ^ 16, high := b.toNat / 2 ^ 16 }) ∧
  (∀ (before : List Band) (b : Band),
    let key (x : Band) : Nat := x.first.val * 8 + x.second.val
    bandOk before b = true ↔ b.cavity ≤ 48 ∧ b.low ≤ b.high ∧ (b.first = b.second → b.low = 0 ∧ b.high = 0) ∧
      (∀ x, before.getLast? = some x → key x ≤ key b ∧ (key x = key b → x.high < b.low)) ∧
      (before.filter fun x => key x == key b).length < 8) ∧
  (∀ (source : Addr) (ws : List Word) (k : Nat),
    (ws.length = 1 → zoneState source ws = if zoneHeaderOk source (wordAt ws 0) then .reading else .bad) ∧
    (ws.length = 2 * k + 2 → zoneState source ws = .reading) ∧
    (ws.length = 2 * k + 3 →
      ∃ before b, bandsOfWords ws.tail = before ++ [b] ∧ before.length = k ∧
        (∀ i < k, before[i]? = some (bandOf (wordAt ws (1 + 2 * i)) (wordAt ws (2 + 2 * i)))) ∧
        b = bandOf (wordAt ws (1 + 2 * k)) (wordAt ws (2 + 2 * k)) ∧
        zoneState source ws = if bandOk before b = false then .bad
          else if k + 1 = (wordAt ws 0).toNat % 2 ^ 16 then .good else .reading)) ∧
  (∀ (crc : Half) (ws : List Word),
    judgeSlot crc ws =
      if crc.toNat ≠ (wordAt ws 255).toNat % 2 ^ 16 then .bad
      else if wordAt ws 1 ≠ 0x00004E43 ∧ wordAt ws 1 ≠ 0 then .bad
      else if wordAt ws 1 = 0 then .goodEmpty
      else if wordAt ws 0 = 0 ∨ (wordAt ws 2).toNat = 0 ∨ 48 < (wordAt ws 2).toNat then .bad
      else .goodOccupied (wordAt ws 0) (wordAt ws 2).toNat)

/-- A word returns to a profile LOAD: before the last the next word is asked for; with the last the table is judged, and the
profile replaced or the LOAD failed; then a YIELDED sweep goes on. That the staging is empty after an end is the model's
(log 39). The holds are tested first, while the read still waits (logs 18, 19). -/
def Obligations.ProfileLoadReadsAndJudges : Prop :=
  ∀ (s₀ : State) (r : TaskRead) (p : Fin 4) (source : Addr) (ph : TaskPhase), s₀.inReset = false →
    s₀.pu.taskRead = some r → servesRead s₀ r = true →
    s₀.tu.running = some { task := .load (.profile p) source, phase := ph } →
    let s := reportHolds s₀
    let ws := s.tu.staging ++ [s.mem.readWord r.addr]
    let u : State := { s with pu := { s.pu with taskRead := none } }
    let fits := profileTableOk ws = true
    let done : State := taskEnded (.load (.profile p) source) .done { u with
      tu := { s.tu with staging := [], profiles := s.tu.profiles.set p (profileOfTable ws) }
      ru := { s.ru with paramAdj := if tableClamped ws then true else s.ru.paramAdj } }
    (s.tu.staging.length < 31 → ∃ t v, exec .taskReadData s₀ = .next t ∧ t = reportHolds v ∧
      PostedFrom { s with
        pu := readPresented (BitVec.ofNat 22 (source.toNat / 4 + ws.length)) s
        tu := { s.tu with staging := ws } } v) ∧
    (s.tu.staging.length = 31 → s.tu.pendingTask = none → ∃ t v, exec .taskReadData s₀ = .next t ∧ t = reportHolds v ∧
      (¬ fits → EndsWith (taskEnded (.load (.profile p) source) .badTable
        { u with tu := { s.tu with staging := [] } }) v) ∧
      (fits → p ≠ profileNumberInUse s → EndsWith done v) ∧
      (fits → p = profileNumberInUse s → ∃ w, GoesOn done w ∧ Located w v))

/-- A word returns to a LOAD of a zone map: it is staged and the next word is asked for, until the table is good or bad. A good
table replaces the active map as one step, and EU compares its ID with the mounted mould's; a bad one ends the LOAD with BAD
TABLE. Then a YIELDED sweep goes on. That the staging is empty after an end with DONE is the model's (log 39). The holds are
tested first, while the read still waits (logs 18, 19). -/
def Obligations.ZoneLoadReplacesTheMap : Prop :=
  ∀ (s₀ : State) (r : TaskRead) (source : Addr) (ph : TaskPhase), s₀.inReset = false →
    s₀.pu.taskRead = some r → servesRead s₀ r = true →
    s₀.tu.running = some { task := .load .zones source, phase := ph } →
    let s := reportHolds s₀
    let ws := s.tu.staging ++ [s.mem.readWord r.addr]
    let u : State := { s with pu := { s.pu with taskRead := none }, tu := { s.tu with staging := [] } }
    let id : Half := BitVec.ofNat 16 ((wordAt ws 0).toNat / 2 ^ 16)
    ∃ t v, exec .taskReadData s₀ = .next t ∧ t = reportHolds v ∧
      (zoneState source ws = .reading → PostedFrom { s with
        pu := readPresented (BitVec.ofNat 22 (source.toNat / 4 + ws.length)) s
        tu := { s.tu with staging := ws } } v) ∧
      (zoneState source ws = .bad → s.tu.pendingTask = none →
        EndsWith (taskEnded (.load .zones source) .badTable u) v) ∧
      (zoneState source ws = .good → s.tu.pendingTask = none → EndsWith (taskEnded (.load .zones source) .done { u with
        el := { s.el with zones := { id := id, bands := bandsOfWords ws.tail } }
        eu := { s.eu with state :=
          if s.eu.state = .running ∨ s.eu.state = .held then
            match s.eu.mould with
            | some m => if m.header.zoneId = id then .running else .held
            | none => s.eu.state
          else s.eu.state } }) v)

/-- A word of a slot returns to a sweep: before the last it is kept and fed through the check register, and the next is asked
for. With the last the judgement is applied to the slot under check unless it is void, and ARCHIVE becomes pending when it is
BAD. Then the sweep is at a slot boundary: it goes on with the next slot, or is YIELDED or SUSPENDED as it was asked, or ends with
DONE where no slot is left, a stop request then dropped (log 40); and where it does not go on, a pending task begins, whose
slot records stand ahead of RU's of the same step (log 13). The holds are tested first, while the read still waits
(logs 18, 19). -/
def Obligations.SweepAppliesItsJudgement : Prop :=
  ∀ (s₀ : State) (r : TaskRead) (n : Fin 12) (void : Bool) (ph : TaskPhase), s₀.inReset = false →
    s₀.pu.taskRead = some r → servesRead s₀ r = true →
    s₀.tu.running = some { task := .sweep, phase := ph } → s₀.tu.sweep.check = some { slot := n, void := void } →
    let s := reportHolds s₀
    let ws := s.tu.slotWords ++ [s.mem.readWord r.addr]
    let j := judgeSlot s.tu.slotCrc ws
    let entry : DirEntry :=
      match j with
      | .bad => { s.tu.directory[n] with state := .damaged, mouldId := 0 }
      | .goodEmpty => { s.tu.directory[n] with state := .empty, mouldId := 0 }
      | .goodOccupied id _ => { s.tu.directory[n] with state := .valid, mouldId := id }
    let u : State := { s with
      pu := { s.pu with taskRead := none }
      tu := { s.tu with
        slotWords := ws
        directory := if void then s.tu.directory else s.tu.directory.set n entry
        sweep := { s.tu.sweep with check := none } }
      ru := { s.ru with causes := if j = .bad ∧ void = false then s.ru.causes ||| 0x04 else s.ru.causes } }
    let stopped (st : SweepState) : State := { u with
      tu := { u.tu with running := none, sweep := { u.tu.sweep with state := st, stop := .none } } }
    ∃ t v, exec .taskReadData s₀ = .next t ∧ t = reportHolds v ∧
      (s.tu.slotWords.length < 255 → PostedFrom (slotWordKept n (s.mem.readWord r.addr) s) v) ∧
      (s.tu.slotWords.length = 255 →
        (∀ k : Fin 12, takesSlot u s.tu.sweep.next k →
          (s.tu.sweep.stop = .none → PostedFrom (sweepReads k u) v) ∧
          (s.tu.sweep.stop = .yield → PendingBegins (stopped .yielded) v) ∧
          (s.tu.sweep.stop = .suspend → PendingBegins (stopped .suspended) v)) ∧
        ((∀ k : Fin 12, ¬ takesSlot u s.tu.sweep.next k) → PendingBegins (sweepEnded u) v))

/-- A word of the target returns to a MOUNT: before the last it is kept and fed through the check register, and the next is asked
for. The judgement with the last ends the task: DAMAGED, WRONG MOULD or WRONG COUNT with EU EMPTY, or the mould taken in, fresh
or stored, with every verdict word handed over and posted; then a YIELDED sweep goes on. EU holds
no open cycle while it is CHANGING, as the statement about the mounted mould says. The holds are tested first, while the read
still waits (logs 18, 19). -/
def Obligations.MountEndsByItsJudgement : Prop :=
  ∀ (s₀ : State) (r : TaskRead) (p : MountParams) (ph : TaskPhase), s₀.inReset = false →
    s₀.pu.taskRead = some r → servesRead s₀ r = true → s₀.tu.running = some { task := .mount p, phase := ph } →
    let s := reportHolds s₀
    let ws := s.tu.slotWords ++ [s.mem.readWord r.addr]
    let u : State := { s with pu := { s.pu with taskRead := none }, tu := { s.tu with slotWords := ws } }
    let slot (st : SlotState) (id : Word) : TaskUnit :=
      { u.tu with directory := s.tu.directory.set p.slot { s.tu.directory[p.slot] with state := st, mouldId := id } }
    let failed (result : TaskResult) (st : SlotState) (id : Word) (archive : Byte) : State :=
      taskEnded (.mount p) result { u with
        tu := slot st id, eu := { s.eu with state := .empty }, ru := { s.ru with causes := s.ru.causes ||| archive } }
    let taken (m : Mould) : State := taskEnded (.mount p) .done { u with
      tu := slot .mounted p.mouldId
      eu := { s.eu with state := if p.zoneId = s.el.zones.id then .running else .held, mould := some m }
      ru := { s.ru with verdictWords := Vector.ofFn fun i : Fin 48 => verdictWord m.cavities[i.val]? } }
    let mounts (m : Mould) (v : State) : Prop :=
      ∃ w, GoesOn (taken m) w ∧ Located w v ∧ v.eu = (taken m).eu ∧ v.ru.verdictWords = (taken m).ru.verdictWords ∧
        (p.profile = 0 → PostedFrom w v) ∧ ∀ i : Fin 48, wholeCopies (.verdict i) s → Shown (.verdict i) v
    ∃ t v, exec .taskReadData s₀ = .next t ∧ t = reportHolds v ∧
      (s.tu.slotWords.length < 255 → PostedFrom (slotWordKept p.slot (s.mem.readWord r.addr) s) v) ∧
      (s.tu.slotWords.length = 255 → s.tu.pendingTask = none → s.eu.state = .changing → s.eu.cycles = [] →
      match judgeSlot s.tu.slotCrc ws with
      | .bad => EndsWith (failed .damaged .damaged 0 0x04) v
      | .goodEmpty => mounts
        { header := { mouldId := p.mouldId, count := p.count, profile := p.profile, zoneId := p.zoneId
                      observed := 0, lastClosed := 0 }
          cavities := List.replicate p.count
            { verdict := .sound, history := 0, hot := 0, totalEnergy := 0, suspectEnergy := 0, lifetime := 0
              lastCycle := 0 } } v
      | .goodOccupied id count =>
        if id ≠ p.mouldId then EndsWith (failed .wrongMould .valid id 0) v
        else if count ≠ p.count then EndsWith (failed .wrongCount .valid id 0) v
        else mounts (storedMould p ws) v)

/-- Record 15 of a slot image completes, and the task that writes it ends or goes on: CLEAR SLOT, CHECKPOINT, RELEASE, and the
save phase of MOUNT, which goes on to its load phase; after an end a YIELDED sweep goes on. That the completion takes effect
before the room that the word leaves is asked for is the model's (log 42). The holds are tested before the row and after it
(log 19). -/
def Obligations.ImageWriteEndsItsTask : Prop :=
  ∀ (s₀ : State) (q : QueuedRecord) (rest : List QueuedRecord) (d : Word) (n : Fin 12) (k : Task) (ph : TaskPhase),
    s₀.inReset = false → s₀.pu.queue = q :: rest → q.words = [d] → q.id = .slot n 15 → choiceOne s₀ = false →
    accessEligible s₀ = false → s₀.tu.pendingTask = none → s₀.tu.running = some { task := k, phase := ph } →
    let s := reportHolds s₀
    let u : State := { s with
      mem := s.mem.writeWord q.addr fullEnables d
      pu := { s.pu with queue := rest }
      tu := { s.tu with writer := none } }
    let slot (i : Fin 12) (st : SlotState) (id : Word) : Vector DirEntry 12 :=
      s.tu.directory.set i { s.tu.directory[i] with state := st, mouldId := id }
    ∃ t v, exec .postWordPerformed s₀ = .next t ∧ t = reportHolds v ∧
      (k = .clearSlot n → EndsWith (taskEnded k .done { u with tu := { u.tu with directory := slot n .empty 0 } }) v) ∧
      (k = .checkpoint → EndsWith (taskEnded k .done { u with tu := { u.tu with snapshot := none } }) v) ∧
      (k = .release → s.eu.state = .changing → EndsWith (taskEnded k .done { u with
        tu := { u.tu with snapshot := none, directory := slot n .valid s.tu.directory[n].mouldId }
        eu := { s.eu with state := .empty } }) v) ∧
      (∀ p, k = .mount p → s.eu.state = .changing →
        let dir := slot n .valid s.tu.directory[n].mouldId
        PostedFrom { u with
          tu := { u.tu with
            snapshot := none
            directory := dir.set p.slot { dir[p.slot] with state := .loading }
            running := some { task := k, phase := .reading }
            slotWords := [], slotCrc := 0xFFFF }
          pu := { s.pu with
            queue := rest
            taskRead := some
              { addr := slotWordAddr s.pu p.slot 0, presentedAt := s.localTime, promoted := false } } } v)

/-! ### The part's own steps: rings, samples and timers -/

/-- The timers that a step takes when they are due, and not before: a task read is promoted after 200 local microseconds; a
block timeout refuses the capture with TIMEOUT and STREAM and the ring falls to HUNT; an alarm pulse ends 50,000 local
microseconds after its start; a ring that is on becomes stale when its stale time has passed: the flag, STREAM, and its
channel without a covered-to time. The holds are tested before each row and after it (log 19). -/
def Obligations.TimersTakeEffectWhenDue : Prop :=
  (∀ s₀ : State, s₀.inReset = false →
    let s := reportHolds s₀
    (∀ r : TaskRead, s.pu.taskRead = some r → r.promoted = false →
      (atOrAfter s.localTime (r.presentedAt + 200) = true → exec .taskWaitExpiry s₀ =
        .next (reportHolds { s with pu := { s.pu with taskRead := some { r with promoted := true } } })) ∧
      (atOrAfter s.localTime (r.presentedAt + 200) = false → exec .taskWaitExpiry s₀ = .next (reportHolds s))) ∧
    (∀ (r : Fin 8) (c : Capture), s.sf.rings[r].state = .locked (.collecting c) →
      let due := atOrAfter s.localTime (c.lastWrite + BitVec.ofNat 32 s.sf.framing.blockTimeout)
      (due = false → exec (.blockTimeout r) s₀ = .next (reportHolds s)) ∧
      (due = true → ∃ t, exec (.blockTimeout r) s₀ = .next (reportHolds t) ∧ PostedFrom { s with
        sf := { s.sf with rings := s.sf.rings.set r { s.sf.rings[r] with state := .hunt } }
        ru := { s.ru with
          counters := s.ru.counters.map (Counter.occur (.blockRefused .timeout)), causes := s.ru.causes ||| 0x10 } } t)) ∧
    (∀ start : Time, s.eu.pulse = some start → exec .alarmPulseEnd s₀ = .next (reportHolds
      (if atOrAfter s.localTime (start + 50000) then { s with eu := { s.eu with pulse := none } } else s)))) ∧
  ∀ (s₀ : State) (r : Fin 8) (ref : Time), s₀.inReset = false → s₀.sf.rings[r].defined = true →
    (∀ q : Fin 8, q ≠ r → s₀.sf.rings[q].defined = true → s₀.sf.rings[q].channel ≠ s₀.sf.rings[r].channel) →
    s₀.sf.rings[r].state ≠ .off → s₀.sf.rings[r].stale = false → s₀.sf.rings[r].staleRef = some ref →
    let s := reportHolds s₀
    let due := atOrAfter s.localTime (ref + BitVec.ofNat 32 (1000 * s.sf.framing.staleTime))
    let c := s.sf.rings[r].channel
    let u : State := { s with
      sf := { s.sf with rings := s.sf.rings.set r { s.sf.rings[r] with stale := true } }
      hx := { s.hx with channels := s.hx.channels.set c { s.hx.channels[c] with coveredTo := none } }
      ru := { s.ru with causes := s.ru.causes ||| 0x10 } }
    (due = false → exec (.ringStale r) s₀ = .next (reportHolds s)) ∧
    (due = true → ∃ t, exec (.ringStale r) s₀ = .next (reportHolds t) ∧ Located u t ∧
      (s.hx.channels[c].coveredTo = none → PostedFrom u t))

/-- A write of a ring: in OFF ignored; in HUNT a sync write with the ring's channel begins a capture, one with another channel is
refused with BAD HEADER, and any other is ignored; in COLLECTING the next expected word is taken, a partial write refuses the
block with PARTIAL and any other with ORDER; in WAITING a sync write at the next position begins a capture, or is refused with
BAD HEADER and STREAM, and any other write refuses the expected block with ORDER. After PARTIAL and ORDER, STREAM is pending,
the ring is in HUNT and the write is handled again there, as a second report (log 24). -/
def Obligations.RingWritesFollowTheStream : Prop :=
  ∀ (s : State) (w : WordAddr) (be : Enables) (d : Word) (r : Fin 8) (off : Nat), writesFreely s →
    placeOf s.pu s.sf w = .ring r off →
    let x := s.sf.rings[r]
    let sync := be = fullEnables ∧ off % 68 = 0 ∧ d.toNat / 2 ^ 16 = s.sf.framing.sync.toNat
    let written : State := { s with mem := s.mem.writeWord w be d }
    let with_ (v : State) (st : RingState) : State :=
      { v with sf := { v.sf with rings := v.sf.rings.set r { v.sf.rings[r] with state := st } } }
    let begun (position : Nat) : RingState := .locked (.collecting
      { position := position, nextWord := 1, words := [d], poly := s.sf.framing.poly
        crc := crcWord s.sf.framing.poly s.sf.framing.preset.value d, lastWrite := s.localTime })
    let hunted (v t : State) : Prop :=
      (¬ sync → t = v) ∧
      (sync → d.toNat % 8 = x.channel.val → PostedFrom (with_ v (begun (off / 68))) t) ∧
      (sync → d.toNat % 8 ≠ x.channel.val → PostedFrom (counted [.blockRefused .badHeader] (with_ v .hunt)) t)
    let fell (why : RefuseReason) : State :=
      let v := counted [.blockRefused why] (with_ written .hunt)
      { v with ru := { v.ru with causes := s.ru.causes ||| 0x10 } }
    ∃ t, exec (.upstreamWrite w be d) s = .next t ∧
      (x.state = .off → t = written) ∧
      (x.state = .hunt → hunted written t) ∧
      (∀ c, x.state = .locked (.collecting c) →
        (be ≠ fullEnables → ∃ v, PostedFrom (fell .partialWrite) v ∧ hunted v t) ∧
        (be = fullEnables → off ≠ 68 * c.position + c.nextWord → ∃ v, PostedFrom (fell .order) v ∧ hunted v t) ∧
        (be = fullEnables → off = 68 * c.position + c.nextWord → c.nextWord < 67 →
          t = with_ written (.locked (.collecting { c with
            nextWord := c.nextWord + 1, words := c.words ++ [d], crc := crcWord c.poly c.crc d,
            lastWrite := s.localTime })))) ∧
      (∀ p, x.state = .locked (.waiting p) →
        let next := (p + 1) % x.blocks
        (sync → off = 68 * next → d.toNat % 8 = x.channel.val → PostedFrom (with_ written (begun next)) t) ∧
        (sync → off = 68 * next → d.toNat % 8 ≠ x.channel.val → PostedFrom (fell .badHeader) t) ∧
        (¬ (sync ∧ off = 68 * next) → ∃ v, PostedFrom (fell .order) v ∧ hunted v t))

/-- Word 67 closes a capture: refused with CRC, or with QUEUE FULL and a discontinuity to come, or accepted at the tail of
the accepted-block queue with its continuity mark, counted under BLOCKS ACCEPTED and, where the mark says so, under
DISCONTINUITY; the ring is no longer stale, and its channel's covered-to time follows. -/
def Obligations.WordSixtySevenClosesTheBlock : Prop :=
  ∀ (s : State) (w : WordAddr) (d : Word) (r : Fin 8) (c : Capture), writesFreely s →
    placeOf s.pu s.sf w = .ring r (68 * c.position + 67) →
    s.sf.rings[r].state = .locked (.collecting c) → c.nextWord = 67 →
    let x := s.sf.rings[r]
    let refused (why : RefuseReason) (forced : Bool) : State := { s with
      mem := s.mem.writeWord w fullEnables d
      sf := { s.sf with rings := s.sf.rings.set r { x with state := .locked (.waiting c.position), forced := forced } }
      ru := { s.ru with counters := s.ru.counters.map (Counter.occur (.blockRefused why)) } }
    let word (i : Nat) : Word := (c.words[i]?).getD 0
    let sequence : Half := BitVec.ofNat 16 ((word 1).toNat / 2 ^ 16)
    let mark : BlockMark :=
      if x.forced then .sequence
      else match x.continuity with
        | none => .continuous
        | some (q, t) => if sequence ≠ q + 1 then .sequence else if word 2 ≠ t + 640 then .timestamp else .continuous
    let happened : List Occurrence := match mark with
      | .continuous => [.blockAccepted r]
      | .sequence => [.blockAccepted r, .discontinuitySequence]
      | .timestamp => [.blockAccepted r, .discontinuityTimestamp]
    let accepted : State := counted happened { s with
      mem := s.mem.writeWord w fullEnables d
      sf := { s.sf with
        rings := s.sf.rings.set r { x with
          state := .locked (.waiting c.position), continuity := some (sequence, word 2), forced := false,
          staleRef := some s.localTime, stale := false }
        queue := s.sf.queue ++ [{
          ring := r, channel := x.channel, sequence := sequence
          cycle := BitVec.ofNat 16 (word 1).toNat, phase := BitVec.ofNat 3 ((word 0).toNat / 16)
          timestamp := word 2, mark := mark, acceptedAt := s.localTime
          samples := (c.words.drop 3).flatMap fun v => [BitVec.ofNat 16 v.toNat, BitVec.ofNat 16 (v.toNat / 2 ^ 16)] }] } }
    ∃ t, exec (.upstreamWrite w fullEnables d) s = .next t ∧
      (c.crc.toNat ≠ d.toNat % 2 ^ 16 → PostedFrom (refused .crc x.forced) t) ∧
      (c.crc.toNat = d.toNat % 2 ^ 16 → 16 ≤ s.sf.queue.length → PostedFrom (refused .queueFull true) t) ∧
      (c.crc.toNat = d.toNat % 2 ^ 16 → s.sf.queue.length < 16 →
        let y := s.hx.channels[x.channel]
        let covered := coveredTo accepted x.channel
        (covered = y.coveredTo → PostedFrom accepted t) ∧
        (covered ≠ y.coveredTo → Located { accepted with hx := { s.hx with
          channels := s.hx.channels.set x.channel { y with coveredTo := covered, joined := y.joined || covered.isSome } } } t))

/-- A write into a slot that nothing protects makes it UNCHECKED with cached ID 0, and voids its check by a running sweep. -/
def Obligations.SlotWriteUnchecksTheSlot : Prop :=
  ∀ (s : State) (w : WordAddr) (be : Enables) (d : Word) (n : Fin 12) (i : Nat), writesFreely s →
    placeOf s.pu s.sf w = .slot n i → s.tu.directory[n].state.busy = false → s.tu.directory[n].lock = false →
    ∃ t, exec (.upstreamWrite w be d) s = .next t ∧ PostedFrom { s with
      mem := s.mem.writeWord w be d
      tu := { s.tu with
        directory := s.tu.directory.set n { state := .unchecked, mouldId := 0, lock := false }
        sweep := { s.tu.sweep with check :=
          if s.tu.sweep.state = .running then s.tu.sweep.check.map fun k => { k with void := k.void || decide (k.slot = n) }
          else s.tu.sweep.check } } } t

/-- HX takes the entry at the head of the queue: the parameters of the extraction profile, the threshold under them, and a
discontinuity's effect on the channel; with a mould mounted the block of a new cycle, continuous or not, gets
its entry at the tail; of the four entries that fit, the oldest leaves when there are four, and older ones may close. An open
hit that a discontinuity discards is counted as BROKEN; of the counters that count neither events nor cycles no other changes,
without a broken hit only those of cycles can; where no entry opens either, nothing changes but SF and HX, and where the first
entry opens after a MOUNT, that entry and the newest cycle number besides: it is no gap entry. The holds are tested before the
row and after it (log 19). -/
def Obligations.BlockBegins : Prop :=
  ∀ (s₀ : State) (e : AcceptedBlock) (rest : List AcceptedBlock), s₀.inReset = false → s₀.hx.block = none →
    s₀.sf.queue = e :: rest →
    let s := reportHolds s₀
    let p := (profileInUse s).extraction
    let x := s.hx.channels[e.channel]
    let broken : Bool := match x.state with
      | .inHit _ _ _ => e.mark != .continuous
      | .idle | .settling | .armed _ _ | .lockout _ _ _ => false
    ∃ t, exec .blockBegin s₀ = .next (reportHolds t) ∧
      t.sf = { s.sf with queue := rest } ∧ t.hx.block = some { entry := e, next := 0, sum := 0 } ∧
      (∀ c : Fin 8, c ≠ e.channel → t.hx.channels[c] = s.hx.channels[c]) ∧
      t.hx.channels[e.channel].params = some p ∧ t.hx.channels[e.channel].lastFinished = x.lastFinished ∧
      t.hx.channels[e.channel].lastEnd = x.lastEnd ∧
      t.hx.channels[e.channel].state = (match x.state with
        | .idle => .idle
        | .settling => .settling
        | .armed b _ => .armed b (thresholdOf p b)
        | .inHit b t h => if e.mark = .continuous then .inHit b t h else .armed b (thresholdOf p b)
        | .lockout b _ n =>
          if e.mark = .continuous then .lockout b (thresholdOf p b) n else .armed b (thresholdOf p b)) ∧
      Within .frame s t ∧
      (let live := s.eu.state = .running ∨ s.eu.state = .held
        let passed := ∃ n, s.eu.newest = some n ∧ 1 ≤ (n - e.cycle).toNat ∧ (n - e.cycle).toNat ≤ 4
        let opens := (∀ k ∈ s.eu.cycles, k.cycle ≠ e.cycle) ∧ ¬ passed
        let entry : CycleEntry :=
          { cycle := e.cycle, start := e.timestamp, tallies := Vector.replicate 48 { count := 0, energy := 0 } }
        let number (k : CycleEntry) : Half × Time := (k.cycle, k.start)
        (∀ n : Fin 4, s.ru.counters[n].apartFromEvents →
          t.ru.counters[n] = if broken then (s.ru.counters[n]).occur (.hit .broken) else s.ru.counters[n]) ∧
        (broken = false → ∀ n : Fin 4, s.ru.counters[n].select ≠ 9 → t.ru.counters[n] = s.ru.counters[n]) ∧
        (broken = false → ¬ (live ∧ opens) → t = { s with sf := { s.sf with queue := rest }, hx := t.hx }) ∧
        (broken = false → live → s.eu.newest = none → s.eu.cycles = [] → PostedFrom
          { s with
            sf := { s.sf with queue := rest }
            hx := t.hx
            eu := { s.eu with newest := some e.cycle, cycles := [entry] } } t) ∧
        (¬ live ∨ passed → t.eu.newest = s.eu.newest) ∧ (¬ (live ∧ opens) → e.mark = .continuous → t.eu = s.eu) ∧
        (live → opens → s.eu.cycles.length ≤ 4 → (∃ m, s.eu.mould = some m) →
          t.eu.newest = some e.cycle ∧ t.eu.cycles.getLast? = some entry ∧
          ∃ k, k ≤ s.eu.cycles.length ∧ (s.eu.cycles.length = 4 → 1 ≤ k) ∧
            t.eu.cycles.map number = ((s.eu.cycles ++ [entry]).drop k).map number ∧
            (e.mark = .continuous → t.eu.cycles = (s.eu.cycles ++ [entry]).drop k)))

/-- A sample in ARMED: below the threshold it moves the background and the threshold follows; at or above it opens a hit, whose
arrival the covered-to time follows. With MAXDUR 1 the hit that it opens closes on it as TRUNCATED with duration 1, and is
SHORT, LATE, or accepted, counted and delivered (counted first, log 34). After sample 127 the block is finished. The holds are
tested before the row and after it (log 19). -/
def Obligations.ArmedSample : Prop :=
  ∀ (s₀ : State) (w : BlockInWork) (b t₀ : Nat) (p : ExtractionParams), s₀.inReset = false → s₀.hx.block = some w →
    w.next ≤ 127 → s₀.hx.channels[w.entry.channel].state = .armed b t₀ →
    s₀.hx.channels[w.entry.channel].params = some p →
    let s := reportHolds s₀
    let x := s.hx.channels[w.entry.channel]
    let v := ((w.entry.samples[w.next]?).getD 0).toNat
    let b' := ((b : Int) + ((256 * v : Int) - b) / ((2 ^ p.k : Nat) : Int)).toNat
    let t' := match p.mode with
      | .fixed => p.fixedThreshold
      | .floating => min (max 1 (b' / 256 * p.f / 16 + p.m)) 65535
    let put (st : ChannelState) : HitExtractor :=
      { channels := s.hx.channels.set w.entry.channel { x with state := st }
        block := some { w with next := w.next + 1 } }
    let c := w.entry.channel
    let opened (count energy : Nat) : OpenHit :=
      { threshold := t₀, arrival := w.entry.timestamp + BitVec.ofNat 32 (5 * w.next), phase := w.entry.phase
        cycle := w.entry.cycle, startAccept := w.entry.acceptedAt, count := count
        peak := if count = 0 then 0 else v, peakOffset := 0, energy := energy, lastAbove := 0, belowRun := 0 }
    let with_ (y : Channel) (u : State) : State := { u with hx := { u.hx with channels := u.hx.channels.set c y } }
    let u := refreshCovered c { s with hx := put (.inHit b t₀ (opened 0 0)) }
    let left : Channel :=
      { u.hx.channels[c] with state := if p.hlt = 0 then .armed b (thresholdOf p b) else .lockout b t₀ p.hlt }
    let h := opened 1 (v - t₀)
    let late : Bool := match x.lastEnd with
      | some e => !isAfter h.arrival e
      | none => false
    let disposed : State :=
      if 1 < p.mindur then counted [.hit .short] (with_ left u)
      else if late then counted [.hit .late] (with_ left u)
      else deliverHit
        { channel := c, arrival := h.arrival, phase := h.phase, cycle := h.cycle, peak := v, rise := 0, duration := 1
          energy := v - t₀, startAccept := h.startAccept }
        (counted [.hit .accepted, .hit .truncated] (with_ { left with lastEnd := some h.arrival } u))
    let ends (z : State) : State := if w.next = 127 then blockFinished w z else z
    (t₀ ≤ v → 1 ≤ p.hdt → p.maxdur ≤ 1 →
      exec .sampleProcessed s₀ = .next (reportHolds (ends (refreshCovered c disposed)))) ∧
    (t₀ ≤ v → 1 ≤ p.hdt → 2 ≤ p.maxdur →
      exec .sampleProcessed s₀ = .next (reportHolds (ends (with_ { u.hx.channels[c] with state := .inHit b t₀ h } u)))) ∧
    (v < t₀ → exec .sampleProcessed s₀ = .next (reportHolds (ends { s with hx := put (.armed b' t') }))) ∧
    (w.next < 127 → t₀ ≤ v → 1 ≤ p.hdt → 2 ≤ p.maxdur → ∃ t, exec .sampleProcessed s₀ = .next (reportHolds t) ∧
      t.hx.block = some { w with next := w.next + 1 } ∧
      t.hx.channels[w.entry.channel].state = .inHit b t₀
        { threshold := t₀, arrival := w.entry.timestamp + BitVec.ofNat 32 (5 * w.next), phase := w.entry.phase
          cycle := w.entry.cycle, startAccept := w.entry.acceptedAt, count := 1, peak := v, peakOffset := 0
          energy := v - t₀, lastAbove := 0, belowRun := 0 } ∧
      (∀ k : Fin 8, k ≠ c → t.hx.channels[k] = s.hx.channels[k]) ∧
      Located { s with hx := t.hx } t)

/-- A sample in IN_HIT is taken into the running items of the open hit. The hit closes by HDT, its duration to the last sample
above, or as TRUNCATED, its duration the count; the channel goes to LOCKOUT, or to ARMED with HLT 0; the hit is SHORT, LATE,
or accepted, counted and delivered, and then the covered-to time follows. After sample 127 the block is finished. That the hit
is counted before EL takes it is the model's (log 34). The holds are tested before the row and after it (log 19). -/
def Obligations.SampleFollowsItsHit : Prop :=
  ∀ (s₀ : State) (w : BlockInWork) (b t₀ : Nat) (h : OpenHit) (p : ExtractionParams), s₀.inReset = false →
    s₀.hx.block = some w → w.next ≤ 127 → s₀.hx.channels[w.entry.channel].state = .inHit b t₀ h →
    s₀.hx.channels[w.entry.channel].params = some p → 1 ≤ h.count →
    let s := reportHolds s₀
    let c := w.entry.channel
    let x := s.hx.channels[c]
    let v := ((w.entry.samples[w.next]?).getD 0).toNat
    let above : Bool := decide (h.threshold ≤ v)
    let g : OpenHit := { h with
      count := h.count + 1
      peak := max h.peak v
      peakOffset := if h.peak < v then h.count else h.peakOffset
      energy := if above then h.energy + (v - h.threshold) else h.energy
      lastAbove := if above then h.count else h.lastAbove
      belowRun := if above then 0 else h.belowRun + 1 }
    let put (y : Channel) : State := { s with hx :=
      { channels := s.hx.channels.set c y, block := some { w with next := w.next + 1 } } }
    let left : Channel := { x with state := if p.hlt = 0 then .armed b (thresholdOf p b) else .lockout b t₀ p.hlt }
    let late : Bool := match x.lastEnd with
      | some e => !isAfter h.arrival e
      | none => false
    let disposed (duration : Nat) (truncated : Bool) : State :=
      if duration < p.mindur then counted [.hit .short] (put left)
      else if late then counted [.hit .late] (put left)
      else deliverHit
        { channel := c, arrival := h.arrival, phase := h.phase, cycle := h.cycle, peak := g.peak, rise := g.peakOffset
          duration := duration, energy := g.energy, startAccept := h.startAccept }
        (counted (.hit .accepted :: if truncated then [.hit .truncated] else [])
          (put { left with lastEnd := some (h.arrival + BitVec.ofNat 32 (5 * (duration - 1))) }))
    let ends (u : State) : State := if w.next = 127 then blockFinished w u else u
    (g.belowRun < p.hdt → g.count < p.maxdur →
      exec .sampleProcessed s₀ = .next (reportHolds (ends (put { x with state := .inHit b t₀ g })))) ∧
    (p.hdt ≤ g.belowRun →
      exec .sampleProcessed s₀ = .next (reportHolds (ends (refreshCovered c (disposed (g.lastAbove + 1) false))))) ∧
    (g.belowRun < p.hdt → p.maxdur ≤ g.count →
      exec .sampleProcessed s₀ = .next (reportHolds (ends (refreshCovered c (disposed g.count true)))))

/-- A sample in SETTLING is added to the sum and in LOCKOUT counts the lockout down; after sample 127 the block is finished,
a settling block seeding the background, and its channel's covered-to time, where its ring is on and not stale, is the end of
the block; the last sample of an ARMED or LOCKOUT channel first has its effect. The holds are tested before the row and after
it (log 19). -/
def Obligations.SettlingLockoutAndFinish : Prop :=
  ∀ (s₀ : State) (w : BlockInWork), s₀.inReset = false → s₀.hx.block = some w →
    let s := reportHolds s₀
    let c := w.entry.channel
    let x := s.hx.channels[c]
    let v := ((w.entry.samples[w.next]?).getD 0).toNat
    (w.next < 127 → x.state = .settling → exec .sampleProcessed s₀ = .next (reportHolds { s with
      hx := { s.hx with block := some { w with next := w.next + 1, sum := w.sum + v } } })) ∧
    (∀ p b t₀ n, w.next < 127 → x.params = some p → x.state = .lockout b t₀ n →
      exec .sampleProcessed s₀ = .next (reportHolds { s with hx :=
        { channels := s.hx.channels.set c { x with
            state := if n ≤ 1 then .armed b (thresholdOf p b) else .lockout b t₀ (n - 1) }
          block := some { w with next := w.next + 1 } } })) ∧
    (∀ p, w.next = 127 → x.params = some p → x.state = .settling →
      ∃ t, exec .sampleProcessed s₀ = .next (reportHolds t) ∧ t.hx.block = none ∧
        t.hx.channels[c].state = .armed (256 * ((w.sum + v) / 128)) (thresholdOf p (256 * ((w.sum + v) / 128))) ∧
        t.hx.channels[c].lastFinished = some w.entry.timestamp ∧
        (∀ r : Fin 8, s.sf.rings[r].defined = true → s.sf.rings[r].channel = c →
          (∀ q : Fin 8, q ≠ r → s.sf.rings[q].defined = true → s.sf.rings[q].channel ≠ c) →
          s.sf.rings[r].state ≠ .off → s.sf.rings[r].stale = false →
          t.hx.channels[c].coveredTo = some (w.entry.timestamp + 640)) ∧
        (∀ k : Fin 8, k ≠ c → t.hx.channels[k] = s.hx.channels[k]) ∧ Located { s with hx := t.hx } t) ∧
    (∀ p, w.next = 127 → x.params = some p →
      let put (st : ChannelState) : State := { s with hx :=
        { channels := s.hx.channels.set c { x with state := st }, block := some { w with next := w.next + 1 } } }
      (∀ b t₀ n, x.state = .lockout b t₀ n → exec .sampleProcessed s₀ = .next (reportHolds
        (blockFinished w (put (if n ≤ 1 then .armed b (thresholdOf p b) else .lockout b t₀ (n - 1)))))) ∧
      (∀ b t₀, x.state = .armed b t₀ → v < t₀ →
        let b' := updateBackground p.k b v
        exec .sampleProcessed s₀ = .next (reportHolds (blockFinished w (put (.armed b' (thresholdOf p b')))))) ∧
      (∀ b t₀, x.state = .armed b t₀ → t₀ ≤ v → 1 ≤ p.hdt → 2 ≤ p.maxdur →
        ∃ t, exec .sampleProcessed s₀ = .next (reportHolds t) ∧ t.hx.block = none ∧
          t.hx.channels[c].state = .inHit b t₀
            { threshold := t₀, arrival := w.entry.timestamp + BitVec.ofNat 32 (5 * w.next), phase := w.entry.phase
              cycle := w.entry.cycle, startAccept := w.entry.acceptedAt, count := 1, peak := v, peakOffset := 0
              energy := v - t₀, lastAbove := 0, belowRun := 0 } ∧
          t.hx.channels[c].lastFinished = some w.entry.timestamp ∧
          (∀ k : Fin 8, k ≠ c → t.hx.channels[k] = s.hx.channels[k]) ∧ Located { s with hx := t.hx } t))

/-! ### Events and cycles -/

/-- A hit delivered to EL is discarded as LATE before the grouping floor, and else enters the pool at its place, by arrival
measured from the floor and then by channel; then EL tests. With 32 hits in the pool a forced event is formed first, and the
hit is dealt with again against the new floor. That RU counts, logs and traces the event before EU tests is the model's
(log 16). -/
def Obligations.HitsEnterThePool : Prop :=
  ∀ (s : State) (h : Hit),
    let late (u : State) : Prop := ∃ f, u.el.floor = some f ∧ atOrAfter h.arrival f = false
    let reference (u : State) : Time := u.el.floor.getD 0
    let enters (u v : State) : Prop := ∃ front back, u.el.pool = front ++ back ∧
      (∀ g ∈ front, hitBefore (reference u) h g = false) ∧
      (∀ g, back.head? = some g → hitBefore (reference u) h g = true) ∧
      v = { u with el := { u.el with pool := front ++ h :: back } }
    (∀ (r : Time) (g k : Hit), hitBefore r g k = true ↔
      (g.arrival - r).toInt < (k.arrival - r).toInt ∨ (g.arrival = k.arrival ∧ g.channel < k.channel)) ∧
    (late s → deliverHit h s = counted [.hit .late] s) ∧
    (¬ late s → s.el.pool.length < 32 → ∃ v, enters s v ∧ deliverHit h s = locatorTest v) ∧
    (¬ late s → 32 ≤ s.el.pool.length →
      let u := testClose (formEvent true s)
      (late u → deliverHit h s = locatorTest (counted [.hit .late] u)) ∧
      (¬ late u → ∃ v, enters u v ∧ deliverHit h s = locatorTest v))

/-- The covered-to time of a channel by its table; the horizon, the earliest of them in the order measured from the floor, or
unbounded; a changed covered-to time, and EL's test after a changed horizon; and the test itself, which forms one event after
another while the horizon is at or after the first arrival plus W, or while the earliest hit is of a channel besides which none
has been in the horizon since the reset, EU testing its closure condition after each, and ends with a closure test. That such
first hits are those of R91, which form at once, is the model's reading of R91 beside R79 (log 36). Whether EU's test comes
before the events that the same horizon releases is the model's choice (log 15), and that RU counts, logs and traces each event
before EU tests is the model's (log 16). -/
def Obligations.HorizonReleasesEvents : Prop :=
  ∀ s : State,
    (∀ c : Fin 8,
      let x := s.hx.channels[c]
      (x.state = .idle → coveredTo s c = none) ∧
      ((∀ r : Fin 8, s.sf.rings[r].defined = true → s.sf.rings[r].channel ≠ c) → coveredTo s c = none) ∧
      (∀ r : Fin 8, s.sf.rings[r].defined = true → s.sf.rings[r].channel = c →
        (∀ q : Fin 8, q ≠ r → s.sf.rings[q].defined = true → s.sf.rings[q].channel ≠ c) →
        (s.sf.rings[r].state = .off ∨ s.sf.rings[r].stale = true → coveredTo s c = none) ∧
        (s.sf.rings[r].state ≠ .off → s.sf.rings[r].stale = false → x.state ≠ .idle →
          (x.lastFinished = none → coveredTo s c = none) ∧
          (∀ t, x.lastFinished = some t →
            (∀ b t₀ h, x.state = .inHit b t₀ h → coveredTo s c = some h.arrival) ∧
            ((∀ b t₀ h, x.state ≠ .inHit b t₀ h) → coveredTo s c = some (t + 640)))))) ∧
    ((horizonOf s = none ↔ ∀ c : Fin 8, s.hx.channels[c].coveredTo = none) ∧
      ∀ h, horizonOf s = some h → (∃ c : Fin 8, s.hx.channels[c].coveredTo = some h) ∧
        ∀ (c : Fin 8) (t : Time), s.hx.channels[c].coveredTo = some t →
          (h - s.el.floor.getD 0).toInt ≤ (t - s.el.floor.getD 0).toInt) ∧
    (∀ c : Fin 8,
      let u : State := { s with hx := { s.hx with
        channels := s.hx.channels.set c { s.hx.channels[c] with
          coveredTo := coveredTo s c, joined := s.hx.channels[c].joined || (coveredTo s c).isSome } } }
      (coveredTo s c = s.hx.channels[c].coveredTo → refreshCovered c s = s) ∧
      (coveredTo s c ≠ s.hx.channels[c].coveredTo → refreshCovered c s =
        if horizonOf u = s.el.horizon then u else locatorTest { u with el := { u.el with horizon := horizonOf u } })) ∧
    (let due := ∃ a rest, s.el.pool = a :: rest ∧ ((∀ c : Fin 8, c ≠ a.channel → s.hx.channels[c].joined = false) ∨
        s.el.horizon = none ∨ ∃ h, s.el.horizon = some h ∧
          atOrAfter h (a.arrival + BitVec.ofNat 32 (profileInUse s).event.w) = true);
      (due → locatorTest s = locatorTest (testClose (formEvent false s))) ∧ (¬ due → locatorTest s = testClose s))

/-- One event formed from the pool, forced or not: the earliest hit is the anchor, and of each other channel the earliest hit
within W of it is taken; the others stay, in the order measured from the new floor (log 23), which is the anchor; the serial
advances, and the horizon stays as it was (log 35). The event is located by its first two hits, has the sum of the energies,
and is classified; a CRACK is added to its cavity in the entry of its cycle; and RU takes the event. -/
def Obligations.EventForms : Prop :=
  ∀ (s : State) (anchor : Hit) (rest : List Hit) (forced : Bool), s.el.pool = anchor :: rest →
    let p := (profileInUse s).event
    let within (h : Hit) : Bool := atOrAfter (anchor.arrival + BitVec.ofNat 32 p.w) h.arrival
    ∃ (e : EventRecord) (left pool : List Hit),
      e.anchor = anchor ∧ e.forced = forced ∧ e.serial = s.el.serial + 1 ∧ e.locatedAt = s.localTime ∧
      e.others.Sublist rest ∧ left.Sublist rest ∧ (e.others ++ left).Perm rest ∧
      (∀ c : Fin 8, e.others.filter (fun h => h.channel == c) =
        if c = anchor.channel then [] else (rest.filter fun h => h.channel == c && within h).take 1) ∧
      pool.Perm left ∧ pool.Pairwise (fun g h => hitBefore anchor.arrival h g = false) ∧
      e.energy = min ((anchor :: e.others).map Hit.energy).sum (2 ^ 32 - 1) ∧
      (let second := (e.others.head?).getD anchor
        let bands := s.el.zones.bands.filter fun b => b.first == anchor.channel && b.second == second.channel
        let holds (b : Band) : Prop := b.low ≤ e.dt ∧ e.dt ≤ b.high
        e.dt = (second.arrival - anchor.arrival).toNat ∧
        (∀ i b, bands[i]? = some b → holds b → (∀ j b', j < i → bands[j]? = some b' → ¬ holds b') →
          e.band = some (i, b.cavity)) ∧
        ((∀ b ∈ bands, ¬ holds b) → e.band = none)) ∧
      (let count := match s.eu.mould with
          | some m => m.header.count
          | none => 0
        let cavity := (e.band.map Prod.snd).getD 0
        e.outcome =
          (if s.eu.state ≠ .running then .held
          else if e.band = none then .unlocated
          else if cavity = 0 then .excluded
          else if count < cavity then .outside
          else if p.risemax < anchor.rise ∨ anchor.peak < p.peakmin then .impact
          else if p.phaseMask.getLsbD anchor.phase.toNat = false then .gated
          else if s.eu.cycles.any (fun k => k.cycle == anchor.cycle) then .crack
          else .late) ∧
        formEvent forced s = reportEvent e s { s with
          el := { s.el with pool := pool, floor := some anchor.arrival, serial := s.el.serial + 1 }
          eu := { s.eu with cycles := s.eu.cycles.map fun k =>
            if e.outcome = .crack ∧ k.cycle = anchor.cycle then
              { k with tallies := Vector.ofFn fun i : Fin 48 =>
                if i.val + 1 = cavity then
                  { count := min (k.tallies[i].count + 1) 255
                    energy := min (k.tallies[i].energy + e.energy) (2 ^ 32 - 1) }
                else k.tallies[i] }
            else k } })

/-- RU takes an event: it is counted under its outcome and, if forced, under FORCED; the trace countdown counts it; if the log
mask admits it, its entry of four words is queued at the head, which advances, or dropped, and counted. A traced event's 32
words stand at RU, each half of them is in the queue or dirty, and with neither dirty TRACE is pending. The words of the entry
and of the trace record are those of R153; the bits that their layouts leave without a field are zero (log 10). -/
def Obligations.EventsAreLoggedAndTraced : Prop :=
  ∀ (e : EventRecord) (before s : State), wholeCopies (.trace 0) s → wholeCopies (.trace 1) s →
    let t := reportEvent e before s
    let traced : Bool := decide (s.ru.traceInterval ≠ 0 ∧ s.ru.countdown = 1)
    let taken : State := counted (.event e.outcome :: if e.forced then [.eventForced] else [])
      { s with ru := { s.ru with
        countdown := if s.ru.traceInterval = 0 then s.ru.countdown else if traced then s.ru.traceInterval
          else s.ru.countdown - 1
        traceWords := if traced then e.traceWords else s.ru.traceWords
        traceAwait := if traced then true else s.ru.traceAwait } }
    let entry : QueuedRecord :=
      { id := .log s.ru.logHead, addr := recordAddr s.pu (.log s.ru.logHead), words := e.logWords, begun := false }
    let logged : State := counted [.logWritten] { taken with
      pu := { s.pu with queue := s.pu.queue ++ [entry] }, ru := { taken.ru with logHead := s.ru.logHead + 1 } }
    let room := s.pu.layoutDefined = true ∧ queueLength s.pu.queue + 4 ≤ 32
    (s.ru.logMask.getLsbD e.outcome.code = false → PostedFrom taken t) ∧
    (s.ru.logMask.getLsbD e.outcome.code = true → room → PostedFrom logged t) ∧
    (s.ru.logMask.getLsbD e.outcome.code = true → ¬ room → PostedFrom (counted [.logDropped] taken) t) ∧
    (traced = true → Shown (.trace 0) t ∧ Shown (.trace 1) t ∧
      (t.ru.dirty.traces[(0 : Fin 2)] = false → t.ru.dirty.traces[(1 : Fin 2)] = false → t.ru.causes.getLsbD 6 = true)) ∧
    (e.logWords = [e.word0, e.word1, e.anchor.arrival, BitVec.ofNat 32 e.energy] ∧
      e.word0.toNat = e.serial.toNat + 2 ^ 16 * e.outcome.code + 2 ^ 19 * e.forced.toNat +
        2 ^ 20 * ((1 + e.others.length) % 16) + 2 ^ 24 * (e.cavity % 64) ∧
      e.word1.toNat = e.anchor.cycle.toNat + 2 ^ 16 * e.anchor.phase.toNat + 2 ^ 20 * e.anchor.channel.val +
        2 ^ 24 * (((e.others.head?).getD e.anchor).channel.val) + 2 ^ 28 * (((e.band.map Prod.fst).getD 15) % 16)) ∧
    (let w (i : Nat) : Word := (e.traceWords[i]?).getD 0
      let mine (c : Fin 8) : Option Hit := (e.anchor :: e.others).find? fun h => h.channel == c
      w 0 = e.word0 ∧ w 1 = e.word1 ∧ w 3 = e.anchor.arrival ∧ w 4 = BitVec.ofNat 32 e.energy ∧
      w 5 = e.locatedAt - e.anchor.startAccept ∧ w 6 = e.locatedAt ∧ (w 31).toNat = e.serial.toNat ∧
      (w 2).toNat % 2 ^ 16 = e.dt % 2 ^ 16 ∧ (w 2).toNat < 2 ^ 24 ∧
      ∀ c : Fin 8, (w 2).getLsbD (16 + c.val) = (mine c).isSome ∧
        (mine c = none → w (7 + 3 * c.val) = 0 ∧ w (8 + 3 * c.val) = 0 ∧ w (9 + 3 * c.val) = 0) ∧
        (∀ h, mine c = some h →
          (w (7 + 3 * c.val)).toNat = (h.arrival - e.anchor.arrival).toNat % 2 ^ 16 + 2 ^ 16 * (h.peak % 2 ^ 16) ∧
          (w (8 + 3 * c.val)).toNat = h.rise % 2 ^ 12 + 2 ^ 16 * (h.duration % 2 ^ 12) ∧
          w (9 + 3 * c.val) = BitVec.ofNat 32 h.energy))

/-- EU's closure test closes the oldest entry while a newer one has begun, the horizon is at or after its start and no pooled
hit is before it. A close steps every cavity, advances the header, takes the entry off the queue, is counted, raises CYCLE and
the causes of the verdicts entered, starts a pulse by the alarm mode, hands over the changed verdict words and posts the counter
record. A block of a new cycle creates its entry, in an empty queue too; with four open the oldest is closed as forced, and the
close and the creation are reported together, the posted counter record showing both. EU tests once, after the creation (log
38). The counter record has the counters, their selects and masks, and the cycle fields; a verdict word has its cavity's fields,
or BEYOND. -/
def Obligations.CyclesClose : Prop :=
  (∀ (s : State) (f : FreeBits), SpellsCounters s (recordWords f s .counter)) ∧
  verdictWord none = 0x80000000 ∧ (∀ r : CavityRecord, SpellsVerdict r (verdictWord (some r))) ∧
  ∀ s : State,
    let due := ∃ e f rest, s.eu.cycles = e :: f :: rest ∧
      (s.el.horizon = none ∨ ∃ h, s.el.horizon = some h ∧ atOrAfter h f.start = true) ∧
      ∀ g ∈ s.el.pool, atOrAfter g.arrival f.start = true;
    let created (c : Half) (start : Time) (u : State) : State :=
      counted (match s.eu.newest with
          | some n => if c = n + 1 then [] else [.cycleGap]
          | none => []) { u with
        eu := { u.eu with
          newest := some c
          cycles := u.eu.cycles ++
            [{ cycle := c, start := start, tallies := Vector.replicate 48 { count := 0, energy := 0 } }] } }
    let opens (c : Half) : Prop := (s.eu.state = .running ∨ s.eu.state = .held) ∧ (∀ k ∈ s.eu.cycles, k.cycle ≠ c) ∧
      ¬ ∃ n, s.eu.newest = some n ∧ 1 ≤ (n - c).toNat ∧ (n - c).toNat ≤ 4;
    (due → testClose s = testClose (closeOldest s)) ∧ (¬ due → testClose s = s) ∧
    (∀ (c : Half) (start : Time), (¬ opens c → blockBegun c start s = s) ∧
      (opens c → s.eu.cycles.length < 4 → ∃ v, PostedFrom (created c start s) v ∧ blockBegun c start s = testClose v)) ∧
    ∀ (e : CycleEntry) (rest : List CycleEntry) (m : Mould), s.eu.cycles = e :: rest → s.eu.mould = some m →
      m.cavities.length ≤ 48 → wholeCopies .counter s → (∀ i : Fin 48, wholeCopies (.verdict i) s) →
      let after := List.zipWith (closeCavity (profileInUse s).evidence) e.tallies.toList m.cavities
      let enters (v : Verdict) : Bool := (m.cavities.zip after).any fun x => x.1.verdict != v && x.2.verdict == v
      let changed (i : Fin 48) : Bool :=
        match m.cavities[i.val]?, after[i.val]? with
        | some a, some b => a.verdict != b.verdict || a.hot != b.hot || a.lastCycle != b.lastCycle
        | _, _ => false
      let pulses := (s.ru.alarmMode = .pulseCrack ∧ enters .cracked = true) ∨
        (s.ru.alarmMode = .pulseSuspect ∧ (enters .suspect = true ∨ enters .cracked = true))
      let closed (forced : Bool) : State := counted (.cycleClosed :: if forced then [.cycleForced] else []) { s with
        eu := { s.eu with
          mould := some
            { header := { m.header with observed := min (m.header.observed + 1) (2 ^ 32 - 1), lastClosed := e.cycle }
              cavities := after }
          cycles := rest
          pulse := if pulses then some s.localTime else s.eu.pulse }
        ru := { s.ru with
          causes := s.ru.causes ||| 0x80 ||| (if enters .suspect then 0x02 else 0) ||| (if enters .cracked then 0x01 else 0)
          verdictWords := Vector.ofFn fun i : Fin 48 =>
            if changed i then verdictWord after[i.val]? else s.ru.verdictWords[i] } }
      let posted (u v : State) : Prop :=
        PostedFrom u v ∧ Shown .counter v ∧ ∀ i : Fin 48, changed i = true → Shown (.verdict i) v
      posted (closed false) (closeOldest s) ∧
      ∀ (c : Half) (start : Time), opens c → s.eu.cycles.length = 4 →
        ∃ v, posted (created c start (closed true)) v ∧ blockBegun c start s = testClose v

/-! ### Evidence, attention and the archive -/

/-- One cavity at a close: the figures folded in, the hot count that of the new history, and at most one step on the verdict
ladder. -/
def Obligations.CavityStepsTheLadder : Prop :=
  ∀ (p : EvidenceParams) (n : CavityTally) (r : CavityRecord), hotMatches r →
    let history := (r.history <<< 1) ||| (if p.evmin ≤ n.count then 1 else 0)
    let hot := hotCount history
    let energy := if r.verdict = .suspect then min (r.suspectEnergy + n.energy) (2 ^ 48 - 1) else r.suspectEnergy
    let step : Verdict × Nat :=
      match r.verdict with
      | .sound => if p.watchOn ≤ hot then (.watch, energy) else (.sound, energy)
      | .watch =>
        if p.suspectOn ≤ hot then (.suspect, 0) else if hot ≤ p.watchOff then (.sound, energy) else (.watch, energy)
      | .suspect =>
        if p.crackOn ≤ hot ∧ p.eCrack ≤ energy then (.cracked, energy)
        else if hot ≤ p.suspectOff then (.watch, 0) else (.suspect, energy)
      | .cracked => (.cracked, energy)
    closeCavity p n r =
      { verdict := step.1, history := history, hot := hot
        totalEnergy := min (r.totalEnergy + n.energy) (2 ^ 48 - 1), suspectEnergy := step.2
        lifetime := min (r.lifetime + n.count) (2 ^ 32 - 1), lastCycle := n.count }

/-- The two output lines: ATTN by the pending causes, their enables and the master enable; ALARM by the mode, and in LEVEL mode
by the mounted mould. -/
def Obligations.LinesFollowTheState : Prop :=
  ∀ s : State,
    (attn s = true ↔ s.ru.masterEnable = true ∧
      ∃ i, i < 8 ∧ s.ru.causes.getLsbD i = true ∧ s.ru.enables.getLsbD i = true) ∧
    (s.ru.alarmMode = .off → alarm s = false) ∧
    (s.ru.alarmMode = .level → (alarm s = true ↔ (s.eu.state = .running ∨ s.eu.state = .held) ∧
      ∃ m, s.eu.mould = some m ∧ ∃ r ∈ m.cavities, r.verdict = .cracked)) ∧
    (s.ru.alarmMode = .pulseCrack ∨ s.ru.alarmMode = .pulseSuspect → (alarm s = true ↔ s.eu.pulse ≠ none))

/-- A mould whose figures fit their fields, saved as a slot image and judged, is found with its ID and count, and the mould
taken in from it is the one saved, under the command's profile and zone map ID. The image has each item of the mould at its
word and bits, and a stored mould is read from them. -/
def Obligations.SavedMouldComesBack : Prop :=
  (∀ (p : MountParams) (ws : List Word),
    let m := storedMould p ws
    m.header = { mouldId := p.mouldId, count := p.count, profile := p.profile, zoneId := p.zoneId
                 observed := (wordAt ws 4).toNat, lastClosed := BitVec.ofNat 16 (wordAt ws 5).toNat } ∧
    m.cavities.length = p.count ∧
    ∀ (c : Nat) (r : CavityRecord), m.cavities[c]? = some r →
      let w (i : Nat) : Nat := (wordAt ws (8 + 5 * c + i)).toNat
      w 0 / 2 ^ 8 % 4 = (match r.verdict with
        | .sound => 0
        | .watch => 1
        | .suspect => 2
        | .cracked => 3) ∧
      r.lastCycle = w 0 % 2 ^ 8 ∧ r.lifetime = w 0 / 2 ^ 10 ∧ r.history = wordAt ws (8 + 5 * c + 1) ∧
      r.totalEnergy = w 2 + 2 ^ 32 * (w 4 / 2 ^ 16) ∧ r.suspectEnergy = w 3 + 2 ^ 32 * (w 4 % 2 ^ 16) ∧
      r.hot = hotCount r.history) ∧
  (let word (ws : List Word) (i : Nat) : Nat := (wordAt ws i).toNat
   emptyImage.length = 256 ∧ (∀ i < 255, word emptyImage i = 0) ∧
    word emptyImage 255 = (crcWords .polyB 0xFFFF (List.replicate 255 0)).toNat ∧
    ∀ m : Mould, m.header.count ≤ 48 →
      let image := mouldImage m
      wordAt image 0 = m.header.mouldId ∧ wordAt image 1 = 0x00004E43 ∧
      word image 2 = m.header.count ∧ word image 3 = m.header.zoneId.toNat + 2 ^ 16 * m.header.profile.val ∧
      (m.header.observed < 2 ^ 32 → word image 4 = m.header.observed) ∧ word image 5 = m.header.lastClosed.toNat ∧
      word image 6 = 0 ∧ word image 7 = 0 ∧
      (∀ (c : Nat) (r : CavityRecord), c < m.header.count → m.cavities[c]? = some r → r.totalEnergy < 2 ^ 48 →
        r.suspectEnergy < 2 ^ 48 → r.lastCycle < 2 ^ 8 →
        let w (i : Nat) : Nat := word image (8 + 5 * c + i)
        let code := match r.verdict with
          | .sound => 0
          | .watch => 1
          | .suspect => 2
          | .cracked => 3
        w 0 = r.lastCycle + 2 ^ 8 * code + 2 ^ 10 * min r.lifetime (2 ^ 22 - 1) ∧
        wordAt image (8 + 5 * c + 1) = r.history ∧
        w 2 + 2 ^ 32 * (w 4 / 2 ^ 16) = r.totalEnergy ∧ w 3 + 2 ^ 32 * (w 4 % 2 ^ 16) = r.suspectEnergy) ∧
      (∀ i, m.cavities.length = m.header.count → 8 + 5 * m.header.count ≤ i → i < 255 → word image i = 0) ∧
      word image 255 = (crcWords .polyB 0xFFFF (image.take 255)).toNat) ∧
  ∀ (m : Mould) (p : MountParams), m.header.mouldId ≠ 0 → 1 ≤ m.header.count → m.header.count ≤ 48 →
    m.cavities.length = m.header.count → m.header.observed < 2 ^ 32 →
    (∀ r ∈ m.cavities, r.hot = hotCount r.history ∧ r.totalEnergy < 2 ^ 48 ∧ r.suspectEnergy < 2 ^ 48 ∧
      r.lifetime < 2 ^ 22 ∧ r.lastCycle < 2 ^ 8) →
    p.mouldId = m.header.mouldId → p.count = m.header.count →
    let image := mouldImage m
    image.length = 256 ∧
    judgeSlot (crcWords .polyB 0xFFFF (image.take 255)) image = .goodOccupied m.header.mouldId m.header.count ∧
    storedMould p image = { m with header := { m.header with profile := p.profile, zoneId := p.zoneId } }
end

