-- ==== Sys2Proof/Laws/State.lean ====
section
/-! SUPPORT. One lemma per field of State per update of one block: the field updated holds the new value, every other field
what it held. -/

set_option Elab.async false

namespace Sys2Proof.Machine.State

variable (s : State)

section withMem
variable (x : Memory)
@[simp] theorem withMem_pins : (s.withMem x).pins = s.pins := rfl
@[simp] theorem withMem_inReset : (s.withMem x).inReset = s.inReset := rfl
@[simp] theorem withMem_localTime : (s.withMem x).localTime = s.localTime := rfl
@[simp] theorem withMem_mem : (s.withMem x).mem = x := rfl
@[simp] theorem withMem_readData : (s.withMem x).readData = s.readData := rfl
@[simp] theorem withMem_cd : (s.withMem x).cd = s.cd := rfl
@[simp] theorem withMem_pu : (s.withMem x).pu = s.pu := rfl
@[simp] theorem withMem_sf : (s.withMem x).sf = s.sf := rfl
@[simp] theorem withMem_hx : (s.withMem x).hx = s.hx := rfl
@[simp] theorem withMem_el : (s.withMem x).el = s.el := rfl
@[simp] theorem withMem_eu : (s.withMem x).eu = s.eu := rfl
@[simp] theorem withMem_tu : (s.withMem x).tu = s.tu := rfl
@[simp] theorem withMem_ru : (s.withMem x).ru = s.ru := rfl
@[simp] theorem withMem_free : (s.withMem x).free = s.free := rfl
@[simp] theorem withMem_pending : (s.withMem x).pending = s.pending := rfl
end withMem

section withCd
variable (x : CommandDecoder)
@[simp] theorem withCd_pins : (s.withCd x).pins = s.pins := rfl
@[simp] theorem withCd_inReset : (s.withCd x).inReset = s.inReset := rfl
@[simp] theorem withCd_localTime : (s.withCd x).localTime = s.localTime := rfl
@[simp] theorem withCd_mem : (s.withCd x).mem = s.mem := rfl
@[simp] theorem withCd_readData : (s.withCd x).readData = s.readData := rfl
@[simp] theorem withCd_cd : (s.withCd x).cd = x := rfl
@[simp] theorem withCd_pu : (s.withCd x).pu = s.pu := rfl
@[simp] theorem withCd_sf : (s.withCd x).sf = s.sf := rfl
@[simp] theorem withCd_hx : (s.withCd x).hx = s.hx := rfl
@[simp] theorem withCd_el : (s.withCd x).el = s.el := rfl
@[simp] theorem withCd_eu : (s.withCd x).eu = s.eu := rfl
@[simp] theorem withCd_tu : (s.withCd x).tu = s.tu := rfl
@[simp] theorem withCd_ru : (s.withCd x).ru = s.ru := rfl
@[simp] theorem withCd_free : (s.withCd x).free = s.free := rfl
@[simp] theorem withCd_pending : (s.withCd x).pending = s.pending := rfl
end withCd

section withPu
variable (x : PathUnit)
@[simp] theorem withPu_pins : (s.withPu x).pins = s.pins := rfl
@[simp] theorem withPu_inReset : (s.withPu x).inReset = s.inReset := rfl
@[simp] theorem withPu_localTime : (s.withPu x).localTime = s.localTime := rfl
@[simp] theorem withPu_mem : (s.withPu x).mem = s.mem := rfl
@[simp] theorem withPu_readData : (s.withPu x).readData = s.readData := rfl
@[simp] theorem withPu_cd : (s.withPu x).cd = s.cd := rfl
@[simp] theorem withPu_pu : (s.withPu x).pu = x := rfl
@[simp] theorem withPu_sf : (s.withPu x).sf = s.sf := rfl
@[simp] theorem withPu_hx : (s.withPu x).hx = s.hx := rfl
@[simp] theorem withPu_el : (s.withPu x).el = s.el := rfl
@[simp] theorem withPu_eu : (s.withPu x).eu = s.eu := rfl
@[simp] theorem withPu_tu : (s.withPu x).tu = s.tu := rfl
@[simp] theorem withPu_ru : (s.withPu x).ru = s.ru := rfl
@[simp] theorem withPu_free : (s.withPu x).free = s.free := rfl
@[simp] theorem withPu_pending : (s.withPu x).pending = s.pending := rfl
end withPu

section withSf
variable (x : StreamFramer)
@[simp] theorem withSf_pins : (s.withSf x).pins = s.pins := rfl
@[simp] theorem withSf_inReset : (s.withSf x).inReset = s.inReset := rfl
@[simp] theorem withSf_localTime : (s.withSf x).localTime = s.localTime := rfl
@[simp] theorem withSf_mem : (s.withSf x).mem = s.mem := rfl
@[simp] theorem withSf_readData : (s.withSf x).readData = s.readData := rfl
@[simp] theorem withSf_cd : (s.withSf x).cd = s.cd := rfl
@[simp] theorem withSf_pu : (s.withSf x).pu = s.pu := rfl
@[simp] theorem withSf_sf : (s.withSf x).sf = x := rfl
@[simp] theorem withSf_hx : (s.withSf x).hx = s.hx := rfl
@[simp] theorem withSf_el : (s.withSf x).el = s.el := rfl
@[simp] theorem withSf_eu : (s.withSf x).eu = s.eu := rfl
@[simp] theorem withSf_tu : (s.withSf x).tu = s.tu := rfl
@[simp] theorem withSf_ru : (s.withSf x).ru = s.ru := rfl
@[simp] theorem withSf_free : (s.withSf x).free = s.free := rfl
@[simp] theorem withSf_pending : (s.withSf x).pending = s.pending := rfl
end withSf

section withHx
variable (x : HitExtractor)
@[simp] theorem withHx_pins : (s.withHx x).pins = s.pins := rfl
@[simp] theorem withHx_inReset : (s.withHx x).inReset = s.inReset := rfl
@[simp] theorem withHx_localTime : (s.withHx x).localTime = s.localTime := rfl
@[simp] theorem withHx_mem : (s.withHx x).mem = s.mem := rfl
@[simp] theorem withHx_readData : (s.withHx x).readData = s.readData := rfl
@[simp] theorem withHx_cd : (s.withHx x).cd = s.cd := rfl
@[simp] theorem withHx_pu : (s.withHx x).pu = s.pu := rfl
@[simp] theorem withHx_sf : (s.withHx x).sf = s.sf := rfl
@[simp] theorem withHx_hx : (s.withHx x).hx = x := rfl
@[simp] theorem withHx_el : (s.withHx x).el = s.el := rfl
@[simp] theorem withHx_eu : (s.withHx x).eu = s.eu := rfl
@[simp] theorem withHx_tu : (s.withHx x).tu = s.tu := rfl
@[simp] theorem withHx_ru : (s.withHx x).ru = s.ru := rfl
@[simp] theorem withHx_free : (s.withHx x).free = s.free := rfl
@[simp] theorem withHx_pending : (s.withHx x).pending = s.pending := rfl
end withHx

section withEl
variable (x : EventLocator)
@[simp] theorem withEl_pins : (s.withEl x).pins = s.pins := rfl
@[simp] theorem withEl_inReset : (s.withEl x).inReset = s.inReset := rfl
@[simp] theorem withEl_localTime : (s.withEl x).localTime = s.localTime := rfl
@[simp] theorem withEl_mem : (s.withEl x).mem = s.mem := rfl
@[simp] theorem withEl_readData : (s.withEl x).readData = s.readData := rfl
@[simp] theorem withEl_cd : (s.withEl x).cd = s.cd := rfl
@[simp] theorem withEl_pu : (s.withEl x).pu = s.pu := rfl
@[simp] theorem withEl_sf : (s.withEl x).sf = s.sf := rfl
@[simp] theorem withEl_hx : (s.withEl x).hx = s.hx := rfl
@[simp] theorem withEl_el : (s.withEl x).el = x := rfl
@[simp] theorem withEl_eu : (s.withEl x).eu = s.eu := rfl
@[simp] theorem withEl_tu : (s.withEl x).tu = s.tu := rfl
@[simp] theorem withEl_ru : (s.withEl x).ru = s.ru := rfl
@[simp] theorem withEl_free : (s.withEl x).free = s.free := rfl
@[simp] theorem withEl_pending : (s.withEl x).pending = s.pending := rfl
end withEl

section withEu
variable (x : EvidenceUnit)
@[simp] theorem withEu_pins : (s.withEu x).pins = s.pins := rfl
@[simp] theorem withEu_inReset : (s.withEu x).inReset = s.inReset := rfl
@[simp] theorem withEu_localTime : (s.withEu x).localTime = s.localTime := rfl
@[simp] theorem withEu_mem : (s.withEu x).mem = s.mem := rfl
@[simp] theorem withEu_readData : (s.withEu x).readData = s.readData := rfl
@[simp] theorem withEu_cd : (s.withEu x).cd = s.cd := rfl
@[simp] theorem withEu_pu : (s.withEu x).pu = s.pu := rfl
@[simp] theorem withEu_sf : (s.withEu x).sf = s.sf := rfl
@[simp] theorem withEu_hx : (s.withEu x).hx = s.hx := rfl
@[simp] theorem withEu_el : (s.withEu x).el = s.el := rfl
@[simp] theorem withEu_eu : (s.withEu x).eu = x := rfl
@[simp] theorem withEu_tu : (s.withEu x).tu = s.tu := rfl
@[simp] theorem withEu_ru : (s.withEu x).ru = s.ru := rfl
@[simp] theorem withEu_free : (s.withEu x).free = s.free := rfl
@[simp] theorem withEu_pending : (s.withEu x).pending = s.pending := rfl
end withEu

section withTu
variable (x : TaskUnit)
@[simp] theorem withTu_pins : (s.withTu x).pins = s.pins := rfl
@[simp] theorem withTu_inReset : (s.withTu x).inReset = s.inReset := rfl
@[simp] theorem withTu_localTime : (s.withTu x).localTime = s.localTime := rfl
@[simp] theorem withTu_mem : (s.withTu x).mem = s.mem := rfl
@[simp] theorem withTu_readData : (s.withTu x).readData = s.readData := rfl
@[simp] theorem withTu_cd : (s.withTu x).cd = s.cd := rfl
@[simp] theorem withTu_pu : (s.withTu x).pu = s.pu := rfl
@[simp] theorem withTu_sf : (s.withTu x).sf = s.sf := rfl
@[simp] theorem withTu_hx : (s.withTu x).hx = s.hx := rfl
@[simp] theorem withTu_el : (s.withTu x).el = s.el := rfl
@[simp] theorem withTu_eu : (s.withTu x).eu = s.eu := rfl
@[simp] theorem withTu_tu : (s.withTu x).tu = x := rfl
@[simp] theorem withTu_ru : (s.withTu x).ru = s.ru := rfl
@[simp] theorem withTu_free : (s.withTu x).free = s.free := rfl
@[simp] theorem withTu_pending : (s.withTu x).pending = s.pending := rfl
end withTu

section withRu
variable (x : ReportUnit)
@[simp] theorem withRu_pins : (s.withRu x).pins = s.pins := rfl
@[simp] theorem withRu_inReset : (s.withRu x).inReset = s.inReset := rfl
@[simp] theorem withRu_localTime : (s.withRu x).localTime = s.localTime := rfl
@[simp] theorem withRu_mem : (s.withRu x).mem = s.mem := rfl
@[simp] theorem withRu_readData : (s.withRu x).readData = s.readData := rfl
@[simp] theorem withRu_cd : (s.withRu x).cd = s.cd := rfl
@[simp] theorem withRu_pu : (s.withRu x).pu = s.pu := rfl
@[simp] theorem withRu_sf : (s.withRu x).sf = s.sf := rfl
@[simp] theorem withRu_hx : (s.withRu x).hx = s.hx := rfl
@[simp] theorem withRu_el : (s.withRu x).el = s.el := rfl
@[simp] theorem withRu_eu : (s.withRu x).eu = s.eu := rfl
@[simp] theorem withRu_tu : (s.withRu x).tu = s.tu := rfl
@[simp] theorem withRu_ru : (s.withRu x).ru = x := rfl
@[simp] theorem withRu_free : (s.withRu x).free = s.free := rfl
@[simp] theorem withRu_pending : (s.withRu x).pending = s.pending := rfl
end withRu

section withPins
variable (x : Pins)
@[simp] theorem withPins_pins : (s.withPins x).pins = x := rfl
@[simp] theorem withPins_inReset : (s.withPins x).inReset = s.inReset := rfl
@[simp] theorem withPins_localTime : (s.withPins x).localTime = s.localTime := rfl
@[simp] theorem withPins_mem : (s.withPins x).mem = s.mem := rfl
@[simp] theorem withPins_readData : (s.withPins x).readData = s.readData := rfl
@[simp] theorem withPins_cd : (s.withPins x).cd = s.cd := rfl
@[simp] theorem withPins_pu : (s.withPins x).pu = s.pu := rfl
@[simp] theorem withPins_sf : (s.withPins x).sf = s.sf := rfl
@[simp] theorem withPins_hx : (s.withPins x).hx = s.hx := rfl
@[simp] theorem withPins_el : (s.withPins x).el = s.el := rfl
@[simp] theorem withPins_eu : (s.withPins x).eu = s.eu := rfl
@[simp] theorem withPins_tu : (s.withPins x).tu = s.tu := rfl
@[simp] theorem withPins_ru : (s.withPins x).ru = s.ru := rfl
@[simp] theorem withPins_free : (s.withPins x).free = s.free := rfl
@[simp] theorem withPins_pending : (s.withPins x).pending = s.pending := rfl
end withPins

section withReadData
variable (x : Word)
@[simp] theorem withReadData_pins : (s.withReadData x).pins = s.pins := rfl
@[simp] theorem withReadData_inReset : (s.withReadData x).inReset = s.inReset := rfl
@[simp] theorem withReadData_localTime : (s.withReadData x).localTime = s.localTime := rfl
@[simp] theorem withReadData_mem : (s.withReadData x).mem = s.mem := rfl
@[simp] theorem withReadData_readData : (s.withReadData x).readData = x := rfl
@[simp] theorem withReadData_cd : (s.withReadData x).cd = s.cd := rfl
@[simp] theorem withReadData_pu : (s.withReadData x).pu = s.pu := rfl
@[simp] theorem withReadData_sf : (s.withReadData x).sf = s.sf := rfl
@[simp] theorem withReadData_hx : (s.withReadData x).hx = s.hx := rfl
@[simp] theorem withReadData_el : (s.withReadData x).el = s.el := rfl
@[simp] theorem withReadData_eu : (s.withReadData x).eu = s.eu := rfl
@[simp] theorem withReadData_tu : (s.withReadData x).tu = s.tu := rfl
@[simp] theorem withReadData_ru : (s.withReadData x).ru = s.ru := rfl
@[simp] theorem withReadData_free : (s.withReadData x).free = s.free := rfl
@[simp] theorem withReadData_pending : (s.withReadData x).pending = s.pending := rfl
end withReadData

section withPending
variable (x : List Instr)
@[simp] theorem withPending_pins : (s.withPending x).pins = s.pins := rfl
@[simp] theorem withPending_inReset : (s.withPending x).inReset = s.inReset := rfl
@[simp] theorem withPending_localTime : (s.withPending x).localTime = s.localTime := rfl
@[simp] theorem withPending_mem : (s.withPending x).mem = s.mem := rfl
@[simp] theorem withPending_readData : (s.withPending x).readData = s.readData := rfl
@[simp] theorem withPending_cd : (s.withPending x).cd = s.cd := rfl
@[simp] theorem withPending_pu : (s.withPending x).pu = s.pu := rfl
@[simp] theorem withPending_sf : (s.withPending x).sf = s.sf := rfl
@[simp] theorem withPending_hx : (s.withPending x).hx = s.hx := rfl
@[simp] theorem withPending_el : (s.withPending x).el = s.el := rfl
@[simp] theorem withPending_eu : (s.withPending x).eu = s.eu := rfl
@[simp] theorem withPending_tu : (s.withPending x).tu = s.tu := rfl
@[simp] theorem withPending_ru : (s.withPending x).ru = s.ru := rfl
@[simp] theorem withPending_free : (s.withPending x).free = s.free := rfl
@[simp] theorem withPending_pending : (s.withPending x).pending = x := rfl
end withPending

section takeFree
@[simp] theorem takeFree_pins : s.takeFree.pins = s.pins := rfl
@[simp] theorem takeFree_inReset : s.takeFree.inReset = s.inReset := rfl
@[simp] theorem takeFree_localTime : s.takeFree.localTime = s.localTime := rfl
@[simp] theorem takeFree_mem : s.takeFree.mem = s.mem := rfl
@[simp] theorem takeFree_readData : s.takeFree.readData = s.readData := rfl
@[simp] theorem takeFree_cd : s.takeFree.cd = s.cd := rfl
@[simp] theorem takeFree_pu : s.takeFree.pu = s.pu := rfl
@[simp] theorem takeFree_sf : s.takeFree.sf = s.sf := rfl
@[simp] theorem takeFree_hx : s.takeFree.hx = s.hx := rfl
@[simp] theorem takeFree_el : s.takeFree.el = s.el := rfl
@[simp] theorem takeFree_eu : s.takeFree.eu = s.eu := rfl
@[simp] theorem takeFree_tu : s.takeFree.tu = s.tu := rfl
@[simp] theorem takeFree_ru : s.takeFree.ru = s.ru := rfl
@[simp] theorem takeFree_pending : s.takeFree.pending = s.pending := rfl
end takeFree

end Sys2Proof.Machine.State
end

