-- ==== Sys2Proof/Laws/Frame.lean ====
section
/-! SUPPORT. What each shared operation can change: one lemma per operation, naming the parts of the state it may touch. All
other parts are what they were. -/

set_option Elab.async false

namespace Sys2Proof.Machine

theorem Within.refl (m : Touch) (s : State) : Within m s s := by
  constructor <;> intros <;> rfl

theorem Within.trans {m : Touch} {s t u : State} (h : Within m s t) (k : Within m t u) : Within m s u where
  pins := k.pins.trans h.pins
  inReset := k.inReset.trans h.inReset
  localTime := k.localTime.trans h.localTime
  pending := k.pending.trans h.pending
  mem e := (k.mem e).trans (h.mem e)
  readData e := (k.readData e).trans (h.readData e)
  cd e := (k.cd e).trans (h.cd e)
  strap e := (k.strap e).trans (h.strap e)
  layoutDefined e := (k.layoutDefined e).trans (h.layoutDefined e)
  resultsBase e := (k.resultsBase e).trans (h.resultsBase e)
  archiveBase e := (k.archiveBase e).trans (h.archiveBase e)
  access e := (k.access e).trans (h.access e)
  queue e := (k.queue e).trans (h.queue e)
  taskRead e := (k.taskRead e).trans (h.taskRead e)
  sf e := (k.sf e).trans (h.sf e)
  hx e := (k.hx e).trans (h.hx e)
  el e := (k.el e).trans (h.el e)
  zones e := (k.zones e).trans (h.zones e)
  eu e := (k.eu e).trans (h.eu e)
  euState e := (k.euState e).trans (h.euState e)
  tu e := (k.tu e).trans (h.tu e)
  ru e := (k.ru e).trans (h.ru e)
  free e := (k.free e).trans (h.free e)

/-- Every part that m names, n names too. -/
structure Touch.le (m n : Touch) : Prop where
  mem : n.mem = false → m.mem = false
  readData : n.readData = false → m.readData = false
  cd : n.cd = false → m.cd = false
  pu : n.pu = false → m.pu = false
  access : n.access = false → m.access = false
  queue : n.queue = false → m.queue = false
  read : n.read = false → m.read = false
  sf : n.sf = false → m.sf = false
  hx : n.hx = false → m.hx = false
  el : n.el = false → m.el = false
  zones : n.zones = false → m.zones = false
  eu : n.eu = false → m.eu = false
  euState : n.euState = false → m.euState = false
  tu : n.tu = false → m.tu = false
  ru : n.ru = false → m.ru = false
  free : n.free = false → m.free = false

theorem Within.mono {m n : Touch} {s t : State} (h : Within m s t) (l : m.le n) : Within n s t where
  pins := h.pins
  inReset := h.inReset
  localTime := h.localTime
  pending := h.pending
  mem e := h.mem (l.mem e)
  readData e := h.readData (l.readData e)
  cd e := h.cd (l.cd e)
  strap e := h.strap (l.pu e)
  layoutDefined e := h.layoutDefined (l.pu e)
  resultsBase e := h.resultsBase (l.pu e)
  archiveBase e := h.archiveBase (l.pu e)
  access e := h.access (l.access e)
  queue e := h.queue (l.queue e)
  taskRead e := h.taskRead (l.read e)
  sf e := h.sf (l.sf e)
  hx e := h.hx (l.hx e)
  el e := h.el (l.el e)
  zones e := h.zones (l.zones e)
  eu e := h.eu (l.eu e)
  euState e := h.euState (l.euState e)
  tu e := h.tu (l.tu e)
  ru e := h.ru (l.ru e)
  free e := h.free (l.free e)

/-- Lifts a lemma to a wider touch, both written out. -/
theorem Within.widen {m n : Touch} {s t : State} (h : Within m s t)
    (l : m.le n := by constructor <;> simp) : Within n s t := h.mono l

theorem Within.ite {m : Touch} {s t u : State} {p : Prop} [Decidable p] (h : Within m s t) (k : Within m s u) :
    Within m s (if p then t else u) := by
  split <;> assumption

theorem Within.foldl {α : Type} {m : Touch} (f : State → α → State) (h : ∀ s a, Within m s (f s a)) (l : List α) :
    ∀ s, Within m s (l.foldl f s) := by
  induction l with
  | nil => exact Within.refl m
  | cons a l ih => exact fun s => (h s a).trans (ih (f s a))

/-! ### Flags and counters -/

theorem withRu_within (s : State) (x : ReportUnit) : Within .onlyRu s (s.withRu x) := by
  constructor <;> simp

theorem countOccurrence_within (o : Occurrence) (s : State) : Within .onlyRu s (countOccurrence o s) :=
  withRu_within s _

theorem raiseCause_within (c : Cause) (s : State) : Within .onlyRu s (raiseCause c s) := withRu_within s _

theorem countIf_within (b : Bool) (o : Occurrence) (s : State) : Within .onlyRu s (countIf b o s) :=
  Within.ite (countOccurrence_within o s) (Within.refl _ s)

theorem raiseIf_within (b : Bool) (c : Cause) (s : State) : Within .onlyRu s (raiseIf b c s) :=
  Within.ite (raiseCause_within c s) (Within.refl _ s)

theorem noteDrop_within (k : DropKind) (a : Addr) (s : State) : Within .onlyRu s (noteDrop k a s) :=
  ((countOccurrence_within _ s).trans (raiseCause_within _ _)).trans (withRu_within _ _)

theorem handVerdicts_within (cs : List (Fin 48)) (s : State) : Within .onlyRu s (handVerdicts cs s) := by
  unfold handVerdicts
  split
  · exact withRu_within s _
  · exact Within.refl _ s

/-! ### Posting -/

theorem enqueue_within {id : RecordId} {ws : List Word} {s t : State} (h : enqueue id ws s = some t) :
    Within .post s t := by
  unfold enqueue at h
  split at h
  · cases h
    constructor <;> simp
  · cases h

theorem replaceQueued_within (id : RecordId) (ws : List Word) (s : State) : Within .post s (replaceQueued id ws s) := by
  constructor <;> simp [replaceQueued]

theorem takeFree_within (s : State) : Within .post s s.takeFree := by
  constructor <;> simp

theorem markDirty_within (id : RecordId) (b : Bool) (s : State) : Within .post s (markDirty id b s) :=
  (withRu_within s _).widen

theorem enqueueRecord_within {id : RecordId} {s t : State} (h : enqueueRecord id s = some t) : Within .post s t := by
  unfold enqueueRecord at h
  obtain ⟨u, hu, rfl⟩ := Option.map_eq_some_iff.mp h
  exact ((enqueue_within hu).trans (takeFree_within u)).trans (markDirty_within _ _ _)

theorem offer_within (id : RecordId) (s : State) : Within .post s (offer id s) := by
  unfold offer
  split
  · exact (replaceQueued_within _ _ s).trans (takeFree_within _)
  all_goals
    cases h : enqueueRecord id s with
    | none => exact markDirty_within _ _ _
    | some t => exact enqueueRecord_within h

theorem offerIf_within (b : Bool) (id : RecordId) (s : State) : Within .post s (offerIf b id s) :=
  Within.ite (offer_within id s) (Within.refl _ s)

theorem raiseTrace_within (s : State) : Within .post s (raiseTrace s) := by
  unfold raiseTrace
  split
  · have h : Within .post s (raiseCause .trace (s.withRu { s.ru with traceAwait := false })) :=
      ((withRu_within s _).trans (raiseCause_within _ _)).widen
    exact Within.ite (h.trans (offer_within _ _)) h
  · exact Within.refl _ s

theorem offerLog_within (ws : List Word) (s : State) : Within .post s (offerLog ws s) := by
  unfold offerLog
  split
  · next h => exact (enqueue_within h).trans ((countOccurrence_within _ _).trans (withRu_within _ _)).widen
  · exact (countOccurrence_within _ s).widen

/-- A round of reports posts, and does nothing else, whatever it compares with. -/
theorem report_within (p : Posting) (before after : State) : Within .post after (report p before after) := by
  unfold report
  refine Within.trans ?_ (raiseTrace_within _)
  refine Within.trans ?_ ((offerIf_within _ _ _).trans (offerIf_within _ _ _))
  refine Within.trans ?_ (Within.foldl _ (fun t c => offer_within _ t) p.verdicts _)
  refine Within.trans ?_ (offerIf_within _ _ _)
  refine Within.trans ?_ (offerIf_within _ _ _)
  refine Within.trans ?_ (offerIf_within _ _ _)
  cases p.log with
  | none => exact Within.refl _ _
  | some ws => exact offerLog_within ws after

theorem postDirtyList_within (ids : List RecordId) : ∀ s, Within .post s (postDirtyList ids s) := by
  induction ids with
  | nil => exact Within.refl _
  | cons id ids ih =>
    intro s
    unfold postDirtyList
    split
    · split
      · next h => exact (enqueueRecord_within h).trans (ih _)
      · exact Within.refl _ s
    · exact ih s

theorem postDirty_within (s : State) : Within .post s (postDirty s) :=
  (postDirtyList_within _ s).trans (raiseTrace_within _)

/-- A report of a state that an operation has reached. -/
theorem Within.report {m : Touch} {s t : State} (h : Within m s t) (p : Posting) (b : State)
    (l : Touch.post.le m := by constructor <;> simp) : Within m s (report p b t) :=
  h.trans ((report_within p b t).mono l)

end Sys2Proof.Machine
end

