-- ==== Sys2Proof/Laws/Blocks.lean ====
section
/-! SUPPORT. What the operations of EU, EL, HX and SF can change. -/

set_option Elab.async false

namespace Sys2Proof.Machine

/-! ### Evidence Unit -/

theorem withEu_within (s : State) (x : EvidenceUnit) (h : x.state = s.eu.state) : Within .close s (s.withEu x) := by
  constructor <;> simp [h]

theorem applyClose_within (e : CycleEntry) (rest : List CycleEntry) (m : Mould) (s : State) :
    Within .close s (applyClose e rest m s) := withEu_within s _ rfl

theorem closeEffect_within (forced : Bool) (s : State) : Within .close s (closeEffect forced s) := by
  unfold closeEffect
  split
  · exact Within.refl _ s
  · exact withEu_within s _ rfl
  · next e rest m _ _ =>
    dsimp only
    refine Within.trans (applyClose_within e rest m s) ?_
    refine Within.widen (m := .onlyRu) ?_
    exact ((((countOccurrence_within _ _).trans (countIf_within _ _ _)).trans (raiseCause_within _ _)).trans
      ((raiseIf_within _ _ _).trans (raiseIf_within _ _ _))).trans (handVerdicts_within _ _)

theorem closeOldest_within (s : State) : Within .close s (closeOldest s) := (closeEffect_within false s).report _ _

theorem closeLoop_within (n : Nat) : ∀ s, Within .close s (closeLoop n s) := by
  induction n with
  | zero => exact Within.refl _
  | succ n ih => exact fun s => Within.ite ((closeOldest_within s).trans (ih _)) (Within.refl _ s)

/-- The closure test closes entries, and does nothing else (R100). -/
theorem testClose_within (s : State) : Within .close s (testClose s) := closeLoop_within _ s

theorem createEntry_within (c : Half) (start : Time) (s : State) : Within .close s (createEntry c start s) :=
  Within.trans (withEu_within s { s.eu with cycles := s.eu.cycles ++ [emptyEntry c start], newest := some c } rfl)
    (countIf_within _ _ _).widen

theorem openCycle_within (c : Half) (start : Time) (s : State) : Within .close s (openCycle c start s) :=
  Within.ite ((createEntry_within c start s).report _ _)
    (((closeEffect_within true s).trans (createEntry_within c start _)).report _ _)

theorem blockBegun_within (c : Half) (start : Time) (s : State) : Within .close s (blockBegun c start s) :=
  Within.ite (Within.refl _ s) ((openCycle_within c start s).trans (testClose_within _))

theorem takeCrackEvent_within (c : Half) (cavity energy : Nat) (s : State) :
    Within .close s (takeCrackEvent c cavity energy s) := withEu_within s _ rfl

/-! ### Event Locator -/

theorem withEl_within (s : State) (x : EventLocator) (h : x.zones = s.el.zones) : Within .locate s (s.withEl x) := by
  constructor <;> simp [h]

theorem countTrace_within (e : EventRecord) (s : State) : Within .onlyRu s (countTrace e s) := by
  unfold countTrace
  exact Within.ite (Within.refl _ s) (Within.ite (withRu_within s _) (withRu_within s _))

theorem reportEvent_within (e : EventRecord) (before s : State) : Within .post s (reportEvent e before s) :=
  Within.report (((countOccurrence_within _ s).trans (countIf_within _ _ _)).trans (countTrace_within _ _)).widen _ _

theorem takeEvent_within (anchor : Hit) (rest : List Hit) (s : State) : Within .locate s (takeEvent anchor rest s) :=
  withEl_within s _ rfl

/-- Forming an event touches EL's pool, floor and serial, EU's tallies, and RU (R80, R85 to R90). -/
theorem formEvent_within (forced : Bool) (s : State) : Within .locate s (formEvent forced s) := by
  unfold formEvent
  split
  · exact Within.refl _ s
  · next anchor rest _ =>
    have h := takeEvent_within anchor rest s
    dsimp only
    split
    · exact h.trans (reportEvent_within _ _ _).widen
    · exact Within.ite (h.trans ((takeCrackEvent_within _ _ _ _).widen.trans (reportEvent_within _ _ _).widen))
        (h.trans (reportEvent_within _ _ _).widen)

theorem formLoop_within (n : Nat) : ∀ s, Within .locate s (formLoop n s) := by
  induction n with
  | zero => exact Within.refl _
  | succ n ih =>
    exact fun s => Within.ite (((formEvent_within false s).trans (testClose_within _).widen).trans (ih _)) (Within.refl _ s)

/-- EL's test forms events and closes cycles, and does nothing else (R79, R100). -/
theorem locatorTest_within (s : State) : Within .locate s (locatorTest s) :=
  (formLoop_within _ s).trans (testClose_within _).widen

theorem placeHit_within (h : Hit) (s : State) : Within .locate s (placeHit h s) :=
  Within.ite (countOccurrence_within _ s).widen (withEl_within s _ rfl)

theorem deliverHit_within (h : Hit) (s : State) : Within .locate s (deliverHit h s) := by
  unfold deliverHit
  refine Within.ite (countOccurrence_within _ s).widen (Within.ite ?_ ?_)
  · exact (placeHit_within h s).trans (locatorTest_within _)
  · exact (((formEvent_within true s).trans (testClose_within _).widen).trans (placeHit_within h _)).trans
      (locatorTest_within _)

/-! ### Hit Extractor -/

theorem withHx_within (s : State) (x : HitExtractor) : Within .extract s (s.withHx x) := by
  constructor <;> simp

theorem putChannel_within (c : Fin 8) (x : Channel) (s : State) : Within .extract s (putChannel c x s) :=
  withHx_within s _

theorem putChannelState_within (c : Fin 8) (x : ChannelState) (s : State) :
    Within .extract s (putChannelState c x s) := withHx_within s _

theorem putBlock_within (b : Option BlockInWork) (s : State) : Within .extract s (putBlock b s) := withHx_within s _

theorem refreshCovered_within (c : Fin 8) (s : State) : Within .extract s (refreshCovered c s) := by
  unfold refreshCovered
  dsimp only
  refine Within.ite (Within.refl _ s) ?_
  refine Within.ite (putChannel_within c _ s) ?_
  refine Within.trans (putChannel_within c ((channelOf s c).cover (coveredTo s c)) s) ?_
  refine Within.widen (m := .locate) ?_
  refine Within.trans ?_ (locatorTest_within _)
  exact withEl_within _ _ rfl

theorem disposeHit_within (c : Fin 8) (h : OpenHit) (truncated : Bool) (s : State) :
    Within .extract s (disposeHit c h truncated s) := by
  unfold disposeHit
  refine Within.ite (countOccurrence_within _ s).widen (Within.ite (countOccurrence_within _ s).widen ?_)
  exact (((countOccurrence_within _ s).trans (countIf_within _ _ _)).widen.trans (putChannel_within _ _ _)).trans
    (deliverHit_within _ _).widen

theorem closeHit_within (c : Fin 8) (b t : Nat) (h : OpenHit) (truncated : Bool) (s : State) :
    Within .extract s (closeHit c b t h truncated s) :=
  ((putChannelState_within _ _ s).trans (disposeHit_within _ _ _ _)).trans (refreshCovered_within _ _)

theorem followHit_within (c : Fin 8) (b t : Nat) (h : OpenHit) (x : Nat) (s : State) :
    Within .extract s (followHit c b t h x s) := by
  unfold followHit
  dsimp only
  split
  · exact putChannelState_within _ _ s
  · exact closeHit_within _ _ _ _ _ s
  · exact closeHit_within _ _ _ _ _ s

theorem openHit_within (c : Fin 8) (b t : Nat) (e : AcceptedBlock) (i x : Nat) (s : State) :
    Within .extract s (openHit c b t e i x s) :=
  ((putChannelState_within _ _ s).trans (refreshCovered_within _ _)).trans (followHit_within _ _ _ _ _ _)

theorem sampleEffect_within (w : BlockInWork) (s : State) : Within .extract s (sampleEffect w s) := by
  unfold sampleEffect
  dsimp only
  split
  · exact Within.refl _ s
  · exact putBlock_within _ s
  · exact Within.ite (openHit_within _ _ _ _ _ _ s) (putChannelState_within _ _ s)
  · exact followHit_within _ _ _ _ _ s
  · exact Within.ite (putChannelState_within _ _ s) (putChannelState_within _ _ s)

theorem seedChannel_within (c : Fin 8) (sum : Nat) (s : State) : Within .extract s (seedChannel c sum s) :=
  Within.ite (putChannelState_within _ _ s) (Within.refl _ s)

theorem finishBlock_within (w : BlockInWork) (sum : Nat) (s : State) : Within .extract s (finishBlock w sum s) :=
  (((seedChannel_within _ _ s).trans (putChannel_within _ _ _)).trans (putBlock_within _ _)).trans
    (refreshCovered_within _ _)

/-- A sample touches HX, and through its hits EL, EU and RU (R62). -/
theorem processSample_within (w : BlockInWork) (s : State) : Within .extract s (processSample w s) := by
  unfold processSample
  have h := (putBlock_within (some { w with next := w.next + 1 }) s).trans (sampleEffect_within w _)
  exact Within.ite h (h.trans (finishBlock_within _ _ _))

theorem takeParams_within (c : Fin 8) (s : State) : Within .extract s (takeParams c s) := putChannel_within c _ s

theorem recomputeThreshold_within (c : Fin 8) (s : State) : Within .extract s (recomputeThreshold c s) := by
  unfold recomputeThreshold
  split <;> first | exact putChannelState_within _ _ s | exact Within.refl _ s

theorem breakChannel_within (c : Fin 8) (s : State) : Within .extract s (breakChannel c s) := by
  unfold breakChannel
  split
  · exact ((putChannelState_within _ _ s).trans (countOccurrence_within _ _).widen).trans (refreshCovered_within _ _)
  all_goals first | exact putChannelState_within _ _ s | exact Within.refl _ s

/-- Taking a block touches HX, and through the block's cycle EU and RU (R58, R97). -/
theorem beginBlock_within (e : AcceptedBlock) (s : State) : Within .extract s (beginBlock e s) := by
  unfold beginBlock
  have h := ((putBlock_within (some { entry := e, next := 0, sum := 0 }) s).trans
    (takeParams_within e.channel _)).trans (recomputeThreshold_within e.channel _)
  refine Within.trans ?_ (blockBegun_within _ _ _).widen
  exact Within.ite h (h.trans (breakChannel_within _ _))

theorem abandonBlock_within (c : Fin 8) (s : State) : Within .extract s (abandonBlock c s) := by
  unfold abandonBlock
  split
  · exact Within.ite (putBlock_within _ s) (Within.refl _ s)
  · exact Within.refl _ s

theorem dropChannel_within (x : ChannelState) (c : Fin 8) (s : State) : Within .extract s (dropChannel x c s) :=
  putChannel_within _ _ s

/-! ### Stream Framer -/

theorem withSf_within (s : State) (x : StreamFramer) : Within .frame s (s.withSf x) := by
  constructor <;> simp

theorem putRing_within (r : Fin 8) (x : Ring) (s : State) : Within .frame s (putRing r x s) := withSf_within s _

theorem putRingState_within (r : Fin 8) (x : RingState) (s : State) : Within .frame s (putRingState r x s) :=
  withSf_within s _

theorem refuseBlock_within (why : RefuseReason) (stream : Bool) (r : Fin 8) (next : RingState) (s : State) :
    Within .frame s (refuseBlock why stream r next s) :=
  Within.report ((putRingState_within r next s).trans
    ((countOccurrence_within _ _).trans (raiseIf_within _ _ _)).widen) _ _

theorem startCapture_within (r : Fin 8) (p : Nat) (d : Word) (s : State) : Within .frame s (startCapture r p d s) :=
  Within.report (putRingState_within r _ s) _ _

theorem huntWrite_within (r : Fin 8) (off : Nat) (be : Enables) (d : Word) (s : State) :
    Within .frame s (huntWrite r off be d s) :=
  Within.ite (Within.ite (startCapture_within _ _ _ s) (refuseBlock_within _ _ _ _ s)) (Within.refl _ s)

theorem countMark_within (m : BlockMark) (s : State) : Within .onlyRu s (countMark m s) := by
  cases m
  · exact Within.refl _ s
  · exact countOccurrence_within _ s
  · exact countOccurrence_within _ s

theorem acceptBlock_within (r : Fin 8) (c : Capture) (s : State) : Within .frame s (acceptBlock r c s) := by
  unfold acceptBlock
  refine Within.trans (Within.report ?_ _ _) (refreshCovered_within _ _).widen
  exact ((putRing_within r _ s).trans (withSf_within _ _)).trans
    ((countOccurrence_within _ _).trans (countMark_within _ _)).widen

theorem closeCapture_within (r : Fin 8) (c : Capture) (d : Word) (s : State) :
    Within .frame s (closeCapture r c d s) :=
  Within.ite (refuseBlock_within _ _ _ _ s)
    (Within.ite (acceptBlock_within r c s) ((putRing_within r _ s).trans (refuseBlock_within _ _ _ _ _)))

theorem fallAndHunt_within (why : RefuseReason) (r : Fin 8) (off : Nat) (be : Enables) (d : Word) (s : State) :
    Within .frame s (fallAndHunt why r off be d s) :=
  (refuseBlock_within _ _ _ _ s).trans (huntWrite_within _ _ _ _ _)

/-- A write of a ring touches SF, and through an accepted block's covered-to time HX, EL, EU and RU (R44 to R50). -/
theorem ringWrite_within (r : Fin 8) (off : Nat) (be : Enables) (d : Word) (s : State) :
    Within .frame s (ringWrite r off be d s) := by
  unfold ringWrite
  split
  · exact Within.refl _ s
  · exact huntWrite_within _ _ _ _ s
  · exact Within.ite (fallAndHunt_within _ _ _ _ _ s) (Within.ite (fallAndHunt_within _ _ _ _ _ s)
      (Within.ite (putRingState_within _ _ s) (closeCapture_within _ _ _ s)))
  · exact Within.ite (Within.ite (startCapture_within _ _ _ s) (refuseBlock_within _ _ _ _ s))
      (fallAndHunt_within _ _ _ _ _ s)

theorem timeoutBlock_within (r : Fin 8) (s : State) : Within .frame s (timeoutBlock r s) := by
  unfold timeoutBlock
  split
  · exact Within.ite (refuseBlock_within _ _ _ _ s) (Within.refl _ s)
  all_goals exact Within.refl _ s

theorem staleRing_within (r : Fin 8) (s : State) : Within .frame s (staleRing r s) := by
  unfold staleRing
  refine Within.ite (Within.trans (Within.report ?_ _ _) (refreshCovered_within _ _).widen) (Within.refl _ s)
  exact (putRing_within r _ s).trans (raiseCause_within _ _).widen

theorem ringToHunt_within (r : Fin 8) (s : State) : Within .frame s (ringToHunt r s) :=
  (putRing_within r _ s).trans (dropChannel_within _ _ _).widen

theorem ringToOff_within (r : Fin 8) (s : State) : Within .frame s (ringToOff r s) :=
  ((putRing_within r _ s).trans (withSf_within _ _)).trans
    ((abandonBlock_within _ _).trans (dropChannel_within _ _ _)).widen

theorem ringRestart_within (r : Fin 8) (s : State) : Within .frame s (ringRestart r s) :=
  ((putRing_within r _ s).trans (withSf_within _ _)).trans
    ((abandonBlock_within _ _).trans (dropChannel_within _ _ _)).widen

end Sys2Proof.Machine
end

