-- ==== Sys2Proof/Laws/Tasks.lean ====
section
/-! SUPPORT. What the operations of TU can change. -/

set_option Elab.async false

namespace Sys2Proof.Machine

theorem withTu_within (s : State) (x : TaskUnit) : Within .task s (s.withTu x) := by
  constructor <;> simp

theorem putEntry_within (n : Fin 12) (e : DirEntry) (s : State) : Within .task s (putEntry n e s) := withTu_within s _

theorem putSlot_within (n : Fin 12) (st : SlotState) (i : Word) (s : State) : Within .task s (putSlot n st i s) :=
  withTu_within s _

theorem setRunning_within (t : Option RunningTask) (s : State) : Within .task s (setRunning t s) := withTu_within s _

theorem setSnapshot_within (m : Option Mould) (s : State) : Within .task s (setSnapshot m s) := withTu_within s _

theorem setSweep_within (x : Sweep) (s : State) : Within .task s (setSweep x s) := withTu_within s _

theorem withEu_task (s : State) (x : EvidenceUnit) : Within .task s (s.withEu x) := by
  constructor <;> simp

theorem setEuState_within (x : EvidenceState) (s : State) : Within .task s (setEuState x s) := withEu_task s _

theorem withMould_within (m : Option Mould) (s : State) : Within .task s (withMould m s) := withEu_task s _

theorem presentTaskRead_within (w : WordAddr) (s : State) : Within .task s (presentTaskRead w s) := by
  constructor <;> simp [presentTaskRead]

theorem noteResult_within (t : Task) (r : TaskResult) (s : State) : Within .onlyRu s (noteResult t r s) := by
  unfold noteResult
  have h := (withRu_within s { s.ru with lastTask := BitVec.ofNat 3 t.kind, lastResult := r.code }).trans
    (raiseCause_within .task _)
  exact Within.ite h (h.trans (withRu_within _ _))

/-- A write into an unprotected slot changes the directory and the sweep's void mark, and is reported (R136). -/
theorem slotTouched_within (n : Fin 12) (s : State) : Within .task s (slotTouched n s) := by
  unfold slotTouched
  refine Within.report (Within.ite ?_ (putSlot_within _ _ _ s)) _ _
  exact (putSlot_within _ _ _ s).trans (withTu_within _ _)

theorem askRecords_within (n : Nat) : ∀ s, Within .task s (askRecords n s) := by
  induction n with
  | zero => exact Within.refl _
  | succ n ih =>
    intro s
    unfold askRecords
    split
    · split
      · split
        · next h => exact ((enqueue_within h).widen.trans (withTu_within _ _)).trans (ih _)
        · exact Within.refl _ s
      · exact Within.refl _ s
    · exact Within.refl _ s

theorem beginWriting_within (n : Fin 12) (image : List Word) (s : State) : Within .task s (beginWriting n image s) :=
  (withTu_within s _).trans (askRecords_within 16 _)

theorem beginReading_within (n : Fin 12) (s : State) : Within .task s (beginReading n s) :=
  (withTu_within s _).trans (presentTaskRead_within _ _)

theorem discardCycles_within (s : State) : Within .task s (discardCycles s) :=
  Within.trans (Within.foldl _ (fun t _ => (countOccurrence_within _ t).widen) s.eu.cycles s) (withEu_task _ _)

theorem openSave_within (task : Task) (m : Mould) (n : Fin 12) (s : State) : Within .task s (openSave task m n s) :=
  ((((((setSnapshot_within _ s).trans (discardCycles_within _)).trans (setEuState_within _ _)).trans
    (withMould_within _ _)).trans (putSlot_within _ _ _ _)).trans (setRunning_within _ _)).trans
      (beginWriting_within _ _ _)

theorem openLoad_within (p : MountParams) (s : State) : Within .task s (openLoad p s) :=
  (((setEuState_within _ s).trans (putSlot_within _ _ _ _)).trans (setRunning_within _ _)).trans
    (beginReading_within _ _)

theorem beginTask_within (t : Task) (s : State) : Within .task s (beginTask t s) := by
  cases t with
  | load kind source =>
    exact ((withTu_within s _).trans (setRunning_within _ _)).trans (presentTaskRead_within _ _)
  | mount p =>
    show Within .task s (beginMount p s)
    unfold beginMount
    split
    · exact openSave_within _ _ _ s
    · exact openLoad_within _ s
  | checkpoint =>
    show Within .task s (beginCheckpoint s)
    unfold beginCheckpoint
    split
    · exact ((setSnapshot_within _ s).trans (setRunning_within _ _)).trans (beginWriting_within _ _ _)
    · exact Within.refl _ s
  | release =>
    show Within .task s (beginRelease s)
    unfold beginRelease
    split
    · exact openSave_within _ _ _ s
    · exact Within.refl _ s
  | clearSlot n =>
    exact ((putSlot_within _ _ _ s).trans (setRunning_within _ _)).trans (beginWriting_within _ _ _)
  | sweep => exact Within.refl _ s

theorem beginPending_within (s : State) : Within .task s (beginPending s) := by
  unfold beginPending
  split
  · exact (withTu_within s _).trans (beginTask_within _ _)
  · exact Within.refl _ s

theorem endSweep_within (s : State) : Within .task s (endSweep s) :=
  (((setSweep_within _ s).trans (noteResult_within _ _ _).widen).trans (setRunning_within _ _)).trans
    (beginPending_within _)

theorem sweepGo_within (s : State) : Within .task s (sweepGo s) := by
  unfold sweepGo
  split
  · exact ((setSweep_within _ s).trans (setRunning_within _ _)).trans (beginReading_within _ _)
  · exact endSweep_within s

theorem sweepBoundary_within (s : State) : Within .task s (sweepBoundary s) := by
  unfold sweepBoundary
  dsimp only
  have h := setSweep_within { s.tu.sweep with check := none } s
  split
  · exact h.trans (endSweep_within _)
  · exact h.trans (sweepGo_within _)
  · exact h.trans (((setSweep_within _ _).trans (setRunning_within _ _)).trans (beginPending_within _))
  · exact h.trans (((setSweep_within _ _).trans (setRunning_within _ _)).trans (beginPending_within _))

theorem endTask_within (t : Task) (r : TaskResult) (s : State) : Within .task s (endTask t r s) := by
  unfold endTask
  have h := (noteResult_within t r s).widen.trans (setRunning_within none _)
  exact Within.ite (h.trans (beginPending_within _)) (Within.ite (h.trans (sweepGo_within _)) h)

theorem admitTask_within (t : Task) (s : State) : Within .task s (admitTask t s).2 := by
  unfold admitTask
  split
  · exact Within.refl _ s
  · exact Within.ite ((setSweep_within _ s).trans (sweepGo_within _)) (beginTask_within _ s)
  · exact withTu_within s _

theorem imageComplete_within (n : Fin 12) (s : State) : Within .task s (imageComplete n s) := by
  unfold imageComplete
  have h := withTu_within s { s.tu with writer := none }
  dsimp only
  split
  · exact (h.trans (putSlot_within _ _ _ _)).trans (endTask_within _ _ _)
  · exact (h.trans (setSnapshot_within _ _)).trans (endTask_within _ _ _)
  · exact (((h.trans (putSlot_within _ _ _ _)).trans (setSnapshot_within _ _)).trans (setEuState_within _ _)).trans
      (endTask_within _ _ _)
  · exact ((h.trans (putSlot_within _ _ _ _)).trans (setSnapshot_within _ _)).trans (openLoad_within _ _)
  all_goals exact h

theorem compareMap_within (s : State) : Within .task s (compareMap s) := by
  unfold compareMap
  split
  · exact withEu_task s _
  · exact Within.refl _ s

theorem storeTable_within (kind : LoadKind) (ws : List Word) (s : State) : Within .task s (storeTable kind ws s) := by
  cases kind with
  | profile p =>
    have h := withTu_within s { s.tu with profiles := s.tu.profiles.set p (profileOfTable ws) }
    exact Within.ite (h.trans (withRu_within _ _).widen) h
  | zones =>
    refine Within.trans ?_ (compareMap_within _)
    constructor <;> simp

theorem tableWord_within (kind : LoadKind) (source : Addr) (d : Word) (s : State) :
    Within .task s (tableWord kind source d s) := by
  unfold tableWord
  dsimp only
  split
  · exact (withTu_within s _).trans (presentTaskRead_within _ _)
  · exact ((withTu_within s _).trans (storeTable_within _ _ _)).trans (endTask_within _ _ _)
  · exact (withTu_within s _).trans (endTask_within _ _ _)

theorem applyJudgement_within (n : Fin 12) (j : Judgement) (s : State) : Within .task s (applyJudgement n j s) := by
  cases j with
  | bad => exact (putSlot_within _ _ _ s).trans (raiseCause_within _ _).widen
  | goodEmpty => exact putSlot_within _ _ _ s
  | goodOccupied i c => exact putSlot_within _ _ _ s

theorem sweepJudged_within (j : Judgement) (s : State) : Within .task s (sweepJudged j s) := by
  unfold sweepJudged
  split
  · exact Within.trans (Within.ite (Within.refl _ s) (applyJudgement_within _ _ s)) (sweepBoundary_within _)
  · exact sweepBoundary_within s

theorem mountFails_within (p : MountParams) (r : TaskResult) (st : SlotState) (i : Word) (s : State) :
    Within .task s (mountFails p r st i s) := by
  unfold mountFails
  have h := (putSlot_within p.slot st i s).trans (setEuState_within .empty _)
  exact Within.trans (Within.ite (h.trans (raiseCause_within _ _).widen) h) (endTask_within _ _ _)

theorem mountSucceeds_within (p : MountParams) (m : Mould) (s : State) : Within .task s (mountSucceeds p m s) := by
  unfold mountSucceeds
  refine Within.trans ?_ (endTask_within _ _ _)
  refine Within.trans ?_ (handVerdicts_within _ _).widen
  exact ((putSlot_within _ _ _ s).trans (setEuState_within _ _)).trans (withMould_within _ _)

theorem mountJudged_within (p : MountParams) (j : Judgement) (ws : List Word) (s : State) :
    Within .task s (mountJudged p j ws s) := by
  cases j with
  | bad => exact mountFails_within _ _ _ _ s
  | goodEmpty => exact mountSucceeds_within _ _ s
  | goodOccupied i c =>
    exact Within.ite (mountFails_within _ _ _ _ s) (Within.ite (mountFails_within _ _ _ _ s) (mountSucceeds_within _ _ s))

theorem readOn_within (s : State) : Within .task s (readOn s) := by
  unfold readOn
  split
  · exact presentTaskRead_within _ s
  · exact Within.refl _ s

theorem slotWord_within (t : Task) (d : Word) (s : State) : Within .task s (slotWord t d s) := by
  unfold slotWord
  have h : Within .task s (keepSlotWord d s) := withTu_within s _
  refine Within.ite (h.trans (readOn_within _)) ?_
  cases t with
  | mount p => exact h.trans (mountJudged_within _ _ _ _)
  | sweep => exact h.trans (sweepJudged_within _ _)
  | load _ _ => exact h
  | checkpoint => exact h
  | release => exact h
  | clearSlot _ => exact h

/-- The data of a task read touch TU, and through it PU's queue and task read, EL's map, EU and RU. -/
theorem taskData_within (d : Word) (s : State) : Within .task s (taskData d s) := by
  unfold taskData
  split
  · split
    · exact tableWord_within _ _ _ s
    · exact slotWord_within _ _ s
    · exact slotWord_within _ _ s
    all_goals exact Within.refl _ s
  · exact Within.refl _ s

theorem followProfile_within (loaded : Bool) (before after : State) :
    Within .task after (followProfile loaded before after) :=
  Within.ite (locatorTest_within after).widen (Within.refl _ after)

theorem reportTask_within (p : Posting) (loaded : Bool) (before after : State) :
    Within .task after (reportTask p loaded before after) :=
  (report_within p before after).widen.trans (followProfile_within _ _ _)

end Sys2Proof.Machine
end

