-- ==== Sys2Proof/Laws/Commands.lean ====
section
/-! SUPPORT. What the owners of commands, CD and PU can change. -/

set_option Elab.async false

namespace Sys2Proof.Machine

/-- A command other than RESET PART, and any write of the window: everything but the memory array, the word read and the
outstanding access. -/
abbrev Touch.command : Touch :=
  { queue := true, read := true, pu := true, ru := true, free := true, eu := true, euState := true, el := true,
    zones := true, tu := true, sf := true, hx := true, cd := true }

theorem withCd_within (s : State) (x : CommandDecoder) : Within .command s (s.withCd x) := by
  constructor <;> simp

theorem refuse_within (o : FrameOutcome) (s : State) : Within .command s (refuse o s).state := Within.refl _ s

/-- The owner's state when one test has been made. -/
theorem Within.answer {s : State} {p : Prop} [Decidable p] {a b : Answer} (h : Within .command s a.state)
    (k : Within .command s b.state) : Within .command s (if p then a else b).state := by
  split <;> assumption

theorem applyLayout_within (r a : Word) (s : State) : Within .command s (applyLayout r a s) := by
  constructor <;> simp [applyLayout]

theorem cleared_within (cs : List (Fin 48)) (m : Option Mould) (s : State) :
    Within .task s (handVerdicts cs (withMould m s)) := by
  refine Within.trans (withMould_within m s) ?_
  exact (handVerdicts_within _ _).widen

/-- An owner changes nothing of the memory array, the pins, time or the outstanding access (R27). -/
theorem own_within (c : Command) (s : State) : Within .command s (own c s).state := by
  have task {t : State} (h : Within .task s t) : Within .command s t := h.widen
  have ring {t : State} (h : Within .frame s t) : Within .command s t := h.widen
  have ru {x : ReportUnit} : Within .command s (s.withRu x) := (withRu_within s x).widen
  have here : Within .command s s := Within.refl _ s
  cases c with
  | defineLayout => exact Within.answer here (Within.answer here (applyLayout_within _ _ s))
  | resetPart => exact here
  | defineRing =>
    exact Within.answer here (Within.answer here (Within.answer here (Within.answer here (Within.answer here
      (ring (putRing_within _ _ s))))))
  | ringOn => exact Within.answer here (Within.answer here (ring (ringToHunt_within _ s)))
  | ringOff =>
    exact Within.answer here (Within.answer here (Within.answer here (ring (ringToOff_within _ s))))
  | resetRing => exact Within.answer here (Within.answer here (ring (ringRestart_within _ s)))
  | setFraming =>
    refine Within.answer here (ring ?_)
    exact Within.ite ((withSf_within s _).trans (withRu_within _ _).widen) (withSf_within s _)
  | load =>
    show Within .command s (ownLoad s).state
    unfold ownLoad
    split
    · exact here
    · exact Within.answer here (Within.answer here (task (admitTask_within _ s)))
  | lockSlot => exact Within.answer here (Within.answer here (task (putEntry_within _ _ s)))
  | clearLocks => exact Within.answer here (task (withTu_within s _))
  | setMasterLock => exact Within.answer here (task (withTu_within s _))
  | clearSlot =>
    exact Within.answer here (Within.answer here (Within.answer here (task (admitTask_within _ s))))
  | sweep => exact task (admitTask_within _ s)
  | suspendSweep =>
    show Within .command s (ownSuspendSweep s).state
    unfold ownSuspendSweep
    split
    · exact task (setSweep_within _ s)
    · exact task (setSweep_within _ s)
    · exact here
    · exact here
  | resumeSweep => exact Within.answer here (Within.answer here (task (sweepGo_within s)))
  | mount => exact Within.answer here (Within.answer here (task (admitTask_within _ s)))
  | checkpoint => exact Within.answer here (task (admitTask_within _ s))
  | release => exact Within.answer here (task (admitTask_within _ s))
  | clearCavity =>
    show Within .command s (ownClearCavity s).state
    unfold ownClearCavity
    split
    · exact here
    · refine Within.answer here (task ?_)
      dsimp only [accept]
      exact cleared_within _ _ s
  | clearMould =>
    show Within .command s (ownClearMould s).state
    unfold ownClearMould
    split
    · exact here
    · refine task ?_
      dsimp only [accept]
      exact cleared_within _ _ s
  | setReporting =>
    exact Within.answer here (task ((withRu_within s _).widen.trans (withEu_task _ _)))
  | setCounter => exact Within.answer here ru
  | clearStatus => exact ru
  | acknowledge => exact Within.answer here ru

theorem recordOutcome_within (code : Byte) (o : FrameOutcome) (s : State) :
    Within .command s (recordOutcome code o s) := by
  unfold recordOutcome
  have h := (withCd_within s { s.cd with tally := s.cd.tally + 1 }).trans
    (Within.widen (withRu_within _ { (s.withCd { s.cd with tally := s.cd.tally + 1 }).ru with
      lastCode := code, lastOutcome := o.code }))
  exact Within.ite (h.trans (withRu_within _ _).widen) h

theorem setDecoder_within (x : DecoderState) (s : State) : Within .command s (setDecoder x s) := withCd_within s _

theorem endFrame_within (code : Byte) (o : FrameOutcome) (s : State) : Within .command s (endFrame code o s) :=
  Within.report ((setDecoder_within _ s).trans (recordOutcome_within _ _ _)) _ _

theorem answerReport_within (c : Command) (a : Answer) (s : State) (h : Within .command s a.state) :
    Within .command s (answerReport c a s) := by
  unfold answerReport
  have k := (h.trans (setDecoder_within .ready _)).trans (recordOutcome_within c.code a.outcome _)
  exact Within.ite (k.trans (postDirty_within _).widen) (Within.report k _ _)

theorem followUp_within (f : Follow) (before after : State) : Within .command after (followUp f before after) := by
  cases f with
  | nothing => exact Within.refl _ after
  | channel c => exact (refreshCovered_within c after).widen
  | profile => exact (followProfile_within _ _ _).widen

/-- A command other than RESET PART that is taken. -/
theorem takeCommand_within {c : Command} (hc : c ≠ .resetPart) (s : State) : Within .command s (takeCommand c s) := by
  unfold takeCommand
  rw [if_neg hc]
  exact (answerReport_within c _ s (own_within c s)).trans (followUp_within _ _ _)

/-- No write of the command window, RESET PART included, changes memory or the word read. -/
structure KeepsArray (s t : State) : Prop where
  mem : t.mem = s.mem
  readData : t.readData = s.readData
  pins : t.pins = s.pins
  pending : t.pending = s.pending

theorem KeepsArray.refl (s : State) : KeepsArray s s := ⟨rfl, rfl, rfl, rfl⟩

theorem KeepsArray.trans {s t u : State} (h : KeepsArray s t) (k : KeepsArray t u) : KeepsArray s u :=
  ⟨k.mem.trans h.mem, k.readData.trans h.readData, k.pins.trans h.pins, k.pending.trans h.pending⟩

theorem Within.keepsArray {m : Touch} {s t : State} (h : Within m s t) (a : m.mem = false := by rfl)
    (b : m.readData = false := by rfl) : KeepsArray s t := ⟨h.mem a, h.readData b, h.pins, h.pending⟩

theorem takeCommand_keeps (c : Command) (s : State) : KeepsArray s (takeCommand c s) := by
  by_cases hc : c = .resetPart
  · subst hc
    exact ⟨rfl, rfl, rfl, rfl⟩
  · exact (takeCommand_within hc s).keepsArray

theorem closingWrite_keeps (d : Word) (s : State) : KeepsArray s (closingWrite d s) := by
  unfold closingWrite
  split
  · exact (endFrame_within _ _ s).keepsArray
  · exact (endFrame_within _ _ s).keepsArray
  · split
    · exact (endFrame_within _ _ s).keepsArray
    · split
      · exact (endFrame_within _ _ s).keepsArray
      · unfold closeCommand
        split
        · exact (endFrame_within _ _ s).keepsArray
        · exact takeCommand_keeps _ s

theorem openingWrite_within (d : Word) (s : State) : Within .command s (openingWrite d s) := by
  unfold openingWrite
  split
  · exact withCd_within s _
  all_goals exact (Within.report (recordOutcome_within _ _ s) _ _).trans (withCd_within _ _)

theorem parameterWrite_within (n : Fin 14) (d : Word) (s : State) : Within .command s (parameterWrite n d s) := by
  unfold parameterWrite
  split
  · exact withCd_within s _
  all_goals exact Within.refl _ s

theorem poisonFrame_within (s : State) : Within .command s (poisonFrame s) := by
  unfold poisonFrame
  split
  · exact withCd_within s _
  all_goals exact Within.refl _ s

theorem cdWrite_keeps (n : Nat) (be : Enables) (d : Word) (s : State) : KeepsArray s (cdWrite n be d s) := by
  unfold cdWrite
  split
  · exact (poisonFrame_within s).keepsArray
  · split
    · exact (openingWrite_within d s).keepsArray
    · split
      · exact closingWrite_keeps d s
      · exact (parameterWrite_within _ d s).keepsArray

/-- The copy of a write changes nothing of memory (R3). -/
theorem copyWrite_keeps (p : Place) (be : Enables) (d : Word) (s : State) : KeepsArray s (copyWrite p be d s) := by
  cases p with
  | command n => exact cdWrite_keeps n be d s
  | ring r off => exact (ringWrite_within r off be d s).keepsArray
  | results w => exact KeepsArray.refl s
  | slot n w => exact (slotTouched_within n s).keepsArray
  | other => exact KeepsArray.refl s

end Sys2Proof.Machine
end

