-- ==== Sys2Proof/Laws/Memory.lean ====
section
/-! SUPPORT. The memory operations: each keeps the canonical form, and a byte read back is the byte last written. -/

set_option Elab.async false

namespace Sys2Proof.Machine

namespace Memory

/-- The canonical form above an address is the canonical form above every lower one. -/
theorem wfFrom_mono {lo hi : Nat} (h : lo ≤ hi) : ∀ {m : Memory}, wfFrom hi m = true → wfFrom lo m = true := by
  intro m
  cases m with
  | nil => intro; rfl
  | cons c rest =>
    intro k
    simp only [wfFrom, Bool.and_eq_true, decide_eq_true_eq] at k ⊢
    exact ⟨⟨by omega, k.1.2⟩, k.2⟩

theorem wfFrom_consByte {lo a : Nat} {b : Byte} {m : Memory} (h : lo ≤ a) (k : wfFrom (a + 1) m = true) :
    wfFrom lo (consByte a b m) = true := by
  unfold consByte
  split
  · exact wfFrom_mono (by omega) k
  · next hb => simp [wfFrom, h, k, hb]

theorem wfFrom_writeByte {m : Memory} : ∀ {lo a : Nat} {b : Byte}, lo ≤ a → wfFrom lo m = true →
    wfFrom lo (writeByte m a b) = true := by
  induction m with
  | nil => intro lo a b h _; exact wfFrom_consByte h rfl
  | cons c rest ih =>
    intro lo a b h k
    obtain ⟨x, v⟩ := c
    have k' := k
    simp only [wfFrom, Bool.and_eq_true, decide_eq_true_eq] at k'
    unfold writeByte
    split
    · refine wfFrom_consByte h ?_
      simp only [wfFrom, Bool.and_eq_true, decide_eq_true_eq]
      exact ⟨⟨by omega, k'.1.2⟩, k'.2⟩
    · split
      · next e => subst e; exact wfFrom_consByte h k'.2
      · simp only [wfFrom, Bool.and_eq_true, decide_eq_true_eq]
        exact ⟨k'.1, ih (by omega) k'.2⟩

/-- Writing a byte keeps the canonical form. -/
theorem wf_writeByte {m : Memory} (h : wf m = true) (a : Nat) (b : Byte) : wf (writeByte m a b) = true :=
  wfFrom_writeByte (Nat.zero_le a) h

theorem wf_writeLane {m : Memory} (h : wf m = true) (w : WordAddr) (be : Enables) (d : Word) (i : Nat) :
    wf (writeLane w be d m i) = true := by
  unfold writeLane
  split
  · exact wf_writeByte h _ _
  · exact h

/-- A word write keeps the canonical form. -/
theorem wf_writeWord {m : Memory} (h : wf m = true) (w : WordAddr) (be : Enables) (d : Word) :
    wf (writeWord m w be d) = true := by
  simp only [writeWord, List.foldl]
  exact wf_writeLane (wf_writeLane (wf_writeLane (wf_writeLane h ..) ..) ..) ..

/-- An address below every listed one reads as the unlisted byte. -/
theorem readByte_of_wfFrom {m : Memory} : ∀ {lo a : Nat}, wfFrom lo m = true → a < lo →
    readByte m a = Config.unlistedByte := by
  induction m with
  | nil => intros; rfl
  | cons c rest ih =>
    intro lo a h k
    obtain ⟨x, v⟩ := c
    simp only [wfFrom, Bool.and_eq_true, decide_eq_true_eq] at h
    unfold readByte
    rw [if_neg (by omega)]
    exact ih h.2 (by omega)

theorem readByte_consByte {m : Memory} {a : Nat} {b : Byte} (h : wfFrom (a + 1) m = true) (x : Nat) :
    readByte (consByte a b m) x = if x = a then b else readByte m x := by
  unfold consByte
  split
  · next e =>
    split
    · next y => subst y; rw [readByte_of_wfFrom h (by omega)]; exact e.symm
    · rfl
  · simp only [readByte, eq_comm]

theorem readByte_writeByte_aux {m : Memory} : ∀ {lo : Nat} (_ : wfFrom lo m = true) (a : Nat) (b : Byte) (x : Nat),
    readByte (writeByte m a b) x = if x = a then b else readByte m x := by
  induction m with
  | nil =>
    intro lo _ a b x
    exact readByte_consByte (m := []) rfl x
  | cons c rest ih =>
    intro lo h a b x
    obtain ⟨y, v⟩ := c
    have h' := h
    simp only [wfFrom, Bool.and_eq_true, decide_eq_true_eq] at h'
    unfold writeByte
    split
    · next lt =>
      refine readByte_consByte ?_ x
      simp only [wfFrom, Bool.and_eq_true, decide_eq_true_eq]
      exact ⟨⟨by omega, h'.1.2⟩, h'.2⟩
    · split
      · next e =>
        subst e
        rw [readByte_consByte h'.2]
        by_cases k : x = a
        · simp [k]
        · simp [readByte, k, Ne.symm k]
      · next ne =>
        simp only [readByte]
        by_cases k : y = x
        · subst k; simp [Ne.symm ne]
        · simp only [if_neg k]; exact ih h'.2 a b x

/-- A byte read after a byte write: the byte written at its address, what it was elsewhere. -/
theorem readByte_writeByte {m : Memory} (h : wf m = true) (a : Nat) (b : Byte) (x : Nat) :
    readByte (writeByte m a b) x = if x = a then b else readByte m x :=
  readByte_writeByte_aux h a b x

theorem readByte_writeLane {m : Memory} (h : wf m = true) (w : WordAddr) (be : Enables) (d : Word) (i x : Nat) :
    readByte (writeLane w be d m i) x =
      if be.getLsbD i = true ∧ x = 4 * w.toNat + i then lane d i else readByte m x := by
  unfold writeLane
  split
  · next e => rw [readByte_writeByte h]; simp [e]
  · next e => simp [e]

/-- A byte outside the word that is written reads as before. -/
theorem readByte_writeWord_of_ne {m : Memory} (h : wf m = true) (w : WordAddr) (be : Enables) (d : Word) (x : Nat)
    (k : x / 4 ≠ w.toNat) : readByte (writeWord m w be d) x = readByte m x := by
  simp only [writeWord, List.foldl]
  have h0 := wf_writeLane h w be d 0
  have h1 := wf_writeLane h0 w be d 1
  have h2 := wf_writeLane h1 w be d 2
  rw [readByte_writeLane h2, readByte_writeLane h1, readByte_writeLane h0, readByte_writeLane h]
  have e (i : Nat) (hi : i < 4) : ¬ x = 4 * w.toNat + i := by omega
  have z : ¬ x = 4 * w.toNat := by omega
  simp [z, e 1 (by omega), e 2 (by omega), e 3 (by omega)]

/-- Byte i of the word that is written reads as the lane written where its enable is set, and as before elsewhere. -/
theorem readByte_writeWord {m : Memory} (h : wf m = true) (w : WordAddr) (be : Enables) (d : Word) (i : Fin 4) :
    readByte (writeWord m w be d) (4 * w.toNat + i) =
      if be.getLsbD i = true then lane d i else readByte m (4 * w.toNat + i) := by
  simp only [writeWord, List.foldl]
  have h0 := wf_writeLane h w be d 0
  have h1 := wf_writeLane h0 w be d 1
  have h2 := wf_writeLane h1 w be d 2
  rw [readByte_writeLane h2, readByte_writeLane h1, readByte_writeLane h0, readByte_writeLane h]
  match i with
  | 0 => simp
  | 1 => simp
  | 2 => simp
  | 3 => simp

end Memory

/-! ### Bit fields -/

theorem getLsbD_field (lo width v i : Nat) :
    (field lo width v).getLsbD i = (decide (i < 32) && (decide (lo ≤ i) && (decide (i - lo < width) && v.testBit (i - lo)))) := by
  unfold field
  rw [BitVec.getLsbD_ofNat, Nat.testBit_mul_two_pow, Nat.testBit_mod_two_pow]

theorem getLsbD_flag (n : Nat) (b : Bool) (i : Nat) :
    (flag n b).getLsbD i = (decide (i < 32) && (decide (i = n) && b)) := by
  unfold flag
  rw [getLsbD_field]
  by_cases h : i = n
  · subst h; cases b <;> simp
  · by_cases k : n ≤ i
    · have : ¬ (i - n < 1) := by omega
      simp [h, this]
    · simp [h, k]

theorem testBit_lane (d : Word) (i j : Nat) (h : j < 8) : (lane d i).toNat.testBit j = d.getLsbD (8 * i + j) := by
  unfold lane bits
  rw [BitVec.testBit_toNat, BitVec.getLsbD_ofNat, Nat.testBit_mod_two_pow, Nat.testBit_div_two_pow]
  simp [h, BitVec.getLsbD, Nat.add_comm]

/-- The four lanes of a word make the word. -/
theorem assemble_lanes (d : Word) :
    field 0 8 (lane d 0).toNat ||| field 8 8 (lane d 1).toNat ||| field 16 8 (lane d 2).toNat |||
      field 24 8 (lane d 3).toNat = d := by
  apply BitVec.eq_of_getLsbD_eq
  intro i hi
  simp only [BitVec.getLsbD_or, getLsbD_field]
  by_cases h0 : i < 8
  · rw [testBit_lane _ _ _ (by omega)]
    simp [h0, hi, show ¬ 8 ≤ i by omega, show ¬ 16 ≤ i by omega, show ¬ 24 ≤ i by omega]
  by_cases h1 : i < 16
  · have e := testBit_lane d 1 (i - 8) (by omega)
    rw [show 8 * 1 + (i - 8) = i by omega] at e
    simp [h0, hi, e, show 8 ≤ i by omega, show i - 8 < 8 by omega, show ¬ 16 ≤ i by omega, show ¬ 24 ≤ i by omega]
  by_cases h2 : i < 24
  · have e := testBit_lane d 2 (i - 16) (by omega)
    rw [show 8 * 2 + (i - 16) = i by omega] at e
    simp [h0, hi, e, show ¬ i - 8 < 8 by omega, show 16 ≤ i by omega, show i - 16 < 8 by omega, show ¬ 24 ≤ i by omega]
  · have e := testBit_lane d 3 (i - 24) (by omega)
    rw [show 8 * 3 + (i - 24) = i by omega] at e
    simp [h0, hi, e, show ¬ i - 8 < 8 by omega, show ¬ i - 16 < 8 by omega, show 24 ≤ i by omega, show i - 24 < 8 by omega]

namespace Memory

/-- The word at the address of a full-word write is the word written. -/
theorem readWord_writeWord {m : Memory} (h : wf m = true) (w : WordAddr) (d : Word) :
    readWord (writeWord m w fullEnables d) w = d := by
  have e (i : Fin 4) : readByte (writeWord m w fullEnables d) (4 * w.toNat + i) = lane d i := by
    rw [readByte_writeWord h]
    match i with
    | 0 => rfl
    | 1 => rfl
    | 2 => rfl
    | 3 => rfl
  have e0 := e 0
  have e1 := e 1
  have e2 := e 2
  have e3 := e 3
  simp only [Fin.val_zero, Fin.val_one, Fin.val_two, Nat.add_zero] at e0 e1 e2 e3
  unfold readWord
  dsimp only
  rw [e0, e1, e2, show 4 * w.toNat + 3 = 4 * w.toNat + ((3 : Fin 4) : Nat) from rfl, e3]
  exact assemble_lanes d

/-- The words elsewhere are what they were. -/
theorem readWord_writeWord_of_ne {m : Memory} (h : wf m = true) {w v : WordAddr} (be : Enables) (d : Word)
    (k : v ≠ w) : readWord (writeWord m w be d) v = readWord m v := by
  have n : v.toNat ≠ w.toNat := fun e => k (BitVec.eq_of_toNat_eq e)
  unfold readWord
  dsimp only
  rw [readByte_writeWord_of_ne h _ _ _ _ (by omega), readByte_writeWord_of_ne h _ _ _ _ (by omega),
    readByte_writeWord_of_ne h _ _ _ _ (by omega), readByte_writeWord_of_ne h _ _ _ _ (by omega)]

end Memory

end Sys2Proof.Machine
end

