-- ==== Sys2Proof/Laws/Path.lean ====
section
/-! SUPPORT. PU: an access that no hold case meets arrives at once, a word of the command window is decoded as that word, and
what each row can do to memory. -/

set_option Elab.async false

namespace Sys2Proof.Machine

/-! ### Arrival -/

/-- The window decode looks at the straps and the layout of PU, and at the rings. -/
theorem placeOf_congr {p q : PathUnit} (h1 : p.strap = q.strap) (h2 : p.layoutDefined = q.layoutDefined)
    (h3 : p.resultsBase = q.resultsBase) (h4 : p.archiveBase = q.archiveBase) (sf : StreamFramer) (w : WordAddr) :
    placeOf p sf w = placeOf q sf w := by
  unfold placeOf
  rw [h1, h2, h3, h4]

theorem postFullHolds_congr {s t : State} (h : t.pu.queue = s.pu.queue) : postFullHolds t = postFullHolds s := by
  unfold postFullHolds
  rw [h]

theorem taskWaitHolds_congr {s t : State} (h : t.pu.taskRead = s.pu.taskRead) (k : t.localTime = s.localTime) :
    taskWaitHolds t = taskWaitHolds s := by
  unfold taskWaitHolds
  have e : promoted t = promoted s := by
    funext x
    unfold promoted
    rw [k]
  rw [h, e]

theorem recordReadHolds_setAccess (o : Option Outstanding) (s : State) (a : Access) :
    recordReadHolds (setAccess o s) a = recordReadHolds s a := by
  cases a with
  | write w be d => rfl
  | read w be =>
    have e : placeOf (setAccess o s).pu (setAccess o s).sf w = placeOf s.pu s.sf w :=
      placeOf_congr rfl rfl rfl rfl s.sf w
    have q : (setAccess o s).pu.queue = s.pu.queue := rfl
    unfold recordReadHolds
    dsimp only
    rw [e, q]

/-- The hold cases of an access do not look at which access is outstanding. -/
theorem isHeld_setAccess (o : Option Outstanding) (s : State) (a : Access) :
    isHeld (setAccess o s) a = isHeld s a := by
  have h1 : postFullHolds (setAccess o s) = postFullHolds s := postFullHolds_congr rfl
  have h3 : taskWaitHolds (setAccess o s) = taskWaitHolds s := taskWaitHolds_congr rfl rfl
  unfold isHeld
  rw [h1, recordReadHolds_setAccess, h3]

theorem holdsNow_clear {s : State} {a : Access} (h : isHeld s a = false) : holdsNow s a = HoldMarks.none := by
  unfold isHeld at h
  simp only [Bool.or_eq_false_iff] at h
  simp only [holdsNow, h.1.1, h.1.2, h.2, HoldMarks.none]

/-- An access arrives as it is presented exactly when no hold case is reported for it (R1). -/
theorem isHeld_iff (s : State) (a : Access) : isHeld s a = true ↔ holdsNow s a ≠ HoldMarks.none := by
  unfold isHeld holdsNow HoldMarks.none
  cases postFullHolds s <;> cases recordReadHolds s a <;> cases taskWaitHolds s <;> simp

/-- An access that has arrived is no longer tested. -/
theorem reportHolds_of_arrived {s : State} {o : Outstanding} (a : s.pu.access = some o) (b : o.arrived = true) :
    reportHolds s = s := by
  unfold reportHolds
  rw [a]
  simp only [b, if_true]

/-- The holds are tested on an access that waits; else a test does nothing. -/
theorem reportHolds_cases (s : State) : reportHolds s = s ∨
    ∃ x, s.pu.access = some x ∧ x.arrived = false ∧ reportHolds s = noteHolds x s := by
  unfold reportHolds
  cases h : s.pu.access with
  | none => exact .inl rfl
  | some x =>
    cases ar : x.arrived with
    | true => exact .inl (by simp [ar])
    | false => exact .inr ⟨x, rfl, ar, by simp [ar]⟩

theorem setAccess_none {s : State} (h : s.pu.access = none) (o : Option Outstanding) :
    setAccess none (setAccess o s) = s := by
  simp only [setAccess, State.withPu]
  rw [← h]

/-- An access that has arrived is no longer tested, and its row completes it (R1, R13). -/
theorem tryAccess_of_arrived {s : State} {o : Outstanding} (k : State → State) (h : s.inReset = false)
    (a : s.pu.access = some o) (b : o.arrived = true) : tryAccess k s = k (setAccess none s) := by
  unfold tryAccess
  simp only [h, reportHolds_of_arrived a b, accessHeld, a, b, Bool.false_eq_true, if_false, Option.map_some,
    Option.getD_some, Bool.not_true, Bool.false_and]

/-- An access that no hold case meets arrives as soon as it is presented (R1). -/
theorem arrive_of_clear {s : State} {a : Access} (k : State → State) (h : arrivesAtOnce s a) : arrive a k s = k s := by
  obtain ⟨h1, h2, h3⟩ := h
  have e : startAccess a s = outstanding a true s := by
    unfold startAccess meetHolds
    simp only [h1, h3, Bool.false_eq_true, if_false, Bool.not_false]
    exact reportHolds_of_arrived (s := outstanding a true s) rfl rfl
  unfold arrive
  rw [h2]
  dsimp only
  rw [e, tryAccess_of_arrived (s := outstanding a true s) k h1 rfl rfl]
  exact congrArg k (setAccess_none h2 _)

theorem writesFreely.arrives {s : State} (h : writesFreely s) (w : WordAddr) (be : Enables) (d : Word) :
    arrivesAtOnce s (.write w be d) := by
  obtain ⟨h1, h2, h3, h4⟩ := h
  refine ⟨h1, h2, ?_⟩
  simp [isHeld, h3, h4, recordReadHolds]

/-- A write that no hold case meets (R1). -/
theorem busWrite_of_clear {s : State} (h : writesFreely s) (w : WordAddr) (be : Enables) (d : Word) :
    busWrite w be d s = writeArrives w be d s := arrive_of_clear _ (h.arrives w be d)

/-! ### The command window -/

/-- The first byte of the command window: n × 100000H + 0FFFC0H (R4). -/
theorem commandWindow_first (strap : BitVec 4) : (commandWindow strap).first = strap.toNat * 0x100000 + 0xFFFC0 := by
  show (strap ++ (0xFFFC0 : BitVec 20)).toNat = _
  rw [BitVec.toNat_append, ← Nat.shiftLeft_add_eq_or_of_lt (by decide), Nat.shiftLeft_eq]
  rfl

theorem byteAddr_commandWord (strap : BitVec 4) {n : Nat} (h : n < 16) :
    byteAddr (commandWordAddr strap n) = (commandWindow strap).first + 4 * n := by
  have := strap.isLt
  unfold byteAddr commandWordAddr
  rw [commandWindow_first]
  simp only [BitVec.toNat_ofNat]
  omega

/-- Word n of the command window is decoded as that word (R3, R4). -/
theorem placeOf_commandWord (pu : PathUnit) (sf : StreamFramer) {n : Nat} (h : n < 16) :
    placeOf pu sf (commandWordAddr pu.strap n) = .command n := by
  unfold placeOf
  rw [byteAddr_commandWord pu.strap h]
  have e : (commandWindow pu.strap).holds ((commandWindow pu.strap).first + 4 * n) = true := by
    simp only [Window.holds, Bool.and_eq_true, decide_eq_true_eq]
    refine ⟨by omega, ?_⟩
    show _ < (commandWindow pu.strap).first + 64
    omega
  simp only [e, if_true]
  congr 1
  omega

/-- A full-word write of the command window is performed and copied to CD (R3, R4). -/
theorem windowWrite_of_clear {s : State} (h : writesFreely s) {n : Nat} (hn : n < 16) (d : Word) :
    windowWrite n d s =
      cdWrite n fullEnables d (s.withMem (s.mem.writeWord (commandWordAddr s.pu.strap n) fullEnables d)) := by
  unfold windowWrite
  rw [busWrite_of_clear h]
  unfold writeArrives
  rw [placeOf_commandWord _ _ hn]
  rfl

theorem command_ofCode (c : Command) : Command.ofCode c.code = some c := by
  cases c <;> rfl

theorem framesCommand_iff (c : Command) (s : State) : framesCommand c s = true ↔
    s.cd.state = .collecting ∧ checkOne s.cd (closingOf s.cd.opening) = true ∧ codeOf s.cd.opening = c.code := by
  simp [framesCommand, and_assoc]

/-- The row of a command whose frame passes every check: the closing write is performed and the command is taken (R26). -/
theorem commandRow_taken {c : Command} {s : State} (p : Pins) (h : writesFreely s) (t : taken c s) :
    commandRow c p s = takeCommand c (closed (s.withPins p)) := by
  obtain ⟨hf, hg⟩ := t
  obtain ⟨f1, f2, f3⟩ := (framesCommand_iff c s).mp hf
  unfold commandRow
  rw [if_pos hf, windowWrite_of_clear (s := s.withPins p) h (by omega)]
  show closingWrite (closingOf s.cd.opening) (closed (s.withPins p)) = _
  unfold closingWrite
  have e1 : (closed (s.withPins p)).cd = s.cd := rfl
  rw [e1, f1]
  dsimp only
  rw [f2, f3, command_ofCode]
  show closeCommand c (closed (s.withPins p)) = _
  unfold closeCommand
  have e2 : gate c (closed (s.withPins p)) = gate c s := rfl
  rw [e2, hg]

/-! ### Memory -/

/-- Every effect of an arriving write on memory is the write itself, and a dropped write has none (R2, R8). -/
theorem writeArrives_mem (w : WordAddr) (be : Enables) (d : Word) (s : State) :
    (writeArrives w be d s).mem =
      if (protection s.tu (placeOf s.pu s.sf w)).isSome then s.mem else s.mem.writeWord w be d := by
  unfold writeArrives
  split
  · next k hk =>
    simp only [hk, Option.isSome_some, if_true]
    exact ((noteDrop_within k _ s).widen.trans (report_within {} s _)).mem rfl
  · next hk =>
    simp only [hk, Option.isSome_none, Bool.false_eq_true, if_false]
    exact (copyWrite_keeps _ be d _).mem

theorem setAccess_within (o : Option Outstanding) (s : State) :
    Within { ru := true, access := true } s (setAccess o s) := by
  constructor <;> simp [setAccess]

theorem noteHolds_within (o : Outstanding) (s : State) :
    Within { ru := true, access := true } s (noteHolds o s) :=
  (((countIf_within _ _ s).trans (countIf_within _ _ _)).trans (countIf_within _ _ _)).widen.trans (setAccess_within _ _)

theorem reportHolds_within (s : State) : Within { ru := true, access := true } s (reportHolds s) := by
  unfold reportHolds
  split
  · exact Within.refl _ s
  · exact Within.ite (Within.refl _ s) (noteHolds_within _ s)

theorem startAccess_within (a : Access) (s : State) : Within { ru := true, access := true } s (startAccess a s) :=
  Within.ite (setAccess_within _ s) ((setAccess_within _ s).trans (reportHolds_within _))

/-- What an access does to memory when it may be held: nothing while it waits. -/
theorem arrive_mem (a : Access) (k : State → State) (s : State) (P : Memory → Prop) (h : P s.mem)
    (hk : ∀ t : State, t.mem = s.mem → P (k t).mem) : P (arrive a k s).mem := by
  have try_ (t : State) (e : t.mem = s.mem) : P (tryAccess k t).mem := by
    unfold tryAccess
    split
    · rw [e]; exact h
    · dsimp only
      have m : (reportHolds t).mem = s.mem := ((reportHolds_within t).mem rfl).trans e
      split
      · rw [m]; exact h
      · exact hk _ m
  unfold arrive
  split
  · exact try_ _ ((startAccess_within a s).mem rfl)
  · split
    · exact try_ s rfl
    · exact h

/-- An upstream write keeps the canonical form. -/
theorem busWrite_wf {s : State} (h : s.mem.wf = true) (w : WordAddr) (be : Enables) (d : Word) :
    (busWrite w be d s).mem.wf = true := by
  refine arrive_mem _ _ s (fun m => m.wf = true) h ?_
  intro t e
  rw [writeArrives_mem, e]
  split
  · exact h
  · exact Memory.wf_writeWord h w be d

/-- An upstream read changes no memory. -/
theorem busRead_mem (w : WordAddr) (be : Enables) (s : State) : (busRead w be s).mem = s.mem :=
  arrive_mem _ _ s (fun m => m = s.mem) rfl (fun _ e => e)

theorem recordCompletes_within (id : RecordId) (before s : State) : Within .task s (recordCompletes id before s) := by
  cases id with
  | slot n k => exact Within.ite ((imageComplete_within n s).trans (reportTask_within _ _ _ _)) (Within.refl _ s)
  | status => exact Within.refl _ s
  | counter => exact Within.refl _ s
  | directory => exact Within.refl _ s
  | verdict c => exact Within.refl _ s
  | trace h => exact Within.refl _ s
  | log e => exact Within.refl _ s

/-- Performing a queued word changes memory by that one full-word write (R12). -/
theorem performWord_mem {s : State} {a : WordAddr} {d : Word} (h : headWord s.pu.queue = some (a, d)) :
    (performWord s).mem = s.mem.writeWord a fullEnables d := by
  unfold performWord
  cases hq : s.pu.queue with
  | nil => simp [hq, headWord] at h
  | cons r rest =>
    cases hw : r.words with
    | nil => simp [hq, headWord, hw] at h
    | cons e ds =>
      simp only [hq, headWord, hw, List.head?_cons, Option.map_some, Option.some.injEq, Prod.mk.injEq] at h
      obtain ⟨rfl, rfl⟩ := h
      simp only [hw]
      split
      · rw [(recordCompletes_within _ _ _).mem rfl]
        rfl
      · rfl

/-- With no head word there is nothing to perform. -/
theorem performWord_mem_none {s : State} (h : headWord s.pu.queue = none) : (performWord s).mem = s.mem := by
  unfold performWord
  cases hq : s.pu.queue with
  | nil => rfl
  | cons r rest =>
    cases hw : r.words with
    | nil => simp only [hw]; rfl
    | cons e ds => simp [hq, headWord, hw] at h

/-- A task read changes no memory (R14). -/
theorem serveRead_mem (t : TaskRead) (s : State) : (serveRead t s).mem = s.mem := by
  unfold serveRead
  dsimp only
  rw [(reportTask_within _ _ _ _).mem rfl, (taskData_within _ _).mem rfl]
  rfl

/-! ### The window decode as one chain -/

theorem Window.holds_iff (v : Window) (a : Nat) : v.holds a = true ↔ v.first ≤ a ∧ a < v.first + v.size := by
  simp [Window.holds]

/-- The window decode as one chain of tests. -/
theorem placeOf_chain (pu : PathUnit) (sf : StreamFramer) (w : WordAddr) :
    placeOf pu sf w =
      if (commandWindow pu.strap).holds (4 * w.toNat) = true then
        .command ((4 * w.toNat - (commandWindow pu.strap).first) / 4)
      else if pu.layoutDefined = true ∧ (resultsWindow pu.resultsBase.toNat).holds (4 * w.toNat) = true then
        .results ((4 * w.toNat - pu.resultsBase.toNat) / 4)
      else if pu.layoutDefined = true ∧ (archiveWindow pu.archiveBase.toNat).holds (4 * w.toNat) = true then
        .slot (Fin.ofNat 12 ((4 * w.toNat - pu.archiveBase.toNat) / 0x400))
          ((4 * w.toNat - pu.archiveBase.toNat) % 0x400 / 4)
      else ((allChannels.find? (ringHolds sf (4 * w.toNat))).map fun r =>
        Place.ring r ((4 * w.toNat - sf.rings[r].base.toNat) / 4)).getD .other := by
  unfold placeOf byteAddr
  simp only [Bool.and_eq_true]
  cases h : List.find? (ringHolds sf (4 * w.toNat)) allChannels <;> rfl

theorem placeOf_command_iff (pu : PathUnit) (sf : StreamFramer) (w : WordAddr) :
    (∃ k, placeOf pu sf w = .command k) ↔ (commandWindow pu.strap).holds (4 * w.toNat) = true := by
  rw [placeOf_chain]
  constructor
  · rintro ⟨k, hk⟩
    by_contra hh
    rw [if_neg hh] at hk
    split_ifs at hk
    cases h : List.find? (ringHolds sf (4 * w.toNat)) allChannels <;> rw [h] at hk <;> cases hk
  · exact fun h => ⟨_, if_pos h⟩

/-- Outside the two areas nothing is protected. -/
theorem protection_outside {tu : TaskUnit} {pu : PathUnit} {sf : StreamFramer} {w : WordAddr}
    (h : ¬ (pu.layoutDefined = true ∧ (resultsWindow pu.resultsBase.toNat).holds (4 * w.toNat) = true))
    (k : ¬ (pu.layoutDefined = true ∧ (archiveWindow pu.archiveBase.toNat).holds (4 * w.toNat) = true)) :
    protection tu (placeOf pu sf w) = none := by
  rw [placeOf_chain, if_neg h, if_neg k]
  split_ifs
  · rfl
  · cases e : List.find? (ringHolds sf (4 * w.toNat)) allChannels <;> rfl

/-- The row of a write that arrives at once. -/
theorem upstreamWrite_arrives {s : State} (h : writesFreely s) (w : WordAddr) (be : Enables) (d : Word) :
    exec (.upstreamWrite w be d) s = .next (writeArrives w be d s) := by
  simp only [exec, execUpstreamWrite]
  rw [busWrite_of_clear h]

end Sys2Proof.Machine
end

