-- ==== Sys2Proof/Laws/Report.lean ====
section
/-! SUPPORT. What a round of reports leaves in RU and in the post queue: which RU items it keeps, and that the post queue
never holds more than its size. -/

set_option Elab.async false

namespace Sys2Proof.Machine

theorem PostKeeps.refl (s : State) : PostKeeps s s := by
  constructor <;> first | rfl | exact Or.inl rfl

theorem or_or_self (a b : Byte) : a ||| b ||| b = a ||| b := by
  rw [BitVec.or_assoc, BitVec.or_self]

theorem PostKeeps.trans {s t u : State} (h : PostKeeps s t) (k : PostKeeps t u) : PostKeeps s u where
  seqErr := k.seqErr.trans h.seqErr
  paramAdj := k.paramAdj.trans h.paramAdj
  protect := k.protect.trans h.protect
  taskFail := k.taskFail.trans h.taskFail
  firstDrop := k.firstDrop.trans h.firstDrop
  enables := k.enables.trans h.enables
  masterEnable := k.masterEnable.trans h.masterEnable
  lastCode := k.lastCode.trans h.lastCode
  lastOutcome := k.lastOutcome.trans h.lastOutcome
  lastTask := k.lastTask.trans h.lastTask
  lastResult := k.lastResult.trans h.lastResult
  traceInterval := k.traceInterval.trans h.traceInterval
  countdown := k.countdown.trans h.countdown
  logMask := k.logMask.trans h.logMask
  alarmMode := k.alarmMode.trans h.alarmMode
  verdictWords := k.verdictWords.trans h.verdictWords
  traceWords := k.traceWords.trans h.traceWords
  causes := by
    rcases h.causes with e | e <;> rcases k.causes with f | f <;> rw [e] at f
    · exact Or.inl f
    · exact Or.inr f
    · exact Or.inr f
    · exact Or.inr (f.trans (or_or_self _ _))

theorem PostKeeps.of_ru {s t : State} (h : t.ru = s.ru) : PostKeeps s t := by
  constructor <;> first | exact Or.inl (by rw [h]) | rw [h]

theorem PostKeeps.foldl {α : Type} (f : State → α → State) (h : ∀ s a, PostKeeps s (f s a)) (l : List α) :
    ∀ s, PostKeeps s (l.foldl f s) := by
  induction l with
  | nil => exact PostKeeps.refl
  | cons a l ih => exact fun s => (h s a).trans (ih (f s a))

theorem CountersKept.trans {s t u : State} (h : CountersKept s t) (k : CountersKept t u) : CountersKept s u :=
  ⟨k.1.trans h.1, k.2.trans h.2⟩

theorem CountersKept.foldl {α : Type} (f : State → α → State) (h : ∀ s a, CountersKept s (f s a)) (l : List α) :
    ∀ s, CountersKept s (l.foldl f s) := by
  induction l with
  | nil => exact fun _ => ⟨rfl, rfl⟩
  | cons a l ih => exact fun s => (h s a).trans (ih (f s a))

/-- The post queue holds at most its 32 words. -/
def PostFits (s : State) : Prop := queueLength s.pu.queue ≤ Config.postCapacity

/-! ### The post queue -/

theorem enqueue_ru {id : RecordId} {ws : List Word} {s t : State} (h : enqueue id ws s = some t) : t.ru = s.ru := by
  unfold enqueue at h
  split at h
  · cases h; rfl
  · cases h

theorem queueLength_append (p q : List QueuedRecord) : queueLength (p ++ q) = queueLength p + queueLength q := by
  simp [queueLength]

theorem enqueue_fits {id : RecordId} {ws : List Word} {s t : State} (h : enqueue id ws s = some t) : PostFits t := by
  unfold enqueue at h
  split at h
  · next a =>
    cases h
    simp only [accepts, Bool.and_eq_true, decide_eq_true_eq] at a
    unfold PostFits
    rw [State.withPu_pu]
    dsimp only
    rw [queueLength_append]
    show queueLength s.pu.queue + (ws.length + 0) ≤ _
    omega
  · cases h

theorem replaceWords_length (id : RecordId) (ws : List Word) (r : QueuedRecord) :
    (r.replaceWords id ws).words.length = r.words.length := by
  unfold QueuedRecord.replaceWords
  split
  · simp only [List.length_take, List.length_append, List.length_drop]; omega
  · rfl

/-- A replacement does not change the queue's size (R11). -/
theorem replaceQueued_length (id : RecordId) (ws : List Word) (s : State) :
    queueLength (replaceQueued id ws s).pu.queue = queueLength s.pu.queue := by
  unfold replaceQueued queueLength
  rw [State.withPu_pu]
  dsimp only
  rw [List.map_map]
  congr 1
  apply List.map_congr_left
  intro r _
  exact replaceWords_length id ws r

/-! ### RU -/

theorem markDirty_keeps (id : RecordId) (b : Bool) (s : State) : PostKeeps s (markDirty id b s) := by
  constructor <;> first | rfl | exact Or.inl rfl

theorem countOccurrence_keeps (o : Occurrence) (s : State) : PostKeeps s (countOccurrence o s) := by
  constructor <;> first | rfl | exact Or.inl rfl

theorem enqueueRecord_facts {id : RecordId} {s t : State} (h : enqueueRecord id s = some t) :
    PostKeeps s t ∧ CountersKept s t ∧ PostFits t := by
  unfold enqueueRecord at h
  obtain ⟨u, hu, rfl⟩ := Option.map_eq_some_iff.mp h
  have e := enqueue_ru hu
  have fits : PostFits u := enqueue_fits hu
  refine ⟨(PostKeeps.of_ru (t := u.takeFree) e).trans (markDirty_keeps id false u.takeFree), ?_, fits⟩
  unfold CountersKept
  rw [← e]
  exact ⟨rfl, rfl⟩

theorem offer_facts (id : RecordId) (s : State) :
    PostKeeps s (offer id s) ∧ CountersKept s (offer id s) ∧ (PostFits s → PostFits (offer id s)) := by
  unfold offer
  split
  · refine ⟨PostKeeps.of_ru rfl, ⟨rfl, rfl⟩, fun h => ?_⟩
    unfold PostFits
    rw [State.takeFree_pu, replaceQueued_length]
    exact h
  all_goals
    cases h : enqueueRecord id s with
    | none => exact ⟨markDirty_keeps id true s, ⟨rfl, rfl⟩, fun k => k⟩
    | some t => exact ⟨(enqueueRecord_facts h).1, (enqueueRecord_facts h).2.1, fun _ => (enqueueRecord_facts h).2.2⟩

theorem offerIf_facts (b : Bool) (id : RecordId) (s : State) :
    PostKeeps s (offerIf b id s) ∧ CountersKept s (offerIf b id s) ∧ (PostFits s → PostFits (offerIf b id s)) := by
  unfold offerIf
  split
  · exact offer_facts id s
  · exact ⟨PostKeeps.refl s, ⟨rfl, rfl⟩, fun h => h⟩

theorem raiseTrace_facts (s : State) :
    PostKeeps s (raiseTrace s) ∧ CountersKept s (raiseTrace s) ∧ (PostFits s → PostFits (raiseTrace s)) := by
  unfold raiseTrace
  split
  · have k : PostKeeps s (raiseCause .trace (s.withRu { s.ru with traceAwait := false })) := by
      constructor <;> first | rfl | exact Or.inr rfl
    dsimp only
    split
    · have o := offer_facts .status (raiseCause .trace (s.withRu { s.ru with traceAwait := false }))
      exact ⟨k.trans o.1, o.2.1, fun h => o.2.2 h⟩
    · exact ⟨k, ⟨rfl, rfl⟩, fun h => h⟩
  · exact ⟨PostKeeps.refl s, ⟨rfl, rfl⟩, fun h => h⟩

theorem offerLog_facts (ws : List Word) (s : State) :
    PostKeeps s (offerLog ws s) ∧ (PostFits s → PostFits (offerLog ws s)) := by
  unfold offerLog
  split
  · next t h =>
    refine ⟨(PostKeeps.of_ru (enqueue_ru h)).trans ((countOccurrence_keeps .logWritten t).trans ?_), fun _ => ?_⟩
    · constructor <;> first | rfl | exact Or.inl rfl
    · have fits : PostFits t := enqueue_fits h
      exact fits
  · exact ⟨countOccurrence_keeps _ s, fun h => h⟩

/-- A round of reports: the RU items it keeps, the counters when it has no log entry, and the queue within its size. -/
theorem report_facts (p : Posting) (before after : State) :
    PostKeeps after (report p before after) ∧ (p.log = none → CountersKept after (report p before after)) ∧
      (PostFits after → PostFits (report p before after)) := by
  unfold report
  have start : PostKeeps after (match p.log with | some ws => offerLog ws after | none => after) ∧
      (p.log = none → CountersKept after (match p.log with | some ws => offerLog ws after | none => after)) ∧
      (PostFits after → PostFits (match p.log with | some ws => offerLog ws after | none => after)) := by
    cases p.log with
    | none => exact ⟨PostKeeps.refl _, fun _ => ⟨rfl, rfl⟩, fun h => h⟩
    | some ws => exact ⟨(offerLog_facts ws after).1, fun h => by simp at h, (offerLog_facts ws after).2⟩
  have go {f : State → State} (hf : ∀ s, PostKeeps s (f s) ∧ CountersKept s (f s) ∧ (PostFits s → PostFits (f s)))
      {s : State} (h : PostKeeps after s ∧ (p.log = none → CountersKept after s) ∧ (PostFits after → PostFits s)) :
      PostKeeps after (f s) ∧ (p.log = none → CountersKept after (f s)) ∧ (PostFits after → PostFits (f s)) :=
    ⟨h.1.trans (hf s).1, fun e => (h.2.1 e).trans (hf s).2.1, fun e => (hf s).2.2 (h.2.2 e)⟩
  refine go raiseTrace_facts ?_
  refine go (offerIf_facts _ _) (go (offerIf_facts _ _) ?_)
  refine go (f := fun s => p.verdicts.foldl (fun t c => offer (.verdict c) t) s) ?_ ?_
  · intro s
    refine ⟨PostKeeps.foldl _ (fun t c => (offer_facts _ t).1) _ s,
      CountersKept.foldl _ (fun t c => (offer_facts _ t).2.1) _ s, ?_⟩
    revert s
    induction p.verdicts with
    | nil => exact fun _ h => h
    | cons c l ih => exact fun s h => ih (offer (.verdict c) s) ((offer_facts _ s).2.2 h)
  · exact go (offerIf_facts _ _) (go (offerIf_facts _ _) (go (offerIf_facts _ _) start))

theorem postDirtyList_facts (ids : List RecordId) : ∀ s, PostKeeps s (postDirtyList ids s) ∧
    CountersKept s (postDirtyList ids s) ∧ (PostFits s → PostFits (postDirtyList ids s)) := by
  induction ids with
  | nil => exact fun s => ⟨PostKeeps.refl s, ⟨rfl, rfl⟩, fun h => h⟩
  | cons id ids ih =>
    intro s
    unfold postDirtyList
    split
    · split
      · next t h =>
        have f := enqueueRecord_facts h
        exact ⟨f.1.trans (ih t).1, f.2.1.trans (ih t).2.1, fun _ => (ih t).2.2 f.2.2⟩
      · exact ⟨PostKeeps.refl s, ⟨rfl, rfl⟩, fun h => h⟩
    · exact ih s

theorem postDirty_facts (s : State) :
    PostKeeps s (postDirty s) ∧ CountersKept s (postDirty s) ∧ (PostFits s → PostFits (postDirty s)) := by
  have l := postDirtyList_facts replaceableIds s
  have r := raiseTrace_facts (postDirtyList replaceableIds s)
  exact ⟨l.1.trans r.1, l.2.1.trans r.2.1, fun h => r.2.2 (l.2.2 h)⟩

/-! ### The records that stand in the post queue -/

theorem QueueKept.of_queue {s t : State} (h : t.pu.queue = s.pu.queue) : QueueKept s t :=
  ⟨⟨[], by simp [h]⟩, fun i r e _ => by rw [h]; exact e⟩

theorem QueueKept.refl (s : State) : QueueKept s s := QueueKept.of_queue rfl

/-- A record whose words stay keeps its place, so it stays as it is through two changes. -/
theorem QueueKept.trans {s t u : State} (h : QueueKept s t) (k : QueueKept t u) : QueueKept s u := by
  refine ⟨?_, fun i r e p => k.words i r (h.words i r e p) p⟩
  obtain ⟨a, ha⟩ := h.places
  obtain ⟨b, hb⟩ := k.places
  exact ⟨a ++ b, by rw [hb, ha, List.append_assoc]⟩

theorem QueueKept.foldl {α : Type} (f : State → α → State) (h : ∀ s a, QueueKept s (f s a)) (l : List α) :
    ∀ s, QueueKept s (l.foldl f s) := by
  induction l with
  | nil => exact QueueKept.refl
  | cons a l ih => exact fun s => (h s a).trans (ih (f s a))

theorem replaceWords_place (id : RecordId) (ws : List Word) (r : QueuedRecord) :
    (r.replaceWords id ws).place = r.place := by
  have l := replaceWords_length id ws r
  unfold QueuedRecord.place
  rw [l]
  unfold QueuedRecord.replaceWords
  split <;> rfl

theorem replaceWords_other {id : RecordId} (hid : id.replaceable = true) (ws : List Word) {r : QueuedRecord}
    (h : r.begun = true ∨ r.id.replaceable = false) : r.replaceWords id ws = r := by
  unfold QueuedRecord.replaceWords QueuedRecord.isCopy
  rw [if_neg]
  intro e
  simp only [Bool.and_eq_true, decide_eq_true_eq, Bool.not_eq_true'] at e
  rcases h with h | h
  · rw [e.2] at h; cases h
  · rw [e.1, hid] at h; cases h

theorem replaceQueued_kept {id : RecordId} (hid : id.replaceable = true) (ws : List Word) (s : State) :
    QueueKept s (replaceQueued id ws s) := by
  have q : (replaceQueued id ws s).pu.queue = s.pu.queue.map (QueuedRecord.replaceWords id ws) := rfl
  refine ⟨⟨[], ?_⟩, fun i r e p => ?_⟩
  · rw [q, List.append_nil, List.map_map]
    exact List.map_congr_left fun r _ => replaceWords_place id ws r
  · rw [q, List.getElem?_map, e]
    exact congrArg some (replaceWords_other hid ws p)

theorem enqueue_queue {id : RecordId} {ws : List Word} {s t : State} (h : enqueue id ws s = some t) :
    t.pu.queue = s.pu.queue ++ [{ id := id, addr := recordAddr s.pu id, words := ws, begun := false }] := by
  unfold enqueue at h
  split at h
  · cases h; rfl
  · cases h

theorem QueueKept.of_append {s t : State} {l : List QueuedRecord} (h : t.pu.queue = s.pu.queue ++ l) : QueueKept s t := by
  refine ⟨⟨l.map QueuedRecord.place, by rw [h, List.map_append]⟩, fun i r e _ => ?_⟩
  rw [h, List.getElem?_append_left (List.getElem?_eq_some_iff.mp e).1]
  exact e

theorem enqueue_kept {id : RecordId} {ws : List Word} {s t : State} (h : enqueue id ws s = some t) : QueueKept s t :=
  QueueKept.of_append (enqueue_queue h)

theorem enqueueRecord_kept {id : RecordId} {s t : State} (h : enqueueRecord id s = some t) : QueueKept s t := by
  unfold enqueueRecord at h
  obtain ⟨u, hu, rfl⟩ := Option.map_eq_some_iff.mp h
  exact (enqueue_kept hu).trans (QueueKept.of_queue rfl)

theorem offer_kept {id : RecordId} (hid : id.replaceable = true) (s : State) : QueueKept s (offer id s) := by
  unfold offer
  split
  · exact (replaceQueued_kept hid _ s).trans (QueueKept.of_queue rfl)
  all_goals
    cases h : enqueueRecord id s with
    | none => exact QueueKept.of_queue rfl
    | some t => exact enqueueRecord_kept h

theorem offerIf_kept (b : Bool) {id : RecordId} (hid : id.replaceable = true) (s : State) :
    QueueKept s (offerIf b id s) := by
  unfold offerIf
  split
  · exact offer_kept hid s
  · exact QueueKept.refl s

theorem raiseTrace_kept (s : State) : QueueKept s (raiseTrace s) := by
  unfold raiseTrace
  split
  · have q := ((withRu_within s { s.ru with traceAwait := false }).trans (raiseCause_within .trace _)).queue rfl
    dsimp only
    split
    · exact (QueueKept.of_queue q).trans (offer_kept rfl _)
    · exact QueueKept.of_queue q
  · exact QueueKept.refl s

theorem offerLog_kept (ws : List Word) (s : State) : QueueKept s (offerLog ws s) := by
  unfold offerLog
  split
  · next h => exact (enqueue_kept h).trans (QueueKept.of_queue rfl)
  · exact QueueKept.of_queue rfl

theorem report_kept (p : Posting) (before after : State) : QueueKept after (report p before after) := by
  unfold report
  refine QueueKept.trans ?_ (raiseTrace_kept _)
  refine QueueKept.trans ?_ ((offerIf_kept _ rfl _).trans (offerIf_kept _ rfl _))
  refine QueueKept.trans ?_ (QueueKept.foldl _ (fun t c => offer_kept rfl t) p.verdicts _)
  refine QueueKept.trans ?_ (offerIf_kept _ rfl _)
  refine QueueKept.trans ?_ (offerIf_kept _ rfl _)
  refine QueueKept.trans ?_ (offerIf_kept _ rfl _)
  cases p.log with
  | none => exact QueueKept.refl _
  | some ws => exact offerLog_kept ws after

theorem postDirtyList_kept (ids : List RecordId) : ∀ s, QueueKept s (postDirtyList ids s) := by
  induction ids with
  | nil => exact QueueKept.refl
  | cons id ids ih =>
    intro s
    unfold postDirtyList
    split
    · split
      · next h => exact (enqueueRecord_kept h).trans (ih _)
      · exact QueueKept.refl s
    · exact ih s

/-! ### What a step leaves when it posts -/

/-- A round of reports without a log entry. -/
theorem report_posted (p : Posting) (before after : State) (h : p.log = none) :
    PostedFrom after (report p before after) :=
  ⟨report_within p before after, (report_facts p before after).1, (report_facts p before after).2.1 h,
    report_kept p before after⟩

/-- RU goes through its dirty records. -/
theorem postDirty_posted (s : State) : PostedFrom s (postDirty s) :=
  ⟨postDirty_within s, (postDirty_facts s).1, (postDirty_facts s).2.1,
    (postDirtyList_kept replaceableIds s).trans (raiseTrace_kept _)⟩

end Sys2Proof.Machine
end

