-- ==== Sys2Proof/Laws/Events.lean ====
section
/-! SUPPORT. What an event, a close and a covered-to time leave of RU, and the commands that only post: the lemmas that say a
row leaves the part as its rule gives it but for what RU has posted, or for events that have formed. -/

set_option Elab.async false

namespace Sys2Proof.Machine

/-! ### Events and closes keep RU's flags and settings -/

theorem EventsKeep.refl (s : State) : EventsKeep s s := by
  constructor <;> first | rfl | exact BitVec.and_self

theorem causes_trans {a b c : Byte} (h : b &&& a = a) (k : c &&& b = b) : c &&& a = a := by
  rw [← h, ← BitVec.and_assoc, k]

theorem or_and_keeps (a b : Byte) : (a ||| b) &&& a = a := by
  ext i hi
  rw [BitVec.getElem_and, BitVec.getElem_or]
  cases a[i] <;> simp

theorem EventsKeep.trans {s t u : State} (h : EventsKeep s t) (k : EventsKeep t u) : EventsKeep s u where
  seqErr := k.seqErr.trans h.seqErr
  paramAdj := k.paramAdj.trans h.paramAdj
  protect := k.protect.trans h.protect
  taskFail := k.taskFail.trans h.taskFail
  firstDrop := k.firstDrop.trans h.firstDrop
  enables := k.enables.trans h.enables
  masterEnable := k.masterEnable.trans h.masterEnable
  lastCode := k.lastCode.trans h.lastCode
  lastOutcome := k.lastOutcome.trans h.lastOutcome
  lastTask := k.lastTask.trans h.lastTask
  lastResult := k.lastResult.trans h.lastResult
  traceInterval := k.traceInterval.trans h.traceInterval
  logMask := k.logMask.trans h.logMask
  alarmMode := k.alarmMode.trans h.alarmMode
  causes := causes_trans h.causes k.causes

theorem EventsKeep.of_ru {s t : State} (h : t.ru = s.ru) : EventsKeep s t := by
  constructor <;> rw [h]
  exact BitVec.and_self

theorem EventsKeep.of_el (s : State) (x : EventLocator) : EventsKeep s (s.withEl x) := EventsKeep.of_ru rfl

theorem EventsKeep.of_eu (s : State) (x : EvidenceUnit) : EventsKeep s (s.withEu x) := EventsKeep.of_ru rfl

theorem EventsKeep.ite {s t u : State} {p : Prop} [Decidable p] (h : EventsKeep s t) (k : EventsKeep s u) :
    EventsKeep s (if p then t else u) := by
  split <;> assumption

theorem PostKeeps.events {s t : State} (h : PostKeeps s t) : EventsKeep s t where
  seqErr := h.seqErr
  paramAdj := h.paramAdj
  protect := h.protect
  taskFail := h.taskFail
  firstDrop := h.firstDrop
  enables := h.enables
  masterEnable := h.masterEnable
  lastCode := h.lastCode
  lastOutcome := h.lastOutcome
  lastTask := h.lastTask
  lastResult := h.lastResult
  traceInterval := h.traceInterval
  logMask := h.logMask
  alarmMode := h.alarmMode
  causes := by
    rcases h.causes with e | e
    · rw [e, BitVec.and_self]
    · rw [e]
      exact or_and_keeps _ _

theorem countOccurrence_events (o : Occurrence) (s : State) : EventsKeep s (countOccurrence o s) :=
  (countOccurrence_keeps o s).events

theorem raiseCause_events (c : Cause) (s : State) : EventsKeep s (raiseCause c s) := by
  constructor <;> try rfl
  exact or_and_keeps _ _

theorem countIf_events (b : Bool) (o : Occurrence) (s : State) : EventsKeep s (countIf b o s) :=
  EventsKeep.ite (countOccurrence_events o s) (EventsKeep.refl s)

theorem raiseIf_events (b : Bool) (c : Cause) (s : State) : EventsKeep s (raiseIf b c s) :=
  EventsKeep.ite (raiseCause_events c s) (EventsKeep.refl s)

theorem handVerdicts_events (cs : List (Fin 48)) (s : State) : EventsKeep s (handVerdicts cs s) := by
  unfold handVerdicts
  split
  · constructor <;> first | rfl | exact BitVec.and_self
  · exact EventsKeep.refl s

theorem report_events (p : Posting) (before after : State) : EventsKeep after (report p before after) :=
  (report_facts p before after).1.events

theorem closeEffect_events (b : Bool) (s : State) : EventsKeep s (closeEffect b s) := by
  unfold closeEffect
  split
  · exact EventsKeep.refl s
  · exact EventsKeep.of_ru rfl
  · refine EventsKeep.trans ?_ (handVerdicts_events _ _)
    refine EventsKeep.trans ?_ (raiseIf_events _ _ _)
    refine EventsKeep.trans ?_ (raiseIf_events _ _ _)
    refine EventsKeep.trans ?_ (raiseCause_events _ _)
    refine EventsKeep.trans ?_ (countIf_events _ _ _)
    refine EventsKeep.trans ?_ (countOccurrence_events _ _)
    exact EventsKeep.of_ru rfl

theorem closeOldest_events (s : State) : EventsKeep s (closeOldest s) :=
  (closeEffect_events false s).trans (report_events _ _ _)

theorem closeLoop_events (n : Nat) : ∀ s, EventsKeep s (closeLoop n s) := by
  induction n with
  | zero => exact EventsKeep.refl
  | succ n ih =>
    intro s
    unfold closeLoop
    split
    · exact (closeOldest_events s).trans (ih _)
    · exact EventsKeep.refl s

theorem testClose_events (s : State) : EventsKeep s (testClose s) := closeLoop_events _ s

theorem countTrace_events (e : EventRecord) (s : State) : EventsKeep s (countTrace e s) := by
  unfold countTrace
  split
  · exact EventsKeep.refl s
  · split <;> constructor <;> first | rfl | exact BitVec.and_self

theorem reportEvent_events (e : EventRecord) (before s : State) : EventsKeep s (reportEvent e before s) := by
  unfold reportEvent
  refine EventsKeep.trans ?_ (report_events _ _ _)
  refine EventsKeep.trans ?_ (countTrace_events _ _)
  exact (countOccurrence_events _ _).trans (countIf_events _ _ _)

theorem formEvent_events (b : Bool) (s : State) : EventsKeep s (formEvent b s) := by
  unfold formEvent
  split
  · exact EventsKeep.refl s
  · dsimp only
    split
    · exact (EventsKeep.of_el s _).trans (reportEvent_events _ _ _)
    · split
      · exact (EventsKeep.of_el s _).trans ((EventsKeep.of_eu _ _).trans (reportEvent_events _ _ _))
      · exact (EventsKeep.of_el s _).trans (reportEvent_events _ _ _)

theorem formLoop_events (n : Nat) : ∀ s, EventsKeep s (formLoop n s) := by
  induction n with
  | zero => exact EventsKeep.refl
  | succ n ih =>
    intro s
    unfold formLoop
    split
    · exact ((formEvent_events _ s).trans (testClose_events _)).trans (ih _)
    · exact EventsKeep.refl s

theorem locatorTest_events (s : State) : EventsKeep s (locatorTest s) :=
  (formLoop_events _ s).trans (testClose_events _)

/-! ### Events and closes keep the queue, and count only EVENTS, LOG and CYCLES -/

/-- What an event or a close may do to the counters and to the queue. -/
structure EventCounts (s t : State) : Prop where
  counters : ∀ n : Fin 4, s.ru.counters[n].apartFromEvents → t.ru.counters[n] = s.ru.counters[n]
  queue : QueueKept s t

theorem EventCounts.of_same {s t : State} (h : t.ru.counters = s.ru.counters) (q : t.pu.queue = s.pu.queue) :
    EventCounts s t := ⟨fun n _ => by rw [h], QueueKept.of_queue q⟩

theorem EventCounts.refl (s : State) : EventCounts s s := EventCounts.of_same rfl rfl

theorem EventCounts.trans {s t u : State} (h : EventCounts s t) (k : EventCounts t u) : EventCounts s u := by
  refine ⟨fun n a => ?_, h.queue.trans k.queue⟩
  have e := h.counters n a
  rw [k.counters n (by rw [e]; exact a), e]

theorem EventCounts.ite {s t u : State} {p : Prop} [Decidable p] (h : EventCounts s t) (k : EventCounts s u) :
    EventCounts s (if p then t else u) := by
  split <;> assumption

theorem countOccurrence_counts {o : Occurrence} (h : o.eventCode = 5 ∨ o.eventCode = 8 ∨ o.eventCode = 9) (s : State) :
    EventCounts s (countOccurrence o s) := by
  refine ⟨fun n a => ?_, QueueKept.of_queue rfl⟩
  show (s.ru.counters.map (Counter.occur o))[n] = _
  rw [Fin.getElem_fin, Vector.getElem_map, Counter.occur, if_neg]
  · rfl
  · intro e
    obtain ⟨a5, a8, a9⟩ := a
    rcases h with h | h | h <;> rw [h] at e
    · exact a5 e.1
    · exact a8 e.1
    · exact a9 e.1

theorem countIf_counts {o : Occurrence} (h : o.eventCode = 5 ∨ o.eventCode = 8 ∨ o.eventCode = 9) (b : Bool) (s : State) :
    EventCounts s (countIf b o s) := EventCounts.ite (countOccurrence_counts h s) (EventCounts.refl s)

theorem raiseCause_counts (c : Cause) (s : State) : EventCounts s (raiseCause c s) := EventCounts.of_same rfl rfl

theorem raiseIf_counts (b : Bool) (c : Cause) (s : State) : EventCounts s (raiseIf b c s) :=
  EventCounts.ite (EventCounts.of_same rfl rfl) (EventCounts.refl s)

theorem handVerdicts_counts (cs : List (Fin 48)) (s : State) : EventCounts s (handVerdicts cs s) := by
  unfold handVerdicts
  split
  · exact EventCounts.of_same rfl rfl
  · exact EventCounts.refl s

/-- A round of reports with a log entry is one without, after the entry has been offered. -/
theorem report_log {p : Posting} {ws : List Word} (h : p.log = some ws) (before after : State) :
    report p before after = report { p with log := none } before (offerLog ws after) := by
  unfold report
  rw [h]
  dsimp only
  rw [(offerLog_within ws after).tu rfl]

theorem report_counts (p : Posting) (before after : State) : EventCounts after (report p before after) := by
  have plain {q : Posting} (h : q.log = none) (b a : State) : EventCounts a (report q b a) :=
    ⟨fun n _ => by rw [((report_facts q b a).2.1 h).1], report_kept q b a⟩
  cases h : p.log with
  | none => exact plain h _ _
  | some ws =>
    rw [report_log h]
    refine EventCounts.trans ?_ (plain rfl _ _)
    unfold offerLog
    split
    · next e =>
      refine EventCounts.trans ⟨fun n _ => by rw [enqueue_ru e], enqueue_kept e⟩ ?_
      exact (countOccurrence_counts (.inr (.inl rfl)) _).trans (EventCounts.of_same rfl rfl)
    · exact countOccurrence_counts (.inr (.inl rfl)) _

theorem closeEffect_counts (b : Bool) (s : State) : EventCounts s (closeEffect b s) := by
  unfold closeEffect
  split
  · exact EventCounts.refl s
  · exact EventCounts.of_same rfl rfl
  · refine EventCounts.trans ?_ (handVerdicts_counts _ _)
    refine EventCounts.trans ?_ (raiseIf_counts _ _ _)
    refine EventCounts.trans ?_ (raiseIf_counts _ _ _)
    refine EventCounts.trans ?_ (raiseCause_counts _ _)
    refine EventCounts.trans ?_ (countIf_counts (o := .cycleForced) (.inr (.inr rfl)) _ _)
    refine EventCounts.trans ?_ (countOccurrence_counts (o := .cycleClosed) (.inr (.inr rfl)) _)
    exact EventCounts.of_same rfl rfl

theorem closeOldest_counts (s : State) : EventCounts s (closeOldest s) :=
  (closeEffect_counts false s).trans (report_counts _ _ _)

theorem closeLoop_counts (n : Nat) : ∀ s, EventCounts s (closeLoop n s) := by
  induction n with
  | zero => exact EventCounts.refl
  | succ n ih =>
    exact fun s => EventCounts.ite ((closeOldest_counts s).trans (ih _)) (EventCounts.refl s)

theorem reportEvent_counts (e : EventRecord) (before s : State) : EventCounts s (reportEvent e before s) := by
  unfold reportEvent
  refine EventCounts.trans ?_ (report_counts _ _ _)
  have c := (countOccurrence_counts (o := .event e.outcome) (.inl rfl) s).trans
    (countIf_counts (o := .eventForced) (.inl rfl) e.forced _)
  refine c.trans ?_
  unfold countTrace
  exact EventCounts.ite (EventCounts.refl _) (EventCounts.ite (EventCounts.of_same rfl rfl) (EventCounts.of_same rfl rfl))

theorem formEvent_counts (b : Bool) (s : State) : EventCounts s (formEvent b s) := by
  unfold formEvent
  split
  · exact EventCounts.refl s
  · dsimp only
    split
    · refine EventCounts.trans ?_ (reportEvent_counts _ _ _)
      exact EventCounts.of_same rfl rfl
    · split
      · refine EventCounts.trans ?_ (reportEvent_counts _ _ _)
        exact EventCounts.of_same rfl rfl
      · refine EventCounts.trans ?_ (reportEvent_counts _ _ _)
        exact EventCounts.of_same rfl rfl

theorem formLoop_counts (n : Nat) : ∀ s, EventCounts s (formLoop n s) := by
  induction n with
  | zero => exact EventCounts.refl
  | succ n ih =>
    exact fun s => EventCounts.ite (((formEvent_counts _ s).trans (closeLoop_counts _ _)).trans (ih _)) (EventCounts.refl s)

theorem locatorTest_counts (s : State) : EventCounts s (locatorTest s) :=
  (formLoop_counts _ s).trans (closeLoop_counts _ _)

/-! ### Steps that only post, and steps that also form events -/

theorem Located.refl (s : State) : Located s s :=
  ⟨Within.refl _ s, EventsKeep.refl s, fun _ _ => rfl, QueueKept.refl s⟩

theorem Located.trans {s t u : State} (h : Located s t) (k : Located t u) : Located s u :=
  have c := EventCounts.trans ⟨h.counters, h.queue⟩ ⟨k.counters, k.queue⟩
  ⟨h.within.trans k.within, h.keeps.trans k.keeps, c.counters, c.queue⟩

theorem PostedFrom.located {s t : State} (h : PostedFrom s t) : Located s t :=
  ⟨h.within.widen, h.keeps.events, fun n _ => by rw [h.counters.1], h.queue⟩

theorem PostedFrom.refl (s : State) : PostedFrom s s :=
  ⟨Within.refl _ s, PostKeeps.refl s, ⟨rfl, rfl⟩, QueueKept.refl s⟩

theorem PostedFrom.trans {s t u : State} (h : PostedFrom s t) (k : PostedFrom t u) : PostedFrom s u :=
  ⟨h.within.trans k.within, h.keeps.trans k.keeps, h.counters.trans k.counters, h.queue.trans k.queue⟩

theorem locatorTest_located (s : State) : Located s (locatorTest s) :=
  ⟨(locatorTest_within s).widen, locatorTest_events s, (locatorTest_counts s).counters, (locatorTest_counts s).queue⟩

theorem followProfile_located (b : Bool) (before after : State) : Located after (followProfile b before after) := by
  unfold followProfile
  split
  · exact locatorTest_located after
  · exact Located.refl after

/-- With the profile in use as it was, nothing follows. -/
theorem followProfile_same {before after : State} (h : profileNumberInUse before = profileNumberInUse after) :
    followProfile false before after = after := by
  unfold followProfile
  simp [h]

/-! ### Posting and the blocks it does not touch -/

/-- HX may be replaced on both sides. -/
theorem PostedFrom.withHx {s t : State} (h : PostedFrom s t) (x : HitExtractor) : PostedFrom (s.withHx x) (t.withHx x) := by
  obtain ⟨w, k, c, q⟩ := h
  exact ⟨⟨w.1, w.2, w.3, w.4, w.5, w.6, w.7, w.8, w.9, w.10, w.11, w.12, w.13, w.14, w.15, fun _ => rfl, w.17, w.18, w.19, w.20,
    w.21, w.22, w.23⟩, ⟨k.1, k.2, k.3, k.4, k.5, k.6, k.7, k.8, k.9, k.10, k.11, k.12, k.13, k.14, k.15, k.16, k.17, k.18⟩, c, ⟨q.1, q.2⟩⟩

/-- CD may be replaced on both sides. -/
theorem PostedFrom.withCd {s t : State} (h : PostedFrom s t) (x : CommandDecoder) : PostedFrom (s.withCd x) (t.withCd x) := by
  obtain ⟨w, k, c, q⟩ := h
  exact ⟨⟨w.1, w.2, w.3, w.4, w.5, w.6, fun _ => rfl, w.8, w.9, w.10, w.11, w.12, w.13, w.14, w.15, w.16, w.17, w.18, w.19, w.20,
    w.21, w.22, w.23⟩, ⟨k.1, k.2, k.3, k.4, k.5, k.6, k.7, k.8, k.9, k.10, k.11, k.12, k.13, k.14, k.15, k.16, k.17, k.18⟩, c, ⟨q.1, q.2⟩⟩

/-! ### A covered-to time is refreshed (R73) -/

/-- The channel with a covered-to time that changes, and the mark of a channel that has had one (R73; log 36). -/
def withCovered (c : Fin 8) (x : Option Time) (s : State) : State :=
  if x = (channelOf s c).coveredTo then s
  else putChannel c ((channelOf s c).cover x) s

theorem withCovered_same {c : Fin 8} {x : Option Time} {s : State} (h : (channelOf s c).coveredTo = x) :
    withCovered c x s = s := if_pos h.symm

theorem withCovered_posted {s t : State} (h : PostedFrom s t) (c : Fin 8) (x : Option Time) :
    PostedFrom (withCovered c x s) (withCovered c x t) := by
  have e : t.hx = s.hx := h.within.hx rfl
  unfold withCovered putChannel channelOf
  rw [e]
  split
  · exact h
  · exact h.withHx _

/-- The covered-to time is what R73 gives; a change of it may form events, and without a change nothing happens. -/
theorem refreshCovered_facts (c : Fin 8) (s : State) :
    Located (withCovered c (coveredTo s c) s) (refreshCovered c s) ∧
      ((channelOf s c).coveredTo = coveredTo s c → refreshCovered c s = s) := by
  constructor
  · unfold refreshCovered
    dsimp only
    split
    · next e => rw [withCovered_same e.symm]; exact Located.refl s
    · next e =>
      unfold withCovered
      rw [if_neg e]
      split
      · exact Located.refl _
      · refine Located.trans ?_ (locatorTest_located _)
        refine ⟨?_, EventsKeep.of_ru rfl, fun _ _ => rfl, QueueKept.of_queue rfl⟩
        constructor <;> simp [putChannel]
  · intro e
    unfold refreshCovered
    simp only [e, if_true]

/-! ### The row of a command that is taken -/

/-- What the end of the frame makes of the owner's answer, before anything is reported (R27, R28). -/
def answered (c : Command) (a : Answer) : State := recordOutcome c.code a.outcome (setDecoder .ready a.state)

/-- Only DEFINE LAYOUT posts in a way of its own (R6). -/
theorem answerReport_posted (c : Command) (a : Answer) (s : State) (hl : a.posting.log = none) :
    PostedFrom (answered c a) (answerReport c a s) := by
  unfold answerReport answered
  dsimp only
  split
  · exact postDirty_posted _
  · exact report_posted _ _ _ hl

/-- No owner logs an event. -/
theorem own_log (c : Command) (s : State) : (own c s).posting.log = none := by
  have base {p : Prop} [Decidable p] {a b : Answer} (h : a.posting.log = none) (k : b.posting.log = none) :
      (if p then a else b).posting.log = none := by split <;> assumption
  cases c with
  | defineLayout => exact base rfl (base rfl rfl)
  | defineRing => exact base rfl (base rfl (base rfl (base rfl (base rfl rfl))))
  | ringOn => exact base rfl (base rfl rfl)
  | ringOff => exact base rfl (base rfl (base rfl rfl))
  | resetRing => exact base rfl (base rfl rfl)
  | setFraming => exact base rfl rfl
  | load =>
    show (ownLoad s).posting.log = none
    unfold ownLoad
    split
    · rfl
    · exact base rfl (base rfl rfl)
  | lockSlot => exact base rfl (base rfl rfl)
  | clearLocks => exact base rfl rfl
  | setMasterLock => exact base rfl rfl
  | clearSlot => exact base rfl (base rfl (base rfl rfl))
  | suspendSweep =>
    show (ownSuspendSweep s).posting.log = none
    unfold ownSuspendSweep
    split <;> rfl
  | resumeSweep => exact base rfl (base rfl rfl)
  | mount => exact base rfl (base rfl rfl)
  | checkpoint => exact base rfl rfl
  | release => exact base rfl rfl
  | clearCavity =>
    show (ownClearCavity s).posting.log = none
    unfold ownClearCavity
    split
    · rfl
    · exact base rfl rfl
  | clearMould =>
    show (ownClearMould s).posting.log = none
    unfold ownClearMould
    split <;> rfl
  | setReporting => exact base rfl rfl
  | setCounter => exact base rfl rfl
  | acknowledge => exact base rfl rfl
  | resetPart => rfl
  | sweep => rfl
  | clearStatus => rfl

/-- The row of a command that is taken: what follows its report, from a state that the report has posted from. -/
theorem commandRow_answered {c : Command} {s : State} (p : Pins) (h : writesFreely s) (t : taken c s)
    (hc : c ≠ .resetPart) :
    ∃ v, PostedFrom (answered c (own c (closed (s.withPins p)))) v ∧
      commandRow c p s = followUp (own c (closed (s.withPins p))).follow (closed (s.withPins p)) v := by
  refine ⟨_, answerReport_posted c (own c (closed (s.withPins p))) (closed (s.withPins p)) (own_log _ _), ?_⟩
  rw [commandRow_taken p h t]
  unfold takeCommand
  rw [if_neg hc]

/-- The row of a command that nothing follows. -/
theorem commandRow_posted {c : Command} {s : State} (p : Pins) (h : writesFreely s) (t : taken c s)
    (hc : c ≠ .resetPart) (hf : (own c (closed (s.withPins p))).follow = .nothing) :
    PostedFrom (answered c (own c (closed (s.withPins p)))) (commandRow c p s) := by
  obtain ⟨v, hv, e⟩ := commandRow_answered p h t hc
  rw [e, hf]
  exact hv

theorem answered_of {c : Command} {o : FrameOutcome} {u : State} (ho : o ≠ .invalidSequence) (a : Answer)
    (h1 : a.outcome = o) (h2 : a.state = u) :
    answered c a = { u with
      cd := { u.cd with state := .ready, tally := u.cd.tally + 1 }
      ru := { u.ru with lastCode := c.code, lastOutcome := o.code } } := by
  subst h1 h2
  unfold answered recordOutcome
  simp only [ho, if_false]
  rfl

/-- A refused command leaves what the end of its frame leaves. -/
theorem answered_refuse (c : Command) {o : FrameOutcome} (ho : o ≠ .invalidSequence) (s : State) :
    answered c (refuse o (closed s)) = finished c o s := by
  rw [answered_of ho _ rfl rfl]
  unfold finished frameEnded windowWritten
  simp only [ho, if_false]
  rfl

/-- The state that an owner's answer becomes at the end of its frame. -/
def withOutcome (c : Command) (o : FrameOutcome) (u : State) : State :=
  { u with
    cd := { u.cd with state := .ready, tally := u.cd.tally + 1 }
    ru := { u.ru with lastCode := c.code, lastOutcome := o.code } }

/-- The row of a command that its owner refuses. -/
theorem row_refused {c : Command} {s : State} {o : FrameOutcome} (p : Pins) (h : writesFreely s) (t : taken c s)
    (e : own c (closed (s.withPins p)) = refuse o (closed (s.withPins p))) (hc : c ≠ .resetPart := by simp)
    (ho : o ≠ .invalidSequence := by simp) : PostedFrom (finished c o (s.withPins p)) (commandRow c p s) := by
  have q := commandRow_posted p h t hc (by rw [e]; rfl)
  rw [e, answered_refuse c ho] at q
  exact q

/-- The row of a command that its owner takes with an effect that nothing follows. -/
theorem row_done {c : Command} {s u : State} {o : FrameOutcome} {posting : Posting} (p : Pins) (h : writesFreely s)
    (t : taken c s)
    (e : own c (closed (s.withPins p)) = { outcome := o, state := u, posting := posting }) (hc : c ≠ .resetPart := by simp)
    (ho : o ≠ .invalidSequence := by simp) : PostedFrom (withOutcome c o u) (commandRow c p s) := by
  have q := commandRow_posted p h t hc (by rw [e])
  rw [e, answered_of ho _ rfl rfl] at q
  exact q

/-- The row of a task command, whose effect a change of the profile in use follows (R76). -/
theorem row_task {c : Command} {s u : State} {o : FrameOutcome} (p : Pins) (h : writesFreely s) (t : taken c s)
    (e : own c (closed (s.withPins p)) = { outcome := o, state := u, follow := .profile })
    (hc : c ≠ .resetPart := by simp) (ho : o ≠ .invalidSequence := by simp) :
    Located (withOutcome c o u) (commandRow c p s) ∧
      (profileNumberInUse u = profileNumberInUse s → PostedFrom (withOutcome c o u) (commandRow c p s)) := by
  obtain ⟨v, hv, r⟩ := commandRow_answered p h t hc
  rw [e] at r hv
  rw [answered_of ho _ rfl rfl] at hv
  have r' : commandRow c p s = followProfile false (closed (s.withPins p)) v := r
  rw [r']
  refine ⟨hv.located.trans (followProfile_located _ _ _), fun k => ?_⟩
  have m : profileNumberInUse (closed (s.withPins p)) = profileNumberInUse v := by
    have eu : v.eu = u.eu := hv.within.eu rfl
    have l : profileNumberInUse v = profileNumberInUse u := by
      unfold profileNumberInUse liveMould
      rw [eu]
    rw [l, k]
    rfl
  rw [followProfile_same m]
  exact hv

/-- The row of a ring command, whose channel's covered-to time is refreshed (R73). -/
theorem row_ring {c : Command} {s u : State} {ch : Fin 8} (p : Pins) (h : writesFreely s) (t : taken c s)
    (e : own c (closed (s.withPins p)) = { outcome := .done, state := u, follow := .channel ch })
    (hc : c ≠ .resetPart := by simp) :
    Located (withCovered ch (coveredTo u ch) (withOutcome c .done u)) (commandRow c p s) ∧
      ((channelOf u ch).coveredTo = coveredTo u ch →
        PostedFrom (withCovered ch (coveredTo u ch) (withOutcome c .done u)) (commandRow c p s)) := by
  obtain ⟨v, hv, r⟩ := commandRow_answered p h t hc
  rw [e] at r hv
  rw [answered_of (o := .done) (by simp) _ rfl rfl] at hv
  have r' : commandRow c p s = refreshCovered ch v := r
  have hx : v.hx = u.hx := hv.within.hx rfl
  have sf : v.sf = u.sf := hv.within.sf rfl
  have ec : channelOf v ch = channelOf u ch := by unfold channelOf; rw [hx]
  have cv : coveredTo v ch = coveredTo u ch := by unfold coveredTo; rw [ec, sf]
  obtain ⟨l, k⟩ := refreshCovered_facts ch v
  rw [cv] at l k
  rw [r']
  refine ⟨(withCovered_posted hv ch _).located.trans l, fun z => ?_⟩
  rw [k (ec ▸ z), withCovered_same (show (channelOf (withOutcome c .done u) ch).coveredTo = _ from z)]
  exact hv

end Sys2Proof.Machine
end

