-- ==== Sys2Proof/Laws/Invariant.lean ====
section
/-! SUPPORT. The invariants of Safety.lean through every shared operation: no queue or pool holds more than its size, and every
hot count is the number of 1 bits of its history. -/

set_option Elab.async false

namespace Sys2Proof.Machine

/-- The two invariants together. -/
structure Sound (s : State) : Prop where
  cap : withinCapacity s
  hot : hotCountsMatch s

/-- A state that has the same queues, pool and mould. -/
theorem Sound.same {s t : State} (h : Sound s) (q : t.pu.queue = s.pu.queue) (a : t.sf.queue = s.sf.queue)
    (p : t.el.pool = s.el.pool) (c : t.eu.cycles = s.eu.cycles) (m : t.eu.mould = s.eu.mould) : Sound t := by
  refine ⟨⟨?_, ?_, ?_, ?_⟩, ?_⟩
  · rw [q]; exact h.cap.post
  · rw [a]; exact h.cap.accepted
  · rw [p]; exact h.cap.pool
  · rw [c]; exact h.cap.cycles
  · intro x hx; rw [m] at hx; exact h.hot x hx

/-- A state that has the same pool and mould and queues, but for the post queue, which fits. -/
theorem Sound.post {s t : State} (h : Sound s) (w : Within .post s t) (q : PostFits s → PostFits t) : Sound t := by
  refine ⟨⟨q h.cap.post, ?_, ?_, ?_⟩, ?_⟩
  · rw [w.sf rfl]; exact h.cap.accepted
  · rw [w.el rfl]; exact h.cap.pool
  · rw [w.eu rfl]; exact h.cap.cycles
  · intro x hx; rw [w.eu rfl] at hx; exact h.hot x hx

theorem Sound.onlyRu {s t : State} (h : Sound s) (w : Within .onlyRu s t) : Sound t :=
  h.same (w.queue rfl) (by rw [w.sf rfl]) (by rw [w.el rfl]) (by rw [w.eu rfl]) (by rw [w.eu rfl])

theorem Sound.report {s : State} (h : Sound s) (p : Posting) (b : State) : Sound (report p b s) :=
  h.post (report_within p b s) (report_facts p b s).2.2

/-! ### Hot counts (R95, R102, R106) -/

theorem countBits_le (w : Word) (n : Nat) : countBits w n ≤ n := by
  induction n with
  | zero => exact Nat.le_refl 0
  | succ n ih =>
    have : (w.getLsbD n).toNat ≤ 1 := Bool.toNat_le _
    simp only [countBits]
    omega

/-- The 1 bits of a history moved up one place with a new mark: one enters, and the mark at the top leaves. -/
theorem countBits_shift (w : Word) (b : Bool) (n : Nat) (h : n < 32) :
    countBits ((w <<< 1) ||| flag 0 b) (n + 1) = countBits w n + b.toNat := by
  induction n with
  | zero =>
    simp only [countBits, BitVec.getLsbD_or, getLsbD_flag]
    simp
  | succ n ih =>
    have e : ((w <<< 1) ||| flag 0 b).getLsbD (n + 1) = w.getLsbD n := by
      rw [BitVec.getLsbD_or, getLsbD_flag, BitVec.getLsbD_shiftLeft]
      simp [h]
    rw [countBits, ih (by omega), e]
    simp only [countBits]
    omega

theorem hotCount_shift (w : Word) (b : Bool) : hotCount ((w <<< 1) ||| flag 0 b) + w.msb.toNat = hotCount w + b.toNat := by
  unfold hotCount
  rw [countBits_shift w b 31 (by omega)]
  have e : w.msb = w.getLsbD 31 := by rw [BitVec.msb_eq_getLsbD_last]
  rw [e]
  simp only [countBits]
  omega

theorem foldTally_hot (p : EvidenceParams) (t : CavityTally) {r : CavityRecord} (h : hotMatches r) :
    hotMatches (foldTally p t r) := by
  unfold hotMatches at h ⊢
  show r.hot + (decide (p.evmin ≤ t.count)).toNat - r.history.msb.toNat = hotCount ((r.history <<< 1) ||| flag 0 _)
  have := hotCount_shift r.history (decide (p.evmin ≤ t.count))
  omega

theorem stepVerdict_hot (p : EvidenceParams) {r : CavityRecord} (h : hotMatches r) : hotMatches (stepVerdict p r) := by
  unfold stepVerdict
  split
  · split <;> exact h
  · split
    · exact h
    · split <;> exact h
  · split
    · exact h
    · split <;> exact h
  · exact h

theorem cleared_hot (r : CavityRecord) : hotMatches r.cleared := by
  show 0 = hotCount 0
  decide

theorem zipWith_forall {α β : Type} (P : β → Prop) (f : α → β → β) (hf : ∀ a b, P b → P (f a b)) :
    ∀ (l : List α) (m : List β), (∀ b ∈ m, P b) → ∀ b ∈ List.zipWith f l m, P b := by
  intro l
  induction l with
  | nil => intro m _ b hb; simp at hb
  | cons a l ih =>
    intro m hm b hb
    cases m with
    | nil => simp at hb
    | cons c m =>
      simp only [List.zipWith_cons_cons, List.mem_cons] at hb
      rcases hb with rfl | hb
      · exact hf a c (hm c (by simp))
      · exact ih m (fun x hx => hm x (by simp [hx])) b hb

theorem closeMould_hot (p : EvidenceParams) (e : CycleEntry) {m : Mould} (h : ∀ r ∈ m.cavities, hotMatches r) :
    ∀ r ∈ (closeMould p e m).cavities, hotMatches r :=
  zipWith_forall hotMatches (closeCavity p) (fun _ _ k => stepVerdict_hot p (foldTally_hot p _ k)) _ _ h

theorem storedCavities_hot (ws : List Word) (n : Nat) : ∀ c, ∀ r ∈ storedCavities ws c n, hotMatches r := by
  induction n with
  | zero => intro c r h; simp [storedCavities] at h
  | succ n ih =>
    intro c r h
    simp only [storedCavities, List.mem_cons] at h
    rcases h with rfl | h
    · rfl
    · exact ih _ r h

theorem freshMould_hot (p : MountParams) : ∀ r ∈ (freshMould p).cavities, hotMatches r := by
  intro r h
  rw [List.eq_of_mem_replicate (show r ∈ List.replicate p.count freshCavity from h)]
  rfl

theorem modify_forall {α : Type} (P : α → Prop) (f : α → α) (hf : ∀ a, P a → P (f a)) :
    ∀ (l : List α) (n : Nat), (∀ a ∈ l, P a) → ∀ a ∈ l.modify n f, P a := by
  intro l
  induction l with
  | nil => intro n _ a ha; simp at ha
  | cons b l ih =>
    intro n h a ha
    cases n with
    | zero =>
      simp only [List.modify_zero_cons, List.mem_cons] at ha
      rcases ha with rfl | ha
      · exact hf b (h b (by simp))
      · exact h a (by simp [ha])
    | succ n =>
      simp only [List.modify_succ_cons, List.mem_cons] at ha
      rcases ha with rfl | ha
      · exact h _ (by simp)
      · exact ih n (fun x hx => h x (by simp [hx])) a ha

/-! ### EU -/

/-- A close takes the oldest entry off the queue and steps the mould. -/
theorem closeEffect_sound (forced : Bool) {s : State} (h : Sound s) :
    Sound (closeEffect forced s) ∧ (closeEffect forced s).eu.cycles = s.eu.cycles.tail := by
  unfold closeEffect
  split
  · next e => exact ⟨h, by rw [e]; rfl⟩
  · next e rest hc hm =>
    refine ⟨⟨⟨h.cap.post, h.cap.accepted, h.cap.pool, ?_⟩, ?_⟩, by rw [hc]; rfl⟩
    · have := h.cap.cycles
      rw [hc] at this
      simp only [List.length_cons] at this
      show rest.length ≤ _
      omega
    · intro m k
      have : s.eu.mould = some m := k
      rw [hm] at this
      cases this
  · next e rest m hc hm =>
    have a : Sound (applyClose e rest m s) := by
      refine ⟨⟨h.cap.post, h.cap.accepted, h.cap.pool, ?_⟩, ?_⟩
      · have := h.cap.cycles
        rw [hc] at this
        simp only [List.length_cons] at this
        show rest.length ≤ _
        omega
      · intro m' k
        have : closeMould (profileInUse s).evidence e m = m' := Option.some.inj k
        rw [← this]
        exact closeMould_hot _ e (h.hot m hm)
    have w : Within .onlyRu (applyClose e rest m s)
        (handVerdicts (changedCavities m (closeMould (profileInUse s).evidence e m))
          (raiseIf (someEnters .cracked m (closeMould (profileInUse s).evidence e m)) .crack
            (raiseIf (someEnters .suspect m (closeMould (profileInUse s).evidence e m)) .suspect
              (raiseCause .cycle (countIf forced .cycleForced (countOccurrence .cycleClosed (applyClose e rest m s))))))) :=
      ((((countOccurrence_within _ _).trans (countIf_within _ _ _)).trans (raiseCause_within _ _)).trans
        ((raiseIf_within _ _ _).trans (raiseIf_within _ _ _))).trans (handVerdicts_within _ _)
    refine ⟨a.onlyRu w, ?_⟩
    dsimp only
    rw [w.eu rfl, hc]
    rfl

theorem closeOldest_sound {s : State} (h : Sound s) : Sound (closeOldest s) := (closeEffect_sound false h).1.report _ _

theorem closeLoop_sound (n : Nat) : ∀ {s}, Sound s → Sound (closeLoop n s) := by
  induction n with
  | zero => exact fun h => h
  | succ n ih =>
    intro s h
    unfold closeLoop
    split
    · exact ih (closeOldest_sound h)
    · exact h

theorem testClose_sound {s : State} (h : Sound s) : Sound (testClose s) := closeLoop_sound _ h

theorem openCycle_sound (c : Half) (start : Time) {s : State} (h : Sound s) : Sound (openCycle c start s) := by
  have create {u : State} (k : Sound u) (l : u.eu.cycles.length < Config.cycleCapacity) :
      Sound (createEntry c start u) := by
    unfold createEntry
    refine Sound.onlyRu ?_ (countIf_within _ _ _)
    refine ⟨⟨k.cap.post, k.cap.accepted, k.cap.pool, ?_⟩, k.hot⟩
    rw [State.withEu_eu]
    simp only [List.length_append, List.length_cons, List.length_nil]
    omega
  unfold openCycle
  split
  · next l => exact (create h l).report _ _
  · have o := closeEffect_sound true h
    refine (create o.1 ?_).report _ _
    rw [o.2, List.length_tail]
    have := h.cap.cycles
    unfold Config.cycleCapacity at this ⊢
    omega

theorem blockBegun_sound (c : Half) (start : Time) {s : State} (h : Sound s) : Sound (blockBegun c start s) := by
  unfold blockBegun
  split
  · exact h
  · exact testClose_sound (openCycle_sound c start h)

/-! ### EL -/

theorem insertHit_length (r : Time) (h : Hit) (l : List Hit) : (insertHit r h l).length = l.length + 1 := by
  induction l with
  | nil => rfl
  | cons g l ih =>
    unfold insertHit
    split
    · rfl
    · simp [ih]

theorem sortHits_length (r : Time) (l : List Hit) : (sortHits r l).length = l.length := by
  unfold sortHits
  induction l with
  | nil => rfl
  | cons h l ih => simp only [List.foldr_cons, insertHit_length, ih, List.length_cons]

theorem leaveHits_length (last : Time) : ∀ (l : List Hit) (seen : List (Fin 8)), (leaveHits last seen l).length ≤ l.length := by
  intro l
  induction l with
  | nil => intro seen; exact Nat.le_refl 0
  | cons h l ih =>
    intro seen
    unfold leaveHits
    split
    · have := ih (h.channel :: seen); simp only [List.length_cons]; omega
    · have := ih seen; simp only [List.length_cons]; omega

theorem reportEvent_sound (e : EventRecord) (b : State) {s : State} (h : Sound s) : Sound (reportEvent e b s) := by
  unfold reportEvent
  refine Sound.report (h.onlyRu ?_) _ _
  exact ((countOccurrence_within _ s).trans (countIf_within _ _ _)).trans (countTrace_within _ _)

/-- Forming an event takes at least its anchor out of the pool. -/
theorem formEvent_sound (forced : Bool) {s : State} (h : Sound s) :
    Sound (formEvent forced s) ∧ (formEvent forced s).el.pool.length ≤ s.el.pool.length - 1 := by
  unfold formEvent
  split
  · next e => exact ⟨h, by rw [e]; exact Nat.le_refl 0⟩
  · next anchor rest e =>
    have l : (takeEvent anchor rest s).el.pool.length ≤ rest.length := by
      show (sortHits anchor.arrival (leaveHits (windowEnd s anchor) [anchor.channel] rest)).length ≤ _
      rw [sortHits_length]
      exact leaveHits_length _ _ _
    have t : Sound (takeEvent anchor rest s) := by
      refine ⟨⟨h.cap.post, h.cap.accepted, ?_, h.cap.cycles⟩, h.hot⟩
      have := h.cap.pool
      rw [e] at this
      simp only [List.length_cons] at this
      omega
    have fin {r : EventRecord} {u : State} (k : Sound u) (p : u.el.pool = (takeEvent anchor rest s).el.pool) :
        Sound (reportEvent r s u) ∧ (reportEvent r s u).el.pool.length ≤ s.el.pool.length - 1 := by
      refine ⟨reportEvent_sound r s k, ?_⟩
      rw [(reportEvent_within r s u).el rfl, p, e]
      simpa using l
    dsimp only
    split
    · exact fin t rfl
    · split
      · refine fin ⟨⟨t.cap.post, t.cap.accepted, t.cap.pool, ?_⟩, t.hot⟩ rfl
        unfold takeCrackEvent
        rw [State.withEu_eu]
        dsimp only
        rw [List.length_map]
        exact t.cap.cycles
      · exact fin t rfl

theorem formLoop_sound (n : Nat) : ∀ {s}, Sound s → Sound (formLoop n s) := by
  induction n with
  | zero => exact fun h => h
  | succ n ih =>
    intro s h
    unfold formLoop
    split
    · exact ih (testClose_sound (formEvent_sound false h).1)
    · exact h

theorem locatorTest_sound {s : State} (h : Sound s) : Sound (locatorTest s) := testClose_sound (formLoop_sound _ h)

theorem placeHit_sound (g : Hit) {s : State} (h : Sound s) (l : s.el.pool.length < Config.poolCapacity) :
    Sound (placeHit g s) := by
  unfold placeHit
  split
  · exact h.onlyRu (countOccurrence_within _ s)
  · refine ⟨⟨h.cap.post, h.cap.accepted, ?_, h.cap.cycles⟩, h.hot⟩
    rw [State.withEl_el]
    dsimp only
    rw [insertHit_length]
    omega

theorem deliverHit_sound (g : Hit) {s : State} (h : Sound s) : Sound (deliverHit g s) := by
  unfold deliverHit
  split
  · exact h.onlyRu (countOccurrence_within _ s)
  · split
    · next l => exact locatorTest_sound (placeHit_sound g h l)
    · have f := formEvent_sound true h
      refine locatorTest_sound (placeHit_sound g (testClose_sound f.1) ?_)
      rw [(testClose_within _).el rfl]
      have := h.cap.pool
      have := f.2
      unfold Config.poolCapacity at *
      omega

/-! ### HX -/

theorem Sound.withHx {s : State} (h : Sound s) (x : HitExtractor) : Sound (s.withHx x) := h.same rfl rfl rfl rfl rfl

theorem refreshCovered_sound (c : Fin 8) {s : State} (h : Sound s) : Sound (refreshCovered c s) := by
  unfold refreshCovered
  dsimp only
  split
  · exact h
  · split
    · exact h.withHx _
    · exact locatorTest_sound ((h.withHx _).same rfl rfl rfl rfl rfl)

theorem disposeHit_sound (c : Fin 8) (g : OpenHit) (truncated : Bool) {s : State} (h : Sound s) :
    Sound (disposeHit c g truncated s) := by
  unfold disposeHit
  dsimp only
  split
  · exact h.onlyRu (countOccurrence_within _ s)
  · split
    · exact h.onlyRu (countOccurrence_within _ s)
    · refine deliverHit_sound _ (Sound.withHx ?_ _)
      exact h.onlyRu ((countOccurrence_within _ s).trans (countIf_within _ _ _))

theorem closeHit_sound (c : Fin 8) (b t : Nat) (g : OpenHit) (truncated : Bool) {s : State} (h : Sound s) :
    Sound (closeHit c b t g truncated s) :=
  refreshCovered_sound c (disposeHit_sound c g truncated (h.withHx _))

theorem followHit_sound (c : Fin 8) (b t : Nat) (g : OpenHit) (x : Nat) {s : State} (h : Sound s) :
    Sound (followHit c b t g x s) := by
  unfold followHit
  dsimp only
  split
  · exact h.withHx _
  · exact closeHit_sound _ _ _ _ _ h
  · exact closeHit_sound _ _ _ _ _ h

theorem sampleEffect_sound (w : BlockInWork) {s : State} (h : Sound s) : Sound (sampleEffect w s) := by
  unfold sampleEffect
  dsimp only
  split
  · exact h
  · exact h.withHx _
  · split
    · exact followHit_sound _ _ _ _ _ (refreshCovered_sound _ (h.withHx _))
    · exact h.withHx _
  · exact followHit_sound _ _ _ _ _ h
  · unfold lockoutSample
    split <;> exact h.withHx _

theorem processSample_sound (w : BlockInWork) {s : State} (h : Sound s) : Sound (processSample w s) := by
  unfold processSample
  dsimp only
  have k : Sound (sampleEffect w (putBlock (some { w with next := w.next + 1 }) s)) := sampleEffect_sound w (h.withHx _)
  split
  · exact k
  · refine refreshCovered_sound _ (Sound.withHx (Sound.withHx ?_ _) _)
    unfold seedChannel
    split
    · exact k.withHx _
    · exact k

theorem beginBlock_sound (e : AcceptedBlock) {s : State} (h : Sound s) : Sound (beginBlock e s) := by
  unfold beginBlock
  dsimp only
  refine blockBegun_sound _ _ ?_
  have k : Sound (recomputeThreshold e.channel (takeParams e.channel (putBlock (some { entry := e, next := 0, sum := 0 }) s))) := by
    unfold recomputeThreshold
    have base := ((h.withHx { s.hx with block := some { entry := e, next := 0, sum := 0 } }).withHx
      (takeParams e.channel (putBlock (some { entry := e, next := 0, sum := 0 }) s)).hx)
    split <;> exact base.withHx _
  split
  · exact k
  · unfold breakChannel
    split
    · exact refreshCovered_sound _ (Sound.onlyRu (k.withHx _) (countOccurrence_within _ _))
    all_goals exact k.withHx _

/-! ### SF -/

theorem Sound.withSf {s : State} (h : Sound s) (x : StreamFramer) (l : x.queue.length ≤ Config.acceptedCapacity) :
    Sound (s.withSf x) :=
  ⟨⟨h.cap.post, l, h.cap.pool, h.cap.cycles⟩, h.hot⟩

theorem putRing_sound (r : Fin 8) (x : Ring) {s : State} (h : Sound s) : Sound (putRing r x s) :=
  h.withSf _ h.cap.accepted

theorem refuseBlock_sound (why : RefuseReason) (stream : Bool) (r : Fin 8) (next : RingState) {s : State} (h : Sound s) :
    Sound (refuseBlock why stream r next s) := by
  unfold refuseBlock
  have k : Sound (putRingState r next s) := putRing_sound r _ h
  exact (k.onlyRu ((countOccurrence_within _ _).trans (raiseIf_within _ _ _))).report _ _

theorem startCapture_sound (r : Fin 8) (p : Nat) (d : Word) {s : State} (h : Sound s) : Sound (startCapture r p d s) :=
  (putRing_sound r _ h).report _ _

theorem huntWrite_sound (r : Fin 8) (off : Nat) (be : Enables) (d : Word) {s : State} (h : Sound s) :
    Sound (huntWrite r off be d s) := by
  unfold huntWrite
  split
  · split
    · exact startCapture_sound _ _ _ h
    · exact refuseBlock_sound _ _ _ _ h
  · exact h

theorem acceptBlock_sound (r : Fin 8) (c : Capture) {s : State} (h : Sound s)
    (l : s.sf.queue.length < Config.acceptedCapacity) : Sound (acceptBlock r c s) := by
  unfold acceptBlock
  dsimp only
  refine refreshCovered_sound _ (Sound.report ?_ _ _)
  refine Sound.onlyRu (Sound.withSf (putRing_sound r _ h) _ ?_) ((countOccurrence_within _ _).trans (countMark_within _ _))
  show (s.sf.queue ++ [_]).length ≤ _
  rw [List.length_append]
  exact l

theorem closeCapture_sound (r : Fin 8) (c : Capture) (d : Word) {s : State} (h : Sound s) :
    Sound (closeCapture r c d s) := by
  unfold closeCapture
  split
  · exact refuseBlock_sound _ _ _ _ h
  · split
    · next l => exact acceptBlock_sound r c h l
    · exact refuseBlock_sound _ _ _ _ (putRing_sound r _ h)

theorem fallAndHunt_sound (why : RefuseReason) (r : Fin 8) (off : Nat) (be : Enables) (d : Word) {s : State}
    (h : Sound s) : Sound (fallAndHunt why r off be d s) := huntWrite_sound _ _ _ _ (refuseBlock_sound _ _ _ _ h)

theorem ringWrite_sound (r : Fin 8) (off : Nat) (be : Enables) (d : Word) {s : State} (h : Sound s) :
    Sound (ringWrite r off be d s) := by
  unfold ringWrite
  split
  · exact h
  · exact huntWrite_sound _ _ _ _ h
  · unfold collectingWrite
    split
    · exact fallAndHunt_sound _ _ _ _ _ h
    · split
      · exact fallAndHunt_sound _ _ _ _ _ h
      · split
        · exact putRing_sound _ _ h
        · exact closeCapture_sound _ _ _ h
  · unfold waitingWrite
    dsimp only
    split
    · split
      · exact startCapture_sound _ _ _ h
      · exact refuseBlock_sound _ _ _ _ h
    · exact fallAndHunt_sound _ _ _ _ _ h

theorem timeoutBlock_sound (r : Fin 8) {s : State} (h : Sound s) : Sound (timeoutBlock r s) := by
  unfold timeoutBlock
  split
  · split
    · exact refuseBlock_sound _ _ _ _ h
    · exact h
  all_goals exact h

theorem staleRing_sound (r : Fin 8) {s : State} (h : Sound s) : Sound (staleRing r s) := by
  unfold staleRing
  dsimp only
  split
  · refine refreshCovered_sound _ (Sound.report ?_ _ _)
    exact Sound.onlyRu (putRing_sound r _ h) (raiseCause_within _ _)
  · exact h

theorem dropEntries_sound (r : Fin 8) {s : State} (h : Sound s) : Sound (dropEntries r s) :=
  h.withSf _ (Nat.le_trans (List.length_filter_le _ _) h.cap.accepted)

theorem abandonBlock_sound (c : Fin 8) {s : State} (h : Sound s) : Sound (abandonBlock c s) := by
  unfold abandonBlock
  split
  · split
    · exact h.withHx _
    · exact h
  · exact h

theorem ringToHunt_sound (r : Fin 8) {s : State} (h : Sound s) : Sound (ringToHunt r s) :=
  (putRing_sound r _ h).withHx _

theorem ringToOff_sound (r : Fin 8) {s : State} (h : Sound s) : Sound (ringToOff r s) :=
  (abandonBlock_sound _ (dropEntries_sound r (putRing_sound r _ h))).withHx _

theorem ringRestart_sound (r : Fin 8) {s : State} (h : Sound s) : Sound (ringRestart r s) :=
  (abandonBlock_sound _ (dropEntries_sound r (putRing_sound r _ h))).withHx _

end Sys2Proof.Machine
end

