-- ==== Sys2Proof/Laws/Locator.lean ====
section
/-! SUPPORT. The Event Locator and the cycle queue by their spec: the hits an event takes and leaves, the order of the pool, the
zone lookup, the classification, a crack event's tally, and the tests that form events and close cycles one after another. -/

set_option Elab.async false

namespace Sys2Proof.Machine

theorem takeHits_append_leaveHits (last : Time) : ∀ (rest : List Hit) (seen : List (Fin 8)),
    (takeHits last seen rest ++ leaveHits last seen rest).Perm rest
  | [], _ => by simp [takeHits, leaveHits]
  | h :: rest, seen => by
    by_cases c : (!seen.contains h.channel && atOrAfter last h.arrival) = true
    · rw [takeHits, leaveHits, if_pos c, if_pos c]
      exact (takeHits_append_leaveHits last rest _).cons h
    · rw [takeHits, leaveHits, if_neg c, if_neg c]
      exact List.perm_middle.trans ((takeHits_append_leaveHits last rest seen).cons h)

theorem takeHits_sublist (last : Time) : ∀ (rest : List Hit) (seen : List (Fin 8)), (takeHits last seen rest).Sublist rest
  | [], _ => by simp [takeHits]
  | h :: rest, seen => by
    by_cases c : (!seen.contains h.channel && atOrAfter last h.arrival) = true
    · rw [takeHits, if_pos c]; exact (takeHits_sublist last rest _).cons_cons h
    · rw [takeHits, if_neg c]; exact (takeHits_sublist last rest _).cons h

theorem leaveHits_sublist (last : Time) : ∀ (rest : List Hit) (seen : List (Fin 8)), (leaveHits last seen rest).Sublist rest
  | [], _ => by simp [leaveHits]
  | h :: rest, seen => by
    by_cases c : (!seen.contains h.channel && atOrAfter last h.arrival) = true
    · rw [leaveHits, if_pos c]; exact (leaveHits_sublist last rest _).cons h
    · rw [leaveHits, if_neg c]; exact (leaveHits_sublist last rest _).cons_cons h

theorem takeHits_of_channel (last : Time) (c : Fin 8) : ∀ (rest : List Hit) (seen : List (Fin 8)),
    (takeHits last seen rest).filter (fun h => h.channel == c) =
      if c ∈ seen then [] else (rest.filter fun h => h.channel == c && atOrAfter last h.arrival).take 1
  | [], seen => by simp [takeHits]
  | h :: rest, seen => by
    by_cases k : (!seen.contains h.channel && atOrAfter last h.arrival) = true
    · rw [takeHits, if_pos k]
      have ih := takeHits_of_channel last c rest (h.channel :: seen)
      simp only [Bool.and_eq_true, Bool.not_eq_true', List.contains_eq_mem, decide_eq_false_iff_not] at k
      by_cases e : h.channel = c
      · subst e
        simp [ih, k]
      · have e' : ¬ c = h.channel := fun x => e x.symm
        simp only [List.filter_cons, Bool.false_and, ih, List.mem_cons, e', false_or,
          show (h.channel == c) = false by simpa using e]
        simp
    · rw [takeHits, if_neg k]
      have ih := takeHits_of_channel last c rest seen
      rw [ih]
      by_cases m : c ∈ seen
      · simp [m]
      · simp only [m, if_false]
        by_cases e : h.channel = c
        · subst e
          have : atOrAfter last h.arrival = false := by
            simpa [m] using k
          simp [this]
        · simp [e]

theorem hitBefore_iff (r : Time) (g k : Hit) : hitBefore r g k = true ↔
      (g.arrival - r).toInt < (k.arrival - r).toInt ∨ (g.arrival = k.arrival ∧ g.channel < k.channel) := by
  simp [hitBefore, earlier, BitVec.slt]

theorem eq_of_sub_toInt_eq {a b r : Time} (h : (a - r).toInt = (b - r).toInt) : a = b := by
    have := BitVec.eq_of_toInt_eq h
    have := congrArg (· + r) this
    simpa using this

theorem hitBefore_false_trans (r : Time) (a b c : Hit) (h1 : hitBefore r b a = false) (h2 : hitBefore r c b = false) :
    hitBefore r c a = false := by
  rw [Bool.eq_false_iff, Ne, hitBefore_iff] at *
  intro h
  rcases h with h | ⟨e, l⟩
  · rcases Int.lt_trichotomy (b.arrival - r).toInt (a.arrival - r).toInt with k | k | k
    · exact h1 (Or.inl k)
    · exact h2 (Or.inl (by omega))
    · exact h2 (Or.inl (by omega))
  · rw [e] at h2
    rcases Int.lt_trichotomy (b.arrival - r).toInt (a.arrival - r).toInt with k | k | k
    · exact h1 (Or.inl k)
    · have k' := eq_of_sub_toInt_eq k
      have c1 : ¬ b.channel < a.channel := fun x => h1 (Or.inr ⟨k', x⟩)
      have c2 : ¬ c.channel < b.channel := fun x => h2 (Or.inr ⟨k'.symm, x⟩)
      have := Fin.lt_def.mp l
      simp only [Fin.lt_def] at c1 c2
      omega
    · exact h2 (Or.inl k)

theorem hitBefore_asymm (r : Time) (a b : Hit) (h : hitBefore r a b = true) : hitBefore r b a = false := by
  rw [Bool.eq_false_iff, Ne, hitBefore_iff]
  rw [hitBefore_iff] at h
  rintro (k | ⟨k, l⟩) <;> rcases h with h | ⟨h, l'⟩
  · omega
  · rw [h] at k; omega
  · rw [k] at h; omega
  · simp only [Fin.lt_def] at l l'; omega

theorem insertHit_splits (r : Time) (h : Hit) : ∀ l : List Hit, ∃ front back, l = front ++ back ∧
      (∀ g ∈ front, hitBefore r h g = false) ∧ (∀ g, back.head? = some g → hitBefore r h g = true) ∧
      insertHit r h l = front ++ h :: back
  | [] => ⟨[], [], rfl, by simp, by simp, rfl⟩
  | g :: rest => by
    by_cases k : hitBefore r h g = true
    · exact ⟨[], g :: rest, rfl, by simp, by simpa using k, by simp [insertHit, k]⟩
    · obtain ⟨f, b, e, a1, a2, e2⟩ := insertHit_splits r h rest
      exact ⟨g :: f, b, by simp [e], by simpa using ⟨by simpa using k, a1⟩, a2, by simp [insertHit, k, e2]⟩

theorem insertHit_sorted (r : Time) (h : Hit) (l : List Hit) (s : l.Pairwise (fun g k => hitBefore r k g = false)) :
    (insertHit r h l).Pairwise (fun g k => hitBefore r k g = false) := by
  obtain ⟨f, b, e, a1, a2, e2⟩ := insertHit_splits r h l
  subst e
  rw [e2]
  rw [List.pairwise_append] at s ⊢
  obtain ⟨s1, s2, s3⟩ := s
  have hb : ∀ k ∈ b, hitBefore r k h = false := by
    cases b with
    | nil => simp
    | cons g t =>
      have hg := hitBefore_asymm r h g (a2 g rfl)
      intro k hk
      rcases List.mem_cons.mp hk with rfl | hk
      · exact hg
      · exact hitBefore_false_trans r h g k hg ((List.pairwise_cons.mp s2).1 k hk)
  refine ⟨s1, List.pairwise_cons.mpr ⟨hb, s2⟩, ?_⟩
  intro g hg k hk
  rcases List.mem_cons.mp hk with rfl | hk
  · exact a1 g hg
  · exact s3 g hg k hk

theorem sortHits_sorted (r : Time) : ∀ l : List Hit, (sortHits r l).Pairwise (fun g k => hitBefore r k g = false)
  | [] => List.Pairwise.nil
  | h :: l => insertHit_sorted r h _ (sortHits_sorted r l)

theorem insertHit_perm (r : Time) (h : Hit) (l : List Hit) : (insertHit r h l).Perm (h :: l) := by
  obtain ⟨f, b, e, -, -, e2⟩ := insertHit_splits r h l
  rw [e2, e]; exact List.perm_middle

theorem sortHits_perm (r : Time) : ∀ l : List Hit, (sortHits r l).Perm l
  | [] => List.Perm.nil
  | h :: l => (insertHit_perm r h _).trans ((sortHits_perm r l).cons h)

theorem findBand_first : ∀ (bs : List Band) (n dt i : Nat) (b : Band), bs[i]? = some b → (b.low ≤ dt ∧ dt ≤ b.high) →
    (∀ j b', j < i → bs[j]? = some b' → ¬ (b'.low ≤ dt ∧ dt ≤ b'.high)) → findBand bs n dt = some (n + i, b.cavity)
  | [], _, _, _, _, h, _, _ => by simp at h
  | c :: bs, n, dt, 0, b, h, k, _ => by
    simp at h; subst h; simp [findBand, k]
  | c :: bs, n, dt, i + 1, b, h, k, f => by
    have := f 0 c (by omega) rfl
    rw [findBand, if_neg this, findBand_first bs (n+1) dt i b (by simpa using h) k
      (fun j b' hj hb => f (j + 1) b' (by omega) (by simpa using hb))]
    congr 2; omega

theorem findBand_none : ∀ (bs : List Band) (n dt : Nat),
    (∀ b ∈ bs, ¬ (b.low ≤ dt ∧ dt ≤ b.high)) → findBand bs n dt = none
  | [], _, _, _ => rfl
  | c :: bs, n, dt, h => by
    rw [findBand, if_neg (h c (by simp)), findBand_none bs _ _ (fun b hb => h b (by simp [hb]))]

theorem satAdd_eq_min (m a b : Nat) : satAdd m a b = min (a + b) m := by
  unfold satAdd; split <;> omega

theorem setTally_eq (cavity energy : Nat) (h : cavity ≠ 0) (v : Vector CavityTally 48) (c : cavity - 1 < 48) :
    v.setIfInBounds (cavity - 1)
        { count := min (v[cavity - 1].count + 1) max8, energy := min (v[cavity - 1].energy + energy) max32 } =
      Vector.ofFn fun i : Fin 48 => if i.val + 1 = cavity then
        { count := min (v[i].count + 1) max8, energy := min (v[i].energy + energy) max32 } else v[i] := by
  refine Vector.ext fun i hi => ?_
  rw [Vector.getElem_setIfInBounds, Vector.getElem_ofFn]
  by_cases e : cavity - 1 = i
  · subst e
    rw [if_pos rfl, if_pos (show cavity - 1 + 1 = cavity by omega)]
    rfl
  · rw [if_neg e, if_neg (show ¬ i + 1 = cavity by omega)]
    rfl

theorem setTally_beyond (cavity : Nat) (v : Vector CavityTally 48) (c : ¬ cavity - 1 < 48) (f : Fin 48 → CavityTally) :
    (Vector.ofFn fun i : Fin 48 => if i.val + 1 = cavity then f i else v[i]) = v := by
  refine Vector.ext fun i hi => ?_
  rw [Vector.getElem_ofFn, if_neg (show ¬ i + 1 = cavity by omega)]
  rfl

theorem addToTally_eq (cavity energy : Nat) (h : cavity ≠ 0) (k : CycleEntry) : addToTally cavity energy k =
    { k with tallies := Vector.ofFn fun i : Fin 48 =>
      if i.val + 1 = cavity then
        { count := min (k.tallies[i].count + 1) max8, energy := min (k.tallies[i].energy + energy) max32 }
      else k.tallies[i] } := by
  obtain ⟨cy, st, v⟩ := k
  by_cases c : cavity - 1 < 48
  · rw [← setTally_eq cavity energy h v c]
    unfold addToTally
    simp only [Vector.getElem?_eq_getElem c, satAdd_eq_min]
  · rw [setTally_beyond cavity v c]
    unfold addToTally
    simp only [Vector.getElem?_eq_none (Nat.le_of_not_lt c)]

theorem classified_eq (s : State) (anchor : Hit) (band : Option (Nat × Nat)) :
    (match classify s anchor band with
      | some o => o
      | none => if cycleOpen s anchor.cycle then .crack else .late) =
    (let count := match s.eu.mould with
        | some m => m.header.count
        | none => 0
     let cavity := (band.map Prod.snd).getD 0
     let p := (profileInUse s).event
     if s.eu.state ≠ .running then EventOutcome.held
          else if band = none then .unlocated
          else if cavity = 0 then .excluded
          else if count < cavity then .outside
          else if p.risemax < anchor.rise ∨ anchor.peak < p.peakmin then .impact
          else if p.phaseMask.getLsbD anchor.phase.toNat = false then .gated
          else if s.eu.cycles.any (fun k => k.cycle == anchor.cycle) then .crack
          else .late) := by
  have hc : ((s.eu.mould.map fun m => m.header.count).getD 0) =
      (match s.eu.mould with | some m => m.header.count | none => 0) := by
    cases s.eu.mould <;> rfl
  unfold classify
  rw [hc]
  cases band with
  | none => by_cases h1 : s.eu.state ≠ .running <;> simp [h1]
  | some p =>
    simp only [Option.map_some, Option.getD_some, reduceCtorEq, if_false]
    repeat' split
    all_goals first | rfl | simp_all [cycleOpen]

/-! ### Counting and handing over -/

theorem counted_nil (s : State) : counted [] s = s := by
  unfold counted; simp

theorem counted_cons (o : Occurrence) (os : List Occurrence) (s : State) :
    counted (o :: os) s = counted os (countOccurrence o s) := by
  unfold counted countOccurrence
  simp only [State.withRu, Vector.map_map]
  congr 2

theorem mem_allCavities (i : Fin 48) : i ∈ allCavities := by revert i; decide

/-- Words put at the places of a list. -/
theorem setAll_get (g : Fin 48 → Word) (l : List (Fin 48)) : ∀ (v : Vector Word 48) (i : Fin 48),
    (l.foldl (fun (v : Vector Word 48) (c : Fin 48) => v.set c.val (g c)) v)[i] = if i ∈ l then g i else v[i] := by
  induction l with
  | nil => simp
  | cons a l ih =>
    intro v i
    rw [List.foldl_cons, ih]
    by_cases h : i ∈ l
    · simp [h]
    · by_cases e : i = a
      · subst e; simp [h]
      · have : ¬ a.val = i.val := fun x => e (Fin.ext x.symm)
        simp [h, e, this]

/-- The verdict words that a close hands over. -/
theorem setChosen_eq (q : Fin 48 → Bool) (g : Fin 48 → Word) (v : Vector Word 48) :
    (allCavities.filter q).foldl (fun (v : Vector Word 48) (c : Fin 48) => v.set c.val (g c)) v =
      Vector.ofFn fun i : Fin 48 => if q i then g i else v[i] := by
  refine Vector.ext fun i hi => ?_
  have := setAll_get g (allCavities.filter q) v ⟨i, hi⟩
  simp only [List.mem_filter, mem_allCavities, true_and] at this
  rw [Vector.getElem_ofFn]
  exact this

/-! ### The tests -/

/-- One entry leaves the cycle queue at a close. -/
theorem closeEffect_cycles (forced : Bool) (s : State) : (closeEffect forced s).eu.cycles = s.eu.cycles.tail := by
  unfold closeEffect
  cases hc : s.eu.cycles with
  | nil => simp [hc]
  | cons e rest =>
    cases hm : s.eu.mould with
    | none => rfl
    | some m =>
      have h : Within .onlyRu (applyClose e rest m s) (closeEffect forced s) := by
        unfold closeEffect
        simp only [hc, hm]
        exact ((((countOccurrence_within _ _).trans (countIf_within _ _ _)).trans (raiseCause_within _ _)).trans
          ((raiseIf_within _ _ _).trans (raiseIf_within _ _ _))).trans (handVerdicts_within _ _)
      have k := h.eu rfl
      unfold closeEffect at k
      simp only [hc, hm] at k
      rw [k]; rfl

theorem closeOldest_cycles (s : State) : (closeOldest s).eu.cycles = s.eu.cycles.tail := by
  rw [closeOldest, (report_within _ _ _).eu rfl, closeEffect_cycles]

theorem closeReady_two {s : State} (h : closeReady s = true) : 2 ≤ s.eu.cycles.length := by
  unfold closeReady at h
  split at h
  · next e => rw [e]; simp
  · simp at h
  · simp at h

theorem testClose_ready {s : State} (h : closeReady s = true) : testClose s = testClose (closeOldest s) := by
  have two := closeReady_two h
  obtain ⟨l, hl⟩ : ∃ l, s.eu.cycles.length = l + 1 := ⟨s.eu.cycles.length - 1, by omega⟩
  have hlen : (closeOldest s).eu.cycles.length = l := by rw [closeOldest_cycles, List.length_tail, hl]; rfl
  rw [testClose, hl, closeLoop, if_pos h, testClose, hlen]

theorem testClose_rest {s : State} (h : closeReady s = false) : testClose s = s := by
  rw [testClose]
  cases s.eu.cycles.length <;> simp [closeLoop, h]

/-- When the closure condition of R100 holds. -/
theorem closeReady_iff (s : State) : closeReady s = true ↔ ∃ e f rest, s.eu.cycles = e :: f :: rest ∧
    (s.el.horizon = none ∨ ∃ h, s.el.horizon = some h ∧ atOrAfter h f.start = true) ∧
    ∀ g ∈ s.el.pool, atOrAfter g.arrival f.start = true := by
  unfold closeReady
  rcases hc : s.eu.cycles with _ | ⟨e, _ | ⟨f, rest⟩⟩
  · simp
  · simp
  · simp only [Bool.and_eq_true, List.all_eq_true, horizonReached]
    constructor
    · rintro ⟨h, k⟩
      refine ⟨e, f, rest, rfl, ?_, k⟩
      cases hh : s.el.horizon with
      | none => exact Or.inl rfl
      | some x => rw [hh] at h; exact Or.inr ⟨x, rfl, h⟩
    · rintro ⟨_, _, _, h, k, l⟩
      cases h
      refine ⟨?_, l⟩
      rcases k with k | ⟨x, k, m⟩ <;> rw [k]
      exact m

/-- When an event forms: the horizon is there (R79), or no other channel has been in it since the reset (R91). -/
theorem formReady_iff (s : State) : formReady s = true ↔ ∃ a rest, s.el.pool = a :: rest ∧
    ((∀ c : Fin 8, c ≠ a.channel → s.hx.channels[c].joined = false) ∨ s.el.horizon = none ∨
      ∃ h, s.el.horizon = some h ∧ atOrAfter h (windowEnd s a) = true) := by
  have first (c : Fin 8) : firstInHorizon s c = true ↔ ∀ q : Fin 8, q ≠ c → s.hx.channels[q].joined = false := by
    have all (q : Fin 8) : q ∈ allChannels := by revert q; decide
    simp only [firstInHorizon, List.all_eq_true, Bool.or_eq_true, beq_iff_eq, Bool.not_eq_true']
    exact ⟨fun h q n => (h q (all q)).resolve_left n, fun h q _ => (em (q = c)).imp_right (h q)⟩
  unfold formReady
  cases hp : s.el.pool with
  | nil => simp
  | cons a rest =>
    simp only [Bool.or_eq_true, first, horizonReached, List.cons.injEq, or_comm (b := ∀ _, _)]
    constructor
    · rintro (h | h)
      · exact ⟨a, rest, ⟨rfl, rfl⟩, .inl h⟩
      · refine ⟨a, rest, ⟨rfl, rfl⟩, .inr ?_⟩
        cases hh : s.el.horizon with
        | none => exact .inl rfl
        | some x => rw [hh] at h; exact .inr ⟨x, rfl, h⟩
    · rintro ⟨_, _, ⟨rfl, rfl⟩, h | h | ⟨x, k, h⟩⟩
      · exact .inl h
      · exact .inr (by rw [h])
      · exact .inr (by rw [k]; exact h)

/-- An event leaves fewer hits in the pool. -/
theorem formEvent_pool {s : State} (h : formReady s = true) (b : Bool) :
    (formEvent b s).el.pool.length < s.el.pool.length := by
  unfold formReady at h
  cases hp : s.el.pool with
  | nil => rw [hp] at h; cases h
  | cons a rest =>
    have key : ∀ t : State, (takeEvent a rest s).el.pool = t.el.pool → t.el.pool.length < (a :: rest).length := by
      intro t ht
      rw [← ht]
      have := (sortHits_perm a.arrival (leaveHits (windowEnd s a) [a.channel] rest)).length_eq
      have k := (leaveHits_sublist (windowEnd s a) rest [a.channel]).length_le
      show (sortHits a.arrival (leaveHits (windowEnd s a) [a.channel] rest)).length < _
      rw [this, List.length_cons]; omega
    unfold formEvent
    rw [hp]
    simp only
    apply key
    split
    · rw [(reportEvent_within _ _ _).el rfl]
    · split
      · rw [(reportEvent_within _ _ _).el rfl]; rfl
      · rw [(reportEvent_within _ _ _).el rfl]

theorem testClose_el (s : State) : (testClose s).el = s.el := (testClose_within s).el rfl

/-- More events than there are hits are allowed for in vain. -/
theorem formLoop_enough : ∀ (n m : Nat) (s : State), s.el.pool.length ≤ n → s.el.pool.length ≤ m →
    formLoop n s = formLoop m s := by
  intro n
  induction n with
  | zero =>
    intro m s h _
    have hr : formReady s = false := by rw [formReady, List.length_eq_zero_iff.mp (Nat.le_zero.mp h)]
    cases m <;> simp [formLoop, hr]
  | succ n ih =>
    intro m s h k
    cases hr : formReady s with
    | false => cases m <;> simp [formLoop, hr]
    | true =>
      have less := formEvent_pool hr false
      obtain ⟨l, rfl⟩ : ∃ l, m = l + 1 := ⟨m - 1, by omega⟩
      rw [formLoop, formLoop, if_pos hr, if_pos hr]
      exact ih l _ (by rw [testClose_el]; omega) (by rw [testClose_el]; omega)

theorem locatorTest_ready {s : State} (h : formReady s = true) :
    locatorTest s = locatorTest (testClose (formEvent false s)) := by
  have less := formEvent_pool h false
  obtain ⟨l, hl⟩ : ∃ l, s.el.pool.length = l + 1 := ⟨s.el.pool.length - 1, by omega⟩
  rw [locatorTest, hl, formLoop, if_pos h, formLoop_enough l _ _ (by rw [testClose_el]; omega) (Nat.le_refl _), locatorTest]

theorem locatorTest_rest {s : State} (h : formReady s = false) : locatorTest s = testClose s := by
  rw [locatorTest]
  cases s.el.pool.length <;> simp [formLoop, h]

end Sys2Proof.Machine
end

