-- ==== Sys2Proof/Laws/PerInstr.lean ====
section
/-! SUPPORT. Statements about every command as syntax: the operands that no row admits. -/

set_option Elab.async false

namespace Sys2Proof.Laws.OperandsAdmitted

/-- A command is ill formed only as a write to a parameter word that is not a word 1 to 14 of the window (R19, R23), or as a
partial write with every byte enable set (R20). -/
def Statement (i : Instr) : Prop :=
  i.wellFormed = false →
    (∃ index value, i = .parameterWordWrite index value ∧ (index = 0 ∨ index = 15)) ∨
      ∃ index value, i = .partialWrite index 15 value

theorem resetnAssert : Statement .resetnAssert := by intro h; cases h

theorem resetnRelease (straps : BitVec 4) : Statement (.resetnRelease straps) := by intro h; cases h

theorem upstreamAccessPresented (a : Access) : Statement (.upstreamAccessPresented a) := by intro h; cases h

theorem upstreamWrite (addr : WordAddr) (be : Enables) (data : Word) : Statement (.upstreamWrite addr be data) := by intro h; cases h

theorem upstreamRead (addr : WordAddr) (be : Enables) : Statement (.upstreamRead addr be) := by intro h; cases h

theorem openingWordWrite (value : Word) : Statement (.openingWordWrite value) := by intro h; cases h

theorem parameterWordWrite (index : BitVec 4) (value : Word) : Statement (.parameterWordWrite index value) := by
  intro h
  refine Or.inl ⟨index, value, rfl, ?_⟩
  simp only [Instr.wellFormed, parameterIndexOk, Bool.and_eq_false_iff, bne_eq_false_iff_eq] at h
  exact h

theorem partialWrite (index : BitVec 4) (be : Enables) (value : Word) : Statement (.partialWrite index be value) := by
  intro h
  simp only [Instr.wellFormed, partialEnablesOk, bne_eq_false_iff_eq] at h
  exact Or.inr ⟨index, value, by rw [h]⟩

theorem noFrame (value : Word) : Statement (.noFrame value) := by intro h; cases h

theorem invalidSequence (value : Word) : Statement (.invalidSequence value) := by intro h; cases h

theorem refusedCode : Statement .refusedCode := by intro h; cases h

theorem defineLayout : Statement .defineLayout := by intro h; cases h

theorem resetPart (straps : BitVec 4) : Statement (.resetPart straps) := by intro h; cases h

theorem defineRing : Statement .defineRing := by intro h; cases h

theorem ringOn : Statement .ringOn := by intro h; cases h

theorem ringOff : Statement .ringOff := by intro h; cases h

theorem resetRing : Statement .resetRing := by intro h; cases h

theorem setFraming : Statement .setFraming := by intro h; cases h

theorem load : Statement .load := by intro h; cases h

theorem lockSlot (service : Bool) : Statement (.lockSlot service) := by intro h; cases h

theorem clearLocks (service : Bool) : Statement (.clearLocks service) := by intro h; cases h

theorem setMasterLock (service : Bool) : Statement (.setMasterLock service) := by intro h; cases h

theorem clearSlot (service : Bool) : Statement (.clearSlot service) := by intro h; cases h

theorem sweep : Statement .sweep := by intro h; cases h

theorem suspendSweep : Statement .suspendSweep := by intro h; cases h

theorem resumeSweep : Statement .resumeSweep := by intro h; cases h

theorem mount : Statement .mount := by intro h; cases h

theorem checkpoint : Statement .checkpoint := by intro h; cases h

theorem release : Statement .release := by intro h; cases h

theorem clearCavity : Statement .clearCavity := by intro h; cases h

theorem clearMould : Statement .clearMould := by intro h; cases h

theorem setReporting : Statement .setReporting := by intro h; cases h

theorem setCounter : Statement .setCounter := by intro h; cases h

theorem clearStatus : Statement .clearStatus := by intro h; cases h

theorem acknowledge : Statement .acknowledge := by intro h; cases h

theorem postWordPerformed : Statement .postWordPerformed := by intro h; cases h

theorem taskRecordEnqueue : Statement .taskRecordEnqueue := by intro h; cases h

theorem dirtyRecordPost : Statement .dirtyRecordPost := by intro h; cases h

theorem taskReadData : Statement .taskReadData := by intro h; cases h

theorem taskWaitExpiry : Statement .taskWaitExpiry := by intro h; cases h

theorem blockTimeout (ring : Fin 8) : Statement (.blockTimeout ring) := by intro h; cases h

theorem ringStale (ring : Fin 8) : Statement (.ringStale ring) := by intro h; cases h

theorem alarmPulseEnd : Statement .alarmPulseEnd := by intro h; cases h

theorem blockBegin : Statement .blockBegin := by intro h; cases h

theorem sampleProcessed : Statement .sampleProcessed := by intro h; cases h

end Sys2Proof.Laws.OperandsAdmitted
end

