-- ==== Sys2Proof/Laws/Shown.lean ====
section
/-! SUPPORT. Which records a round of reports shows: a record that is offered stands in the queue as it is, or it is dirty, and
later offers leave it so. -/

set_option Elab.async false

namespace Sys2Proof.Machine

/-! ### The size of a record -/

/-- A record's size does not depend on what it shows. -/
theorem recordWords_length (f g : FreeBits) (s t : State) (id : RecordId) :
    (recordWords f s id).length = (recordWords g t id).length := by
  cases id <;> simp [recordWords, statusFields, counterWords]

theorem wholeCopies.congr {id : RecordId} {s t : State} (h : wholeCopies id s) (q : t.pu.queue = s.pu.queue) :
    wholeCopies id t := by
  intro r hr hi hb
  rw [q] at hr
  rw [h r hr hi hb]
  exact recordWords_length _ _ _ _ _

/-! ### One offer -/

theorem DirtyMarks.get_put_same (d : DirtyMarks) (b : Bool) {id : RecordId} (h : id.replaceable = true) :
    (d.put b id).get id = b := by
  cases id <;> simp_all [DirtyMarks.get, DirtyMarks.put, RecordId.replaceable]

theorem DirtyMarks.get_put_other (d : DirtyMarks) (b : Bool) {id k : RecordId} (h : k ≠ id) :
    (d.put b k).get id = d.get id := by
  cases id <;> cases k <;> simp_all [DirtyMarks.get, DirtyMarks.put, Fin.val_inj]

/-- An offer changes the post queue, the dirty marks and the free bits. -/
theorem offer_form (id : RecordId) (s : State) : ∃ q d f, offer id s =
    { s with pu := { s.pu with queue := q }, ru := { s.ru with dirty := d }, free := f } := by
  unfold offer
  split
  · exact ⟨_, s.ru.dirty, _, rfl⟩
  all_goals
    unfold enqueueRecord enqueue
    split
    · exact ⟨_, _, _, rfl⟩
    · exact ⟨s.pu.queue, _, s.free, rfl⟩

theorem recordWords_offer (f : FreeBits) (k id : RecordId) (s : State) :
    recordWords f (offer k s) id = recordWords f s id := by
  obtain ⟨q, d, g, h⟩ := offer_form k s
  rw [h]
  cases id <;> rfl

theorem offer_whole {id : RecordId} {s : State} (k : RecordId) (h : wholeCopies id s) : wholeCopies id (offer k s) := by
  intro r hr hi hb
  rw [recordWords_length _ s.freeBits _ s]
  unfold offer at hr
  split at hr
  · obtain ⟨x, hx, rfl⟩ := List.mem_map.mp hr
    rw [replaceWords_length]
    have e : (x.replaceWords k (recordWords s.freeBits s k)).id = x.id ∧
        (x.replaceWords k (recordWords s.freeBits s k)).begun = x.begun := by
      unfold QueuedRecord.replaceWords; split <;> exact ⟨rfl, rfl⟩
    exact h x hx (e.1 ▸ hi) (e.2 ▸ hb)
  all_goals
    unfold enqueueRecord enqueue at hr
    split at hr
    · rcases List.mem_append.mp hr with hr | hr
      · exact h r hr hi hb
      · cases List.mem_singleton.mp hr
        simp only at hi
        rw [hi]
    · exact h r hr hi hb

theorem takeWhole {ws us : List Word} (h : us.length = ws.length) :
    (ws ++ us.drop ws.length).take us.length = ws := by
  rw [h, List.take_append_of_le_length (Nat.le_refl _), List.take_length]

/-- A record that is offered is shown (R154). -/
theorem offer_shows {id : RecordId} {s : State} (hid : id.replaceable = true) (h : wholeCopies id s) :
    Shown id (offer id s) := by
  unfold Shown
  simp only [recordWords_offer]
  unfold offer copyState
  by_cases c : s.pu.queue.any (QueuedRecord.isCopy id) = true
  · obtain ⟨r, hr, hc⟩ := List.any_eq_true.mp c
    simp only [c, if_true]
    refine Or.inl ⟨s.freeBits, r.replaceWords id (recordWords s.freeBits s id), List.mem_map.mpr ⟨r, hr, rfl⟩, ?_⟩
    have e := hc
    unfold QueuedRecord.isCopy at e
    simp only [Bool.and_eq_true, decide_eq_true_eq, Bool.not_eq_true'] at e
    unfold QueuedRecord.replaceWords
    rw [if_pos hc]
    exact ⟨e.1, e.2, takeWhole (h r hr e.1 e.2)⟩
  · rw [if_neg c]
    have key : (∃ f, ∃ r ∈ ((enqueueRecord id s).getD (markDirty id true s)).pu.queue, r.id = id ∧ r.begun = false ∧
        r.words = recordWords f s id) ∨ ((enqueueRecord id s).getD (markDirty id true s)).ru.dirty.get id = true := by
      unfold enqueueRecord enqueue
      split
      · exact Or.inl ⟨s.freeBits, _, List.mem_append_right _ (List.mem_singleton_self _), rfl, rfl, rfl⟩
      · exact Or.inr (DirtyMarks.get_put_same _ _ hid)
    by_cases d : (s.pu.queue.any fun r => decide (r.id = id)) = true
    · rw [if_pos d]; exact key
    · rw [if_neg d]; exact key

/-- An offer of another record, or of the same, leaves a record shown. -/
theorem offer_keeps_shown {id : RecordId} {s : State} (k : RecordId) (hid : id.replaceable = true)
    (w : wholeCopies id s) (h : Shown id s) : Shown id (offer k s) := by
  by_cases e : k = id
  · subst e; exact offer_shows hid w
  · unfold Shown
    simp only [recordWords_offer]
    unfold offer
    split
    · rcases h with ⟨f, r, hr, hi, hb, hw⟩ | h
      · refine Or.inl ⟨f, r, List.mem_map.mpr ⟨r, hr, ?_⟩, hi, hb, hw⟩
        unfold QueuedRecord.replaceWords QueuedRecord.isCopy
        rw [if_neg]
        rw [hi]
        simp [Ne.symm e]
      · exact Or.inr h
    all_goals
      unfold enqueueRecord enqueue
      split
      · rcases h with ⟨f, r, hr, hi, hb, hw⟩ | h
        · exact Or.inl ⟨f, r, List.mem_append_left _ hr, hi, hb, hw⟩
        · exact Or.inr ((DirtyMarks.get_put_other _ _ e).trans h)
      · rcases h with ⟨f, r, hr, hi, hb, hw⟩ | h
        · exact Or.inl ⟨f, r, hr, hi, hb, hw⟩
        · exact Or.inr ((DirtyMarks.get_put_other _ _ e).trans h)

/-! ### A round of reports -/

/-- The record has whole copies and is shown. -/
def ShownWhole (id : RecordId) (s : State) : Prop := wholeCopies id s ∧ Shown id s

theorem ShownWhole.offer {id : RecordId} {s : State} (k : RecordId) (hid : id.replaceable = true) (h : ShownWhole id s) :
    ShownWhole id (offer k s) := ⟨offer_whole k h.1, offer_keeps_shown k hid h.1 h.2⟩

theorem ShownWhole.of_offer {id : RecordId} {s : State} (hid : id.replaceable = true) (h : wholeCopies id s) :
    ShownWhole id (Machine.offer id s) := ⟨offer_whole id h, offer_shows hid h⟩

theorem ShownWhole.offerIf {id : RecordId} {s : State} (b : Bool) (k : RecordId) (hid : id.replaceable = true)
    (h : ShownWhole id s) : ShownWhole id (offerIf b k s) := by
  unfold Machine.offerIf
  split
  · exact h.offer k hid
  · exact h

theorem wholeCopies.offerIf {id : RecordId} {s : State} (b : Bool) (k : RecordId) (h : wholeCopies id s) :
    wholeCopies id (offerIf b k s) := by
  unfold Machine.offerIf
  split
  · exact offer_whole k h
  · exact h

theorem ShownWhole.verdicts {id : RecordId} (hid : id.replaceable = true) (l : List (Fin 48)) :
    ∀ s, ShownWhole id s → ShownWhole id (l.foldl (fun t c => Machine.offer (.verdict c) t) s) := by
  induction l with
  | nil => exact fun s h => h
  | cons c l ih => exact fun s h => ih _ (h.offer _ hid)

theorem wholeCopies.verdicts {id : RecordId} (l : List (Fin 48)) :
    ∀ s, wholeCopies id s → wholeCopies id (l.foldl (fun t c => Machine.offer (.verdict c) t) s) := by
  induction l with
  | nil => exact fun s h => h
  | cons c l ih => exact fun s h => ih _ (offer_whole _ h)

theorem ShownWhole.of_verdicts {c : Fin 48} : ∀ (l : List (Fin 48)), c ∈ l → ∀ s, wholeCopies (.verdict c) s →
    ShownWhole (.verdict c) (l.foldl (fun t c => Machine.offer (.verdict c) t) s)
  | a :: l, hc, s, h => by
    rcases List.mem_cons.mp hc with rfl | hc
    · exact ShownWhole.verdicts rfl l _ (ShownWhole.of_offer rfl h)
    · exact ShownWhole.of_verdicts l hc _ (offer_whole _ h)

/-- A change that leaves the queue, the dirty marks and the record's words leaves the record shown. -/
theorem ShownWhole.congr {id : RecordId} {s t : State} (h : ShownWhole id s) (q : t.pu.queue = s.pu.queue)
    (d : t.ru.dirty = s.ru.dirty) (w : ∀ f, recordWords f t id = recordWords f s id) : ShownWhole id t := by
  refine ⟨h.1.congr q, ?_⟩
  rcases h.2 with ⟨f, r, hr, hi, hb, hw⟩ | k
  · exact Or.inl ⟨f, r, by rw [q]; exact hr, hi, hb, by rw [w, hw]⟩
  · exact Or.inr (by rw [d]; exact k)

/-! ### The status record -/

/-- A word with a marked field: the mark tells whether the field has contents, so the contents put in its place do not
matter. -/
theorem marked_eq {lo width m : Nat} (hm : m < 32) (hw : lo + width ≤ m) {x y : Option Nat} {u v : Word}
    (hu : u.getLsbD m = false) (hv : v.getLsbD m = false) (g : Bool → Bool) (hg : g true ≠ g false) (z : Nat)
    (h : field lo width (x.getD 0) ||| u ||| flag m (g x.isNone) = field lo width (y.getD 0) ||| v ||| flag m (g y.isNone)) :
    field lo width (x.getD z) ||| u ||| flag m (g x.isNone) =
      field lo width (y.getD z) ||| v ||| flag m (g y.isNone) := by
  have e := congrArg (fun w : Word => w.getLsbD m) h
  have out (n : Nat) : (field lo width n).getLsbD m = false := by
    rw [getLsbD_field]
    by_cases c : lo ≤ m
    · simp [show ¬ m - lo < width by omega]
    · simp [c]
  have mark (b : Bool) : (flag m b).getLsbD m = b := by
    unfold flag
    rw [getLsbD_field]
    cases b <;> simp [hm]
  simp only [BitVec.getLsbD_or, out, hu, hv, mark, Bool.false_or] at e
  cases x with
  | some a =>
    cases y with
    | some b => exact h
    | none => exact absurd e.symm hg
  | none =>
    cases y with
    | some b => exact absurd e hg
    | none =>
      have zero : field lo width 0 = 0 := by simp [field]
      simp only [Option.getD_none, zero, BitVec.or_assoc] at h ⊢
      have k : u ||| flag m (g true) = v ||| flag m (g true) := by simpa using h
      exact congrArg (field lo width z ||| ·) k

theorem cycleWord_same {a b : State} (h : cycleWord sameFree a = cycleWord sameFree b) (f : FreeBits) :
    cycleWord f a = cycleWord f b := by
  have e (g : FreeBits) (s : State) : cycleWord g s =
      field 0 16 ((s.eu.newest.map BitVec.toNat).getD g.cycle.toNat) ||| field 16 3 s.eu.cycles.length |||
        flag 19 (id (s.eu.newest.map BitVec.toNat).isNone) := by
    unfold cycleWord
    cases s.eu.newest <;> rfl
  have out (s : State) : (field 16 3 s.eu.cycles.length).getLsbD 19 = false := by rw [getLsbD_field]; simp
  rw [e, e] at h ⊢
  exact marked_eq (by decide) (by decide) (out a) (out b) id (by decide) _ h

theorem dropWord_same {a b : State} (h : dropWord sameFree a = dropWord sameFree b) (f : FreeBits) :
    dropWord f a = dropWord f b := by
  have e (g : FreeBits) (s : State) : dropWord g s =
      field 0 24 ((s.ru.firstDrop.map BitVec.toNat).getD g.drop.toNat) ||| 0 |||
        flag 31 (!(s.ru.firstDrop.map BitVec.toNat).isNone) := by
    unfold dropWord
    cases s.ru.firstDrop <;> simp
  rw [e, e] at h ⊢
  exact marked_eq (by decide) (by decide) (by simp) (by simp) not (by decide) _ h

/-- A status record of which no field has changed shows the same (R155). -/
theorem statusFields_same {a b : State} (h : statusChanged a b = false) (f : FreeBits) :
    statusFields f b = statusFields f a := by
  unfold statusChanged statusFields at h
  simp only [bne_eq_false_iff_eq, List.cons.injEq, and_true] at h
  obtain ⟨h0, h1, h2, h3, h4, h5, h6, h7, h8, h9⟩ := h
  unfold statusFields
  rw [h0, h1, h2, h3, cycleWord_same h4 f, h5, h6, dropWord_same h7 f, h8, h9]

/-- A round shows the status record, if it was shown before the reports were applied or they changed it. -/
theorem offerChanged_status {a b : State} (w : wholeCopies .status b) (t : b.localTime = a.localTime)
    (q : b.pu.queue = a.pu.queue ∨ ∃ l, b.pu.queue = a.pu.queue ++ l) (d : b.ru.dirty = a.ru.dirty)
    (h : statusChanged a b = true ∨ Shown .status a) : ShownWhole .status (offerIf (statusChanged a b) .status b) := by
  unfold offerIf
  cases c : statusChanged a b with
  | true => exact ShownWhole.of_offer rfl w
  | false =>
    rw [if_neg Bool.false_ne_true]
    refine ⟨w, ?_⟩
    have k : Shown .status a := by
      rcases h with h | h
      · rw [c] at h; cases h
      · exact h
    have words (f : FreeBits) : recordWords f b .status = recordWords f a .status := by
      simp only [recordWords, statusFields_same c f, t]
    rcases k with ⟨f, r, hr, hi, hb, hw⟩ | k
    · refine Or.inl ⟨f, r, ?_, hi, hb, by rw [words, hw]⟩
      rcases q with q | ⟨l, q⟩
      · rw [q]; exact hr
      · rw [q]; exact List.mem_append_left _ hr
    · exact Or.inr (by rw [d]; exact k)

/-! ### The end of a round -/

theorem raiseTrace_shown {id : RecordId} {s : State} (hid : id.replaceable = true) (h : ShownWhole id s) :
    ShownWhole id (raiseTrace s) := by
  unfold raiseTrace
  split
  · dsimp only
    let u := raiseCause .trace (s.withRu { s.ru with traceAwait := false })
    have w : wholeCopies id u := h.1.congr rfl
    by_cases e : id = .status
    · subst e
      exact offerChanged_status w rfl (Or.inl rfl) rfl (Or.inr h.2)
    · have k : ShownWhole id u := h.congr rfl rfl fun f => by
        cases id with
        | status => exact absurd rfl e
        | counter | directory | verdict _ | trace _ => simp only [recordWords, u, counterWords, cycleWord, raiseCause,
            State.withRu_ru, State.withRu_eu, State.withRu_tu, State.withRu_localTime]
        | log _ | slot _ _ => cases hid
      exact k.offerIf _ _ hid
  · exact h

/-- The reports applied, the log entry offered first (R154). -/
def withLog (p : Posting) (s : State) : State :=
  match p.log with
  | some ws => offerLog ws s
  | none => s

theorem offerLog_queue (ws : List Word) (s : State) :
    ((offerLog ws s).pu.queue = s.pu.queue ∨ ∃ l, (offerLog ws s).pu.queue = s.pu.queue ++ l) ∧
      (offerLog ws s).ru.dirty = s.ru.dirty ∧ (offerLog ws s).localTime = s.localTime := by
  refine ⟨?_, ?_, (offerLog_within ws s).localTime⟩
  · unfold offerLog
    split
    · next t h => exact Or.inr ⟨_, (show _ = t.pu.queue from rfl).trans (enqueue_queue h)⟩
    · exact Or.inl rfl
  · unfold offerLog
    split
    · next t h =>
      have e := enqueue_ru h
      show (countOccurrence .logWritten t).ru.dirty = _
      rw [show (countOccurrence .logWritten t).ru.dirty = t.ru.dirty from rfl, e]
    · rfl

theorem withLog_whole {id : RecordId} (p : Posting) {s : State} (hid : id.replaceable = true) (h : wholeCopies id s) :
    wholeCopies id (withLog p s) := by
  unfold withLog
  split
  · next ws _ =>
    unfold offerLog
    split
    · next t e =>
      intro r hr hi hb
      rw [recordWords_length _ s.freeBits _ s]
      change r ∈ t.pu.queue at hr
      rw [enqueue_queue e] at hr
      rcases List.mem_append.mp hr with hr | hr
      · exact h r hr hi hb
      · cases List.mem_singleton.mp hr
        rw [← hi] at hid; cases hid
    · exact h.congr rfl
  · exact h

/-- What a round does, offer by offer. -/
theorem report_eq (p : Posting) (before after : State) : report p before after =
    (let s := offerIf (statusChanged before (withLog p after)) .status (withLog p after)
     let s := offerIf (before.tu.directory != after.tu.directory) .directory (offerIf p.counter .counter s)
     let s := p.verdicts.foldl (fun t c => offer (.verdict c) t) s
     raiseTrace (offerIf p.trace (.trace 1) (offerIf p.trace (.trace 0) s))) := rfl

/-- A round leaves a record shown, if it is shown once the log entry has been offered. -/
theorem report_keeps {id : RecordId} (p : Posting) (before after : State) (hid : id.replaceable = true)
    (h : ShownWhole id (withLog p after)) : ShownWhole id (report p before after) := by
  rw [report_eq]
  exact raiseTrace_shown hid (((ShownWhole.verdicts hid p.verdicts _
    (((h.offerIf _ _ hid).offerIf _ _ hid).offerIf _ _ hid)).offerIf _ _ hid).offerIf _ _ hid)

/-- A round leaves the status record shown, if it was shown before the reports were applied or they changed it. -/
theorem report_status (p : Posting) {before after : State} (w : wholeCopies .status after)
    (q : after.pu.queue = before.pu.queue) (d : after.ru.dirty = before.ru.dirty) (t : after.localTime = before.localTime)
    (h : statusChanged before (withLog p after) = true ∨ Shown .status before) :
    ShownWhole .status (report p before after) := by
  rw [report_eq]
  have k : ShownWhole .status (offerIf (statusChanged before (withLog p after)) .status (withLog p after)) := by
    refine offerChanged_status (withLog_whole p rfl w) ?_ ?_ ?_ h
    · unfold withLog; split
      · exact (offerLog_queue _ _).2.2.trans t
      · exact t
    · rw [← q]
      unfold withLog; split
      · exact (offerLog_queue _ after).1
      · exact Or.inl rfl
    · unfold withLog; split
      · exact (offerLog_queue _ _).2.1.trans d
      · exact d
  exact raiseTrace_shown rfl (((ShownWhole.verdicts rfl p.verdicts _
    ((k.offerIf _ _ rfl).offerIf _ _ rfl)).offerIf _ _ rfl).offerIf _ _ rfl)

/-- The counter record is shown after a round that posts it. -/
theorem report_counter {p : Posting} (before : State) {after : State} (c : p.counter = true)
    (w : wholeCopies .counter after) : ShownWhole .counter (report p before after) := by
  rw [report_eq]
  have k : ShownWhole .counter (offerIf p.counter .counter
      (offerIf (statusChanged before (withLog p after)) .status (withLog p after))) := by
    rw [c]
    exact ShownWhole.of_offer rfl ((withLog_whole p rfl w).offerIf _ _)
  exact raiseTrace_shown rfl (((ShownWhole.verdicts rfl p.verdicts _ (k.offerIf _ _ rfl)).offerIf _ _ rfl).offerIf _ _ rfl)

/-- A verdict word is shown after a round that posts it. -/
theorem report_verdict {p : Posting} (before : State) {after : State} {i : Fin 48} (c : i ∈ p.verdicts)
    (w : wholeCopies (.verdict i) after) : ShownWhole (.verdict i) (report p before after) := by
  rw [report_eq]
  have k := ShownWhole.of_verdicts p.verdicts c _ ((((withLog_whole p rfl w).offerIf
    (statusChanged before (withLog p after)) .status).offerIf p.counter .counter).offerIf
    (before.tu.directory != after.tu.directory) .directory)
  exact raiseTrace_shown rfl ((k.offerIf _ _ rfl).offerIf _ _ rfl)

/-- Both trace halves are shown after a round that posts them. -/
theorem report_trace {p : Posting} (before : State) {after : State} (c : p.trace = true) (h : Fin 2)
    (w : wholeCopies (.trace h) after) : ShownWhole (.trace h) (report p before after) := by
  rw [report_eq]
  have k := wholeCopies.verdicts p.verdicts _ ((((withLog_whole p rfl w).offerIf
    (statusChanged before (withLog p after)) .status).offerIf p.counter .counter).offerIf
    (before.tu.directory != after.tu.directory) .directory)
  refine raiseTrace_shown rfl ?_
  rw [c]
  match h with
  | 0 => exact (ShownWhole.of_offer (id := .trace 0) rfl k).offer _ rfl
  | 1 => exact ShownWhole.of_offer (id := .trace 1) rfl (offer_whole _ k)

end Sys2Proof.Machine
end

