-- ==== Sys2Proof/Laws/Records.lean ====
section
/-! SUPPORT. The fields of a word built from fields, and the words of the records RU posts. -/

set_option Elab.async false

namespace Sys2Proof.Machine

/-! ### Fields of a word -/

/-- The bits of a union are the union of the bits. -/
theorem bits_or (a b : Word) (lo width : Nat) : bits (a ||| b) lo width = bits a lo width ||| bits b lo width := by
  unfold bits
  refine Nat.eq_of_testBit_eq fun i => ?_
  simp only [Nat.testBit_or, Nat.testBit_mod_two_pow, Nat.testBit_div_two_pow, BitVec.toNat_or]
  cases decide (i < width) <;> simp

theorem bits_testBit (w : Word) (lo width i : Nat) : (bits w lo width).testBit i = (decide (i < width) && w.getLsbD (i + lo)) := by
  unfold bits
  simp [Nat.testBit_mod_two_pow, Nat.testBit_div_two_pow, BitVec.getLsbD]

/-- A field read back at its own bits. -/
theorem bits_field_self (lo width v : Nat) (h : lo + width ≤ 32) : bits (field lo width v) lo width = v % 2 ^ width := by
  refine Nat.eq_of_testBit_eq fun i => ?_
  rw [bits_testBit, getLsbD_field, Nat.testBit_mod_two_pow]
  by_cases k : i < width
  · have a : i + lo < 32 := by omega
    simp [k, a]
  · simp [k]

/-- A field has no bit outside its own. -/
theorem bits_field_apart (lo width v lo' width' : Nat) (h : lo + width ≤ lo' ∨ lo' + width' ≤ lo) :
    bits (field lo width v) lo' width' = 0 := by
  refine Nat.eq_of_testBit_eq fun i => ?_
  rw [bits_testBit, getLsbD_field, Nat.zero_testBit]
  by_cases k : i < width'
  · by_cases l : lo ≤ i + lo'
    · have : ¬ (i + lo' - lo < width) := by omega
      simp [this]
    · simp [l]
  · simp [k]

theorem bits_flag_apart (n : Nat) (b : Bool) (lo width : Nat) (h : n < lo ∨ lo + width ≤ n) : bits (flag n b) lo width = 0 :=
  bits_field_apart _ _ _ _ _ (by omega)

/-- Reading a word of 32 bits as a field. -/
theorem bits_toNat (w : Word) : bits w 0 32 = w.toNat := by
  simp [bits, Nat.mod_eq_of_lt w.isLt]

/-! ### The top cause and the ring fields -/

/-- Bits that are clear are passed over, and the first that is set is found. -/
theorem firstSet_after (b : Byte) {i : Nat} (back : List Nat) (h : b.getLsbD i = true) (front : List Nat)
    (l : ∀ j ∈ front, b.getLsbD j = false) : firstSet b (front ++ i :: back) = i + 1 := by
  induction front with
  | nil => exact if_pos h
  | cons j js ih =>
    have clear : ¬ b.getLsbD j = true := by rw [l j List.mem_cons_self]; decide
    exact (if_neg clear).trans (ih fun k hk => l k (List.mem_cons_of_mem j hk))

/-- The first of the eight bits that is set. -/
theorem firstSet_of (b : Byte) {i : Nat} (hi : i < 8) (h : b.getLsbD i = true) (l : ∀ j < i, b.getLsbD j = false) :
    firstSet b [0, 1, 2, 3, 4, 5, 6, 7] = i + 1 := by
  have split : [0, 1, 2, 3, 4, 5, 6, 7] = List.range i ++ i :: List.range' (i + 1) (7 - i) := by
    interval_cases i <;> rfl
  rw [split]
  exact firstSet_after b _ h _ fun j hj => l j (List.mem_range.mp hj)

theorem firstSet_none (b : Byte) (l : List Nat) (h : ∀ j ∈ l, b.getLsbD j = false) : firstSet b l = 0 := by
  induction l with
  | nil => rfl
  | cons n ns ih =>
    have e : ¬ b.getLsbD n = true := by rw [h n (List.mem_cons_self ..)]; decide
    exact (if_neg e).trans (ih fun j k => h j (List.mem_cons_of_mem n k))

/-- A ring's two bits in status word 5. -/
theorem ringStates_bits (sf : StreamFramer) (r : Fin 8) : bits (ringStates sf) (2 * r.val) 2 = sf.rings[r].state.code := by
  have z (lo n : Nat) : bits 0 lo n = 0 := by simp [bits]
  have k (x : RingState) : x.code % 4 = x.code := by cases x <;> rfl
  unfold ringStates
  simp only [allChannels, List.foldl, bits_or, z]
  fin_cases r <;> simp [bits_field_self, bits_field_apart, k]

/-! ### What testing the holds leaves -/

/-- A test counts each hold case that applies and is not reported yet, and marks it (section 1.8). -/
theorem noteHolds_counted (x : Outstanding) (s : State) : noteHolds x s =
    let m := holdsOn s x
    counted ((if m.postFull && !x.reported.postFull then [Occurrence.hold .postFull] else []) ++
      (if m.recordRead && !x.reported.recordRead then [.hold .recordRead] else []) ++
      (if m.taskWait && !x.reported.taskWait then [.hold .taskWait] else []))
      { s with pu := { s.pu with access := some { x with
        standing := holdsNow s x.access
        reported := { postFull := x.reported.postFull || m.postFull
                      recordRead := x.reported.recordRead || m.recordRead
                      taskWait := x.reported.taskWait || m.taskWait } } } } := by
  unfold noteHolds counted countIf countOccurrence
  dsimp only
  cases ((holdsOn s x).postFull && !x.reported.postFull) <;> cases ((holdsOn s x).recordRead && !x.reported.recordRead) <;>
    cases ((holdsOn s x).taskWait && !x.reported.taskWait) <;>
    simp [setAccess, State.withPu, State.withRu, Vector.map_map]

/-- A test changes only what is reported of the outstanding access, and the counters. -/
theorem noteHolds_form (x : Outstanding) (s : State) : ∃ o cs, noteHolds x s =
    { s with pu := { s.pu with access := o }, ru := { s.ru with counters := cs } } :=
  ⟨_, _, noteHolds_counted x s⟩

/-- So does testing the holds. -/
theorem reportHolds_form (s : State) : ∃ o cs, reportHolds s =
    { s with pu := { s.pu with access := o }, ru := { s.ru with counters := cs } } := by
  unfold reportHolds
  split
  · exact ⟨s.pu.access, s.ru.counters, rfl⟩
  · split
    · exact ⟨s.pu.access, s.ru.counters, rfl⟩
    · exact noteHolds_form _ s

/-- So does the presentation of an access. -/
theorem startAccess_form (a : Access) (s : State) : ∃ o cs, startAccess a s =
    { s with pu := { s.pu with access := o }, ru := { s.ru with counters := cs } } := by
  unfold startAccess
  split
  · exact ⟨_, s.ru.counters, rfl⟩
  · obtain ⟨_, _, form⟩ := reportHolds_form (outstanding a (!isHeld s a) s)
    exact ⟨_, _, form⟩

/-- The hold cases do not look at the outstanding access, and what is reported of it. -/
theorem holdsNow_setAccess (o : Option Outstanding) (s : State) (a : Access) :
    holdsNow (setAccess o s) a = holdsNow s a := by
  have h1 : postFullHolds (setAccess o s) = postFullHolds s := postFullHolds_congr rfl
  have h3 : taskWaitHolds (setAccess o s) = taskWaitHolds s := taskWaitHolds_congr rfl rfl
  unfold holdsNow
  rw [h1, recordReadHolds_setAccess, h3]

/-- Nothing is left to report after a test. -/
theorem reportHolds_again (s : State) : reportHolds (reportHolds s) = reportHolds s := by
  have keep (x : Outstanding) (u : State) (ha : u.pu.access = some x) (hs : x.standing = holdsNow u x.access)
      (hp : ((holdsOn u x).postFull = true → x.reported.postFull = true) ∧
        ((holdsNow u x.access).recordRead = true → x.reported.recordRead = true) ∧
        ((holdsNow u x.access).taskWait = true → x.reported.taskWait = true)) : noteHolds x u = u := by
    have imp {a b : Bool} (h : a = true → b = true) : (a && !b) = false ∧ (b || a) = b := by
      cases a <;> cases b <;> simp_all
    rw [noteHolds_counted]
    have r : (holdsOn u x).recordRead = (holdsNow u x.access).recordRead := rfl
    have t : (holdsOn u x).taskWait = (holdsNow u x.access).taskWait := rfl
    simp only [(imp hp.1).1, (imp hp.1).2, r, t, (imp hp.2.1).1, (imp hp.2.1).2, (imp hp.2.2).1, (imp hp.2.2).2,
      Bool.false_eq_true, if_false, List.append_nil, counted, List.foldl_nil, Vector.map_id']
    rw [← hs, ← ha]
  obtain e | ⟨x, h, ar, e⟩ := reportHolds_cases s
  · rw [e, e]
  · rw [e, noteHolds_counted]
    extract_lets m
    generalize hu : counted _ _ = u
    have ha : u.pu.access = some { x with
        standing := holdsNow s x.access
        reported := { postFull := x.reported.postFull || m.postFull
                      recordRead := x.reported.recordRead || m.recordRead
                      taskWait := x.reported.taskWait || m.taskWait } } := by rw [← hu]; rfl
    have hn : holdsNow u x.access = holdsNow s x.access := by
      rw [← hu]
      exact holdsNow_setAccess _ s x.access
    unfold reportHolds
    rw [ha]
    dsimp only
    rw [if_neg (by simp [ar])]
    have r : recordReadHolds u x.access = (holdsNow s x.access).recordRead := by rw [← hn]; rfl
    have t : taskWaitHolds u = (holdsNow s x.access).taskWait := by rw [← hn]; rfl
    have p : postFullHolds u = postFullHolds s := congrArg HoldMarks.postFull hn
    refine keep _ u ha hn.symm ⟨fun k => ?_, fun k => ?_, fun k => ?_⟩
    · simp only [holdsOn, waitsOn, p, r, t, Bool.and_self, Bool.and_eq_true, Bool.not_eq_true', Bool.or_eq_false_iff] at k
      have w : waitsOn s x = false := by
        have hr : recordReadHolds s x.access = false := k.2.1
        have ht : taskWaitHolds s = false := k.2.2
        simp only [waitsOn, hr, ht, Bool.and_false, Bool.or_self]
      simp [m, holdsOn, w, k.1]
    · rw [hn] at k
      simp [m, holdsOn, k]
    · rw [hn] at k
      simp [m, holdsOn, k]

/-- The form of a step of the part's own while it runs. -/
theorem whileRunning_eq (f : State → State) {s : State} (h : s.inReset = false) :
    whileRunning f s = reportHolds (f (reportHolds s)) := by
  simp [whileRunning, h]

/-- After a step of the part's own the holds stand tested. -/
theorem whileRunning_tested (f : State → State) {s : State} (h : s.inReset = false) :
    reportHolds (whileRunning f s) = whileRunning f s := by
  rw [whileRunning_eq f h, reportHolds_again]

end Sys2Proof.Machine
end

