-- ==== Sys2Proof/Laws/Shows.lean ====
section
/-! SUPPORT. Every change of the status fields and of the slot directory is shown in its record (R155): the relation that an
operation keeps when it posts what it changes, through every operation of the blocks. -/

set_option Elab.async false

namespace Sys2Proof.Machine

/-! ### What two states show -/

/-- The record's contents, but for the local time, are the same in both states. -/
def Same : RecordId → State → State → Prop
  | .status, s, t => statusChanged s t = false
  | .directory, s, t => s.tu.directory = t.tu.directory
  | id, s, t => ∀ f, recordWords f s id = recordWords f t id

theorem statusChanged_false {s t : State} : statusChanged s t = false ↔ statusFields sameFree s = statusFields sameFree t := by
  simp [statusChanged]

theorem Same.refl (id : RecordId) (s : State) : Same id s s := by
  cases id <;> simp [Same, statusChanged]

theorem Same.symm {id : RecordId} {s t : State} (h : Same id s t) : Same id t s := by
  cases id with
  | status => exact statusChanged_false.mpr (statusChanged_false.mp h).symm
  | directory => exact Eq.symm h
  | counter | verdict _ | trace _ | log _ | slot _ _ => exact fun f => (h f).symm

theorem Same.trans {id : RecordId} {s t u : State} (h : Same id s t) (k : Same id t u) : Same id s u := by
  cases id with
  | status => exact statusChanged_false.mpr ((statusChanged_false.mp h).trans (statusChanged_false.mp k))
  | directory => exact Eq.trans h k
  | counter | verdict _ | trace _ | log _ | slot _ _ => exact fun f => (h f).trans (k f)

/-- At one local time a record with the same contents has the same words. -/
theorem Same.words {id : RecordId} {s t : State} (h : Same id s t) (e : t.localTime = s.localTime) (f : FreeBits) :
    recordWords f s id = recordWords f t id := by
  cases id with
  | status => simp only [recordWords, statusFields_same h f, e]
  | directory => exact congrArg (fun d : Vector DirEntry 12 => d.toList.map directoryWord) h
  | counter | verdict _ | trace _ | log _ | slot _ _ => exact h f

/-! ### A change that posts nothing -/

/-- Nothing has been posted: behind the queue stand at most TU's slot records. -/
structure Unposted (s t : State) : Prop where
  queue : ∃ l, t.pu.queue = s.pu.queue ++ l ∧ ∀ r ∈ l, r.id.replaceable = false
  dirty : t.ru.dirty = s.ru.dirty
  time : t.localTime = s.localTime

theorem Unposted.of_eq {s t : State} (q : t.pu.queue = s.pu.queue) (d : t.ru.dirty = s.ru.dirty)
    (e : t.localTime = s.localTime) : Unposted s t := ⟨⟨[], by simp [q]⟩, d, e⟩

theorem Unposted.refl (s : State) : Unposted s s := .of_eq rfl rfl rfl

theorem Unposted.trans {s t u : State} (h : Unposted s t) (k : Unposted t u) : Unposted s u := by
  obtain ⟨l, hl, pl⟩ := h.queue
  obtain ⟨m, hm, pm⟩ := k.queue
  refine ⟨⟨l ++ m, by rw [hm, hl, List.append_assoc], fun r hr => ?_⟩, k.dirty.trans h.dirty, k.time.trans h.time⟩
  exact (List.mem_append.mp hr).elim (pl r) (pm r)

theorem Unposted.ite {s t u : State} {p : Prop} [Decidable p] (h : Unposted s t) (k : Unposted s u) :
    Unposted s (if p then t else u) := by
  split <;> assumption

theorem Unposted.whole {id : RecordId} {s t : State} (h : Unposted s t) (hid : id.replaceable = true)
    (w : wholeCopies id s) : wholeCopies id t := by
  obtain ⟨l, hl, pl⟩ := h.queue
  intro r hr hi hb
  rw [recordWords_length _ s.freeBits _ s]
  rw [hl] at hr
  rcases List.mem_append.mp hr with hr | hr
  · exact w r hr hi hb
  · have := pl r hr
    rw [hi, hid] at this
    cases this

theorem Unposted.shown {id : RecordId} {s t : State} (h : Unposted s t) (e : Same id s t) (k : Shown id s) :
    Shown id t := by
  obtain ⟨l, hl, _⟩ := h.queue
  rcases k with ⟨f, r, hr, hi, hb, hw⟩ | k
  · exact Or.inl ⟨f, r, by rw [hl]; exact List.mem_append_left l hr, hi, hb, by rw [hw, e.words h.time]⟩
  · exact Or.inr (by rw [h.dirty]; exact k)

/-! ### A change that is posted -/

/-- The two records that are posted at every change of what they mirror (R155). -/
def Mirrors (id : RecordId) : Prop := id = .status ∨ id = .directory

theorem Mirrors.replaceable {id : RecordId} (h : Mirrors id) : id.replaceable = true := by
  rcases h with rfl | rfl <;> rfl

/-- From s to t the record follows its contents: where they change it is shown, and where they do not it stays shown. -/
structure Follows (id : RecordId) (s t : State) : Prop where
  time : t.localTime = s.localTime
  whole : wholeCopies id s → wholeCopies id t
  kept : wholeCopies id s → Same id s t → Shown id s → Shown id t
  shown : wholeCopies id s → ¬ Same id s t → Shown id t

theorem Follows.trans {id : RecordId} {s t u : State} (h : Follows id s t) (k : Follows id t u) : Follows id s u where
  time := k.time.trans h.time
  whole := fun w => k.whole (h.whole w)
  kept := fun w e z => by
    by_cases c : Same id s t
    · exact k.kept (h.whole w) (c.symm.trans e) (h.kept w c z)
    · exact k.shown (h.whole w) (fun d => c (e.trans d.symm)) 
  shown := fun w e => by
    by_cases c : Same id t u
    · exact k.kept (h.whole w) c (h.shown w fun d => e (d.trans c))
    · exact k.shown (h.whole w) c

theorem Follows.of_unposted {id : RecordId} {s t : State} (hid : id.replaceable = true) (h : Unposted s t)
    (e : Same id s t) : Follows id s t :=
  ⟨h.time, h.whole hid, fun _ d z => h.shown d z, fun _ d => absurd e d⟩

theorem Follows.refl {id : RecordId} (hid : id.replaceable = true) (s : State) : Follows id s s :=
  .of_unposted hid (Unposted.refl s) (Same.refl id s)

theorem Follows.ite {id : RecordId} {s t u : State} {p : Prop} [Decidable p] (h : Follows id s t) (k : Follows id s u) :
    Follows id s (if p then t else u) := by
  split <;> assumption

/-- An offer shows the contents and changes none. -/
theorem offer_follows {id : RecordId} (k : RecordId) (hid : id.replaceable = true) (s : State) :
    Follows id s (offer k s) := by
  have same : Same id s (offer k s) := by
    have words (f : FreeBits) : recordWords f s id = recordWords f (offer k s) id := (recordWords_offer f k id s).symm
    obtain ⟨q, d, g, e⟩ := offer_form k s
    cases id with
    | status => rw [e]; exact Same.refl .status s
    | directory => rw [e]; exact Same.refl .directory s
    | counter | verdict _ | trace _ | log _ | slot _ _ => exact words
  exact ⟨(offer_within k s).localTime, offer_whole k, fun w _ z => offer_keeps_shown k hid w z, fun _ e => absurd same e⟩

theorem offerIf_follows {id : RecordId} (b : Bool) (k : RecordId) (hid : id.replaceable = true) (s : State) :
    Follows id s (offerIf b k s) := Follows.ite (offer_follows k hid s) (Follows.refl hid s)

theorem verdicts_follow {id : RecordId} (hid : id.replaceable = true) (l : List (Fin 48)) :
    ∀ s, Follows id s (l.foldl (fun t c => offer (.verdict c) t) s) := by
  induction l with
  | nil => exact Follows.refl hid
  | cons c l ih => exact fun s => (offer_follows _ hid s).trans (ih _)

/-- What is offered where the contents have changed is shown, and what stays shown until then stays. -/
theorem Follows.offered {id : RecordId} {s z : State} (hid : id.replaceable = true) (b : Bool) (t : z.localTime = s.localTime)
    (whole : wholeCopies id s → wholeCopies id z) (kept : wholeCopies id s → Same id s z → Shown id s → Shown id z)
    (h : b = false → Same id s z) : Follows id s (offerIf b id z) := by
  cases b with
  | false => exact ⟨t, whole, kept, fun _ e => absurd (h rfl) e⟩
  | true =>
    exact ⟨((offer_within id z).localTime).trans t, fun w => offer_whole id (whole w),
      fun w _ _ => offer_shows hid (whole w), fun w _ => offer_shows hid (whole w)⟩

/-- Raising TRACE posts the status record if it changes it (R157). -/
theorem raiseTrace_follows {id : RecordId} (hid : Mirrors id) (s : State) : Follows id s (raiseTrace s) := by
  have r : id.replaceable = true := hid.replaceable
  unfold raiseTrace
  split
  · dsimp only
    have u : Unposted s (raiseCause .trace (s.withRu { s.ru with traceAwait := false })) := .of_eq rfl rfl rfl
    show Follows id s (offerIf (statusChanged s _) .status _)
    rcases hid with rfl | rfl
    · exact .offered r _ u.time (u.whole r) (fun _ => u.shown) id
    · exact (Follows.of_unposted r u rfl).trans (offerIf_follows _ _ r _)
  · exact Follows.refl r s

/-- A round of reports shows what has changed since before it, the state b having the same contents as s. -/
theorem report_follows {id : RecordId} (hid : Mirrors id) (p : Posting) {b s t : State}
    (h : Unposted s t) (e : Same id b s) : Follows id s (report p b t) := by
  have r : id.replaceable = true := hid.replaceable
  have logged : Unposted t (withLog p t) := by
    unfold withLog
    split
    · next ws _ =>
      obtain ⟨_, d, e⟩ := offerLog_queue ws t
      refine ⟨?_, d, e⟩
      unfold offerLog
      split
      · next u k =>
        refine ⟨_, (enqueue_queue k : u.pu.queue = _), fun x hx => ?_⟩
        cases List.mem_singleton.mp hx
        rfl
      · exact ⟨[], by simp [countOccurrence]⟩
    · exact Unposted.refl t
  have dir : (withLog p t).tu = t.tu := by
    unfold withLog
    split
    · exact (offerLog_within _ t).tu rfl
    · rfl
  have u := h.trans logged
  rw [report_eq]
  refine Follows.trans ?_ (raiseTrace_follows hid _)
  refine Follows.trans ?_ ((offerIf_follows _ _ r _).trans (offerIf_follows _ _ r _))
  refine Follows.trans ?_ (verdicts_follow r p.verdicts _)
  rcases hid with rfl | rfl
  · refine Follows.trans ?_ ((offerIf_follows _ _ r _).trans (offerIf_follows _ _ r _))
    exact .offered r _ u.time (u.whole r) (fun _ => u.shown) fun c => e.symm.trans c
  · have k := (offerIf_follows (id := .directory) (statusChanged b (withLog p t)) .status r (withLog p t)).trans
      (offerIf_follows p.counter .counter r _)
    have same : Same .directory (withLog p t) (offerIf p.counter .counter
        (offerIf (statusChanged b (withLog p t)) .status (withLog p t))) :=
      (congrArg TaskUnit.directory (((offerIf_within _ _ _).trans (offerIf_within _ _ _)).tu rfl)).symm
    refine .offered r _ (k.time.trans u.time) (fun w => k.whole (u.whole r w))
      (fun w c z => k.kept (u.whole r w) same (u.shown (Same.trans (id := .directory) c same.symm) z)) fun c => ?_
    have bt : b.tu.directory = t.tu.directory := by simpa using c
    have tz : Same .directory t (withLog p t) := (congrArg TaskUnit.directory dir).symm
    exact Same.trans (id := .directory) (Same.trans (id := .directory) (e.symm.trans bt) tz) same

/-- A step of a part that the two records do not mirror. -/
theorem Follows.aside {id : RecordId} (hid : Mirrors id) {s t : State} (h : Unposted s t)
    (a : statusFields sameFree t = statusFields sameFree s) (b : t.tu.directory = s.tu.directory) : Follows id s t := by
  refine .of_unposted hid.replaceable h ?_
  rcases hid with rfl | rfl
  · exact statusChanged_false.mpr a.symm
  · exact b.symm

theorem withHx_follows {id : RecordId} (hid : Mirrors id) (s : State) (x : HitExtractor) : Follows id s (s.withHx x) :=
  .aside hid (.of_eq rfl rfl rfl) rfl rfl

theorem countOccurrence_follows {id : RecordId} (hid : Mirrors id) (o : Occurrence) (s : State) :
    Follows id s (countOccurrence o s) := .aside hid (.of_eq rfl rfl rfl) rfl rfl

theorem countIf_follows {id : RecordId} (hid : Mirrors id) (b : Bool) (o : Occurrence) (s : State) :
    Follows id s (countIf b o s) := .ite (countOccurrence_follows hid o s) (Follows.refl hid.replaceable s)

/-! ### Counting and raising post nothing -/

theorem withRu_unposted {s : State} {x : ReportUnit} (h : x.dirty = s.ru.dirty) : Unposted s (s.withRu x) :=
  .of_eq rfl h rfl

theorem countOccurrence_unposted (o : Occurrence) (s : State) : Unposted s (countOccurrence o s) := .of_eq rfl rfl rfl

theorem countIf_unposted (b : Bool) (o : Occurrence) (s : State) : Unposted s (countIf b o s) :=
  .ite (countOccurrence_unposted o s) (.refl s)

theorem raiseCause_unposted (c : Cause) (s : State) : Unposted s (raiseCause c s) := .of_eq rfl rfl rfl

theorem raiseIf_unposted (b : Bool) (c : Cause) (s : State) : Unposted s (raiseIf b c s) :=
  .ite (raiseCause_unposted c s) (.refl s)

theorem handVerdicts_unposted (cs : List (Fin 48)) (s : State) : Unposted s (handVerdicts cs s) := by
  unfold handVerdicts
  split
  · exact withRu_unposted rfl
  · exact .refl s

/-! ### EU and EL -/

theorem closeEffect_unposted (forced : Bool) (s : State) : Unposted s (closeEffect forced s) := by
  unfold closeEffect
  split
  · exact .refl s
  · exact .of_eq rfl rfl rfl
  · refine Unposted.trans ?_ (handVerdicts_unposted _ _)
    refine Unposted.trans ?_ ((raiseIf_unposted _ _ _).trans (raiseIf_unposted _ _ _))
    refine Unposted.trans ?_ (raiseCause_unposted _ _)
    refine Unposted.trans ?_ ((countOccurrence_unposted .cycleClosed _).trans (countIf_unposted _ _ _))
    exact .of_eq rfl rfl rfl

theorem createEntry_unposted (c : Half) (start : Time) (s : State) : Unposted s (createEntry c start s) := by
  unfold createEntry
  refine Unposted.trans ?_ (countIf_unposted _ _ _)
  exact .of_eq rfl rfl rfl

section
variable {id : RecordId} (hid : Mirrors id)
include hid

theorem closeLoop_follows (n : Nat) : ∀ s, Follows id s (closeLoop n s) := by
  induction n with
  | zero => exact Follows.refl hid.replaceable
  | succ n ih =>
    exact fun s => .ite ((report_follows hid _ (closeEffect_unposted false s) (Same.refl id s)).trans (ih _))
      (Follows.refl hid.replaceable s)

theorem testClose_follows (s : State) : Follows id s (testClose s) := closeLoop_follows hid _ s

theorem blockBegun_follows (c : Half) (start : Time) (s : State) : Follows id s (blockBegun c start s) := by
  refine .ite (Follows.refl hid.replaceable s) (Follows.trans ?_ (testClose_follows hid _))
  exact .ite (report_follows hid _ (createEntry_unposted c start s) (Same.refl id s))
    (report_follows hid _ ((closeEffect_unposted true s).trans (createEntry_unposted c start _)) (Same.refl id s))

theorem reportEvent_follows (e : EventRecord) {s t : State} (h : Unposted s t) : Follows id s (reportEvent e s t) := by
  unfold reportEvent
  refine report_follows hid _ ?_ (Same.refl id s)
  refine Unposted.trans (h.trans ((countOccurrence_unposted (.event e.outcome) t).trans
    (countIf_unposted e.forced .eventForced _))) ?_
  unfold countTrace
  exact .ite (.refl _) (.ite (withRu_unposted rfl) (withRu_unposted rfl))

theorem formEvent_follows (forced : Bool) (s : State) : Follows id s (formEvent forced s) := by
  unfold formEvent
  split
  · exact Follows.refl hid.replaceable s
  · dsimp only
    split
    · exact reportEvent_follows hid _ (.of_eq rfl rfl rfl)
    · exact .ite (reportEvent_follows hid _ (.of_eq rfl rfl rfl)) (reportEvent_follows hid _ (.of_eq rfl rfl rfl))

theorem formLoop_follows (n : Nat) : ∀ s, Follows id s (formLoop n s) := by
  induction n with
  | zero => exact Follows.refl hid.replaceable
  | succ n ih =>
    exact fun s => .ite (((formEvent_follows hid false s).trans (testClose_follows hid _)).trans (ih _))
      (Follows.refl hid.replaceable s)

theorem locatorTest_follows (s : State) : Follows id s (locatorTest s) :=
  (formLoop_follows hid _ s).trans (testClose_follows hid _)

theorem placeHit_follows (h : Hit) (s : State) : Follows id s (placeHit h s) :=
  .ite (countOccurrence_follows hid _ s) (.aside hid (.of_eq rfl rfl rfl) rfl rfl)

theorem deliverHit_follows (h : Hit) (s : State) : Follows id s (deliverHit h s) := by
  refine .ite (countOccurrence_follows hid _ s) (.ite ?_ ?_)
  · exact (placeHit_follows hid h s).trans (locatorTest_follows hid _)
  · exact (((formEvent_follows hid true s).trans (testClose_follows hid _)).trans (placeHit_follows hid h _)).trans
      (locatorTest_follows hid _)

/-! ### HX -/

theorem putChannel_follows (c : Fin 8) (x : Channel) (s : State) : Follows id s (putChannel c x s) :=
  withHx_follows hid s _

theorem putChannelState_follows (c : Fin 8) (x : ChannelState) (s : State) : Follows id s (putChannelState c x s) :=
  withHx_follows hid s _

theorem putBlock_follows (b : Option BlockInWork) (s : State) : Follows id s (putBlock b s) := withHx_follows hid s _

theorem refreshCovered_follows (c : Fin 8) (s : State) : Follows id s (refreshCovered c s) := by
  unfold refreshCovered
  dsimp only
  refine .ite (Follows.refl hid.replaceable s) ?_
  refine .ite (putChannel_follows hid c _ s) ?_
  refine (putChannel_follows hid c ((channelOf s c).cover (coveredTo s c)) s).trans ?_
  refine Follows.trans ?_ (locatorTest_follows hid _)
  exact .aside hid (.of_eq rfl rfl rfl) rfl rfl

theorem disposeHit_follows (c : Fin 8) (h : OpenHit) (truncated : Bool) (s : State) :
    Follows id s (disposeHit c h truncated s) := by
  unfold disposeHit
  refine .ite (countOccurrence_follows hid _ s) (.ite (countOccurrence_follows hid _ s) ?_)
  exact (((countOccurrence_follows hid _ s).trans (countIf_follows hid _ _ _)).trans (putChannel_follows hid _ _ _)).trans
    (deliverHit_follows hid _ _)

theorem closeHit_follows (c : Fin 8) (b t : Nat) (h : OpenHit) (truncated : Bool) (s : State) :
    Follows id s (closeHit c b t h truncated s) :=
  ((putChannelState_follows hid _ _ s).trans (disposeHit_follows hid _ _ _ _)).trans (refreshCovered_follows hid _ _)

theorem followHit_follows (c : Fin 8) (b t : Nat) (h : OpenHit) (x : Nat) (s : State) :
    Follows id s (followHit c b t h x s) := by
  unfold followHit
  dsimp only
  split
  · exact putChannelState_follows hid _ _ s
  · exact closeHit_follows hid _ _ _ _ _ s
  · exact closeHit_follows hid _ _ _ _ _ s

theorem sampleEffect_follows (w : BlockInWork) (s : State) : Follows id s (sampleEffect w s) := by
  unfold sampleEffect
  dsimp only
  split
  · exact Follows.refl hid.replaceable s
  · exact putBlock_follows hid _ s
  · exact .ite (((putChannelState_follows hid _ _ s).trans (refreshCovered_follows hid _ _)).trans
      (followHit_follows hid _ _ _ _ _ _)) (putChannelState_follows hid _ _ s)
  · exact followHit_follows hid _ _ _ _ _ s
  · exact .ite (putChannelState_follows hid _ _ s) (putChannelState_follows hid _ _ s)

theorem processSample_follows (w : BlockInWork) (s : State) : Follows id s (processSample w s) := by
  unfold processSample
  have h := (putBlock_follows hid (some { w with next := w.next + 1 }) s).trans (sampleEffect_follows hid w _)
  refine .ite h (h.trans ?_)
  have seed (u : State) : Follows id u (seedChannel w.entry.channel (w.sum + sampleAt w.entry w.next) u) :=
    .ite (putChannelState_follows hid _ _ u) (Follows.refl hid.replaceable u)
  exact (((seed _).trans (putChannel_follows hid _ _ _)).trans (putBlock_follows hid _ _)).trans
    (refreshCovered_follows hid _ _)

theorem beginBlock_follows (e : AcceptedBlock) (s : State) : Follows id s (beginBlock e s) := by
  have again (u : State) : Follows id u (recomputeThreshold e.channel u) := by
    unfold recomputeThreshold
    split <;> first | exact putChannelState_follows hid _ _ u | exact Follows.refl hid.replaceable u
  have breaks (u : State) : Follows id u (breakChannel e.channel u) := by
    unfold breakChannel
    split
    · exact ((putChannelState_follows hid _ _ u).trans (countOccurrence_follows hid _ _)).trans
        (refreshCovered_follows hid _ _)
    all_goals first | exact putChannelState_follows hid _ _ u | exact Follows.refl hid.replaceable u
  unfold beginBlock
  have h := ((putBlock_follows hid (some { entry := e, next := 0, sum := 0 }) s).trans
    (putChannel_follows hid e.channel _ _)).trans (again (takeParams e.channel _))
  exact (Follows.ite h (h.trans (breaks _))).trans (blockBegun_follows hid _ _ _)

/-! ### SF -/

/-- A ring with the same state code and marks shows the same (R153). -/
theorem putRing_follows (r : Fin 8) (x : Ring) (s : State) (c : x.state.code = s.sf.rings[r].state.code)
    (d : x.defined = s.sf.rings[r].defined) (e : x.stale = s.sf.rings[r].stale) : Follows id s (putRing r x s) := by
  refine .aside hid (.of_eq rfl rfl rfl) ?_ rfl
  have pick {α : Type} (f : Ring → α) (h : f x = f s.sf.rings[r]) (q : Fin 8) :
      f (s.sf.rings.set r x)[q] = f s.sf.rings[q] := by
    simp only [Fin.getElem_fin, Vector.getElem_set]
    split
    · next k => rw [h]; simp [k]
    · rfl
  have five : statusWord5 (putRing r x s) = statusWord5 s := by
    show ringStates { s.sf with rings := s.sf.rings.set r x } ||| ringMarks { s.sf with rings := s.sf.rings.set r x } 16 _ |||
      ringMarks { s.sf with rings := s.sf.rings.set r x } 24 _ = _
    unfold statusWord5 ringStates ringMarks
    simp only [pick (fun y => y.state.code) c, pick Ring.stale e, pick Ring.defined d]
  show [_, _, _, _, _, statusWord5 (putRing r x s), _, _, _, _, _] = _
  rw [five]
  rfl

theorem refuseBlock_follows (why : RefuseReason) (stream : Bool) (r : Fin 8) (next : RingState) (s : State) :
    Follows id s (refuseBlock why stream r next s) := by
  refine report_follows hid _ (Unposted.trans ?_ (raiseIf_unposted _ _ _)) (Same.refl id s)
  exact .of_eq rfl rfl rfl

theorem startCapture_follows (r : Fin 8) (p : Nat) (d : Word) (s : State) : Follows id s (startCapture r p d s) :=
  report_follows hid _ (.of_eq rfl rfl rfl) (Same.refl id s)

theorem huntWrite_follows (r : Fin 8) (off : Nat) (be : Enables) (d : Word) (s : State) :
    Follows id s (huntWrite r off be d s) :=
  .ite (.ite (startCapture_follows hid _ _ _ s) (refuseBlock_follows hid _ _ _ _ s)) (Follows.refl hid.replaceable s)

theorem fallAndHunt_follows (why : RefuseReason) (r : Fin 8) (off : Nat) (be : Enables) (d : Word) (s : State) :
    Follows id s (fallAndHunt why r off be d s) :=
  (refuseBlock_follows hid _ _ _ _ s).trans (huntWrite_follows hid _ _ _ _ _)

theorem closeCapture_follows (r : Fin 8) (c : Capture) (d : Word) (s : State) : Follows id s (closeCapture r c d s) := by
  refine .ite (refuseBlock_follows hid _ _ _ _ s) (.ite ?_ ?_)
  · refine Follows.trans (report_follows hid _ ?_ (Same.refl id s)) (refreshCovered_follows hid _ _)
    have mark (m : BlockMark) (u : State) : Unposted u (countMark m u) := by
      cases m
      · exact .refl u
      · exact countOccurrence_unposted _ u
      · exact countOccurrence_unposted _ u
    refine Unposted.trans ?_ (mark _ _)
    exact .of_eq rfl rfl rfl
  · have forced : Follows id s (putRing r { ringOf s r with forced := true } s) := putRing_follows hid r _ s rfl rfl rfl
    exact forced.trans (refuseBlock_follows hid _ _ _ _ _)

/-- A write of a ring. -/
theorem ringWrite_follows (r : Fin 8) (off : Nat) (be : Enables) (d : Word) (s : State) :
    Follows id s (ringWrite r off be d s) := by
  unfold ringWrite
  split
  · exact Follows.refl hid.replaceable s
  · exact huntWrite_follows hid _ _ _ _ s
  · next c h =>
    refine .ite (fallAndHunt_follows hid _ _ _ _ _ s) (.ite (fallAndHunt_follows hid _ _ _ _ _ s)
      (.ite ?_ (closeCapture_follows hid _ _ _ s)))
    have code : s.sf.rings[r].state.code = 2 := by rw [show s.sf.rings[r].state = _ from h]; rfl
    exact putRing_follows hid r _ s code.symm rfl rfl
  · exact .ite (.ite (startCapture_follows hid _ _ _ s) (refuseBlock_follows hid _ _ _ _ s))
      (fallAndHunt_follows hid _ _ _ _ _ s)

theorem timeoutBlock_follows (r : Fin 8) (s : State) : Follows id s (timeoutBlock r s) := by
  unfold timeoutBlock
  split
  · exact .ite (refuseBlock_follows hid _ _ _ _ s) (Follows.refl hid.replaceable s)
  all_goals exact Follows.refl hid.replaceable s

theorem staleRing_follows (r : Fin 8) (s : State) : Follows id s (staleRing r s) := by
  unfold staleRing
  refine .ite (Follows.trans ?_ (refreshCovered_follows hid _ _)) (Follows.refl hid.replaceable s)
  exact report_follows hid _ (.of_eq rfl rfl rfl) (Same.refl id s)

end

end Sys2Proof.Machine
end

