-- ==== Sys2Proof/Laws/Starts.lean ====
section
/-! SUPPORT. What the beginning of a task does: admission with no task running, the mounted slot, the save phase as one update,
and a slot image asked for before or after the frame's outcome; and the rows that serve a task read. -/

set_option Elab.async false

namespace Sys2Proof.Machine

/-! ### Numbers of a bounded type -/

theorem fin_of_val {n : Nat} [NeZero n] {a : Nat} {r : Fin n} (h : a = r.val) : Fin.ofNat n a = r := by
  subst h
  ext
  simp [Fin.ofNat, Nat.mod_eq_of_lt r.isLt]

/-! ### Admission -/

theorem admitTask_now {t : Task} {s : State} (ht : t ≠ .sweep) (h : s.tu.running = none) :
    admitTask t s = (.started, beginTask t s) := by
  unfold admitTask admission
  simp [ht, h]

theorem profileNumberInUse_eu {a b : State} (h : a.eu = b.eu) : profileNumberInUse a = profileNumberInUse b := by
  unfold profileNumberInUse liveMould
  rw [h]

/-! ### The mounted slot -/

theorem mountedSlot_of_mountedAt {s : State} {n : Fin 12} (h : mountedAt s n) : mountedSlot s.tu = some n := by
  have all : ∀ q : Fin 12, q ∈ allSlots := by decide
  unfold mountedSlot
  cases e : allSlots.find? fun n => s.tu.directory[n].state == .mounted with
  | none =>
    rw [List.find?_eq_none] at e
    have := e n (all n)
    simp at this
    exact absurd ((h n).2 rfl) this
  | some k =>
    have := List.find?_some e
    simp at this
    rw [(h k).1 this]

theorem mountedMould_of_mountedAt {s : State} {m : Mould} {n : Fin 12} (l : s.eu.state = .running ∨ s.eu.state = .held)
    (e : s.eu.mould = some m) (h : mountedAt s n) : mountedMould s = some (m, n) := by
  unfold mountedMould liveMould
  have : s.eu.state.live = true := by rcases l with l | l <;> rw [l] <;> rfl
  rw [this, mountedSlot_of_mountedAt h]
  simp [e]

/-! ### A slot image asked for -/

theorem enqueue_withOutcome (c : Command) (o : FrameOutcome) (id : RecordId) (ws : List Word) (s : State) :
    enqueue id ws (withOutcome c o s) = (enqueue id ws s).map (withOutcome c o) := by
  unfold enqueue
  rw [show (withOutcome c o s).pu = s.pu from rfl]
  split <;> rfl

theorem askRecords_withOutcome (c : Command) (o : FrameOutcome) (n : Nat) :
    ∀ s, askRecords n (withOutcome c o s) = withOutcome c o (askRecords n s) := by
  induction n with
  | zero => intro s; rfl
  | succ n ih =>
    intro s
    unfold askRecords
    rw [show (withOutcome c o s).tu = s.tu from rfl]
    split
    · next w hw =>
      split
      · rw [enqueue_withOutcome]
        cases enqueue (.slot w.slot w.next) (imageRecord w.image w.next) s with
        | none => rfl
        | some t => exact ih (t.withTu { t.tu with writer := some { w with next := w.next + 1 } })
      · rfl
    · rfl

theorem askRecords_eu (n : Nat) : ∀ s, (askRecords n s).eu = s.eu := by
  induction n with
  | zero => intro s; rfl
  | succ n ih =>
    intro s
    unfold askRecords
    split
    · split
      · split
        · next h =>
          rw [ih]
          unfold enqueue at h
          split at h <;> cases h
          rfl
        · rfl
      · rfl
    · rfl

/-! ### The save phase -/

theorem discarded_eq (l : List CycleEntry) : ∀ s : State,
    (l.foldl (fun t _ => countOccurrence .cycleDiscarded t) s) = s.withRu { s.ru with
      counters := s.ru.counters.map fun c => l.foldl (fun c _ => c.occur .cycleDiscarded) c } := by
  induction l with
  | nil => intro s; simp; rfl
  | cons a l ih =>
    intro s
    simp only [List.foldl_cons]
    rw [ih]
    unfold countOccurrence
    simp only [State.withRu_ru, Vector.map_map]
    rfl

theorem openSave_eq (k : Task) (m : Mould) (n : Fin 12) (s : State) :
    openSave k m n s = askRecords 16 { s with
      eu := { s.eu with state := .changing, mould := none, cycles := [], newest := none }
      tu := { s.tu with
        snapshot := some m
        directory := s.tu.directory.set n { s.tu.directory[n] with state := .saving }
        running := some { task := k, phase := .writing }
        writer := some { slot := n, image := mouldImage m, next := 0 } }
      ru := { s.ru with
        counters := s.ru.counters.map fun c => s.eu.cycles.foldl (fun c _ => c.occur .cycleDiscarded) c } } := by
  unfold openSave beginWriting discardCycles setSnapshot setEuState withMould putSlot putEntry slotEntry setRunning
  dsimp only
  simp only [discarded_eq]
  simp only [State.withTu, State.withEu, State.withRu]

/-! ### Rows that serve -/

/-- A test of the holds leaves it as it is whether the access is served next. -/
theorem accessEligible_tested (s : State) : accessEligible (reportHolds s) = accessEligible s := by
  obtain e | ⟨x, h, ar, e⟩ := reportHolds_cases s
  · rw [e]
  · have hn (o : Option Outstanding) : isHeld (setAccess o s) x.access = isHeld s x.access := isHeld_setAccess o s _
    rw [e, noteHolds_counted]
    simp only [accessEligible, h, counted, Option.map_some, Option.getD_some]
    rw [show ∀ (cs : Vector Counter 4) (o : Option Outstanding),
      isHeld { s with pu := { s.pu with access := o }, ru := { s.ru with counters := cs } } x.access =
        isHeld s x.access from fun _ o => hn o]

theorem portTaken_tested (s : State) : portTaken (reportHolds s) = portTaken s := by
  obtain e | ⟨x, h, ar, e⟩ := reportHolds_cases s
  · rw [e]
  · rw [e, noteHolds_counted]
    simp only [portTaken, h, counted, Option.map_some, Option.getD_some]

/-- A test of the holds leaves the arbiter's choice as it is (R13). -/
theorem servesRead_tested (s : State) (r : TaskRead) : servesRead (reportHolds s) r = servesRead s r := by
  obtain ⟨o, cs, form⟩ := reportHolds_form s
  have rest : readClear (reportHolds s) r = readClear s r ∧ promoted (reportHolds s) r = promoted s r ∧
      (reportHolds s).pu.queue = s.pu.queue := by rw [form]; exact ⟨rfl, rfl, rfl⟩
  unfold servesRead
  rw [accessEligible_tested, portTaken_tested, rest.1, rest.2.1, rest.2.2]

theorem servesPost_tested (s : State) : servesPost (reportHolds s) = servesPost s := by
  obtain ⟨o, cs, form⟩ := reportHolds_form s
  have rest : choiceOne (reportHolds s) = choiceOne s ∧ (reportHolds s).pu.queue = s.pu.queue := by
    rw [form]
    exact ⟨rfl, rfl⟩
  unfold servesPost
  rw [accessEligible_tested, rest.1, rest.2]

/-- The row of a queued word that the arbiter serves: the holds are tested before it and after it. -/
theorem postWordPerformed_serves {s : State} (h : s.inReset = false) (hs : servesPost s = true) :
    exec .postWordPerformed s = .next (reportHolds (performWord (reportHolds s))) := by
  simp only [exec, execPostWordPerformed, whileRunning_eq _ h, servesPost_tested, hs, if_true]

/-- The row of a task read that the arbiter serves: the holds are tested before it and after it. -/
theorem taskReadData_serves {s : State} {r : TaskRead} (h : s.inReset = false) (hr : s.pu.taskRead = some r)
    (hs : servesRead s r = true) : exec .taskReadData s = .next (reportHolds (serveRead r (reportHolds s))) := by
  have k : (reportHolds s).pu.taskRead = some r := ((reportHolds_within s).taskRead rfl).trans hr
  simp only [exec, execTaskReadData, whileRunning_eq _ h, serveIfChosen, k, servesRead_tested, hs, if_true]

/-- A round of TU's reports posts, and no test follows where the profile in use stays and none of its kind was loaded. -/
theorem reportTask_posted {p : Posting} {before after : State} (hp : p.log = none)
    (h : profileNumberInUse before = profileNumberInUse after) : PostedFrom after (reportTask p false before after) := by
  have e := report_posted p before after hp
  unfold reportTask
  rw [followProfile_same]
  · exact e
  · rw [h]
    exact (profileNumberInUse_eu (e.within.eu rfl)).symm

theorem reportTask_located (p : Posting) (b : Bool) (before after : State) (hp : p.log = none) :
    Located after (reportTask p b before after) :=
  (report_posted p before after hp).located.trans (followProfile_located b before _)

/-! ### The end of a task -/

theorem taskEnded_eq (t : Task) (r : TaskResult) (s : State) : setRunning none (noteResult t r s) = taskEnded t r s := by
  unfold setRunning noteResult taskEnded raiseCause setTaskFail
  split <;> rfl

theorem mem_allSlots (n : Fin 12) : n ∈ allSlots := by
  revert n
  decide

/-- The slot that the sweep takes, found by its search. -/
theorem sweepSlot_iff (tu : TaskUnit) (s : State) (h : s.tu = tu) (n : Fin 12) :
    sweepSlot tu = some n ↔ takesSlot s tu.sweep.next n := by
  subst h
  unfold sweepSlot
  generalize hp : (fun n : Fin 12 => decide (s.tu.sweep.next ≤ n.val) && !s.tu.directory[n].state.busy) = p
  have key : ∀ p : Fin 12 → Bool, allSlots.find? p = some n ↔ p n = true ∧ ∀ m : Fin 12, m.val < n.val → p m = false := by
    intro p
    have e : allSlots = List.finRange 12 := by decide
    rw [e, List.find?_eq_some_iff_getElem]
    constructor
    · rintro ⟨hn, i, hi, e, hb⟩
      have hin : i = n.val := by rw [← e]; simp
      refine ⟨hn, fun m hm => ?_⟩
      have := hb m.val (by omega)
      simpa using this
    · rintro ⟨hn, hb⟩
      refine ⟨hn, n.val, by simp, by simp, fun j hj => ?_⟩
      have := hb ⟨j, by omega⟩ hj
      simpa using this
  rw [key]
  subst hp
  unfold takesSlot
  simp only [Bool.and_eq_true, decide_eq_true_eq, Bool.not_eq_true', Bool.and_eq_false_iff, decide_eq_false_iff_not,
    Bool.not_eq_false']
  constructor
  · rintro ⟨⟨a, b⟩, c⟩
    exact ⟨a, b, fun m l k => (c m k).resolve_left (fun z => z l)⟩
  · rintro ⟨a, b, c⟩
    refine ⟨⟨a, b⟩, fun m k => ?_⟩
    by_cases l : s.tu.sweep.next ≤ m.val
    · exact Or.inr (c m l k)
    · exact Or.inl l

theorem sweepSlot_none (s : State) : sweepSlot s.tu = none ↔ ∀ n, ¬ takesSlot s s.tu.sweep.next n := by
  constructor
  · intro h n k
    rw [(sweepSlot_iff s.tu s rfl n).2 k] at h
    cases h
  · intro h
    cases e : sweepSlot s.tu with
    | none => rfl
    | some n => exact absurd ((sweepSlot_iff s.tu s rfl n).1 e) (h n)

/-- The sweep goes on with the slot it takes. -/
theorem sweepGo_reads {s : State} {n : Fin 12} (h : takesSlot s s.tu.sweep.next n) : sweepGo s = sweepReads n s := by
  unfold sweepGo
  rw [(sweepSlot_iff s.tu s rfl n).2 h]
  rfl

theorem endSweep_eq {s : State} : endSweep s = beginPending (sweepEnded s) := by
  unfold endSweep
  dsimp only
  rw [taskEnded_eq]
  rfl

theorem beginPending_none {s : State} (h : s.tu.pendingTask = none) : beginPending s = s := by
  unfold beginPending
  rw [h]

/-- The sweep ends where no slot is left. -/
theorem sweepGo_ends {s : State} (h : ∀ n, ¬ takesSlot s s.tu.sweep.next n) (p : s.tu.pendingTask = none) :
    sweepGo s = sweepEnded s := by
  unfold sweepGo
  rw [(sweepSlot_none s).2 h]
  dsimp only
  rw [endSweep_eq, beginPending_none]
  exact p

/-- A task other than a sweep that ends while none is pending. -/
theorem endTask_goesOn {s : State} (t : Task) (r : TaskResult) (h : s.tu.pendingTask = none) :
    GoesOn (taskEnded t r s) (endTask t r s) := by
  unfold endTask
  rw [taskEnded_eq]
  dsimp only
  have p : (taskEnded t r s).tu.pendingTask = none := h
  rw [p]
  dsimp only [Option.isSome_none]
  rw [if_neg (by simp)]
  refine ⟨fun y => if_neg y, fun y n k => ?_, fun y k => ?_⟩
  · rw [if_pos y]
    exact sweepGo_reads k
  · rw [if_pos y]
    exact sweepGo_ends k p

end Sys2Proof.Machine
end

