-- ==== Sys2Proof/Laws/StepInvariant.lean ====
section
/-! SUPPORT. The invariants of Safety.lean through TU, the owners of commands, CD and PU. -/

set_option Elab.async false

namespace Sys2Proof.Machine

/-! ### TU -/

theorem Sound.withTu {s : State} (h : Sound s) (x : TaskUnit) : Sound (s.withTu x) := h.same rfl rfl rfl rfl rfl

theorem setEuState_sound (x : EvidenceState) {s : State} (h : Sound s) : Sound (setEuState x s) :=
  h.same rfl rfl rfl rfl rfl

theorem presentTaskRead_sound (w : WordAddr) {s : State} (h : Sound s) : Sound (presentTaskRead w s) :=
  h.same rfl rfl rfl rfl rfl

theorem slotTouched_sound (n : Fin 12) {s : State} (h : Sound s) : Sound (slotTouched n s) := by
  unfold slotTouched
  refine Sound.report ?_ _ _
  split
  · exact (h.withTu _).withTu _
  · exact h.withTu _

theorem askRecords_sound (n : Nat) : ∀ {s}, Sound s → Sound (askRecords n s) := by
  induction n with
  | zero => exact fun h => h
  | succ n ih =>
    intro s h
    unfold askRecords
    split
    · split
      · split
        · next t e =>
          refine ih (Sound.withTu (h.post (enqueue_within e) fun _ => ?_) _)
          exact enqueue_fits e
        · exact h
      · exact h
    · exact h

theorem beginWriting_sound (n : Fin 12) (image : List Word) {s : State} (h : Sound s) :
    Sound (beginWriting n image s) := askRecords_sound 16 (h.withTu _)

theorem beginReading_sound (n : Fin 12) {s : State} (h : Sound s) : Sound (beginReading n s) :=
  presentTaskRead_sound _ (h.withTu _)

theorem discardCycles_sound {s : State} (h : Sound s) : Sound (discardCycles s) := by
  unfold discardCycles
  have w : Within .onlyRu s (s.eu.cycles.foldl (fun t _ => countOccurrence .cycleDiscarded t) s) :=
    Within.foldl _ (fun t _ => countOccurrence_within _ t) _ s
  have k := h.onlyRu w
  exact ⟨⟨k.cap.post, k.cap.accepted, k.cap.pool, Nat.zero_le _⟩, k.hot⟩

theorem withMould_sound {m : Option Mould} (hm : ∀ x, m = some x → ∀ r ∈ x.cavities, hotMatches r) {s : State}
    (h : Sound s) : Sound (withMould m s) := ⟨⟨h.cap.post, h.cap.accepted, h.cap.pool, h.cap.cycles⟩, hm⟩

theorem openSave_sound (task : Task) (m : Mould) (n : Fin 12) {s : State} (h : Sound s) : Sound (openSave task m n s) := by
  unfold openSave
  refine beginWriting_sound _ _ (Sound.withTu (Sound.withTu ?_ _) _)
  exact withMould_sound (by intro x e; cases e) (setEuState_sound _ (discardCycles_sound (h.withTu _)))

theorem openLoad_sound (p : MountParams) {s : State} (h : Sound s) : Sound (openLoad p s) :=
  beginReading_sound _ (Sound.withTu (Sound.withTu (setEuState_sound _ h) _) _)

theorem beginTask_sound (t : Task) {s : State} (h : Sound s) : Sound (beginTask t s) := by
  cases t with
  | load kind source => exact presentTaskRead_sound _ ((h.withTu _).withTu _)
  | mount p =>
    show Sound (beginMount p s)
    unfold beginMount
    split
    · exact openSave_sound _ _ _ h
    · exact openLoad_sound _ h
  | checkpoint =>
    show Sound (beginCheckpoint s)
    unfold beginCheckpoint
    split
    · exact beginWriting_sound _ _ ((h.withTu _).withTu _)
    · exact h
  | release =>
    show Sound (beginRelease s)
    unfold beginRelease
    split
    · exact openSave_sound _ _ _ h
    · exact h
  | clearSlot n => exact beginWriting_sound _ _ ((h.withTu _).withTu _)
  | sweep => exact h

theorem beginPending_sound {s : State} (h : Sound s) : Sound (beginPending s) := by
  unfold beginPending
  split
  · exact beginTask_sound _ (h.withTu _)
  · exact h

theorem noteResult_sound (t : Task) (r : TaskResult) {s : State} (h : Sound s) : Sound (noteResult t r s) :=
  h.onlyRu (noteResult_within t r s)

theorem endSweep_sound {s : State} (h : Sound s) : Sound (endSweep s) :=
  beginPending_sound (Sound.withTu (noteResult_sound _ _ (h.withTu _)) _)

theorem sweepGo_sound {s : State} (h : Sound s) : Sound (sweepGo s) := by
  unfold sweepGo
  split
  · exact beginReading_sound _ ((h.withTu _).withTu _)
  · exact endSweep_sound h

theorem sweepBoundary_sound {s : State} (h : Sound s) : Sound (sweepBoundary s) := by
  unfold sweepBoundary
  dsimp only
  have k : Sound (setSweep { s.tu.sweep with check := none } s) := h.withTu _
  split
  · exact endSweep_sound k
  · exact sweepGo_sound k
  · exact beginPending_sound ((k.withTu _).withTu _)
  · exact beginPending_sound ((k.withTu _).withTu _)

theorem endTask_sound (t : Task) (r : TaskResult) {s : State} (h : Sound s) : Sound (endTask t r s) := by
  unfold endTask
  dsimp only
  have k : Sound (setRunning none (noteResult t r s)) := (noteResult_sound t r h).withTu _
  split
  · exact beginPending_sound k
  · split
    · exact sweepGo_sound k
    · exact k

theorem admitTask_sound (t : Task) {s : State} (h : Sound s) : Sound (admitTask t s).2 := by
  unfold admitTask
  split
  · exact h
  · dsimp only
    split
    · exact sweepGo_sound (h.withTu _)
    · exact beginTask_sound _ h
  · exact h.withTu _

theorem imageComplete_sound (n : Fin 12) {s : State} (h : Sound s) : Sound (imageComplete n s) := by
  unfold imageComplete
  have k : Sound (s.withTu { s.tu with writer := none }) := h.withTu _
  dsimp only
  split
  · exact endTask_sound _ _ (k.withTu _)
  · exact endTask_sound _ _ (k.withTu _)
  · exact endTask_sound _ _ (setEuState_sound _ ((k.withTu _).withTu _))
  · exact openLoad_sound _ ((k.withTu _).withTu _)
  all_goals exact k

theorem compareMap_sound {s : State} (h : Sound s) : Sound (compareMap s) := by
  unfold compareMap
  split
  · exact h.same rfl rfl rfl rfl rfl
  · exact h

theorem storeTable_sound (kind : LoadKind) (ws : List Word) {s : State} (h : Sound s) : Sound (storeTable kind ws s) := by
  cases kind with
  | profile p =>
    show Sound (storeProfile p ws s)
    unfold storeProfile
    dsimp only
    split
    · exact Sound.onlyRu (h.withTu _) (withRu_within _ _)
    · exact h.withTu _
  | zones => exact compareMap_sound (h.same rfl rfl rfl rfl rfl)

theorem tableWord_sound (kind : LoadKind) (source : Addr) (d : Word) {s : State} (h : Sound s) :
    Sound (tableWord kind source d s) := by
  unfold tableWord
  dsimp only
  split
  · exact presentTaskRead_sound _ (h.withTu _)
  · exact endTask_sound _ _ (storeTable_sound _ _ (h.withTu _))
  · exact endTask_sound _ _ (h.withTu _)

theorem sweepJudged_sound (j : Judgement) {s : State} (h : Sound s) : Sound (sweepJudged j s) := by
  unfold sweepJudged
  split
  · refine sweepBoundary_sound ?_
    split
    · exact h
    · cases j with
      | bad => exact Sound.onlyRu (h.withTu _) (raiseCause_within _ _)
      | goodEmpty => exact h.withTu _
      | goodOccupied i c => exact h.withTu _
  · exact sweepBoundary_sound h

theorem mountFails_sound (p : MountParams) (r : TaskResult) (st : SlotState) (i : Word) {s : State} (h : Sound s) :
    Sound (mountFails p r st i s) := by
  unfold mountFails
  refine endTask_sound _ _ ?_
  have k : Sound (setEuState .empty (putSlot p.slot st i s)) := setEuState_sound _ (h.withTu _)
  split
  · exact k.onlyRu (raiseCause_within _ _)
  · exact k

theorem mountSucceeds_sound (p : MountParams) {m : Mould} (hm : ∀ r ∈ m.cavities, hotMatches r) {s : State}
    (h : Sound s) : Sound (mountSucceeds p m s) := by
  unfold mountSucceeds
  refine endTask_sound _ _ (Sound.onlyRu ?_ (handVerdicts_within _ _))
  exact withMould_sound (by intro x e; cases e; exact hm) (setEuState_sound _ (h.withTu _))

theorem mountJudged_sound (p : MountParams) (j : Judgement) (ws : List Word) {s : State} (h : Sound s) :
    Sound (mountJudged p j ws s) := by
  cases j with
  | bad => exact mountFails_sound _ _ _ _ h
  | goodEmpty => exact mountSucceeds_sound _ (freshMould_hot p) h
  | goodOccupied i c =>
    show Sound (if i ≠ p.mouldId then mountFails p .wrongMould .valid i s
      else if c ≠ p.count then mountFails p .wrongCount .valid i s else mountSucceeds p (storedMould p ws) s)
    split
    · exact mountFails_sound _ _ _ _ h
    · split
      · exact mountFails_sound _ _ _ _ h
      · exact mountSucceeds_sound _ (storedCavities_hot ws _ _) h

theorem slotWord_sound (t : Task) (d : Word) {s : State} (h : Sound s) : Sound (slotWord t d s) := by
  unfold slotWord
  dsimp only
  have k : Sound (keepSlotWord d s) := h.withTu _
  split
  · unfold readOn
    split
    · exact presentTaskRead_sound _ k
    · exact k
  · split
    · exact mountJudged_sound _ _ _ k
    · exact sweepJudged_sound _ k
    all_goals exact k

theorem taskData_sound (d : Word) {s : State} (h : Sound s) : Sound (taskData d s) := by
  unfold taskData
  split
  · split
    · exact tableWord_sound _ _ _ h
    · exact slotWord_sound _ _ h
    · exact slotWord_sound _ _ h
    all_goals exact h
  · exact h

theorem followProfile_sound (loaded : Bool) (b : State) {s : State} (h : Sound s) : Sound (followProfile loaded b s) := by
  unfold followProfile
  split
  · exact locatorTest_sound h
  · exact h

theorem reportTask_sound (p : Posting) (loaded : Bool) (b : State) {s : State} (h : Sound s) :
    Sound (reportTask p loaded b s) := followProfile_sound _ _ (h.report p b)

/-! ### Owners and CD -/

theorem Sound.answer {p : Prop} [Decidable p] {a b : Answer} (h : Sound a.state) (k : Sound b.state) :
    Sound (if p then a else b).state := by
  split <;> assumption

theorem Sound.withRu {s : State} (h : Sound s) (x : ReportUnit) : Sound (s.withRu x) := h.onlyRu (withRu_within s x)

theorem own_sound (c : Command) {s : State} (h : Sound s) : Sound (own c s).state := by
  cases c with
  | defineLayout =>
    refine Sound.answer h (Sound.answer h ?_)
    exact ⟨⟨Nat.zero_le _, h.cap.accepted, h.cap.pool, h.cap.cycles⟩, h.hot⟩
  | resetPart => exact h
  | defineRing =>
    exact Sound.answer h (Sound.answer h (Sound.answer h (Sound.answer h (Sound.answer h (putRing_sound _ _ h)))))
  | ringOn => exact Sound.answer h (Sound.answer h (ringToHunt_sound _ h))
  | ringOff => exact Sound.answer h (Sound.answer h (Sound.answer h (ringToOff_sound _ h)))
  | resetRing => exact Sound.answer h (Sound.answer h (ringRestart_sound _ h))
  | setFraming =>
    refine Sound.answer h ?_
    have k := h.withSf { s.sf with framing := framingOf s } h.cap.accepted
    show Sound (if framingClamped s then setParamAdj _ else _)
    split
    · exact k.withRu _
    · exact k
  | load =>
    show Sound (ownLoad s).state
    unfold ownLoad
    split
    · exact h
    · exact Sound.answer h (Sound.answer h (admitTask_sound _ h))
  | lockSlot => exact Sound.answer h (Sound.answer h (h.withTu _))
  | clearLocks => exact Sound.answer h (h.withTu _)
  | setMasterLock => exact Sound.answer h (h.withTu _)
  | clearSlot => exact Sound.answer h (Sound.answer h (Sound.answer h (admitTask_sound _ h)))
  | sweep => exact admitTask_sound _ h
  | suspendSweep =>
    show Sound (ownSuspendSweep s).state
    unfold ownSuspendSweep
    split
    · exact h.withTu _
    · exact h.withTu _
    · exact h
    · exact h
  | resumeSweep => exact Sound.answer h (Sound.answer h (sweepGo_sound h))
  | mount => exact Sound.answer h (Sound.answer h (admitTask_sound _ h))
  | checkpoint => exact Sound.answer h (admitTask_sound _ h)
  | release => exact Sound.answer h (admitTask_sound _ h)
  | clearCavity =>
    show Sound (ownClearCavity s).state
    unfold ownClearCavity
    split
    · exact h
    · next m e =>
      refine Sound.answer h ?_
      dsimp only [accept]
      refine Sound.onlyRu (withMould_sound ?_ h) (handVerdicts_within _ _)
      intro x k
      cases k
      unfold liveMould at e
      split at e
      · exact modify_forall hotMatches _ (fun a _ => cleared_hot a) _ _ (h.hot m e)
      · cases e
  | clearMould =>
    show Sound (ownClearMould s).state
    unfold ownClearMould
    split
    · exact h
    · next m e =>
      dsimp only [accept]
      refine Sound.onlyRu (withMould_sound ?_ h) (handVerdicts_within _ _)
      intro x k
      cases k
      intro r hr
      obtain ⟨a, _, rfl⟩ := List.mem_map.mp (show r ∈ m.cavities.map CavityRecord.cleared from hr)
      exact cleared_hot a
  | setReporting => exact Sound.answer h ((h.withRu _).same rfl rfl rfl rfl rfl)
  | setCounter => exact Sound.answer h (h.withRu _)
  | clearStatus => exact h.withRu _
  | acknowledge => exact Sound.answer h (h.withRu _)

theorem Sound.withCd {s : State} (h : Sound s) (x : CommandDecoder) : Sound (s.withCd x) := h.same rfl rfl rfl rfl rfl

theorem recordOutcome_sound (code : Byte) (o : FrameOutcome) {s : State} (h : Sound s) :
    Sound (recordOutcome code o s) := by
  unfold recordOutcome
  dsimp only
  split
  · exact ((h.withCd _).withRu _).withRu _
  · exact (h.withCd _).withRu _

theorem endFrame_sound (code : Byte) (o : FrameOutcome) {s : State} (h : Sound s) : Sound (endFrame code o s) :=
  Sound.report (recordOutcome_sound _ _ (h.withCd _)) _ _

theorem resetPart_sound (s : State) : Sound (resetPart s) :=
  ⟨⟨Nat.zero_le _, Nat.zero_le _, Nat.zero_le _, Nat.zero_le _⟩, by intro m e; cases e⟩

theorem takeCommand_sound (c : Command) {s : State} (h : Sound s) : Sound (takeCommand c s) := by
  unfold takeCommand
  split
  · exact resetPart_sound s
  · have k : Sound (answerReport c (own c s) s) := by
      unfold answerReport
      have r : Sound (recordOutcome c.code (own c s).outcome (setDecoder .ready (own c s).state)) :=
        recordOutcome_sound _ _ ((own_sound c h).withCd _)
      dsimp only
      split
      · exact r.post (postDirty_within _) (postDirty_facts _).2.2
      · exact r.report _ _
    unfold followUp
    split
    · exact k
    · exact refreshCovered_sound _ k
    · exact followProfile_sound _ _ k

theorem closingWrite_sound (d : Word) {s : State} (h : Sound s) : Sound (closingWrite d s) := by
  unfold closingWrite
  split
  · exact endFrame_sound _ _ h
  · exact endFrame_sound _ _ h
  · split
    · exact endFrame_sound _ _ h
    · split
      · exact endFrame_sound _ _ h
      · unfold closeCommand
        split
        · exact endFrame_sound _ _ h
        · exact takeCommand_sound _ h

theorem cdWrite_sound (n : Nat) (be : Enables) (d : Word) {s : State} (h : Sound s) : Sound (cdWrite n be d s) := by
  unfold cdWrite
  split
  · unfold poisonFrame
    split
    · exact h.withCd _
    all_goals exact h
  · split
    · unfold openingWrite
      split
      · exact h.withCd _
      all_goals exact Sound.withCd (Sound.report (recordOutcome_sound _ _ h) _ _) _
    · split
      · exact closingWrite_sound d h
      · unfold parameterWrite
        split
        · exact h.withCd _
        all_goals exact h

/-! ### PU -/

theorem setAccess_sound (o : Option Outstanding) {s : State} (h : Sound s) : Sound (setAccess o s) :=
  h.same rfl rfl rfl rfl rfl

theorem reportHolds_sound {s : State} (h : Sound s) : Sound (reportHolds s) :=
  have w := reportHolds_within s
  h.same (w.queue rfl) (by rw [w.sf rfl]) (by rw [w.el rfl]) (by rw [w.eu rfl]) (by rw [w.eu rfl])

theorem startAccess_sound (a : Access) {s : State} (h : Sound s) : Sound (startAccess a s) :=
  have w := startAccess_within a s
  h.same (w.queue rfl) (by rw [w.sf rfl]) (by rw [w.el rfl]) (by rw [w.eu rfl]) (by rw [w.eu rfl])

theorem arrive_sound (a : Access) {k : State → State} (hk : ∀ {s}, Sound s → Sound (k s)) {s : State} (h : Sound s) :
    Sound (arrive a k s) := by
  have try_ {t : State} (ht : Sound t) : Sound (tryAccess k t) := by
    unfold tryAccess
    split
    · exact ht
    · dsimp only
      split
      · exact reportHolds_sound ht
      · exact hk (setAccess_sound _ (reportHolds_sound ht))
  unfold arrive
  split
  · exact try_ (startAccess_sound a h)
  · split
    · exact try_ h
    · exact h

theorem busWrite_sound (w : WordAddr) (be : Enables) (d : Word) {s : State} (h : Sound s) :
    Sound (busWrite w be d s) := by
  refine arrive_sound _ ?_ h
  intro t ht
  unfold writeArrives
  split
  · exact Sound.report (ht.onlyRu (noteDrop_within _ _ t)) _ _
  · have k : Sound (t.withMem (t.mem.writeWord w be d)) := ht.same rfl rfl rfl rfl rfl
    unfold copyWrite
    split
    · exact cdWrite_sound _ _ _ k
    · exact ringWrite_sound _ _ _ _ k
    · exact slotTouched_sound _ k
    all_goals exact k

theorem busRead_sound (w : WordAddr) (be : Enables) {s : State} (h : Sound s) : Sound (busRead w be s) :=
  arrive_sound (k := readArrives w be) _ (fun k => k.same rfl rfl rfl rfl rfl) h

theorem recordCompletes_sound (id : RecordId) (b : State) {s : State} (h : Sound s) : Sound (recordCompletes id b s) := by
  cases id with
  | slot n k =>
    show Sound (if k = 15 then reportTask {} false b (imageComplete n s) else s)
    split
    · exact reportTask_sound _ _ _ (imageComplete_sound n h)
    · exact h
  | status => exact h
  | counter => exact h
  | directory => exact h
  | verdict c => exact h
  | trace t => exact h
  | log e => exact h

theorem performWord_sound {s : State} (h : Sound s) : Sound (performWord s) := by
  unfold performWord
  split
  · exact h
  · next r rest e =>
    have hq : queueLength s.pu.queue = r.words.length + queueLength rest := by rw [e]; rfl
    have hc := h.cap.post
    split
    · refine ⟨⟨?_, h.cap.accepted, h.cap.pool, h.cap.cycles⟩, h.hot⟩
      show queueLength rest ≤ _
      omega
    · next d ds ew =>
      dsimp only
      have k : Sound ((s.withMem (s.mem.writeWord r.addr fullEnables d)).withPu
          { (s.withMem (s.mem.writeWord r.addr fullEnables d)).pu with queue := queueAfter r ds rest }) := by
        refine ⟨⟨?_, h.cap.accepted, h.cap.pool, h.cap.cycles⟩, h.hot⟩
        show queueLength (queueAfter r ds rest) ≤ _
        rw [ew] at hq
        simp only [List.length_cons] at hq
        unfold queueAfter
        split
        · omega
        · show ds.length + queueLength rest ≤ _
          omega
      split
      · exact recordCompletes_sound _ _ k
      · exact k

theorem serveRead_sound (t : TaskRead) {s : State} (h : Sound s) : Sound (serveRead t s) :=
  reportTask_sound _ _ _ (taskData_sound _ (h.same rfl rfl rfl rfl rfl))

theorem promoteRead_sound (t : TaskRead) {s : State} (h : Sound s) : Sound (promoteRead t s) :=
  h.same rfl rfl rfl rfl rfl

/-- A step of the part's own, with the tests of the holds around it. -/
theorem whileRunning_sound {f : State → State} (hf : ∀ {s}, Sound s → Sound (f s)) {s : State} (h : Sound s) :
    Sound (whileRunning f s) := by
  unfold whileRunning
  split
  · exact h
  · exact reportHolds_sound (hf (reportHolds_sound h))

end Sys2Proof.Machine
end

