-- ==== Sys2Proof/Laws/TasksShow.lean ====
section
/-! SUPPORT. TU, the owners of commands, CD and PU post what they change: the operations that post nothing themselves, and the
steps that report them. -/

set_option Elab.async false

namespace Sys2Proof.Machine

/-! ### TU posts nothing but its slot records -/

theorem withTu_unposted (s : State) (x : TaskUnit) : Unposted s (s.withTu x) := .of_eq rfl rfl rfl

theorem withEu_unposted (s : State) (x : EvidenceUnit) : Unposted s (s.withEu x) := .of_eq rfl rfl rfl

theorem putSlot_unposted (n : Fin 12) (st : SlotState) (i : Word) (s : State) : Unposted s (putSlot n st i s) :=
  withTu_unposted s _

theorem setRunning_unposted (t : Option RunningTask) (s : State) : Unposted s (setRunning t s) := withTu_unposted s _

theorem setSnapshot_unposted (m : Option Mould) (s : State) : Unposted s (setSnapshot m s) := withTu_unposted s _

theorem setSweep_unposted (x : Sweep) (s : State) : Unposted s (setSweep x s) := withTu_unposted s _

theorem setEuState_unposted (x : EvidenceState) (s : State) : Unposted s (setEuState x s) := withEu_unposted s _

theorem withMould_unposted (m : Option Mould) (s : State) : Unposted s (withMould m s) := withEu_unposted s _

theorem presentTaskRead_unposted (w : WordAddr) (s : State) : Unposted s (presentTaskRead w s) := .of_eq rfl rfl rfl

theorem noteResult_unposted (t : Task) (r : TaskResult) (s : State) : Unposted s (noteResult t r s) := by
  unfold noteResult
  exact .ite (.of_eq rfl rfl rfl) (.of_eq rfl rfl rfl)

theorem askRecords_unposted (n : Nat) : ∀ s, Unposted s (askRecords n s) := by
  induction n with
  | zero => exact Unposted.refl
  | succ n ih =>
    intro s
    unfold askRecords
    split
    · split
      · split
        · next t h =>
          refine Unposted.trans (t := t) ⟨⟨_, enqueue_queue h, fun r hr => ?_⟩, ?_, ?_⟩
            ((withTu_unposted t _).trans (ih _))
          · cases List.mem_singleton.mp hr
            rfl
          · rw [enqueue_ru h]
          · exact (enqueue_within h).localTime
        · exact Unposted.refl s
      · exact Unposted.refl s
    · exact Unposted.refl s

theorem beginWriting_unposted (n : Fin 12) (image : List Word) (s : State) : Unposted s (beginWriting n image s) :=
  (withTu_unposted s _).trans (askRecords_unposted 16 _)

theorem discardCycles_unposted (s : State) : Unposted s (discardCycles s) := by
  have go (l : List CycleEntry) : ∀ u, Unposted u (l.foldl (fun t _ => countOccurrence .cycleDiscarded t) u) := by
    induction l with
    | nil => exact Unposted.refl
    | cons _ l ih => exact fun u => (countOccurrence_unposted _ u).trans (ih _)
  exact (go s.eu.cycles s).trans (withEu_unposted _ _)

theorem openSave_unposted (task : Task) (m : Mould) (n : Fin 12) (s : State) : Unposted s (openSave task m n s) := by
  exact ((((((setSnapshot_unposted _ s).trans (discardCycles_unposted _)).trans (setEuState_unposted _ _)).trans
    (withMould_unposted _ _)).trans (putSlot_unposted _ _ _ _)).trans (setRunning_unposted _ _)).trans
      (beginWriting_unposted _ _ _)

theorem beginReading_unposted (n : Fin 12) (s : State) : Unposted s (beginReading n s) :=
  (withTu_unposted s _).trans (presentTaskRead_unposted _ _)

theorem openLoad_unposted (p : MountParams) (s : State) : Unposted s (openLoad p s) :=
  (((setEuState_unposted _ s).trans (putSlot_unposted _ _ _ _)).trans (setRunning_unposted _ _)).trans
    (beginReading_unposted _ _)

theorem beginTask_unposted (t : Task) (s : State) : Unposted s (beginTask t s) := by
  cases t with
  | load kind source => exact .of_eq rfl rfl rfl
  | mount p =>
    show Unposted s (beginMount p s)
    unfold beginMount
    split
    · exact openSave_unposted _ _ _ s
    · exact openLoad_unposted _ s
  | checkpoint =>
    show Unposted s (beginCheckpoint s)
    unfold beginCheckpoint
    split
    · exact ((setSnapshot_unposted _ s).trans (setRunning_unposted _ _)).trans (beginWriting_unposted _ _ _)
    · exact Unposted.refl s
  | release =>
    show Unposted s (beginRelease s)
    unfold beginRelease
    split
    · exact openSave_unposted _ _ _ s
    · exact Unposted.refl s
  | clearSlot n =>
    exact ((putSlot_unposted _ _ _ s).trans (setRunning_unposted _ _)).trans (beginWriting_unposted _ _ _)
  | sweep => exact Unposted.refl s

theorem beginPending_unposted (s : State) : Unposted s (beginPending s) := by
  unfold beginPending
  split
  · exact (withTu_unposted s _).trans (beginTask_unposted _ _)
  · exact Unposted.refl s

theorem endSweep_unposted (s : State) : Unposted s (endSweep s) :=
  (((setSweep_unposted _ s).trans (noteResult_unposted _ _ _)).trans (setRunning_unposted _ _)).trans
    (beginPending_unposted _)

theorem sweepGo_unposted (s : State) : Unposted s (sweepGo s) := by
  unfold sweepGo
  split
  · exact ((setSweep_unposted _ s).trans (setRunning_unposted _ _)).trans (beginReading_unposted _ _)
  · exact endSweep_unposted s

theorem sweepBoundary_unposted (s : State) : Unposted s (sweepBoundary s) := by
  unfold sweepBoundary
  have h := setSweep_unposted { s.tu.sweep with check := none } s
  dsimp only
  split
  · exact h.trans (endSweep_unposted _)
  · exact h.trans (sweepGo_unposted _)
  · exact h.trans (((setSweep_unposted _ _).trans (setRunning_unposted _ _)).trans (beginPending_unposted _))
  · exact h.trans (((setSweep_unposted _ _).trans (setRunning_unposted _ _)).trans (beginPending_unposted _))

theorem endTask_unposted (t : Task) (r : TaskResult) (s : State) : Unposted s (endTask t r s) := by
  have h := (noteResult_unposted t r s).trans (setRunning_unposted none _)
  unfold endTask
  exact .ite (h.trans (beginPending_unposted _)) (.ite (h.trans (sweepGo_unposted _)) h)

theorem admitTask_unposted (t : Task) (s : State) : Unposted s (admitTask t s).2 := by
  unfold admitTask
  split
  · exact Unposted.refl s
  · exact .ite ((withTu_unposted s _).trans (sweepGo_unposted _)) (beginTask_unposted _ s)
  · exact withTu_unposted s _

theorem imageComplete_unposted (n : Fin 12) (s : State) : Unposted s (imageComplete n s) := by
  unfold imageComplete
  have h := withTu_unposted s { s.tu with writer := none }
  dsimp only
  split
  · exact (h.trans (putSlot_unposted _ _ _ _)).trans (endTask_unposted _ _ _)
  · exact (h.trans (setSnapshot_unposted _ _)).trans (endTask_unposted _ _ _)
  · exact (((h.trans (putSlot_unposted _ _ _ _)).trans (setSnapshot_unposted _ _)).trans (setEuState_unposted _ _)).trans
      (endTask_unposted _ _ _)
  · exact ((h.trans (putSlot_unposted _ _ _ _)).trans (setSnapshot_unposted _ _)).trans (openLoad_unposted _ _)
  all_goals exact h

theorem storeTable_unposted (kind : LoadKind) (ws : List Word) (s : State) : Unposted s (storeTable kind ws s) := by
  cases kind with
  | profile p =>
    show Unposted s (storeProfile p ws s)
    unfold storeProfile
    exact .ite (.of_eq rfl rfl rfl) (.of_eq rfl rfl rfl)
  | zones =>
    show Unposted s (compareMap _)
    unfold compareMap
    split <;> exact .of_eq rfl rfl rfl

theorem tableWord_unposted (kind : LoadKind) (source : Addr) (d : Word) (s : State) :
    Unposted s (tableWord kind source d s) := by
  unfold tableWord
  dsimp only
  split
  · exact (withTu_unposted s _).trans (presentTaskRead_unposted _ _)
  · exact ((withTu_unposted s _).trans (storeTable_unposted _ _ _)).trans (endTask_unposted _ _ _)
  · exact (withTu_unposted s _).trans (endTask_unposted _ _ _)

theorem applyJudgement_unposted (n : Fin 12) (j : Judgement) (s : State) : Unposted s (applyJudgement n j s) := by
  cases j <;> exact .of_eq rfl rfl rfl

theorem sweepJudged_unposted (j : Judgement) (s : State) : Unposted s (sweepJudged j s) := by
  unfold sweepJudged
  split
  · exact (Unposted.ite (.refl s) (applyJudgement_unposted _ _ s)).trans (sweepBoundary_unposted _)
  · exact sweepBoundary_unposted s

theorem mountFails_unposted (p : MountParams) (r : TaskResult) (st : SlotState) (i : Word) (s : State) :
    Unposted s (mountFails p r st i s) := by
  unfold mountFails
  have h := (putSlot_unposted p.slot st i s).trans (setEuState_unposted .empty _)
  exact (Unposted.ite (h.trans (raiseCause_unposted _ _)) h).trans (endTask_unposted _ _ _)

theorem mountSucceeds_unposted (p : MountParams) (m : Mould) (s : State) : Unposted s (mountSucceeds p m s) := by
  unfold mountSucceeds
  refine Unposted.trans (Unposted.trans ?_ (handVerdicts_unposted _ _)) (endTask_unposted _ _ _)
  exact ((putSlot_unposted _ _ _ s).trans (setEuState_unposted _ _)).trans (withMould_unposted _ _)

theorem slotWord_unposted (t : Task) (d : Word) (s : State) : Unposted s (slotWord t d s) := by
  have h : Unposted s (keepSlotWord d s) := withTu_unposted s _
  have judged (p : MountParams) (j : Judgement) (ws : List Word) (u : State) : Unposted u (mountJudged p j ws u) := by
    cases j with
    | bad => exact mountFails_unposted _ _ _ _ u
    | goodEmpty => exact mountSucceeds_unposted _ _ u
    | goodOccupied i c =>
      exact .ite (mountFails_unposted _ _ _ _ u) (.ite (mountFails_unposted _ _ _ _ u) (mountSucceeds_unposted _ _ u))
  unfold slotWord
  refine .ite (h.trans ?_) ?_
  · unfold readOn
    split
    · exact presentTaskRead_unposted _ _
    · exact Unposted.refl _
  · cases t with
    | mount p => exact h.trans (judged _ _ _ _)
    | sweep => exact h.trans (sweepJudged_unposted _ _)
    | load _ _ | checkpoint | release | clearSlot _ => exact h

/-- The data of a task read. -/
theorem taskData_unposted (d : Word) (s : State) : Unposted s (taskData d s) := by
  unfold taskData
  split
  · split
    · exact tableWord_unposted _ _ _ s
    · exact slotWord_unposted _ _ s
    · exact slotWord_unposted _ _ s
    all_goals exact Unposted.refl s
  · exact Unposted.refl s

/-! ### Owners -/

theorem Unposted.answer {s : State} {p : Prop} [Decidable p] {a b : Answer} (h : Unposted s a.state)
    (k : Unposted s b.state) : Unposted s (if p then a else b).state := by
  split <;> assumption

theorem abandonBlock_unposted (c : Fin 8) (s : State) : Unposted s (abandonBlock c s) := by
  unfold abandonBlock
  split
  · exact .ite (.of_eq rfl rfl rfl) (.refl s)
  · exact .refl s

/-- An owner posts nothing itself; DEFINE LAYOUT is another lemma's. -/
theorem own_unposted {c : Command} (hc : c ≠ .defineLayout) (s : State) : Unposted s (own c s).state := by
  have here : Unposted s s := .refl s
  have drop (r : Fin 8) (x : Ring) (st : ChannelState) (k : Fin 8) :
      Unposted s (dropChannel st k (abandonBlock k (dropEntries r (putRing r x s)))) := by
    have rings : Unposted s (dropEntries r (putRing r x s)) := .of_eq rfl rfl rfl
    have channel (u : State) : Unposted u (dropChannel st k u) := .of_eq rfl rfl rfl
    exact (rings.trans (abandonBlock_unposted _ _)).trans (channel _)
  have cleared (cs : List (Fin 48)) (m : Option Mould) : Unposted s (handVerdicts cs (withMould m s)) :=
    (withMould_unposted m s).trans (handVerdicts_unposted _ _)
  cases c with
  | defineLayout => exact absurd rfl hc
  | resetPart => exact here
  | defineRing => exact .answer here (.answer here (.answer here (.answer here (.answer here (.of_eq rfl rfl rfl)))))
  | ringOn => exact .answer here (.answer here (.of_eq rfl rfl rfl))
  | ringOff => exact .answer here (.answer here (.answer here (drop _ _ _ _)))
  | resetRing => exact .answer here (.answer here (drop _ _ _ _))
  | setFraming =>
    refine .answer here ?_
    exact Unposted.ite (.of_eq rfl rfl rfl) (.of_eq rfl rfl rfl)
  | load =>
    show Unposted s (ownLoad s).state
    unfold ownLoad
    split
    · exact here
    · exact .answer here (.answer here (admitTask_unposted _ s))
  | lockSlot => exact .answer here (.answer here (withTu_unposted s _))
  | clearLocks => exact .answer here (withTu_unposted s _)
  | setMasterLock => exact .answer here (withTu_unposted s _)
  | clearSlot => exact .answer here (.answer here (.answer here (admitTask_unposted _ s)))
  | sweep => exact admitTask_unposted _ s
  | suspendSweep =>
    show Unposted s (ownSuspendSweep s).state
    unfold ownSuspendSweep
    split <;> exact withTu_unposted s _
  | resumeSweep => exact .answer here (.answer here (sweepGo_unposted s))
  | mount => exact .answer here (.answer here (admitTask_unposted _ s))
  | checkpoint => exact .answer here (admitTask_unposted _ s)
  | release => exact .answer here (admitTask_unposted _ s)
  | clearCavity =>
    show Unposted s (ownClearCavity s).state
    unfold ownClearCavity
    split
    · exact here
    · refine .answer here ?_
      dsimp only [accept]
      exact cleared _ _
  | clearMould =>
    show Unposted s (ownClearMould s).state
    unfold ownClearMould
    split
    · exact here
    · dsimp only [accept]
      exact cleared _ _
  | setReporting => exact .answer here (.of_eq rfl rfl rfl)
  | setCounter => exact .answer here (withRu_unposted rfl)
  | clearStatus => exact withRu_unposted rfl
  | acknowledge => exact .answer here (withRu_unposted rfl)

theorem withCd_unposted (s : State) (x : CommandDecoder) : Unposted s (s.withCd x) := .of_eq rfl rfl rfl

theorem recordOutcome_unposted (code : Byte) (o : FrameOutcome) (s : State) : Unposted s (recordOutcome code o s) := by
  unfold recordOutcome
  exact .ite (.of_eq rfl rfl rfl) (.of_eq rfl rfl rfl)

theorem ofCode_code {b : Byte} {c : Command} (h : Command.ofCode b = some c) : b = c.code :=
  (beq_iff_eq.mp (List.find?_some (p := fun k : Command => k.code == b) h)).symm

/-! ### Reports -/

/-- RU goes through its dirty records: what is shown, dirty or queued, is then shown, and the contents stay but for TRACE. -/
theorem postDirtyList_follows {id : RecordId} (hid : Mirrors id) (ids : List RecordId) :
    ∀ s, Follows id s (postDirtyList ids s) := by
  have r := hid.replaceable
  induction ids with
  | nil => exact Follows.refl r
  | cons k ids ih =>
    intro s
    unfold postDirtyList
    split
    · split
      · next t h =>
        refine Follows.trans ?_ (ih t)
        have w := enqueueRecord_within h
        obtain ⟨u, hu, rfl⟩ := Option.map_eq_some_iff.mp h
        have q : (markDirty k false u.takeFree).pu.queue = s.pu.queue ++
            [{ id := k, addr := recordAddr s.pu k, words := recordWords s.freeBits s k, begun := false }] :=
          (show (markDirty k false u.takeFree).pu.queue = u.pu.queue from rfl).trans (enqueue_queue hu)
        have ru : u.ru = s.ru := enqueue_ru hu
        have form : ∃ q d f, markDirty k false u.takeFree =
            { s with pu := { s.pu with queue := q }, ru := { s.ru with dirty := d }, free := f } := by
          unfold enqueue at hu
          split at hu
          · cases hu; exact ⟨_, _, _, rfl⟩
          · cases hu
        have same : Same id s (markDirty k false u.takeFree) := by
          obtain ⟨_, _, _, e⟩ := form
          rw [e]
          rcases hid with rfl | rfl
          · exact Same.refl .status s
          · exact Same.refl .directory s
        refine ⟨w.localTime, fun a x hx hi hb => ?_, fun a _ z => ?_, fun _ e => absurd same e⟩
        · rw [recordWords_length _ s.freeBits _ s]
          rw [q] at hx
          rcases List.mem_append.mp hx with hx | hx
          · exact a x hx hi hb
          · cases List.mem_singleton.mp hx
            rw [← hi]
        · by_cases e : k = id
          · subst e
            exact Or.inl ⟨s.freeBits, _, by rw [q]; exact List.mem_append_right _ (List.mem_singleton_self _), rfl, rfl,
              same.words w.localTime _⟩
          · rcases z with ⟨f, x, hx, hi, hb, hw⟩ | z
            · exact Or.inl ⟨f, x, by rw [q]; exact List.mem_append_left _ hx, hi, hb, by rw [hw, same.words w.localTime]⟩
            · refine Or.inr ?_
              show (u.ru.dirty.put false k).get id = true
              rw [DirtyMarks.get_put_other _ _ e, ru]
              exact z
      · exact Follows.refl r s
    · exact ih s

section
variable {id : RecordId} (hid : Mirrors id)
include hid

theorem postDirty_follows (s : State) : Follows id s (postDirty s) :=
  (postDirtyList_follows hid _ s).trans (raiseTrace_follows hid _)

theorem slotTouched_follows (n : Fin 12) (s : State) : Follows id s (slotTouched n s) := by
  unfold slotTouched
  exact report_follows hid _ (.ite (.of_eq rfl rfl rfl) (.of_eq rfl rfl rfl)) (Same.refl id s)

theorem followProfile_follows (loaded : Bool) (before s : State) : Follows id s (followProfile loaded before s) :=
  .ite (locatorTest_follows hid s) (Follows.refl hid.replaceable s)

/-- The reports of one step at TU, b having the contents of s. -/
theorem reportTask_follows (p : Posting) (loaded : Bool) {b s t : State} (h : Unposted s t) (e : Same id b s) :
    Follows id s (reportTask p loaded b t) := (report_follows hid p h e).trans (followProfile_follows hid _ _ _)

theorem endFrame_follows (code : Byte) (o : FrameOutcome) (s : State) : Follows id s (endFrame code o s) := by
  exact report_follows hid _ ((withCd_unposted s _).trans (recordOutcome_unposted _ _ _)) (Same.refl id s)

/-- DEFINE LAYOUT leaves the post queue empty and the two records dirty (R6, R155). -/
theorem defineLayout_dirty {s : State} (h : (own .defineLayout s).outcome = .done) :
    (own .defineLayout s).state.pu.queue = [] ∧ (own .defineLayout s).state.ru.dirty.get id = true := by
  change (ownDefineLayout s).outcome = _ at h
  show (ownDefineLayout s).state.pu.queue = [] ∧ (ownDefineLayout s).state.ru.dirty.get id = true
  unfold ownDefineLayout at h ⊢
  split at h
  · cases h
  · split at h
    · cases h
    · next a b =>
      rw [if_neg a, if_neg b]
      refine ⟨rfl, ?_⟩
      rcases hid with rfl | rfl <;> rfl

/-- A command other than RESET PART that is taken. -/
theorem takeCommand_follows {c : Command} (hc : c ≠ .resetPart) (s : State) : Follows id s (takeCommand c s) := by
  have ended (a : State) (o : FrameOutcome) : Unposted a (recordOutcome c.code o (setDecoder .ready a)) :=
    (withCd_unposted a _).trans (recordOutcome_unposted _ _ _)
  unfold takeCommand
  rw [if_neg hc]
  refine Follows.trans (t := answerReport c (own c s) s) ?_ ?_
  · unfold answerReport
    dsimp only
    split
    · next h =>
      obtain ⟨rfl, done⟩ := h
      have f := postDirty_follows hid (recordOutcome Command.defineLayout.code (own .defineLayout s).outcome
        (setDecoder .ready (own .defineLayout s).state))
      have e := ended (own .defineLayout s).state (own .defineLayout s).outcome
      revert f e
      generalize recordOutcome Command.defineLayout.code (own .defineLayout s).outcome
        (setDecoder .ready (own .defineLayout s).state) = u
      intro f e
      obtain ⟨empty, dirty⟩ := defineLayout_dirty hid done
      have w : wholeCopies id u := e.whole hid.replaceable fun r hr => by rw [empty] at hr; cases hr
      have shown : Shown id (postDirty u) := by
        by_cases k : Same id u (postDirty u)
        · exact f.kept w k (Or.inr (by rw [e.dirty]; exact dirty))
        · exact f.shown w k
      exact ⟨f.time.trans (e.time.trans (own_within .defineLayout s).localTime), fun _ => f.whole w,
        fun _ _ _ => shown, fun _ _ => shown⟩
    · next h =>
      refine report_follows hid _ (Unposted.trans ?_ (ended _ _)) (Same.refl id s)
      by_cases d : c = .defineLayout
      · subst d
        show Unposted s (ownDefineLayout s).state
        have k : (ownDefineLayout s).outcome ≠ .done := fun e => h ⟨rfl, e⟩
        unfold ownDefineLayout at k ⊢
        split
        · exact .refl s
        · split
          · exact .refl s
          · next a b => rw [if_neg a, if_neg b] at k; exact absurd rfl k
      · exact own_unposted d s
  · unfold followUp
    split
    · exact Follows.refl hid.replaceable _
    · exact refreshCovered_follows hid _ _
    · exact followProfile_follows hid _ _ _

/-- A closing write, but of a RESET PART that is taken. -/
theorem closingWrite_follows (d : Word) (s : State) (h : ¬ (taken .resetPart s ∧ d = closingOf s.cd.opening)) :
    Follows id s (closingWrite d s) := by
  unfold closingWrite
  split
  · exact endFrame_follows hid _ _ s
  · exact endFrame_follows hid _ _ s
  · next col =>
    split
    · exact endFrame_follows hid _ _ s
    · next one =>
      split
      · exact endFrame_follows hid _ _ s
      · next c code =>
        unfold closeCommand
        split
        · exact endFrame_follows hid _ _ s
        · next g =>
          refine takeCommand_follows hid ?_ s
          rintro rfl
          have e : d = closingOf s.cd.opening := by
            simp only [checkOne, Bool.not_eq_false, Bool.and_eq_true, beq_iff_eq] at one
            exact one.1.1.1
          subst e
          refine h ⟨⟨?_, g⟩, rfl⟩
          unfold framesCommand
          simp [col, ofCode_code code, one]

theorem openingWrite_follows (d : Word) (s : State) : Follows id s (openingWrite d s) := by
  unfold openingWrite
  have opened (u : State) : Follows id u (beginFrame d u) := .aside hid (.of_eq rfl rfl rfl) rfl rfl
  split
  · exact opened s
  all_goals exact (report_follows hid _ (recordOutcome_unposted _ _ s) (Same.refl id s)).trans (opened _)

/-- The copy of a write to the command window. -/
theorem cdWrite_follows (n : Nat) (be : Enables) (d : Word) (s : State)
    (h : n = 15 → ¬ (taken .resetPart s ∧ d = closingOf s.cd.opening)) : Follows id s (cdWrite n be d s) := by
  have aside (x : CommandDecoder) (e : x.tally = s.cd.tally) : Follows id s (s.withCd x) := by
    refine .aside hid (.of_eq rfl rfl rfl) ?_ rfl
    show [field 0 16 x.tally.toNat ||| _ ||| _, _, _, _, _, _, _, _, _, _, _] = _
    rw [e]
    rfl
  unfold cdWrite
  refine .ite ?_ (.ite (openingWrite_follows hid d s) ?_)
  · unfold poisonFrame
    split
    · exact aside _ rfl
    all_goals exact Follows.refl hid.replaceable s
  · split
    · next e => exact closingWrite_follows hid d s (h e)
    · unfold parameterWrite
      split
      · exact aside _ rfl
      all_goals exact Follows.refl hid.replaceable s

/-! ### PU -/

theorem reportHolds_follows (s : State) : Follows id s (reportHolds s) := by
  obtain ⟨o, cs, form⟩ := reportHolds_form s
  rw [form]
  exact .aside hid (.of_eq rfl rfl rfl) rfl rfl

/-- A step of the part's own that shows what it changes does so with the tests of the holds around it. -/
theorem whileRunning_shows {f : State → State} {s : State}
    (h : (wholeCopies id (reportHolds s) → wholeCopies id (f (reportHolds s))) ∧
      (wholeCopies id (reportHolds s) → ¬ Same id (reportHolds s) (f (reportHolds s)) → Shown id (f (reportHolds s)))) :
    (wholeCopies id s → wholeCopies id (whileRunning f s)) ∧
      (wholeCopies id s → ¬ Same id s (whileRunning f s) → Shown id (whileRunning f s)) := by
  have test (u : State) : Same id u (reportHolds u) := by
    obtain ⟨o, cs, form⟩ := reportHolds_form u
    rw [form]
    rcases hid with rfl | rfl
    · exact statusChanged_false.mpr rfl
    · rfl
  have before := reportHolds_follows hid s
  have after := reportHolds_follows hid (f (reportHolds s))
  unfold whileRunning
  split
  · exact ⟨fun w => w, fun _ d => absurd (Same.refl id s) d⟩
  · refine ⟨fun w => after.whole (h.1 (before.whole w)), fun w d => ?_⟩
    refine after.kept (h.1 (before.whole w)) (test _) (h.2 (before.whole w) fun e => d ?_)
    exact ((test s).trans e).trans (test _)

theorem startAccess_follows (a : Access) (s : State) : Follows id s (startAccess a s) := by
  obtain ⟨o, cs, form⟩ := startAccess_form a s
  rw [form]
  exact .aside hid (.of_eq rfl rfl rfl) rfl rfl

/-- An access, whose effect on arrival follows: the decoder, the layout and SEQ_ERR are as they were when it was presented. -/
theorem arrive_follows (a : Access) (k : State → State) (s : State)
    (h : ∀ u : State, u.cd = s.cd → u.ru.seqErr = s.ru.seqErr → u.pu.layoutDefined = s.pu.layoutDefined →
      u.pu.strap = s.pu.strap → u.pu.resultsBase = s.pu.resultsBase → u.pu.archiveBase = s.pu.archiveBase → u.sf = s.sf →
      Follows id u (k u)) : Follows id s (arrive a k s) := by
  have try_ {t : State} (f : Follows id s t) (w : Within { ru := true, access := true } s t)
      (e : t.ru.seqErr = s.ru.seqErr) : Follows id s (tryAccess k t) := by
    unfold tryAccess
    refine .ite f ?_
    have g := f.trans (reportHolds_follows hid t)
    refine .ite g (g.trans (Follows.trans (t := setAccess none (reportHolds t)) ?_ ?_))
    · exact .aside hid (.of_eq rfl rfl rfl) rfl rfl
    · have v := w.trans (reportHolds_within t)
      obtain ⟨o, cs, form⟩ := reportHolds_form t
      refine h _ (v.cd rfl) ?_ (v.layoutDefined rfl) (v.strap rfl) (v.resultsBase rfl) (v.archiveBase rfl) (v.sf rfl)
      rw [form]
      exact e
  have seqErr : (startAccess a s).ru.seqErr = s.ru.seqErr := by
    obtain ⟨o, cs, form⟩ := startAccess_form a s
    rw [form]
  unfold arrive
  split
  · exact try_ (startAccess_follows hid a s) (startAccess_within a s) seqErr
  · exact .ite (try_ (Follows.refl hid.replaceable s) (Within.refl _ s) rfl) (Follows.refl hid.replaceable s)

/-- A write that arrives, but the closing write of a RESET PART that is taken. -/
theorem writeArrives_follows (w : WordAddr) (be : Enables) (d : Word) (s : State)
    (h : ¬ (taken .resetPart s ∧ placeOf s.pu s.sf w = .command 15 ∧ be = fullEnables ∧ d = closingOf s.cd.opening)) :
    Follows id s (writeArrives w be d s) := by
  unfold writeArrives
  split
  · exact report_follows hid _ (.of_eq rfl rfl rfl) (Same.refl id s)
  · have m : Follows id s (s.withMem (s.mem.writeWord w be d)) := .aside hid (.of_eq rfl rfl rfl) rfl rfl
    refine m.trans ?_
    unfold copyWrite
    split
    · next n e =>
      by_cases f : be = fullEnables
      · exact cdWrite_follows hid n be d _ fun k l => h ⟨l.1, by rw [e, k], f, l.2⟩
      · unfold cdWrite
        rw [if_pos f]
        unfold poisonFrame
        split
        · exact .aside hid (.of_eq rfl rfl rfl) rfl rfl
        all_goals exact Follows.refl hid.replaceable _
    · exact ringWrite_follows hid _ _ _ _ _
    · exact slotTouched_follows hid _ _
    all_goals exact Follows.refl hid.replaceable _

/-- The data of a task read. -/
theorem serveRead_follows (r : TaskRead) (s : State) : Follows id s (serveRead r s) := by
  unfold serveRead
  refine reportTask_follows hid _ _ (Unposted.trans ?_ (taskData_unposted _ _)) (Same.refl id s)
  exact .of_eq rfl rfl rfl

/-- A queued word is performed: the copy that it begins may be one that showed the record, so only a change is shown. -/
theorem performWord_shows (s : State) : (wholeCopies id s → wholeCopies id (performWord s)) ∧
    (wholeCopies id s → ¬ Same id s (performWord s) → Shown id (performWord s)) := by
  have compose {t u : State} (w : wholeCopies id s → wholeCopies id t) (e : Same id s t) (f : Follows id t u) :
      (wholeCopies id s → wholeCopies id u) ∧ (wholeCopies id s → ¬ Same id s u → Shown id u) :=
    ⟨fun a => f.whole (w a), fun a d => f.shown (w a) fun c => d (e.trans c)⟩
  have aside {t : State} (a : statusFields sameFree t = statusFields sameFree s) (b : t.tu.directory = s.tu.directory) :
      Same id s t := by
    rcases hid with rfl | rfl
    · exact statusChanged_false.mpr a.symm
    · exact b.symm
  unfold performWord
  split
  · exact compose (fun a => a) (Same.refl id s) (Follows.refl hid.replaceable s)
  · next r rest q =>
    split
    · refine compose (t := s.withPu { s.pu with queue := rest }) (fun a x hx hi hb => ?_) (aside rfl rfl)
        (Follows.refl hid.replaceable _)
      rw [recordWords_length _ s.freeBits _ s]
      exact a x (by rw [q]; exact List.mem_cons_of_mem r hx) hi hb
    · next d ds e =>
      dsimp only
      refine compose (t := (s.withMem (s.mem.writeWord r.addr fullEnables d)).withPu
        { s.pu with queue := queueAfter r ds rest }) (fun a x hx hi hb => ?_) (aside rfl rfl) ?_
      · rw [recordWords_length _ s.freeBits _ s]
        refine a x ?_ hi hb
        rw [q]
        have hx : x ∈ queueAfter r ds rest := hx
        unfold queueAfter at hx
        split at hx
        · exact List.mem_cons_of_mem r hx
        · rcases List.mem_cons.mp hx with rfl | hx
          · cases hb
          · exact List.mem_cons_of_mem r hx
      · refine .ite ?_ (Follows.refl hid.replaceable _)
        unfold recordCompletes
        split
        · exact .ite (reportTask_follows hid _ _ (imageComplete_unposted _ _) (aside rfl rfl)) (Follows.refl hid.replaceable _)
        all_goals exact Follows.refl hid.replaceable _

end

end Sys2Proof.Machine
end

