-- ==== Sys2Proof/Tests/Slice0.lean ====
section
/-! SUPPORT. Small tests: operands that are refused, the check codes and worked examples of the spec, and for each statement
with hypotheses a state that meets them, with one at the edges of each clause. -/

namespace Sys2Proof.Tests

open Sys2Proof.Machine

set_option Elab.async false

/-! ### States -/

/-- The layout defined with the results area at 100000H and the archive at 200000H. -/
def laid : State :=
  { State.reset with
    pu := { PathUnit.reset 0 with layoutDefined := true, resultsBase := 0x100000, archiveBase := 0x200000 } }

/-- The opening word of a command's frame. -/
def openingOf (c : Command) : Word := field 20 4 c.count ||| field 24 8 c.code.toNat

/-- CD has collected an opening word and these parameters. -/
def collecting (opening : Word) (ps : List Word) (s : State) : State :=
  { s with cd :=
    { state := .collecting, opening := opening, latch := Vector.ofFn fun i : Fin 14 => (ps[i.val]?).getD 0
      written := Vector.ofFn fun i : Fin 14 => decide (i.val < ps.length), tally := 7 } }

/-- CD has collected a command's frame. -/
def framed (c : Command) (ps : List Word) (s : State) : State := collecting (openingOf c) ps s

/-- A queued record of n words. -/
def queued (id : RecordId) (n : Nat) (begun : Bool) : QueuedRecord :=
  { id := id, addr := 0x40000, words := List.replicate n 5, begun := begun }

def withQueue (q : List QueuedRecord) (s : State) : State := { s with pu := { s.pu with queue := q } }

/-- TU has presented a read of word 100H at local time 0. -/
def reading (promoted : Bool) (s : State) : State :=
  { s with pu := { s.pu with taskRead := some { addr := 0x100, presentedAt := 0, promoted := promoted } } }

/-- A ring for channel 3, of four blocks at address 8000H. -/
def testRing (x : RingState) : Ring :=
  { Ring.reset with defined := true, channel := 3, base := 0x8000, blocks := 4, state := x, staleRef := some 0 }

def withRing (x : RingState) (s : State) : State := putRing 0 (testRing x) s

/-- A capture of block 1 of the ring that has taken n words. -/
def capture (n : Nat) : Capture :=
  { position := 1, nextWord := n, words := List.replicate n 0, crc := 0x1234, poly := .polyA, lastWrite := 0 }

def atTime (t : Time) (s : State) : State := { s with localTime := t }

def withTask (k : Task) (ph : TaskPhase) (s : State) : State :=
  { s with tu := { s.tu with running := some { task := k, phase := ph } } }

def withSlot (n : Fin 12) (e : DirEntry) (s : State) : State :=
  { s with tu := { s.tu with directory := s.tu.directory.set n e } }

def withSweep (x : Sweep) (s : State) : State := { s with tu := { s.tu with sweep := x } }

def mould : Mould :=
  { header := { mouldId := 0x77, count := 2, profile := 0, zoneId := 5, observed := 9, lastClosed := 3 }
    cavities := [freshCavity, { freshCavity with verdict := .suspect, history := 0xB, hot := 3, suspectEnergy := 60 }] }

/-- The mould is mounted from slot 4. -/
def mounted (s : State) : State :=
  let t := withSlot 4 { state := .mounted, mouldId := 0x77, lock := false } s
  { t with eu := { s.eu with state := .held, mould := some mould } }

/-- The parameters of a MOUNT of the mould into a slot. -/
def mountOf (n : Fin 12) : MountParams := { slot := n, mouldId := 0x77, count := 2, profile := 0, zoneId := 5 }

/-- A block of channel 3 whose samples all hold one value. -/
def block (mark : BlockMark) (v : Half) : AcceptedBlock :=
  { ring := 0, channel := 3, sequence := 1, cycle := 9, phase := 4, timestamp := 10, mark := mark, acceptedAt := 20
    samples := List.replicate 128 v }

/-- HX is at sample n of a block of channel 3, the channel in the state x under the default parameters. -/
def extracting (x : ChannelState) (v : Half) (n : Nat) (s : State) : State :=
  { s with hx :=
    { channels := s.hx.channels.set 3 { Channel.reset with state := x, params := some Profile.default.extraction }
      block := some { entry := block .continuous v, next := n, sum := 0 } } }

/-! ### Operands -/

theorem test_parameter_word_0_refused : Instr.wellFormed (.parameterWordWrite 0 5) = false := by decide

theorem test_parameter_word_15_refused : Instr.wellFormed (.parameterWordWrite 15 5) = false := by decide

theorem test_parameter_words_accepted :
    Instr.wellFormed (.parameterWordWrite 1 5) = true ∧ Instr.wellFormed (.parameterWordWrite 14 5) = true := by decide

theorem test_full_partial_write_refused : Instr.wellFormed (.partialWrite 3 15 5) = false := by decide

theorem test_partial_write_accepted :
    Instr.wellFormed (.partialWrite 3 14 5) = true ∧ Instr.wellFormed (.partialWrite 0 0 5) = true := by decide

theorem test_no_word_spells_a_command : decodeTableWord 32 0x10200000 = none ∧
    State.reset.withFetchWord 32 0x10200000 = State.reset := ⟨rfl, rfl⟩

/-- An ill-formed row does not take place. -/
theorem test_ill_formed_rows_do_nothing :
    exec (.parameterWordWrite 15 5) State.reset = .next State.reset ∧
      exec (.partialWrite 3 15 5) State.reset = .next State.reset := ⟨rfl, rfl⟩

/-- Of two commands that wait, the one in front is taken first. -/
theorem test_front_command_first :
    (match step (State.reset.withPending [.resetnAssert, .noFrame 0]) with
      | .next t => t.inReset && t.pending == [.noFrame 0]
      | .fault _ | .refused _ => false) = true := by decide +kernel

/-! ### Check codes (R37) -/

/-- The nine bytes 31H to 39H, through poly B from all ones. -/
theorem test_crc_poly_b_of_the_check_string :
    [0x31, 0x32, 0x33, 0x34, 0x35, 0x36, 0x37, 0x38, 0x39].foldl (crcByte .polyB) 0xFFFF = 0x29B1 := by
  decide +kernel

theorem test_crc_poly_a_of_the_check_string :
    [0x31, 0x32, 0x33, 0x34, 0x35, 0x36, 0x37, 0x38, 0x39].foldl (crcByte .polyA) 0 = 0xFEE8 := by decide +kernel

/-! ### Worked examples -/

/-- Section 6.12: closes 1, 8 and 9 of cavity 9. -/
theorem test_closes_of_cavity_9 :
    let p := Profile.default.evidence
    let r : CavityRecord :=
      { verdict := .sound, history := 0x88, hot := 2, totalEnergy := 1850000, suspectEnergy := 0, lifetime := 41
        lastCycle := 0 }
    closeCavity p { count := 2, energy := 22195 } r =
        { verdict := .watch, history := 0x111, hot := 3, totalEnergy := 1872195, suspectEnergy := 0, lifetime := 43
          lastCycle := 2 } ∧
      closeCavity p { count := 1, energy := 18200 }
          { r with verdict := .watch, history := 0x445D, hot := 7, totalEnergy := 1970845 } =
        { verdict := .suspect, history := 0x88BB, hot := 8, totalEnergy := 1989045, suspectEnergy := 0, lifetime := 42
          lastCycle := 1 } ∧
      closeCavity p { count := 2, energy := 44600 }
          { r with verdict := .suspect, history := 0x88BB, hot := 8, totalEnergy := 1989045 } =
        { verdict := .suspect, history := 0x11177, hot := 9, totalEnergy := 2033645, suspectEnergy := 44600
          lifetime := 43, lastCycle := 2 } := by decide +kernel

/-- Section 4.13: the background and threshold arithmetic of samples 39, 40 and 72. -/
theorem test_background_of_one_hit :
    let p := { Profile.default.extraction with f := 40, m := 200, k := 6 }
    thresholdOf p 76800 = 950 ∧ updateBackground 6 76800 280 = 76720 ∧ thresholdOf p 76720 = 947 ∧
      updateBackground 6 76720 310 = 76761 ∧ updateBackground 6 76761 250 = 76561 := by decide +kernel

/-- Section 4.13: the ten samples of the hit. -/
theorem test_samples_of_one_hit :
    let h := [1200, 3100, 5200, 2600, 900, 960, 700, 500, 400, 380].foldl takeSample
      (openHitAt { block .continuous 0 with timestamp := 1000000 } 41 947)
    h = { threshold := 947, arrival := 1000205, phase := 4, cycle := 9, startAccept := 20, count := 10, peak := 5200
          peakOffset := 2, energy := 8325, lastAbove := 5, belowRun := 4 } ∧ hitDuration h false = 6 := by decide +kernel

/-- Section 2.1: the opening and closing word of code 10H with two parameters. -/
theorem test_opening_and_closing_word :
    openingOf .defineLayout = 0x10200000 ∧ closingOf 0x10200000 = 0xEFDFFFFF ∧ openingOf .mount = 0x50500000 ∧
      closingOf 0x50500000 = 0xAFAFFFFF := by decide

/-- Section 2.9: a partial write poisons the frame, and its closing write ends it as INVALID SEQUENCE with SEQ_ERR. -/
theorem test_poisoned_frame :
    (match exec (.partialWrite 3 3 24) (framed .mount [6, 0x7011] laid) with
      | .next t =>
        t.cd.state == .poisoned &&
          (match exec (.invalidSequence 0xAFAFFFFF) t with
            | .next u => u.cd.state == .ready && u.cd.tally == 8 && u.ru.seqErr && u.ru.lastCode == 0x50 &&
                u.ru.lastOutcome == 0x10 && u.tu == laid.tu && u.mem.readWord 0x3FFF3 == 24
            | .fault _ | .refused _ => false)
      | .fault _ | .refused _ => false) = true := by decide +kernel

/-- Section 5.11: the second hit's arrival locates the burst to cavity 9 by band 2. -/
theorem test_burst_is_located :
    let z : ZoneMap := { id := 3, bands :=
      [{ first := 0, second := 1, low := 0, high := 15, cavity := 7 },
       { first := 0, second := 1, low := 16, high := 35, cavity := 8 },
       { first := 0, second := 1, low := 36, high := 60, cavity := 9 }] }
    locate z 0 1 40 = some (2, 9) ∧ locate z 0 1 61 = none ∧ locate z 1 0 40 = none := by decide +kernel

/-- Section 9.5: the hot counts taken in. -/
theorem test_hot_counts : hotCount 0x7 = 3 ∧ hotCount 0x10301 = 4 ∧ hotCount 0x1F3C3 = 11 := by decide +kernel

/-! ### Witnesses: conditions of every row -/

/-- `writesFreely` and `taken` as one test. -/
def admits (c : Command) (s : State) : Bool :=
  !s.inReset && s.pu.access.isNone && !postFullHolds s && !taskWaitHolds s && framesCommand c s && (gate c s).isNone

def free (s : State) : Bool := !s.inReset && s.pu.access.isNone && !postFullHolds s && !taskWaitHolds s

theorem writesFreely_of_free (s : State) (h : free s = true) : writesFreely s := by
  simpa [free, writesFreely, and_assoc] using h

theorem taken_of_admits (c : Command) (s : State) (h : admits c s = true) : writesFreely s ∧ taken c s := by
  simpa [admits, writesFreely, taken, and_assoc] using h

theorem apart_of_lt {a n b m : Nat} (h : a + n ≤ b ∨ b + m ≤ a) : apart a n b m := fun x => by omega

/-- No ring of `laid` is defined. -/
theorem laid_rings (a n : Nat) (s : State) (h : ∀ q : Fin 8, s.sf.rings[q].defined = false) (p : Fin 8 → Prop) :
    apartFromRings a n s p := fun q d => by rw [h q] at d; cases d

/-! ### Witnesses: the queue and the invariants -/

theorem test_witness_StepRunsFrontCommand :
    (laid.withPending [.noFrame 0, .sweep]).pending = .noFrame 0 :: [.sweep] ∧ laid.pending = [] := ⟨rfl, rfl⟩

/-- A state with words in memory that a step changes. -/
def written : State := (laid.withMem (laid.mem.writeWord 5 fullEnables 0x01000200)).withPending [.upstreamWrite 5 1 7]

theorem test_witness_StepKeepsCanonicalMemory : written.mem.wf = true ∧ ∃ t, step written = .next t ∧ t.mem ≠ written.mem :=
  ⟨by decide +kernel, _, rfl, by decide +kernel⟩

/-- A queue with a record of RU and one of TU; a check register that has taken in one word. -/
theorem test_witness_StepKeepsCapacitiesCountsAndChecks :
    let s := (mounted (withQueue [queued .status 12 false, queued (.slot 0 0) 16 false]
      { laid with tu := { laid.tu with slotWords := [5], slotCrc := crcWord .polyB 0xFFFF 5 } })).withPending [.sweep]
    withinCapacity s ∧ hotCountsMatch s ∧ wholeRecords s ∧ slotCheckFed s ∧ ∃ t, step s = .next t := by
  refine ⟨⟨by decide +kernel, by decide +kernel, by decide +kernel, by decide +kernel⟩, ?_, ?_,
    by unfold slotCheckFed; decide +kernel, _, rfl⟩
  · intro m h r hr
    cases h
    simp only [mould, List.mem_cons, List.not_mem_nil, or_false] at hr
    rcases hr with rfl | rfl <;> exact (by unfold hotMatches; decide +kernel)
  · intro id hid r hr hi _
    simp only [State.withPending, mounted, withSlot, withQueue, List.mem_cons, List.not_mem_nil, or_false] at hr
    rcases hr with rfl | rfl
    · cases hi; rfl
    · cases hi; cases hid

theorem test_witness_StepKeepsWindowsApart :
    windowsApart laid ∧ (∃ t, step laid = .next t) ∧ windowsApart (assertReset laid) := by
  refine ⟨⟨by decide, fun _ => ⟨apart_of_lt (by decide), apart_of_lt (by decide), apart_of_lt (by decide),
    laid_rings _ _ _ (by decide) _, laid_rings _ _ _ (by decide) _⟩, fun r h => ?_⟩, ⟨_, rfl⟩,
    ⟨fun _ => ⟨rfl, by decide⟩, fun h => (by cases h), fun r h => ?_⟩⟩
  · exact absurd h (by rw [show laid.sf.rings[r].defined = false by revert r; decide]; decide)
  · exact absurd h (by rw [show (assertReset laid).sf.rings[r].defined = false by revert r; decide]; decide)

/-- No mould, and one mounted. -/
theorem test_witness_StepKeepsTheMountedMould :
    (mouldAgrees laid ∧ ∃ t, step laid = .next t) ∧ mouldAgrees (mounted laid) ∧ ∃ t, step (mounted laid) = .next t := by
  refine ⟨⟨⟨fun _ => ⟨rfl, rfl, rfl, by decide +kernel⟩, fun h => ?_, fun r _ h => ?_, fun _ h => ?_, fun r _ h => ?_,
    fun _ h => ?_, fun r _ h => ?_, fun h => absurd rfl h⟩, _, rfl⟩,
    ⟨fun h => ?_, fun _ => ⟨⟨mould, rfl, by decide, by decide, by decide⟩, 4, ?_⟩, fun r _ h => ?_, fun _ h => ?_,
    fun r _ h => ?_, fun _ h => ?_, fun r _ h => ?_, fun h => absurd rfl h⟩, _, rfl⟩
  · rcases h with h | h <;> cases h
  · cases h
  · rcases h with ⟨r, h, _⟩ | h <;> cases h
  · cases h
  · cases h
  · cases h
  · rcases h with h | h <;> cases h
  · intro k; revert k; decide +kernel
  · cases h
  · rcases h with ⟨r, h, _⟩ | h <;> cases h
  · cases h
  · cases h
  · cases h

/-- A command that is no lock command, with a locked slot and the master lock set. -/
theorem test_witness_LocksChangeOnlyByLockCommands :
    let s := framed .sweep [] { laid with tu := { laid.tu with masterLock := true } }
    (Instr.sweep ≠ .resetnAssert ∧ ∃ t, exec .sweep s = .next t) ∧ s.tu.masterLock = true ∧
      framesCommand .lockSlot s = false ∧ framesCommand .clearLocks s = false :=
  ⟨⟨by decide, _, rfl⟩, rfl, by decide +kernel, by decide +kernel⟩

/-! ### Witnesses: the memory path -/

/-- The edges of the windows: command, results, slots 0, 4 and 11, and the bytes beside them. -/
theorem test_witness_ProtectedWindowSet :
    let s := withSlot 11 { state := .valid, mouldId := 1, lock := true } (mounted laid)
    let at_ (a : Nat) := protection s.tu (placeOf s.pu s.sf (BitVec.ofNat 22 (a / 4)))
    [0xFFFC0, 0xFFFFC, 0x100000, 0x1013FC, 0x101400, 0x1FFFFC, 0x200000, 0x2003FC, 0x201000, 0x2013FC, 0x202C00,
        0x202FFC, 0x203000].map at_ =
      [none, none, some .results, some .results, none, none, none, none, some .busySlot, some .busySlot,
        some .lockedSlot, some .lockedSlot, none] ∧
      protection State.reset.tu (placeOf State.reset.pu State.reset.sf 0x40000) = none := by decide +kernel

theorem test_witness_UpstreamAccessIsPerformed :
    (written.mem.wf = true ∧ writesFreely written ∧
      protection written.tu (placeOf written.pu written.sf 0x3FFFF) = none ∧
      protection written.tu (placeOf written.pu written.sf 5) = none ∧ placeOf written.pu written.sf 5 = .other) ∧
      arrivesAtOnce written (.read 5 0) ∧ arrivesAtOnce written (.read 5 15) :=
  ⟨⟨by decide +kernel, writesFreely_of_free _ (by decide +kernel), by decide +kernel, by decide +kernel,
    by decide +kernel⟩, ⟨rfl, rfl, by decide +kernel⟩, rfl, rfl, by decide +kernel⟩

theorem test_witness_ProtectedWriteIsDropped :
    let s := withSlot 11 { state := .valid, mouldId := 1, lock := true } (mounted laid)
    writesFreely s ∧ ∀ k ∈ [(0x40000, DropKind.results), (0x80400, .busySlot), (0x80BFF, .lockedSlot)],
      protection s.tu (placeOf s.pu s.sf k.1) = some k.2 :=
  ⟨writesFreely_of_free _ (by decide +kernel), by decide +kernel⟩

/-- The edges of the three holds: 31 and 32 queued words, the words of a queued record and those beside it, a task read of
199 and of 200 microseconds; an outstanding access that a hold meets, one that none meets, and one that has arrived. -/
theorem test_witness_PresentedAccessMeetsItsHolds :
    let full := withQueue [queued (.slot 0 0) 16 true, queued (.slot 0 1) 16 false] laid
    let near := withQueue [queued (.slot 0 0) 16 true, queued (.slot 0 1) 15 false] laid
    let posted := withQueue [queued .status 3 true,
      { id := .slot 4 0, addr := 0x80400, words := [1, 2], begun := true }] laid
    let reads (s : State) (w : WordAddr) : Bool := (holdsNow s (.read w 15)).recordRead
    (full.inReset = false ∧ full.pu.access = none ∧ (holdsNow full (.write 5 15 0)).postFull = true ∧
      (holdsNow near (.write 5 15 0)).postFull = false) ∧
    [0x40000, 0x4000B, 0x4000C, 0x80400, 0x80401, 0x80402].map (reads posted) =
      [true, true, false, true, true, false] ∧
    (holdsNow (atTime 199 (reading false laid)) (.read 5 15)).taskWait = false ∧
    (holdsNow (atTime 200 (reading false laid)) (.read 5 15)).taskWait = true ∧
    (holdsNow (atTime 0 (reading true laid)) (.read 5 15)).taskWait = true ∧
    ([full, near].map fun s => decide (holdsNow (outstanding (.write 5 15 0) false s) (.write 5 15 0) = HoldMarks.none)) =
      [false, true] ∧
    (near.pu.access = none ∧ holdsNow near (.write 5 15 0) = HoldMarks.none) ∧
    (outstanding (.write 5 15 0) true full).inReset = false := by decide +kernel

/-- The post counters count HOLDS of every sub-kind. -/
def countingHolds (s : State) : State :=
  { s with ru := { s.ru with counters := Vector.replicate 4 { value := 0, select := 7, mask := 7 } } }

/-- A write that no hold meets arrives as it is presented: a queue that fills after it does not hold it, no queued word goes
before it, and its row performs it once (R1, R13). -/
theorem test_presented_write_arrives :
    (match exec (.upstreamAccessPresented (.write 5 15 7)) (countingHolds laid) with
      | .next t =>
        let full := withQueue [queued (.slot 0 0) 16 true, queued (.slot 0 1) 16 false] t
        !servesPost full &&
          (match exec (.upstreamWrite 5 15 7) full with
            | .next u => u.mem.readWord 5 == 7 && u.pu.access.isNone && u.ru.counters[(0 : Fin 4)].value == 0
            | .fault _ | .refused _ => false)
      | .fault _ | .refused _ => false) = true := by decide +kernel

/-- Section 1.11, steps 7 and 8: a read held under RECORD READ is counted once, and is not affected when the queue fills; when
its record has been performed and the queue is full, it is held under POST FULL (section 1.8). -/
theorem test_held_read_is_not_affected_by_the_queue :
    let records (n : Nat) := [queued (.slot 5 0) n true, queued .counter 8 false]
    (match exec (.upstreamAccessPresented (.read 0x4000D 15)) (countingHolds (withQueue (records 16) laid)) with
      | .next t =>
        let count : Result → Nat
          | .next u => u.ru.counters[(0 : Fin 4)].value.toNat
          | .fault _ | .refused _ => 0
        let full := withQueue (records 24) t
        let last := withQueue [queued (.slot 5 0) 16 true, queued (.slot 5 1) 16 false] t
        t.ru.counters[(0 : Fin 4)].value == 1 && count (exec (.upstreamRead 0x4000D 15) full) == 1 &&
          count (exec (.upstreamRead 0x4000D 15) last) == 2
      | .fault _ | .refused _ => false) = true := by decide +kernel

/-- Room for exactly the record, room for one word less, no layout, and a copy to replace; a record of one word, and the first
word of a record. -/
theorem test_witness_PostQueueTakesRecordsAndPerformsWords :
    (let ws : List Word := List.replicate 12 0
    let room := withQueue [queued (.slot 0 0) 16 false, queued (.trace 0) 4 true] laid
    let short := withQueue [queued (.slot 0 0) 16 false, queued (.trace 0) 5 true] laid
    (room.pu.layoutDefined = true ∧ queueLength room.pu.queue ≤ 32 - ws.length ∧ ws.length ≤ 32) ∧
      32 < queueLength short.pu.queue + ws.length ∧ State.reset.pu.layoutDefined = false ∧
      ∀ r ∈ (withQueue [queued .status 12 false, queued .status 3 true] laid).pu.queue,
        r.id = .status → r.begun = false → r.words.length = ws.length) ∧
    (∀ n ∈ [1, 12],
      let s := withQueue [queued .status n true] laid
      s.inReset = false ∧
        s.pu.queue = { queued .status n true with words := 5 :: List.replicate (n - 1) 5 } :: [] ∧
        choiceOne s = false ∧ accessEligible s = false) ∧
    ∀ n : Fin 12, RecordId.status ≠ .slot n 15 := by
  refine ⟨by decide +kernel, ?_, fun n => by simp⟩
  decide +kernel

/-! ### Witnesses: command frames -/

theorem test_witness_OpeningWordOpensAFrame :
    (writesFreely laid ∧ laid.cd.state = .ready) ∧
      writesFreely (framed .sweep [] laid) ∧ (framed .sweep [] laid).cd.state ≠ .ready :=
  ⟨⟨writesFreely_of_free _ (by decide +kernel), rfl⟩, writesFreely_of_free _ (by decide +kernel), by decide⟩

theorem test_witness_ParameterAndPartialWrites :
    writesFreely (framed .sweep [] laid) ∧ (framed .sweep [] laid).cd.state = .collecting ∧ (14 : Enables) ≠ fullEnables :=
  ⟨writesFreely_of_free _ (by decide +kernel), rfl, by decide⟩

/-- READY; POISONED; a parameter missing; the closing word wrong; an unknown code. -/
theorem test_witness_ClosingWritesThatEndUndispatched :
    let whole := framed .mount [4, 0x77, 2, 0, 5] laid
    let short := framed .mount [4, 0x77, 2, 0] laid
    let unknown := collecting 0xFF000000 [] laid
    (writesFreely laid ∧ laid.cd.state = .ready) ∧ (writesFreely whole ∧ whole.cd.state = .collecting) ∧
      ¬ passesCheckOne whole 0 ∧ ¬ passesCheckOne short (~~~short.cd.opening) ∧
      (writesFreely unknown ∧ unknown.cd.state = .collecting ∧ passesCheckOne unknown (~~~unknown.cd.opening) ∧
        ∀ c : Command, BitVec.ofNat 8 (unknown.cd.opening.toNat / 2 ^ 24) ≠ c.code) := by
  refine ⟨⟨writesFreely_of_free _ (by decide +kernel), rfl⟩, ⟨writesFreely_of_free _ (by decide +kernel), rfl⟩, ?_, ?_,
    writesFreely_of_free _ (by decide +kernel), rfl, ?_, ?_⟩
  · unfold passesCheckOne; decide +kernel
  · unfold passesCheckOne; decide +kernel
  · unfold passesCheckOne; decide +kernel
  · intro c; cases c <;> decide +kernel

/-- A count that differs, the interlock, and the layout undefined; the exempt command passes the interlock. -/
theorem test_witness_FrameChecksRefuse :
    let ok (c : Command) (s : State) : Prop := writesFreely s ∧ s.cd.state = .collecting ∧
      passesCheckOne s (~~~s.cd.opening) ∧ BitVec.ofNat 8 (s.cd.opening.toNat / 2 ^ 24) = c.code
    let wrong := collecting 0x44100000 [0] laid
    let right := framed .sweep [] { laid with ru := { laid.ru with seqErr := true } }
    let bare := framed .sweep [] State.reset
    (ok .sweep wrong ∧ countOf wrong.cd.opening ≠ Command.sweep.count) ∧
      (ok .sweep right ∧ countOf right.cd.opening = Command.sweep.count ∧ right.ru.seqErr = true) ∧
      (ok .sweep bare ∧ countOf bare.cd.opening = Command.sweep.count ∧ bare.ru.seqErr = false ∧
        bare.pu.layoutDefined = false) ∧
      Command.sweep ∉ [Command.clearStatus, .acknowledge, .resetPart] := by
  refine ⟨⟨⟨writesFreely_of_free _ (by decide +kernel), rfl, ?_, ?_⟩, ?_⟩,
    ⟨⟨writesFreely_of_free _ (by decide +kernel), rfl, ?_, ?_⟩, ?_, rfl⟩,
    ⟨⟨writesFreely_of_free _ (by decide +kernel), rfl, ?_, ?_⟩, ?_, rfl, rfl⟩, by decide⟩ <;>
    first | (unfold passesCheckOne; decide +kernel) | decide +kernel

/-- One command for each of the four refusals of an owner. -/
theorem test_witness_RefusedCommandsChangeNothing :
    ∀ k ∈ [(Command.ringOn, ([8] : List Word), FrameOutcome.refusedParam), (.ringOn, [0], .refusedState),
        (.checkpoint, [], .refusedBusy), (.lockSlot, [3], .refusedLocked)],
      let s := framed k.1 k.2.1 (withTask .checkpoint .writing (mounted
        { laid with tu := { laid.tu with masterLock := true } }))
      admits k.1 s = true ∧ (match exec (k.1.row s.pins) s with
        | .next t => t.ru.lastOutcome == k.2.2.code
        | .fault _ | .refused _ => false) = true := by decide +kernel

/-- A LOCK SLOT changes the status fields and the directory, with copies to replace that are whole. -/
theorem test_witness_a_row_changes_both_records :
    let s := framed .lockSlot [3] (withQueue [queued .status 12 false, queued .directory 12 false] laid)
    Instr.lockSlot false ≠ .resetnAssert ∧ ¬ closesReset s (.lockSlot false) ∧
      (match exec (.lockSlot false) s with
        | .next t => statusFields sameFree s != statusFields sameFree t && decide (s.tu.directory ≠ t.tu.directory)
        | .fault _ | .refused _ => false) = true ∧
      wholeCopies .status s ∧ wholeCopies .directory s := by
  refine ⟨by decide, fun h => ?_, by decide +kernel, fun r hr _ _ => ?_, fun r hr _ _ => ?_⟩
  · rcases h.2 with ⟨n, h⟩ | h <;> cases h
  all_goals
    simp only [framed, collecting, withQueue, List.mem_cons, List.not_mem_nil, or_false] at hr
    rcases hr with rfl | rfl <;> rfl

/-- One row of each kind that ends a frame; a copy to replace, room for 12 words, and one word too little. -/
theorem test_witness_ChangesAreShownInTheRecords :
    let copy := withQueue [queued .status 12 false] laid
    let room := withQueue [queued (.slot 0 0) 16 true, queued (.trace 0) 4 true] laid
    let short := withQueue [queued (.slot 0 0) 16 true, queued (.trace 0) 5 true] laid
    let whole := framed .mount [4, 0x77, 2, 0, 5] laid
    (∀ s ∈ [copy, room, short], free s = true ∧ s.cd.state = .ready ∧ s.ru.traceAwait = false) ∧
      ((∃ r ∈ copy.pu.queue, r.id = .status ∧ r.begun = false) ∧ wholeCopies .status copy) ∧
      ((∀ r ∈ room.pu.queue, r.id = .status → r.begun = true) ∧ queueLength room.pu.queue ≤ 20) ∧
      ((∀ r ∈ short.pu.queue, r.id = .status → r.begun = true) ∧ 20 < queueLength short.pu.queue) ∧
      (endsUndispatched copy (.noFrame 0) ∧ endsUndispatched whole (.openingWordWrite 0) ∧
        endsUndispatched whole (.invalidSequence 0) ∧ endsUndispatched (collecting 0xFF000000 [] laid) .refusedCode ∧
        endsUndispatched (framed .sweep [] State.reset) .sweep) ∧
      free whole = true ∧ framesCommand .mount whole = true := by
  refine ⟨by decide +kernel, ⟨by decide +kernel, ?_⟩, by decide +kernel, by decide +kernel, ⟨rfl, ?_,
    Or.inr ⟨rfl, by unfold passesCheckOne; decide +kernel⟩, ⟨rfl, by unfold passesCheckOne; decide +kernel, ?_⟩,
    ⟨.sweep, rfl, by decide +kernel, by decide +kernel⟩⟩, by decide +kernel, by decide +kernel⟩
  · intro r hr _ _
    cases List.mem_singleton.mp hr
    rfl
  · exact (by decide : DecoderState.collecting ≠ .ready)
  · intro c; cases c <;> decide +kernel

/-- The part of section 10.9 after the close: 24 cavities, one of them SUSPECT, and one open cycle. -/
def afterTheClose : State :=
  let t := withSlot 0 { state := .mounted, mouldId := 0x7011, lock := false } laid
  { t with
    el := { t.el with zones := { id := 3, bands := [] } }
    eu := { t.eu with
      state := .running, newest := some 0x126F, cycles := [emptyEntry 0x126F 0]
      mould := some
        { header := { mouldId := 0x7011, count := 24, profile := 0, zoneId := 3, observed := 8, lastClosed := 0x126E }
          cavities := { freshCavity with verdict := .suspect, hot := 8, lastCycle := 1 } :: List.replicate 23 freshCavity } }
    ru := { t.ru with
      causes := 0x82, enables := 0x3F, masterEnable := true, lastTask := 2, lastResult := 0, alarmMode := .pulseSuspect } }

/-- The words that section 10.9 gives: status words 1, 2, 4, 8 and 9, word 1 after the ACKNOWLEDGE, and the verdict word of the
cavity (R153). -/
theorem test_words_of_section_10_9 :
    ([1, 2, 4, 8, 9].map fun i => wordAt (statusFields sameFree afterTheClose) i) =
        [0x213F8200, 0x60020002, 0x0001126F, 0x00010017, 0x00030003] ∧
      statusWord1 { afterTheClose with ru := { afterTheClose.ru with causes := 0 } } = 0x013F0000 ∧
      verdictWord (some { freshCavity with verdict := .suspect, hot := 8, lastCycle := 1 }) = 0x00010802 := by
  decide +kernel

/-- States for the fields of the records: with a mould and without, with and without a cause to call for, a newest cycle and a
kept address. -/
theorem test_witness_records :
    (mountedAt afterTheClose 0 ∧ callsFor 1 afterTheClose ∧ ¬ callsFor 0 afterTheClose ∧
      (afterTheClose.eu.mould.map fun m => m.cavities.length) = some 24 ∧ afterTheClose.eu.cycles.length ≤ 4) ∧
      (∀ i < 8, ¬ callsFor i laid) ∧ (∀ n : Fin 12, laid.tu.directory[n].state ≠ .mounted) ∧ laid.eu.state = .empty ∧
      laid.eu.newest = none ∧ laid.ru.firstDrop = none ∧
      ({ laid with ru := { laid.ru with firstDrop := some 4 } } : State).ru.firstDrop = some 4 ∧
      freshCavity.hot < 2 ^ 6 ∧ freshCavity.lastCycle < 2 ^ 8 := by
  refine ⟨⟨?_, by unfold callsFor; decide +kernel, by unfold callsFor; decide +kernel, by decide +kernel, by decide +kernel⟩,
    by unfold callsFor; decide +kernel, by decide +kernel, rfl, rfl, rfl, rfl, by decide, by decide⟩
  unfold mountedAt
  decide +kernel

/-! ### Witnesses: resets -/

theorem test_witness_ResetnAndItsRelease :
    (assertReset laid).inReset = true ∧ (assertReset laid).pu.access = none ∧
    ((assertReset (outstanding (.read 5 15) true laid)).pu.access.map Outstanding.access) = some (.read 5 15) :=
  ⟨rfl, rfl, rfl⟩

theorem test_witness_ResetPartKeepsTheLocks :
    writesFreely (framed .resetPart [] laid) ∧ taken .resetPart (framed .resetPart [] laid) :=
  taken_of_admits _ _ (by decide +kernel)

/-! ### Witnesses: the commands of PU and SF -/

/-- EU with a mould; bases that fit, at the last places of memory; a results base too high by one step. -/
theorem test_witness_DefineLayoutMovesTheAreas :
    let s (a b : Word) := framed .defineLayout [a, b] laid
    [(0x1FAC00, 0xFFD000), (0xFFEC40, 0x1FC000)].all (fun k => admits .defineLayout (s k.1 k.2)) = true ∧
      admits .defineLayout (mounted (s 0 0)) = true ∧ (mounted (s 0 0)).eu.state = .held ∧
      layoutFits (s 0x1FAC00 0xFFD000) 0x1FAC00 0xFFD000 ∧ ¬ layoutFits (s 0xFFEC40 0x1FC000) 0xFFEC40 0x1FC000 := by
  refine ⟨by decide +kernel, by decide +kernel, rfl, ?_, ?_⟩
  · exact ⟨by decide, by decide, by decide, by decide, by decide, by decide, apart_of_lt (by decide),
      apart_of_lt (by decide), apart_of_lt (by decide), laid_rings _ _ _ (by decide) _, laid_rings _ _ _ (by decide) _⟩
  · intro h; exact absurd h.2.2.2.2.1 (by decide)

/-- Ring 8; a ring that is on; a ring at the end of memory; one byte block too many. -/
theorem test_witness_DefineRingBindsAWindow :
    let s (a b c d : Word) := framed .defineRing [a, b, c, d] laid
    [(8, 0), (0, 8), (7, 7)].all (fun k => admits .defineRing (s k.1 k.2 0xFFFDE0 2)) = true ∧
      admits .defineRing (s 7 7 0xFFFDF0 2) = true ∧
      (admits .defineRing (withRing .hunt (s 0 3 0 2)) = true ∧
        (withRing .hunt (s 0 3 0 2)).sf.rings[(0 : Fin 8)].state ≠ .off) ∧
      ringFits (s 7 7 0xFFFDE0 2) 7 7 0xFFFDE0 2 ∧ ¬ ringFits (s 7 7 0xFFFDF0 2) 7 7 0xFFFDF0 2 ∧
      (s 7 7 0xFFFDE0 2).sf.rings[(7 : Fin 8)].state = .off := by
  refine ⟨by decide +kernel, by decide +kernel, by decide +kernel, ?_, ?_, rfl⟩
  · exact ⟨by decide, by decide, by decide, by decide, by decide, fun q _ h => absurd h (by revert q; decide),
      apart_of_lt (by decide), fun _ => ⟨apart_of_lt (by decide), apart_of_lt (by decide)⟩,
      laid_rings _ _ _ (by decide) _⟩
  · intro h; exact absurd h.2.2.2.2.1 (by decide)

/-- Ring 8, an undefined ring, and a defined ring that is off. -/
theorem test_witness_RingOnStartsHunting :
    [0, 7, 8].all (fun n => admits .ringOn (framed .ringOn [n] (withRing .off laid))) = true ∧
      (withRing .off laid).sf.rings[(7 : Fin 8)].defined = false ∧
      (withRing .off laid).sf.rings[(0 : Fin 8)].defined = true ∧
      (withRing .off laid).sf.rings[(0 : Fin 8)].state = .off ∧
      (withRing .off laid).hx.channels[(3 : Fin 8)].coveredTo = none := by decide +kernel

/-- Ring 8, an undefined ring, a ring that is off and one that is on, for both commands. -/
theorem test_witness_RingOffAndResetRingDiscard :
    ([0, 7, 8].all fun n => [RingState.off, .hunt, .locked (.collecting (capture 5))].all fun x =>
      admits .ringOff (framed .ringOff [n] (withRing x laid)) &&
        admits .resetRing (framed .resetRing [n] (withRing x laid))) = true ∧
      (withRing .hunt laid).sf.rings[(0 : Fin 8)].defined = true ∧
      (withRing .hunt laid).sf.rings[(0 : Fin 8)].state ≠ .off ∧
      (withRing .off laid).sf.rings[(7 : Fin 8)].defined = false := by decide +kernel

/-- The largest sync pattern and the selects at 1; one more of each. -/
theorem test_witness_SetFramingTakesItsSettings :
    ([(0xFFFF, 1, 1, true), (0x10000, 1, 1, false), (0xFFFF, 2, 1, false), (0xFFFF, 1, 2, false)].all fun k =>
      let s := framed .setFraming [k.1, k.2.1, k.2.2.1, 99, 1001] laid
      admits .setFraming s &&
        decide ((param1 s).toNat < 2 ^ 16 ∧ (param2 s).toNat ≤ 1 ∧ (param3 s).toNat ≤ 1) == k.2.2.2) = true := by decide +kernel

/-! ### Witnesses: the commands of TU -/

/-- With no task running; behind a running sweep; behind another task; a second SWEEP. -/
theorem test_witness_TaskCommandsWaitOrAreRefused :
    let s := framed .mount [4, 0x77, 2, 0, 5] (withTask .sweep .reading laid)
    let t := framed .mount [4, 0x77, 2, 0, 5] (withTask .checkpoint .writing laid)
    let v := framed .mount [4, 0x77, 2, 0, 5] laid
    let u := framed .sweep [] (withSweep { Sweep.reset with state := .suspended } laid)
    (admits .mount v = true ∧ taskOf .mount v = some (.mount (mountOf 4)) ∧ v.tu.running = none) ∧
    (admits .mount s = true ∧ taskOf .mount s = some (.mount (mountOf 4)) ∧
      (s.tu.running.map RunningTask.task) = some .sweep ∧ s.tu.pendingTask = none) ∧
    (admits .mount t = true ∧ taskOf .mount t = some (.mount (mountOf 4)) ∧
      (t.tu.running.map RunningTask.task) = some .checkpoint) ∧
    (admits .sweep u = true ∧ taskOf .sweep u = some .sweep ∧ u.tu.sweep.state ≠ .none) := by decide +kernel

/-- Kinds 3, 4 and 0FFH; the last table of memory, and one word further. -/
theorem test_witness_LoadStarts :
    ([(3, 0xFFFF80), (4, 0), (0xFF, 0xFFFFFC), (3, 0xFFFF84), (0, 2)].all fun k =>
      admits .load (framed .load [k.1, k.2] laid)) = true ∧ laid.tu.running = none := by decide +kernel

/-- Slots 11 and 12; the master lock with and without the key. -/
theorem test_witness_LockCommands :
    let s := { laid with tu := { laid.tu with masterLock := true } }
    ∀ t ∈ [laid, s], admits .lockSlot (framed .lockSlot [11] t) = true ∧ admits .lockSlot (framed .lockSlot [12] t) = true ∧
      admits .clearLocks (framed .clearLocks [] t) = true ∧ admits .setMasterLock (framed .setMasterLock [] t) = true := by
  decide +kernel

theorem mounted_at_4 : mountedAt (mounted laid) 4 := by
  intro k
  revert k
  decide +kernel

/-- Slots 11 and 12; a mounted slot; a locked slot; an open one; a CHECKPOINT with a mould and without. -/
theorem test_witness_ClearSlotAndCheckpointStart :
    (let s := withSlot 11 { state := .valid, mouldId := 1, lock := true } (mounted laid)
    [0, 4, 11, 12].all (fun n => admits .clearSlot (framed .clearSlot [n] s)) = true ∧
      s.tu.directory[(4 : Fin 12)].state = .mounted ∧ s.tu.directory[(11 : Fin 12)].lock = true ∧
      s.tu.directory[(0 : Fin 12)].lock = false ∧ s.tu.running = none) ∧
    let s := framed .checkpoint [] (mounted laid)
    admits .checkpoint s = true ∧ admits .checkpoint (framed .checkpoint [] laid) = true ∧ laid.eu.state = .empty ∧
      s.eu.state = .held ∧ s.eu.mould = some mould ∧ mountedAt s 4 ∧ s.tu.running = none :=
  ⟨by decide +kernel, by decide +kernel, by decide +kernel, rfl, rfl, rfl, mounted_at_4, rfl⟩

/-- No slot that the sweep could take. -/
def allBusy (s : State) : State :=
  { s with tu := { s.tu with directory := Vector.replicate 12 { state := .loading, mouldId := 0, lock := false } } }

theorem allBusy_busy (s : State) (n : Fin 12) : (allBusy s).tu.directory[n].state.busy = true := by
  simp [allBusy]
  rfl

theorem test_witness_SweepCommands :
    (let s := framed .sweep [] laid
    admits .sweep s = true ∧ s.tu.running = none ∧ s.tu.sweep.state = .none ∧ takesSlot s 0 0 ∧
      admits .sweep (allBusy s) = true ∧ (∀ n : Fin 12, ¬ takesSlot (allBusy s) 0 n) ∧
      (allBusy s).tu.pendingTask = none) ∧
    let s (x : SweepState) := withSweep { Sweep.reset with state := x, next := 11 } laid
    (∀ x ∈ [SweepState.none, .running, .yielded, .suspended],
      admits .suspendSweep (framed .suspendSweep [] (s x)) = true ∧
      admits .resumeSweep (framed .resumeSweep [] (s x)) = true ∧
      admits .resumeSweep (framed .resumeSweep [] (withTask .checkpoint .writing (s x))) = true) ∧
      takesSlot (s .suspended) 11 11 ∧
      let u := allBusy (framed .resumeSweep [] (s .suspended))
      admits .resumeSweep u = true ∧ u.tu.sweep.state = .suspended ∧ u.tu.running = none ∧ u.tu.pendingTask = none ∧
        ∀ n : Fin 12, ¬ takesSlot u u.tu.sweep.next n := by
  refine ⟨⟨by decide +kernel, rfl, rfl, ⟨by decide, by decide +kernel, by decide +kernel⟩, by decide +kernel, ?_, rfl⟩,
    by decide +kernel, ⟨by decide, by decide +kernel, by decide +kernel⟩, by decide +kernel, rfl, rfl, rfl, ?_⟩ <;>
  exact fun n h => absurd h.2.1 (by rw [allBusy_busy _ n]; decide)

/-- Slots 11 and 12, counts 48 and 49, and a damaged target. -/
theorem test_witness_MountBeginsItsLoadPhase :
    ([(11, 48), (12, 48), (11, 49), (11, 0)].all fun k =>
      admits .mount (framed .mount [k.1, 0x77, k.2, 3, 0xFFFF] laid)) = true ∧
      laid.tu.running = none ∧ laid.eu.state = .empty ∧
      (withSlot 11 { state := .damaged, mouldId := 0, lock := false } laid).tu.directory[(11 : Fin 12)].state ∈
        [SlotState.damaged, .clearing, .loading, .saving] := by decide +kernel

theorem test_witness_SavePhaseOpens :
    let s := framed .release [] (mounted laid)
    let t := framed .mount [2, 0x77, 2, 0, 5] (mounted laid)
    (admits .release s = true ∧ admits .release (framed .release [] laid) = true ∧ laid.eu.state = .empty) ∧
      (s.eu.state = .held ∧ s.eu.mould = some mould ∧ mountedAt s 4 ∧ s.tu.running = none ∧ mould.header.profile = 0) ∧
      admits .mount t = true ∧ taskOf .mount t = some (.mount (mountOf 2)) :=
  ⟨by decide +kernel, ⟨rfl, rfl, mounted_at_4, rfl, rfl⟩, by decide +kernel, by decide +kernel⟩

/-! ### Witnesses: the commands of EU and RU -/

/-- Cavities 0, 1, 2 and 3 of a mould of two; no mould. -/
theorem test_witness_ClearingEvidence :
    [0, 1, 2, 3].all (fun n => admits .clearCavity (framed .clearCavity [n] (mounted laid))) = true ∧
      admits .clearMould (framed .clearMould [] (mounted laid)) = true ∧
      admits .clearCavity (framed .clearCavity [1] laid) = true ∧ laid.eu.state = .empty ∧
      (mounted laid).eu.state = .held ∧ (mounted laid).eu.mould = some mould ∧
      mould.cavities.length = mould.header.count ∧ mould.header.count ≤ 48 ∧ (mould.cavities[(1 : Nat)]?).isSome ∧
      let s := withQueue [queued (.verdict 1) 1 false] (mounted laid)
      wholeCopies (.verdict 1) (framed .clearCavity [2] s) ∧ wholeCopies (.verdict 1) (framed .clearMould [] s) := by
  refine ⟨by decide +kernel, by decide +kernel, by decide +kernel, rfl, rfl, rfl, rfl, by decide, rfl, ?_, ?_⟩ <;>
  · intro r hr _ _
    cases List.mem_singleton.mp hr
    rfl

/-- The largest values, and one more of each. -/
theorem test_witness_SetReportingTakesItsControls :
    ([(0x1FF, 3, 0xFF, 0xFFFF), (0x200, 3, 0xFF, 0xFFFF), (0x1FF, 4, 0xFF, 0xFFFF), (0x1FF, 3, 0x100, 0xFFFF),
        (0x1FF, 3, 0xFF, 0x10000)].all fun k =>
      admits .setReporting (framed .setReporting [k.1, k.2.1, k.2.2.1, k.2.2.2] laid)) = true := by decide +kernel

theorem test_witness_SetCounterRestartsACounter :
    ([(3, 9, 0xFFF), (4, 9, 0xFFF), (3, 10, 0xFFF), (3, 9, 0x1000)].all fun k =>
      admits .setCounter (framed .setCounter [k.1, k.2.1, k.2.2] laid)) = true ∧
      wholeCopies .counter (framed .setCounter [3, 9, 0xFFF] (withQueue [queued .counter 8 false] laid)) := by
  refine ⟨by decide +kernel, fun r hr _ _ => ?_⟩
  cases List.mem_singleton.mp hr
  rfl

theorem test_witness_ClearStatusAndAcknowledge :
    admits .clearStatus (framed .clearStatus [] laid) = true ∧
      [0xFF, 0x100].all (fun n => admits .acknowledge (framed .acknowledge [n] laid)) = true := by decide +kernel

/-! ### Witnesses: tasks -/

/-- TU writes an image of which record n is next. -/
def writing (n : Nat) (s : State) : State :=
  { s with tu := { s.tu with writer := some { slot := 3, image := List.replicate 256 1, next := n } } }

/-- A read is held under RECORD READ: the last word of its record ends that hold; the record that fills the queue again, before
the read has arrived, holds it under POST FULL, which is counted then and once; the next word ends that hold too (R15). -/
theorem test_refill_after_a_record_read :
    let s := countingHolds (writing 14 (withQueue [queued .counter 1 true, queued (.slot 5 0) 16 false] laid))
    let next (i : Instr) (s : State) : State :=
      match exec i s with
      | .next t => t
      | .fault _ | .refused _ => s
    let count (s : State) : Nat := s.ru.counters[(0 : Fin 4)].value.toNat
    let held := next (.upstreamAccessPresented (.read 0x4000D 15)) s
    let ended := next .postWordPerformed held
    let full := next .taskRecordEnqueue ended
    let room := next .postWordPerformed full
    ([held, ended, full, room].map fun t => (count t, queueLength t.pu.queue, accessHeld t)) =
      [(1, 17, true), (1, 16, false), (2, 32, true), (2, 31, false)] ∧
      (next (.upstreamRead 0x4000D 15) room).pu.access = none ∧ count (next (.upstreamRead 0x4000D 15) full) = 2 := by
  decide +kernel

/-- Records 0, 14, 15 and 16 of an image; the first and the last record of RU's order, with room and without. -/
theorem test_witness_WaitingRecordsAreAskedForInOrder :
    ((∀ n ∈ [0, 14, 15, 16], (writing n laid).inReset = false ∧ (writing n laid).pu.layoutDefined = true) ∧
      (List.replicate 256 (1 : Word)).length = 256 ∧ queueLength laid.pu.queue = 0 ∧
      queueLength (withQueue [queued .status 12 false, queued (.trace 0) 4 true] laid).pu.queue = 16 ∧
      queueLength (withQueue [queued .status 12 false, queued (.trace 0) 5 true] laid).pu.queue = 17) ∧
    let s (id : RecordId) := { laid with ru := { laid.ru with dirty := DirtyMarks.clear.put true id } }
    (∀ id ∈ [RecordId.status, .trace 1], (s id).ru.dirty.get id = true) ∧
      replaceableIds = [] ++ RecordId.status :: replaceableIds.tail ∧
      replaceableIds = replaceableIds.dropLast ++ RecordId.trace 1 :: [] ∧
      (∀ k ∈ replaceableIds.dropLast, (s (.trace 1)).ru.dirty.get k = false) ∧
      queueLength laid.pu.queue + (recordWords laid.freeBits laid (.trace 1)).length ≤ 32 ∧
      State.reset.pu.layoutDefined = false ∧ laid.ru.traceAwait = false := by
  refine ⟨by decide +kernel, by decide +kernel, rfl, by decide +kernel, by decide +kernel, by decide +kernel, rfl, rfl⟩

/-- Tables of one word, and of bands with and without their second word. -/
theorem test_witness_TablesAndSlotsAreJudged :
    ([0x00050001] : List Word).length = 1 ∧ ([0x00050001, 0x0110] : List Word).length = 2 * 0 + 2 ∧
      ([0x00050001, 0x0110, 0] : List Word).length = 2 * 0 + 3 ∧
      ([0x00050002, 0x0110, 0, 0x0120, 0] : List Word).length = 2 * 1 + 3 := by decide

/-- TU reads a table into profile 2 and has n words of it. -/
def loading (n : Nat) (s : State) : State :=
  let t := withTask (.load (.profile 2) 0x400) .reading (reading false s)
  { t with tu := { t.tu with staging := List.replicate n 0 } }

/-- Before the last word, and at it; profile 2 and profile 0 are not and are the profile in use. -/
theorem test_witness_ProfileLoadReadsAndJudges :
    (∀ n ∈ [0, 30, 31], (loading n laid).inReset = false ∧
      ((loading n laid).pu.taskRead.map (servesRead (loading n laid))) = some true ∧
      (loading n laid).tu.staging.length = n) ∧
      (loading 31 laid).tu.pendingTask = none ∧ (2 : Fin 4) ≠ profileNumberInUse laid ∧ 0 = profileNumberInUse laid :=
  ⟨by decide +kernel, rfl, by decide +kernel, by decide +kernel⟩

/-- A table of one band whose last word is the word read, and at its first word; a header of no bands. -/
theorem test_witness_ZoneLoadReplacesTheMap :
    let s := withTask (.load .zones 0x400) .reading (reading false laid)
    (s.inReset = false ∧ (s.pu.taskRead.map (servesRead s)) = some true) ∧ s.tu.pendingTask = none ∧
      zoneState 0x400 [0x00050001, 0x0110, 0] = .good ∧ zoneState 0x400 [0x00050001] = .reading ∧
      zoneState 0x400 [0x00050000] = .bad ∧ zoneState 0x400 [0x00050101] = .bad :=
  ⟨by decide +kernel, rfl, by decide +kernel, by decide +kernel, by decide +kernel, by decide +kernel⟩

/-- A running sweep that has 255 words of slot 3, its check void or not. -/
def sweeping (void : Bool) (s : State) : State :=
  let t := withTask .sweep .reading (reading false s)
  { t with tu := { t.tu with
    sweep := { state := .running, next := 4, stop := .none, check := some { slot := 3, void := void } }
    slotWords := List.replicate 255 0, slotCrc := 0x1234 } }

/-- A void check and one that holds, each stop request, a slot left and none left, with and without a pending task; no word of the
slot read yet, and the last but one. -/
theorem test_witness_SweepAppliesItsJudgement :
    ([false, true].all fun v => [StopRequest.none, .yield, .suspend].all fun x => [none, some Task.checkpoint].all fun k =>
      let s := sweeping v laid
      let u := { s with tu := { s.tu with sweep := { s.tu.sweep with stop := x }, pendingTask := k } }
      !u.inReset && (u.pu.taskRead.map (servesRead u)) == some true &&
        u.tu.sweep.check == some { slot := 3, void := v } && u.tu.slotWords.length == 255 &&
        judgeSlot u.tu.slotCrc (u.tu.slotWords ++ [0]) == .bad &&
        judgeSlot u.tu.slotCrc (u.tu.slotWords ++ [0x1234]) == .goodEmpty) = true ∧
      takesSlot (sweeping false laid) (sweeping false laid).tu.sweep.next 4 ∧
      (∀ n : Fin 12, ¬ takesSlot (sweeping false laid) 12 n) ∧
      ∀ n ∈ [0, 254],
        let s := sweeping false laid
        let u := { s with tu := { s.tu with slotWords := List.replicate n 0 } }
        u.inReset = false ∧ (u.pu.taskRead.map (servesRead u)) = some true ∧ u.tu.slotWords.length < 255 :=
  ⟨by decide +kernel, ⟨by decide, by decide +kernel, by decide +kernel⟩, fun n h => absurd h.1 (by omega),
    by decide +kernel⟩

/-- A YIELDED sweep goes on behind the end of a task, or ends. -/
theorem test_witness_GoesOn :
    let s := withSweep { Sweep.reset with state := .yielded, next := 4 } laid
    s.tu.sweep.state = .yielded ∧ takesSlot s s.tu.sweep.next 4 ∧
      ∀ n : Fin 12, ¬ takesSlot (withSweep { Sweep.reset with state := .yielded, next := 12 } laid) 12 n :=
  ⟨rfl, ⟨by decide, by decide +kernel, by decide +kernel⟩, fun n h => absurd h.1 (by omega)⟩

/-- A MOUNT that has none, 254 or 255 words of its target, and the judgements of a target. -/
theorem test_witness_MountEndsByItsJudgement :
    let holding (n : Nat) : State := withTask (.mount (mountOf 3)) .reading (reading false
      { laid with eu := { laid.eu with state := .changing }, tu := { laid.tu with slotWords := List.replicate n 0 } })
    let s := holding 255
    let words (id n : Word) : List Word := [id, 0x4E43, n] ++ List.replicate 253 0
    (s.inReset = false ∧ (s.pu.taskRead.map (servesRead s)) = some true ∧ s.eu.state = .changing ∧
      s.eu.cycles = [] ∧ s.tu.slotWords.length = 255) ∧ s.tu.pendingTask = none ∧ judgeSlot 0 (words 0x77 2) = .goodOccupied 0x77 2 ∧
      judgeSlot 0 (words 0x77 48) = .goodOccupied 0x77 48 ∧ judgeSlot 0 (words 0x77 49) = .bad ∧
      judgeSlot 0 (words 0 2) = .bad ∧ judgeSlot 1 (words 0x77 2) = .bad ∧
      (∀ n ∈ [0, 254], (holding n).inReset = false ∧ ((holding n).pu.taskRead.map (servesRead (holding n))) = some true ∧
        (holding n).tu.slotWords.length < 255) ∧
      ∀ i : Fin 48, wholeCopies (.verdict i) s :=
  ⟨by decide +kernel, rfl, by decide +kernel, by decide +kernel, by decide +kernel, by decide +kernel, by decide +kernel,
    by decide +kernel, fun _ r hr => by cases hr⟩

/-- Each of the four tasks at the last word of its image. -/
theorem test_witness_ImageWriteEndsItsTask :
    ∀ k ∈ [Task.clearSlot 3, .checkpoint, .release, .mount (mountOf 5)],
      let s := withTask k .writing (withQueue [queued (.slot 3 15) 1 true]
        { laid with eu := { laid.eu with state := .changing } })
      s.inReset = false ∧ s.pu.queue = [queued (.slot 3 15) 1 true] ∧ choiceOne s = false ∧ accessEligible s = false ∧
        s.tu.pendingTask = none ∧ s.eu.state = .changing := by decide +kernel

/-- A read that has waited 200 microseconds and goes before an access held under POST FULL: the access is counted under
TASK WAIT, though no TASK_WAIT_EXPIRY was taken (R17). -/
theorem test_read_goes_before_a_held_access :
    let s := { reading false laid with
      localTime := 200
      pu := { (reading false laid).pu with
        queue := [queued (.slot 3 0) 32 false]
        access := some
          { access := .read 0 15, arrived := false, standing := { HoldMarks.none with postFull := true }
            reported := { HoldMarks.none with postFull := true } } }
      ru := { laid.ru with counters := Vector.replicate 4 { value := 0, select := 7, mask := 4 } } }
    (match exec .taskReadData s with
      | .next t => t.pu.taskRead.isNone && t.ru.counters[(0 : Fin 4)].value == 1
      | .fault _ | .refused _ => false) = true := by decide +kernel

/-! ### Witnesses: rings, samples and timers -/

/-- One microsecond before each time, and the time itself. -/
theorem test_witness_TimersTakeEffectWhenDue :
    ((reading false laid).inReset = false ∧ atOrAfter 199 (0 + 200) = false ∧ atOrAfter 200 (0 + 200) = true ∧
      (withRing (.locked (.collecting (capture 5))) laid).sf.rings[(0 : Fin 8)].state = .locked (.collecting (capture 5)) ∧
      atOrAfter 1999 ((capture 5).lastWrite + BitVec.ofNat 32 laid.sf.framing.blockTimeout) = false ∧
      atOrAfter 2000 ((capture 5).lastWrite + BitVec.ofNat 32 laid.sf.framing.blockTimeout) = true ∧
      atOrAfter 49999 (0 + 50000) = false ∧ atOrAfter 50000 (0 + 50000) = true) ∧
    let s := withRing .hunt laid
    s.inReset = false ∧ s.sf.rings[(0 : Fin 8)].defined = true ∧
      (∀ q : Fin 8, q ≠ 0 → s.sf.rings[q].defined = true → s.sf.rings[q].channel ≠ s.sf.rings[(0 : Fin 8)].channel) ∧
      s.sf.rings[(0 : Fin 8)].state ≠ .off ∧ s.sf.rings[(0 : Fin 8)].stale = false ∧
      s.sf.rings[(0 : Fin 8)].staleRef = some 0 ∧
      atOrAfter 19999 (0 + BitVec.ofNat 32 (1000 * s.sf.framing.staleTime)) = false ∧
      atOrAfter 20000 (0 + BitVec.ofNat 32 (1000 * s.sf.framing.staleTime)) = true ∧
      s.hx.channels[(3 : Fin 8)].coveredTo = none := by decide +kernel

/-- The first and last word of the ring, in each state; a sync write of its channel and of another; a partial write, the expected
word, another, and the next position of a ring that waits at its last block. -/
theorem test_witness_RingWritesFollowTheStream :
    (∀ x ∈ [RingState.off, .hunt, .locked (.collecting (capture 66)), .locked (.waiting 3)], free (withRing x laid) = true ∧
      placeOf (withRing x laid).pu (withRing x laid).sf 0x2000 = .ring 0 0 ∧
      placeOf (withRing x laid).pu (withRing x laid).sf 0x210F = .ring 0 271 ∧
      placeOf (withRing x laid).pu (withRing x laid).sf 0x2110 = .other) ∧
      (68 % 68 = 0 ∧ (0xB4E10003 : Word).toNat / 2 ^ 16 = laid.sf.framing.sync.toNat ∧
        (0xB4E10003 : Word).toNat % 8 = (testRing .hunt).channel.val ∧
        (0xB4E10004 : Word).toNat % 8 ≠ (testRing .hunt).channel.val) ∧
      134 = 68 * (capture 66).position + (capture 66).nextWord ∧ (capture 66).nextWord < 67 ∧
      0 ≠ 68 * (capture 66).position + (capture 66).nextWord ∧ (7 : Enables) ≠ fullEnables ∧
      0 = 68 * ((3 + 1) % (testRing .hunt).blocks) ∧ 68 ≠ 68 * ((3 + 1) % (testRing .hunt).blocks) := by decide +kernel

/-- Queues of 15 and 16 entries; a check word that agrees and one that does not; a channel whose covered-to time stays, and
one whose ring is no longer stale. -/
theorem test_witness_WordSixtySevenClosesTheBlock :
    let s := withRing (.locked (.collecting (capture 67))) laid
    let t := { s with sf := { s.sf with queue := List.replicate 16 (block .continuous 0) } }
    let u := { s with sf := { s.sf with queue := List.replicate 15 (block .continuous 0) } }
    (∀ v ∈ [s, t, u], free v = true ∧ placeOf v.pu v.sf 0x2087 = .ring 0 (68 * (capture 67).position + 67) ∧
      v.sf.rings[(0 : Fin 8)].state = .locked (.collecting (capture 67))) ∧ (capture 67).nextWord = 67 ∧
      16 ≤ t.sf.queue.length ∧ u.sf.queue.length < 16 ∧ (capture 67).crc.toNat = (0x1234 : Word).toNat % 2 ^ 16 ∧
      (capture 67).crc.toNat ≠ (0x1235 : Word).toNat % 2 ^ 16 ∧ coveredTo u 3 = u.hx.channels[(3 : Fin 8)].coveredTo ∧
      let x : Channel := { Channel.reset with state := .armed 76800 1000, lastFinished := some 5 }
      let v := { u with hx := { u.hx with channels := u.hx.channels.set 3 x } }
      coveredTo v 3 ≠ v.hx.channels[(3 : Fin 8)].coveredTo := by decide +kernel

theorem test_witness_SlotWriteUnchecksTheSlot :
    let s := sweeping false laid
    free s = true ∧ placeOf s.pu s.sf 0x80300 = .slot 3 0 ∧ placeOf s.pu s.sf 0x803FF = .slot 3 255 ∧
      s.tu.directory[(3 : Fin 12)].state.busy = false ∧ s.tu.directory[(3 : Fin 12)].lock = false := by decide +kernel

/-- A continuous and a discontinuous block, with no mould and with one, at 4 queued cycles and at the first after a MOUNT; an open
hit. -/
theorem test_witness_BlockBegins :
    (∀ m ∈ [BlockMark.continuous, .sequence, .timestamp],
      let s := { laid with sf := { laid.sf with queue := [block m 0] } }
      s.inReset = false ∧ s.hx.block = none ∧ s.sf.queue = block m 0 :: []) ∧
      let s := { mounted laid with eu := { (mounted laid).eu with
        cycles := [emptyEntry 1 0, emptyEntry 2 0, emptyEntry 3 0, emptyEntry 4 0], newest := some 4 } }
      s.eu.state = .held ∧ (∀ k ∈ s.eu.cycles, k.cycle ≠ (block .continuous 0).cycle) ∧
        passedOver s.eu.newest (block .continuous 0).cycle = false ∧ s.eu.cycles.length ≤ 4 ∧ s.eu.mould = some mould ∧
        ((mounted laid).eu.newest = none ∧ (mounted laid).eu.cycles = [] ∧ (mounted laid).eu.state = .held) ∧
        [9, 10, 13, 14].map (fun n : Half => passedOver (some n) (block .continuous 0).cycle) =
          [false, true, true, false] ∧
        (match (extracting (.inHit 76800 1000 (openHitAt (block .continuous 0) 0 1000)) 0 0 laid).hx.channels[(3 : Fin 8)].state
          with
          | .inHit _ _ _ => true
          | .idle | .settling | .armed _ _ | .lockout _ _ _ => false) = true ∧
        (laid.ru.counters.all fun c => c.select != 5 && c.select != 8 && c.select != 9) = true := by decide +kernel

/-- One below the threshold and the threshold itself, at samples 126 and 127; MAXDUR 1, with MINDUR 1 and 2 and a last
delivered end at the arrival. -/
theorem test_witness_ArmedSample :
    ([999, 1000].all fun v => [126, 127].all fun n =>
      let s := extracting (.armed 76800 1000) v n laid
      !s.inReset && s.hx.block == some { entry := block .continuous v, next := n, sum := 0 } &&
        s.hx.channels[(3 : Fin 8)].state == .armed 76800 1000 &&
        s.hx.channels[(3 : Fin 8)].params == some Profile.default.extraction) = true ∧
      1 ≤ Profile.default.extraction.hdt ∧ 2 ≤ Profile.default.extraction.maxdur ∧
      ({ Profile.default.extraction with maxdur := 1 }).maxdur ≤ 1 := by decide +kernel

/-- With MAXDUR 1 the opening sample closes its hit: TRUNCATED, accepted, and the channel in LOCKOUT (R66, R67). -/
theorem test_opening_sample_of_maxdur_1 :
    let t := extracting (.armed 76800 1000) 1000 126 laid
    let s := { t with
      hx := { t.hx with
        channels := t.hx.channels.set 3
          { t.hx.channels[(3 : Fin 8)] with
            params := some { Profile.default.extraction with mindur := 1, maxdur := 1, hlt := 5 } } }
      ru := { t.ru with counters := Vector.replicate 4 { value := 0, select := 4, mask := 5 } } }
    (match exec .sampleProcessed s with
      | .next u => u.ru.counters[(0 : Fin 4)].value == 2 && u.hx.channels[(3 : Fin 8)].state == .lockout 76800 1000 5
      | .fault _ | .refused _ => false) = true := by decide +kernel

/-- Each sample in SETTLING, and in LOCKOUT and ARMED; a ring on the channel that is on and not stale. -/
theorem test_witness_SettlingLockoutAndFinish :
    (∀ n ∈ [126, 127], let s := extracting .settling 5 n laid
      s.inReset = false ∧ s.hx.block = some { entry := block .continuous 5, next := n, sum := 0 } ∧
        s.hx.channels[(3 : Fin 8)].state = .settling ∧
        s.hx.channels[(3 : Fin 8)].params = some Profile.default.extraction) ∧
      ∀ k ∈ [ChannelState.lockout 76800 1000 1, .lockout 76800 1000 2, .armed 76800 5, .armed 76800 6], ∀ n ∈ [126, 127],
        (extracting k 5 n laid).hx.channels[(3 : Fin 8)].state = k ∧
          (let s := extracting k 5 n (withRing .hunt laid)
          s.sf.rings[(0 : Fin 8)].defined = true ∧ s.sf.rings[(0 : Fin 8)].channel = 3 ∧
            (∀ q : Fin 8, q ≠ 0 → s.sf.rings[q].defined = true → s.sf.rings[q].channel ≠ 3) ∧
            s.sf.rings[(0 : Fin 8)].state ≠ .off ∧ s.sf.rings[(0 : Fin 8)].stale = false) := by decide +kernel

/-- An open hit of one sample that the samples below its threshold close by HDT, of 99 samples that one more truncates, and one
that stays open; a hit that arrives not after the last delivered end. -/
theorem test_witness_SampleFollowsItsHit :
    let p := { Profile.default.extraction with hdt := 2, maxdur := 100 }
    let open_ (n below : Nat) : OpenHit :=
      { threshold := 1000, arrival := 10, phase := 4, cycle := 9, startAccept := 20, count := n, peak := 1200
        peakOffset := 0, energy := 200, lastAbove := 0, belowRun := below }
    let s (h : OpenHit) (i : Nat) : State :=
      { laid with hx :=
        { channels := laid.hx.channels.set 3 { Channel.reset with state := .inHit 76800 1000 h, params := some p,
                                                                  lastEnd := some 10 }
          block := some { entry := block .continuous 900, next := i, sum := 0 } } }
    ([open_ 1 1, open_ 99 0, open_ 1 0].all fun h => [0, 126, 127].all fun i =>
      (s h i).hx.block == some { entry := block .continuous 900, next := i, sum := 0 } && decide (1 ≤ h.count) &&
        (s h i).hx.channels[(3 : Fin 8)].state == .inHit 76800 1000 h &&
        (s h i).hx.channels[(3 : Fin 8)].params == some p) = true ∧
      p.hdt ≤ (open_ 1 1).belowRun + 1 ∧ p.maxdur ≤ (open_ 99 0).count + 1 ∧ (open_ 1 0).belowRun + 1 < p.hdt ∧
      (open_ 1 0).count + 1 < p.maxdur ∧ isAfter (open_ 1 1).arrival 10 = false := by decide +kernel

/-! ### Witnesses: events and cycles -/

/-- A hit of a channel at an arrival, of the cycle 9. -/
def hitAt (c : Fin 8) (t : Time) : Hit :=
  { channel := c, arrival := t, phase := 4, cycle := 9, peak := 1200, rise := 2, duration := 6, energy := 8000
    startAccept := 20 }

/-- EL with these hits, a floor and a horizon. -/
def pooled (hs : List Hit) (floor horizon : Option Time) (s : State) : State :=
  { s with el := { s.el with pool := hs, floor := floor, horizon := horizon } }

/-- Before the floor and at it; 31 and 32 hits in the pool. -/
theorem test_witness_HitsEnterThePool :
    atOrAfter (hitAt 0 99).arrival 100 = false ∧ atOrAfter (hitAt 0 100).arrival 100 = true ∧
      ([31, 32].map fun n => (pooled (List.replicate n (hitAt 1 200)) (some 100) none laid).el.pool.length) = [31, 32] ∧
      (pooled [] none none laid).el.floor = none := by decide +kernel

/-- Channels that have been in the horizon since the reset. -/
def joining (cs : List (Fin 8)) (s : State) : State :=
  { s with hx := { s.hx with channels := Vector.ofFn fun c => { s.hx.channels[c] with joined := cs.contains c } } }

/-- R91: the first hit after a reset forms its event as it is delivered, and waits when another channel has been in the
horizon. -/
theorem test_first_hits_form_events_at_once :
    let deliver (cs : List (Fin 8)) := deliverHit (hitAt 0 100) (pooled [] none (some 60) (joining cs laid))
    ((deliver [0]).el.pool = [] ∧ (deliver [0]).el.serial = 1) ∧ (deliver [0, 1]).el.pool = [hitAt 0 100] ∧
      (deliver [0, 1]).el.serial = 0 := by decide +kernel

/-- The horizon one microsecond before the first arrival plus W, at it, and unbounded, and the first hit after a reset; a ring in
each state on its channel. -/
theorem test_witness_HorizonReleasesEvents :
    let w := BitVec.ofNat 32 (profileInUse laid).event.w
    atOrAfter (100 + w - 1) ((hitAt 0 100).arrival + w) = false ∧ atOrAfter (100 + w) ((hitAt 0 100).arrival + w) = true ∧
      (pooled [hitAt 0 100] none none laid).el.horizon = none ∧
      ([([0], true), ([0, 1], false)].all fun k => firstInHorizon (joining k.1 laid) (hitAt 0 100).channel == k.2) = true ∧
      ([RingState.off, .hunt].all fun x =>
        let s := withRing x laid
        s.sf.rings[(0 : Fin 8)].defined && s.sf.rings[(0 : Fin 8)].channel == 3 &&
          allChannels.all fun q => q == 0 || !s.sf.rings[q].defined) = true := by decide +kernel

theorem test_witness_EventForms :
    (pooled [hitAt 0 100, hitAt 0 110, hitAt 1 140] none none laid).el.pool = hitAt 0 100 :: [hitAt 0 110, hitAt 1 140] :=
  rfl

/-- Of two hits of a channel the second stays in the pool, and becomes the anchor of the next event. -/
theorem test_two_events_of_one_pool :
    let s := pooled [hitAt 0 100, hitAt 0 110, hitAt 1 140] none (some 2000) laid
    let t := locatorTest s
    t.el.pool = [] ∧ t.el.floor = some 110 ∧ t.el.serial = 2 := by decide +kernel

/-- The mask admits the outcome or does not, with room for an entry and without, and the countdown at 1. -/
theorem test_witness_EventsAreLoggedAndTraced :
    let s := { laid with ru := { laid.ru with traceInterval := 5, countdown := 1 } }
    let copies := withQueue [queued (.trace 0) 16 false, queued (.trace 1) 3 true] s
    ([EventOutcome.held, .crack].map fun o => s.ru.logMask.getLsbD o.code) = [false, true] ∧
      (s.pu.layoutDefined = true ∧ queueLength s.pu.queue + 4 ≤ 32) ∧
      ¬ queueLength (withQueue [queued (.trace 0) 16 false, queued (.log 0) 4 false, queued .status 9 true] s).pu.queue + 4 ≤
        32 ∧
      wholeCopies (.trace 0) copies ∧ wholeCopies (.trace 1) copies := by
  refine ⟨by decide +kernel, by decide +kernel, by decide +kernel, ?_, ?_⟩
  · intro r hr _ _
    simp only [withQueue, List.mem_cons, List.not_mem_nil, or_false] at hr
    rcases hr with rfl | rfl <;> first | rfl | contradiction
  · intro r hr _ _
    simp only [withQueue, List.mem_cons, List.not_mem_nil, or_false] at hr
    rcases hr with rfl | rfl <;> first | rfl | contradiction

/-- A mould with these cycles open. -/
def cycling (cs : List CycleEntry) (newest : Half) (s : State) : State :=
  { mounted s with eu := { (mounted s).eu with cycles := cs, newest := some newest } }

/-- Two cycles with the horizon at the start of the newer, and one microsecond before; four open; none, after a MOUNT. -/
theorem test_witness_CyclesClose :
    let two := cycling [emptyEntry 1 0, emptyEntry 2 500] 2 laid
    let four := cycling [emptyEntry 1 0, emptyEntry 2 0, emptyEntry 3 0, emptyEntry 4 0] 4 laid
    (two.eu.cycles = emptyEntry 1 0 :: emptyEntry 2 500 :: [] ∧ atOrAfter 500 (emptyEntry 2 500).start = true ∧
      atOrAfter 499 (emptyEntry 2 500).start = false ∧ two.eu.mould = some mould ∧ mould.cavities.length ≤ 48) ∧
      (wholeCopies .counter two ∧ ∀ i : Fin 48, wholeCopies (.verdict i) two) ∧
      (four.eu.cycles.length = 4 ∧ (∀ k ∈ four.eu.cycles, k.cycle ≠ 6) ∧ passedOver four.eu.newest 6 = false) ∧
      (mounted laid).eu.cycles = [] ∧ (mounted laid).eu.newest = none ∧ (mounted laid).eu.state = .held := by
  refine ⟨by decide +kernel, ⟨fun r hr => ?_, fun _ r hr => ?_⟩, by decide +kernel, rfl, rfl, rfl⟩ <;> cases hr

/-- A forced close and the creation of the new entry are one report: the counter record shows four open cycles, the new
cycle number and the gap (R111, R154). -/
theorem test_forced_close_and_creation_are_one_report :
    let s := { cycling [emptyEntry 1 0, emptyEntry 2 500, emptyEntry 3 600, emptyEntry 4 700] 4 laid with
      el := { laid.el with horizon := some 100 }
      ru := { laid.ru with counters := Vector.replicate 4 { value := 0, select := 9, mask := 0xA } } }
    let t := blockBegun 6 800 s
    (t.pu.queue.map fun r => (r.id, r.words[0]?, r.words[6]?))[1]? = some (.counter, some 2, some 0x00040006) ∧
      (t.pu.queue.filter fun r => r.id == .counter).length = 1 := by decide +kernel

/-! ### Witnesses: evidence, attention and the archive -/

theorem test_witness_CavityStepsTheLadder : ∀ v ∈ [Verdict.sound, .watch, .suspect, .cracked],
    hotMatches { freshCavity with verdict := v, history := 0x80000001, hot := 2 } := by
  unfold hotMatches
  decide +kernel

/-- ATTN and ALARM both ways, in each alarm mode. -/
theorem test_witness_LinesFollowTheState :
    let s (m : AlarmMode) (p : Option Time) (v : Verdict) : State :=
      { mounted laid with
        eu := { state := .held, mould := some { mould with cavities := [{ freshCavity with verdict := v }] }
                cycles := [], newest := none, pulse := p }
        ru := { laid.ru with alarmMode := m, causes := 0x80, enables := 0x80, masterEnable := true } }
    attn (s .off none .sound) = true ∧ attn laid = false ∧ alarm (s .off (some 0) .cracked) = false ∧
      alarm (s .level none .cracked) = true ∧ alarm (s .level (some 0) .suspect) = false ∧
      alarm (s .pulseCrack (some 0) .sound) = true ∧ alarm (s .pulseSuspect none .cracked) = false := by decide +kernel

theorem test_witness_SavedMouldComesBack :
    mould.header.mouldId ≠ 0 ∧ 1 ≤ mould.header.count ∧ mould.header.count ≤ 48 ∧
      mould.cavities.length = mould.header.count ∧ mould.header.observed < 2 ^ 32 ∧
      (∀ r ∈ mould.cavities, r.hot = hotCount r.history ∧ r.totalEnergy < 2 ^ 48 ∧ r.suspectEnergy < 2 ^ 48 ∧
        r.lifetime < 2 ^ 22 ∧ r.lastCycle < 2 ^ 8) ∧
      (mountOf 3).mouldId = mould.header.mouldId ∧ (mountOf 3).count = mould.header.count := by decide +kernel

end Sys2Proof.Tests
end

section
/-! Every row of the table as one of a few kinds of effect, and the induction over steps that follows: a predicate that each
kind of effect keeps is kept by every row and by every step. -/

namespace Sys2Proof.Machine

/-! ### The kinds of effect -/

/-- RESETn released, before an access that is outstanding meets the holds (R4). -/
def released (straps : BitVec 4) (s : State) : State :=
  { s with
    pins := { s.pins with cwsel := straps }, inReset := false, localTime := 0
    pu := { s.pu with strap := straps } }

/-- The outstanding access and the counters replaced: all that presenting an access and testing the holds can change. -/
def withHolds (o : Option Outstanding) (cs : Vector Counter 4) (s : State) : State :=
  { s with pu := { s.pu with access := o }, ru := { s.ru with counters := cs } }

theorem setAccess_eq_withHolds (o : Option Outstanding) (s : State) : setAccess o s = withHolds o s.ru.counters s := rfl

/-- The predicate is kept by each kind of effect that a row can have: those of the two reset rows, of the tests of the holds,
of an access that arrives, and of the part's own steps. -/
structure KeptByParts (P : State → Prop) : Prop where
  assertReset {s : State} : P s → P (assertReset s)
  released (n : BitVec 4) {s : State} : s.inReset = true → P s → P (released n s)
  withHolds (o : Option Outstanding) (cs : Vector Counter 4) {s : State} : P s → P (withHolds o cs s)
  withPins (x : Pins) {s : State} : P s → P (s.withPins x)
  writeArrives (w : WordAddr) (be : Enables) (d : Word) {s : State} : s.inReset = false → P s → P (writeArrives w be d s)
  readArrives (w : WordAddr) (be : Enables) {s : State} : P s → P (readArrives w be s)
  performWord {s : State} : P s → P (performWord s)
  askRecords {s : State} : P s → P (askRecords 16 s)
  postDirty {s : State} : P s → P (postDirty s)
  serveRead (r : TaskRead) {s : State} : P s → P (serveRead r s)
  promoteRead (r : TaskRead) {s : State} : P s → P (promoteRead r s)
  timeoutBlock (r : Fin 8) {s : State} : P s → P (timeoutBlock r s)
  staleRing (r : Fin 8) {s : State} : P s → P (staleRing r s)
  endPulse {s : State} : P s → P (endPulse s)
  takeBlock {s : State} : P s → P (takeBlock s)
  processSample (w : BlockInWork) {s : State} : P s → P (processSample w s)

namespace KeptByParts

variable {P : State → Prop} (k : KeptByParts P) {s : State}
include k

/-! ### An access and the holds it meets -/

theorem reportHolds (h : P s) : P (reportHolds s) := by
  obtain ⟨o, cs, form⟩ := reportHolds_form s
  rw [form]
  exact k.withHolds o cs h

theorem startAccess (a : Access) (h : P s) : P (startAccess a s) := by
  obtain ⟨o, cs, form⟩ := startAccess_form a s
  rw [form]
  exact k.withHolds o cs h

theorem presentAccess (a : Access) (h : P s) : P (presentAccess a s) := by
  unfold Machine.presentAccess
  split
  · exact k.startAccess a h
  · exact h

theorem tryAccess {f : State → State} (hf : ∀ {u : State}, u.inReset = false → P u → P (f u)) (h : P s) :
    P (tryAccess f s) := by
  unfold Machine.tryAccess
  split
  · exact h
  · next r =>
    have tested := k.reportHolds h
    dsimp only
    split
    · exact tested
    · refine hf ?_ (k.withHolds none _ tested)
      exact (reportHolds_within s).inReset.trans (Bool.eq_false_iff.mpr r)

/-- The row of an access, whose effect on arrival is f. -/
theorem arrive (a : Access) {f : State → State} (hf : ∀ {u : State}, u.inReset = false → P u → P (f u)) (h : P s) :
    P (arrive a f s) := by
  unfold Machine.arrive
  split
  · exact k.tryAccess hf (k.startAccess a h)
  · split
    · exact k.tryAccess hf h
    · exact h

theorem busWrite (w : WordAddr) (be : Enables) (d : Word) (h : P s) : P (busWrite w be d s) :=
  k.arrive _ (k.writeArrives w be d) h

theorem busRead (w : WordAddr) (be : Enables) (h : P s) : P (busRead w be s) :=
  k.arrive _ (fun _ => k.readArrives w be) h

theorem windowWrite (n : Nat) (d : Word) (h : P s) : P (windowWrite n d s) := k.busWrite _ _ d h

theorem commandRow (c : Command) (p : Pins) (h : P s) : P (commandRow c p s) := by
  unfold Machine.commandRow
  split
  · exact k.windowWrite 15 _ (k.withPins p h)
  · exact h

/-! ### Resets and the part's own steps -/

theorem releaseReset (n : BitVec 4) (r : s.inReset = true) (h : P s) : P (releaseReset n s) := by
  have base : P (Machine.released n s) := k.released n r h
  unfold Machine.releaseReset
  dsimp only
  split
  · exact base
  · exact k.reportHolds (k.withHolds _ _ base)

/-- A step of the part's own, with the tests of the holds around it. -/
theorem whileRunning {f : State → State} (hf : ∀ {u : State}, P u → P (f u)) (h : P s) : P (whileRunning f s) := by
  unfold Machine.whileRunning
  split
  · exact h
  · exact k.reportHolds (hf (k.reportHolds h))

theorem serveIfChosen (h : P s) : P (serveIfChosen s) := by
  unfold Machine.serveIfChosen
  split
  · split
    · exact k.serveRead _ h
    · exact h
  · exact h

theorem promoteIfDue (h : P s) : P (promoteIfDue s) := by
  unfold Machine.promoteIfDue
  split
  · split
    · exact k.promoteRead _ h
    · exact h
  · exact h

theorem takeNextSample (h : P s) : P (takeNextSample s) := by
  unfold Machine.takeNextSample
  split
  · split
    · exact k.processSample _ h
    · exact h
  · exact h

/-! ### Rows and steps -/

omit k in
theorem ite {p : Prop} [Decidable p] {t u : State} (h : P t) (k : P u) : P (if p then t else u) := by
  split <;> assumption

/-- Every row keeps the predicate. -/
theorem exec {i : Instr} {t : State} (h : P s) (e : exec i s = .next t) : P t := by
  cases i with
  | resetnAssert => cases e; exact k.assertReset h
  | resetnRelease n =>
    cases e
    split
    · next r => exact k.releaseReset n r h
    · exact h
  | upstreamAccessPresented a => cases e; exact k.presentAccess a h
  | upstreamWrite w be d => cases e; exact k.busWrite w be d h
  | upstreamRead w be => cases e; exact k.busRead w be h
  | openingWordWrite d => cases e; exact k.windowWrite 0 d h
  | parameterWordWrite n d => cases e; exact ite (k.windowWrite _ d h) h
  | partialWrite n be d => cases e; exact ite (k.busWrite _ be d h) h
  | noFrame d => cases e; exact ite (k.windowWrite 15 d h) h
  | invalidSequence d => cases e; exact ite (k.windowWrite 15 d h) h
  | refusedCode => cases e; exact ite (k.windowWrite 15 _ h) h
  | defineLayout => cases e; exact k.commandRow _ _ h
  | resetPart n => cases e; exact k.commandRow _ _ h
  | defineRing => cases e; exact k.commandRow _ _ h
  | ringOn => cases e; exact k.commandRow _ _ h
  | ringOff => cases e; exact k.commandRow _ _ h
  | resetRing => cases e; exact k.commandRow _ _ h
  | setFraming => cases e; exact k.commandRow _ _ h
  | load => cases e; exact k.commandRow _ _ h
  | lockSlot b => cases e; exact k.commandRow _ _ h
  | clearLocks b => cases e; exact k.commandRow _ _ h
  | setMasterLock b => cases e; exact k.commandRow _ _ h
  | clearSlot b => cases e; exact k.commandRow _ _ h
  | sweep => cases e; exact k.commandRow _ _ h
  | suspendSweep => cases e; exact k.commandRow _ _ h
  | resumeSweep => cases e; exact k.commandRow _ _ h
  | mount => cases e; exact k.commandRow _ _ h
  | checkpoint => cases e; exact k.commandRow _ _ h
  | release => cases e; exact k.commandRow _ _ h
  | clearCavity => cases e; exact k.commandRow _ _ h
  | clearMould => cases e; exact k.commandRow _ _ h
  | setReporting => cases e; exact k.commandRow _ _ h
  | setCounter => cases e; exact k.commandRow _ _ h
  | clearStatus => cases e; exact k.commandRow _ _ h
  | acknowledge => cases e; exact k.commandRow _ _ h
  | postWordPerformed => cases e; exact k.whileRunning (fun h => ite (k.performWord h) h) h
  | taskRecordEnqueue => cases e; exact k.whileRunning k.askRecords h
  | dirtyRecordPost => cases e; exact k.whileRunning k.postDirty h
  | taskReadData => cases e; exact k.whileRunning k.serveIfChosen h
  | taskWaitExpiry => cases e; exact k.whileRunning k.promoteIfDue h
  | blockTimeout r => cases e; exact k.whileRunning (k.timeoutBlock r) h
  | ringStale r => cases e; exact k.whileRunning (k.staleRing r) h
  | alarmPulseEnd => cases e; exact k.whileRunning k.endPulse h
  | blockBegin => cases e; exact k.whileRunning k.takeBlock h
  | sampleProcessed => cases e; exact k.whileRunning k.takeNextSample h

/-- Every step keeps the predicate, if it looks neither at the waiting commands nor at the local time. -/
theorem step {t : State} (pending : ∀ (l : List Instr) {u : State}, P u → P (u.withPending l))
    (time : ∀ (x : Time) {u : State}, P u → P { u with localTime := x }) (h : P s) (e : step s = .next t) : P t := by
  unfold Machine.step at e
  split at e
  · cases e
    exact ite h (time _ h)
  · exact k.exec (pending _ h) e

end KeptByParts

/-- Every row answers a next state. -/
theorem exec_next (i : Instr) (s : State) : ∃ t, exec i s = .next t := by
  cases i <;> exact ⟨_, rfl⟩

/-- So does every step. -/
theorem step_next (s : State) : ∃ t, step s = .next t := by
  unfold step
  split
  · exact ⟨_, rfl⟩
  · exact exec_next _ _

end Sys2Proof.Machine
end

section
/-! What each of the part's own steps can change, and the two statements that follow from it: memory stays canonical, and
every row answers a next state with the waiting commands as they were. -/

namespace Sys2Proof.Machine

/-! ### What a step of the part's own can change -/

/-- A queued word is performed: memory, and through a slot image that it ends all that a task may touch. -/
abbrev Touch.word : Touch :=
  { mem := true, queue := true, read := true, ru := true, free := true, eu := true, euState := true, el := true,
    zones := true, tu := true }

/-- The state in which the head word d of the record r has been performed, before the record's completion is acted on. -/
def wordPerformed (r : QueuedRecord) (d : Word) (ds : List Word) (rest : List QueuedRecord) (s : State) : State :=
  { s with mem := s.mem.writeWord r.addr fullEnables d, pu := { s.pu with queue := queueAfter r ds rest } }

/-- What performing the head of the queue does, by the head of the queue. -/
theorem performWord_cases (s : State) :
    (s.pu.queue = [] ∧ performWord s = s) ∨
    (∃ r rest, s.pu.queue = r :: rest ∧ r.words = [] ∧ performWord s = s.withPu { s.pu with queue := rest }) ∨
    ∃ r rest d ds, s.pu.queue = r :: rest ∧ r.words = d :: ds ∧ performWord s =
      if ds = [] then recordCompletes r.id s (wordPerformed r d ds rest s) else wordPerformed r d ds rest s := by
  unfold performWord
  cases hq : s.pu.queue with
  | nil => exact .inl ⟨rfl, rfl⟩
  | cons r rest =>
    cases hw : r.words with
    | nil => exact .inr (.inl ⟨r, rest, rfl, hw, by simp only [hw]⟩)
    | cons d ds => exact .inr (.inr ⟨r, rest, d, ds, rfl, hw, by simp only [hw]; rfl⟩)

theorem wordPerformed_within (r : QueuedRecord) (d : Word) (ds : List Word) (rest : List QueuedRecord) (s : State) :
    Within .word s (wordPerformed r d ds rest s) := by
  constructor <;> simp [wordPerformed]

theorem performWord_within (s : State) : Within .word s (performWord s) := by
  obtain ⟨-, e⟩ | ⟨r, rest, -, -, e⟩ | ⟨r, rest, d, ds, -, -, e⟩ := performWord_cases s
  · rw [e]; exact Within.refl _ s
  · rw [e]; constructor <;> simp
  · rw [e]
    have w := wordPerformed_within r d ds rest s
    exact Within.ite (w.trans (recordCompletes_within _ _ _).widen) w

theorem serveRead_within (r : TaskRead) (s : State) : Within .task s (serveRead r s) := by
  have taken : Within .task s (s.withPu { s.pu with taskRead := none }) := by constructor <;> simp
  exact (taken.trans (taskData_within _ _)).trans (reportTask_within _ _ _ _)

theorem promoteRead_within (r : TaskRead) (s : State) : Within .task s (promoteRead r s) := by
  constructor <;> simp [promoteRead]

theorem endPulse_within (s : State) : Within .close s (endPulse s) := by
  unfold endPulse
  split
  · exact Within.ite (withEu_within s _ rfl) (Within.refl _ s)
  · exact Within.refl _ s

theorem takeBlock_within (s : State) : Within .frame s (takeBlock s) := by
  unfold takeBlock
  split
  · exact (withSf_within s _).trans (beginBlock_within _ _).widen
  all_goals exact Within.refl _ s

/-- A write that arrives leaves the waiting commands. -/
theorem writeArrives_pending (w : WordAddr) (be : Enables) (d : Word) (s : State) :
    (writeArrives w be d s).pending = s.pending := by
  unfold writeArrives
  split
  · next k _ => exact ((noteDrop_within k _ s).widen.trans (report_within {} s _)).pending
  · exact (copyWrite_keeps _ be d _).pending

/-! ### Memory stays canonical -/

theorem performWord_wf {s : State} (h : s.mem.wf = true) : (performWord s).mem.wf = true := by
  cases hw : headWord s.pu.queue with
  | none => rw [performWord_mem_none hw]; exact h
  | some x => rw [performWord_mem (a := x.1) (d := x.2) hw]; exact Memory.wf_writeWord h _ _ _

theorem writeArrives_wf (w : WordAddr) (be : Enables) (d : Word) {s : State} (h : s.mem.wf = true) :
    (writeArrives w be d s).mem.wf = true := by
  rw [writeArrives_mem]
  split
  · exact h
  · exact Memory.wf_writeWord h w be d

/-- An operation that does not touch memory keeps its canonical form. -/
theorem Within.wf {m : Touch} {s t : State} (w : Within m s t) (h : s.mem.wf = true) (k : m.mem = false := by rfl) :
    t.mem.wf = true := by
  rw [w.mem k]
  exact h

theorem canonicalMemory_kept : KeptByParts fun s => s.mem.wf = true where
  assertReset h := h
  released _ _ _ h := h
  withHolds _ _ _ h := h
  withPins _ _ h := h
  writeArrives w be d _ _ h := writeArrives_wf w be d h
  readArrives _ _ _ h := h
  performWord h := performWord_wf h
  askRecords h := (askRecords_within 16 _).wf h
  postDirty h := (postDirty_within _).wf h
  serveRead r _ h := (serveRead_within r _).wf h
  promoteRead r _ h := (promoteRead_within r _).wf h
  timeoutBlock r _ h := (timeoutBlock_within r _).wf h
  staleRing r _ h := (staleRing_within r _).wf h
  endPulse h := (endPulse_within _).wf h
  takeBlock h := (takeBlock_within _).wf h
  processSample w _ h := (processSample_within w _).wf h

/-- Settles O3: of the kinds of effect a row can have, only an arriving write and a performed word touch memory, and a word
write keeps the canonical form. -/
theorem stepKeepsCanonicalMemory : Obligations.StepKeepsCanonicalMemory :=
  fun _ _ h e => canonicalMemory_kept.step (fun _ _ h => h) (fun _ _ h => h) h e

/-! ### Every command completes -/

theorem pending_kept (q : List Instr) : KeptByParts fun s => s.pending = q where
  assertReset h := h
  released _ _ _ h := h
  withHolds _ _ _ h := h
  withPins _ _ h := h
  writeArrives w be d _ _ h := (writeArrives_pending w be d _).trans h
  readArrives _ _ _ h := h
  performWord h := (performWord_within _).pending.trans h
  askRecords h := (askRecords_within 16 _).pending.trans h
  postDirty h := (postDirty_within _).pending.trans h
  serveRead r _ h := (serveRead_within r _).pending.trans h
  promoteRead r _ h := (promoteRead_within r _).pending.trans h
  timeoutBlock r _ h := (timeoutBlock_within r _).pending.trans h
  staleRing r _ h := (staleRing_within r _).pending.trans h
  endPulse h := (endPulse_within _).pending.trans h
  takeBlock h := (takeBlock_within _).pending.trans h
  processSample w _ h := (processSample_within w _).pending.trans h

/-- Settles O2: no row has an arm that stops, so no state of a run does, and no kind of effect looks at the waiting
commands. -/
theorem everyCommandCompletes : Obligations.EveryCommandCompletes := by
  refine ⟨fun i s => ?_, fun _ _ t _ => step_next t⟩
  obtain ⟨t, e⟩ := exec_next i s
  exact ⟨t, e, (pending_kept s.pending).exec rfl e⟩

end Sys2Proof.Machine
end

section
/-! Windows: the checks of DEFINE LAYOUT and DEFINE RING as statements about bytes, which operations leave every window where
it is, and that every step keeps the windows apart. -/

namespace Sys2Proof.Machine

/-! ### Windows as runs of bytes -/

theorem apart_comm {a n b m : Nat} (h : apart a n b m) : apart b m a n :=
  fun x ⟨h1, h2, h3, h4⟩ => h x ⟨h3, h4, h1, h2⟩

/-- Two windows overlap exactly when they are not apart. -/
theorem overlaps_eq_false_iff (v u : Window) : v.overlaps u = false ↔ apart v.first v.size u.first u.size := by
  simp only [Window.overlaps, decide_eq_false_iff_not]
  constructor
  · intro h x hx
    omega
  · intro h k
    exact h (max v.first u.first) (by omega)

theorem mem_allChannels (q : Fin 8) : q ∈ allChannels := by
  revert q
  decide

theorem overlapsRing_eq_false_iff (v : Window) (sf : StreamFramer) (rs : List (Fin 8)) :
    overlapsRing v sf rs = false ↔
      ∀ q ∈ rs, sf.rings[q].defined = true → apart v.first v.size sf.rings[q].base.toNat (272 * sf.rings[q].blocks) := by
  have ring (q : Fin 8) : v.overlaps (ringWindow sf.rings[q]) = false ↔
      apart v.first v.size sf.rings[q].base.toNat (272 * sf.rings[q].blocks) := overlaps_eq_false_iff _ _
  unfold overlapsRing
  rw [List.any_eq_false]
  refine forall₂_congr fun q _ => ?_
  rw [← ring]
  cases sf.rings[q].defined <;> simp

theorem overlapsRing_all_iff (v : Window) (s : State) :
    overlapsRing v s.sf allChannels = false ↔ apartFromRings v.first v.size s fun _ => False := by
  rw [overlapsRing_eq_false_iff]
  exact ⟨fun h q d _ => h q (mem_allChannels q) d, fun h q _ d => h q d id⟩

theorem overlapsRing_other_iff (v : Window) (s : State) (r : Fin 8) :
    overlapsRing v s.sf (otherRings r) = false ↔ apartFromRings v.first v.size s fun q => q = r := by
  have other (q : Fin 8) : q ∈ otherRings r ↔ ¬ q = r := by simp [otherRings, mem_allChannels]
  rw [overlapsRing_eq_false_iff]
  exact ⟨fun h q d n => h q ((other q).mpr n) d, fun h q m d => h q d ((other q).mp m)⟩

theorem commandWindow_apart_iff (v : Window) (s : State) :
    v.overlaps (commandWindow s.pu.strap) = false ↔ apart v.first v.size (commandBase s) 64 := by
  rw [overlaps_eq_false_iff, commandWindow_first]
  rfl

theorem bits_low (w : Word) (width : Nat) : bits w 0 width = w.toNat % 2 ^ width := by simp [bits]

theorem addressFits_iff (w : Word) : addressFits w = true ↔ w.toNat < 2 ^ 24 := by
  have := w.isLt
  simp only [addressFits, bits, beq_iff_eq]
  omega

theorem addressOf_toNat {w : Word} (h : w.toNat < 2 ^ 24) : (addressOf w).toNat = w.toNat := by
  unfold addressOf
  rw [bits_low, BitVec.toNat_ofNat]
  omega

/-- Checks 2 to 5 of R5. -/
theorem basesOk_iff (s : State) (results archive : Word) :
    basesOk s results archive = true ↔ layoutFits s results.toNat archive.toNat := by
  unfold basesOk layoutFits
  simp only [Bool.and_eq_true, Bool.not_eq_true', addressFits_iff, beq_iff_eq, decide_eq_true_eq, bits_low,
    commandWindow_apart_iff, overlapsRing_all_iff, and_assoc]
  simp only [overlaps_eq_false_iff, resultsWindow, archiveWindow, Nat.reducePow]

/-- Check 5 of R39. -/
theorem windowTaken_eq_false_iff (s : State) (r : Fin 8) (v : Window) : windowTaken s r v = false ↔
    apart v.first v.size (commandBase s) 64 ∧
    (s.pu.layoutDefined = true → apart v.first v.size s.pu.resultsBase.toNat 0x1400 ∧
      apart v.first v.size s.pu.archiveBase.toNat 0x3000) ∧
    apartFromRings v.first v.size s fun q => q = r := by
  unfold windowTaken
  rw [Bool.or_eq_false_iff, Bool.or_eq_false_iff, commandWindow_apart_iff, overlapsRing_other_iff, and_assoc]
  refine and_congr_right fun _ => and_congr_left fun _ => ?_
  cases s.pu.layoutDefined <;> simp [overlaps_eq_false_iff, resultsWindow, archiveWindow]

/-! ### What leaves every window where it is -/

/-- Ring q of t has the window that it has in s. -/
def SameRing (s t : State) (q : Fin 8) : Prop :=
  t.sf.rings[q].defined = s.sf.rings[q].defined ∧ t.sf.rings[q].base = s.sf.rings[q].base ∧
    t.sf.rings[q].blocks = s.sf.rings[q].blocks

/-- The windows of t are those of s. -/
structure SameWindows (s t : State) : Prop where
  inReset : t.inReset = s.inReset
  strap : t.pu.strap = s.pu.strap
  layoutDefined : t.pu.layoutDefined = s.pu.layoutDefined
  resultsBase : t.pu.resultsBase = s.pu.resultsBase
  archiveBase : t.pu.archiveBase = s.pu.archiveBase
  rings : ∀ q : Fin 8, SameRing s t q

/-- With the same rings and the same layout the windows are the same. -/
theorem SameWindows.of_rings {s t : State} (i : t.inReset = s.inReset) (a : t.pu.strap = s.pu.strap)
    (l : t.pu.layoutDefined = s.pu.layoutDefined) (b : t.pu.resultsBase = s.pu.resultsBase)
    (c : t.pu.archiveBase = s.pu.archiveBase) (r : t.sf.rings = s.sf.rings) : SameWindows s t :=
  ⟨i, a, l, b, c, fun _ => by unfold SameRing; rw [r]; exact ⟨rfl, rfl, rfl⟩⟩

theorem SameWindows.refl (s : State) : SameWindows s s := .of_rings rfl rfl rfl rfl rfl rfl

theorem SameWindows.trans {s t u : State} (h : SameWindows s t) (k : SameWindows t u) : SameWindows s u where
  inReset := k.inReset.trans h.inReset
  strap := k.strap.trans h.strap
  layoutDefined := k.layoutDefined.trans h.layoutDefined
  resultsBase := k.resultsBase.trans h.resultsBase
  archiveBase := k.archiveBase.trans h.archiveBase
  rings q := by
    obtain ⟨d, b, n⟩ := h.rings q
    obtain ⟨d', b', n'⟩ := k.rings q
    exact ⟨d'.trans d, b'.trans b, n'.trans n⟩

theorem SameWindows.ite {s t u : State} {p : Prop} [Decidable p] (h : SameWindows s t) (k : SameWindows s u) :
    SameWindows s (if p then t else u) := by
  split <;> assumption

/-- An operation that touches neither SF nor the layout moves no window. -/
theorem Within.windows {m : Touch} {s t : State} (w : Within m s t) (pu : m.pu = false := by rfl)
    (sf : m.sf = false := by rfl) : SameWindows s t where
  inReset := w.inReset
  strap := w.strap pu
  layoutDefined := w.layoutDefined pu
  resultsBase := w.resultsBase pu
  archiveBase := w.archiveBase pu
  rings q := by
    unfold SameRing
    rw [w.sf sf]
    exact ⟨rfl, rfl, rfl⟩

theorem SameWindows.commandBase {s t : State} (g : SameWindows s t) : commandBase t = commandBase s := by
  unfold Machine.commandBase
  rw [g.strap]

theorem SameWindows.apartFromRings {s t : State} (g : SameWindows s t) {a n : Nat} {p : Fin 8 → Prop}
    (h : apartFromRings a n s p) : apartFromRings a n t p := by
  intro q d l
  obtain ⟨hd, hb, hn⟩ := g.rings q
  rw [hb, hn]
  exact h q (hd ▸ d) l

/-- Windows that have not moved are still apart. -/
theorem windowsApart.congr {s t : State} (h : windowsApart s) (g : SameWindows s t) : windowsApart t where
  inReset r := by
    obtain ⟨layout, rings⟩ := h.inReset (g.inReset ▸ r)
    exact ⟨g.layoutDefined.trans layout, fun q => (g.rings q).1.trans (rings q)⟩
  areas d := by
    obtain ⟨ra, rc, ac, rr, ar⟩ := h.areas (g.layoutDefined ▸ d)
    rw [g.resultsBase, g.archiveBase, g.commandBase]
    exact ⟨ra, rc, ac, g.apartFromRings rr, g.apartFromRings ar⟩
  rings q d := by
    obtain ⟨hd, hb, hn⟩ := g.rings q
    obtain ⟨c, o⟩ := h.rings q (hd ▸ d)
    rw [hb, hn, g.commandBase]
    exact ⟨c, g.apartFromRings o⟩

/-! ### SF moves no window -/

/-- A ring whose record keeps its window. -/
theorem putRing_windows (r : Fin 8) (x : Ring) (s : State) (d : x.defined = s.sf.rings[r].defined)
    (b : x.base = s.sf.rings[r].base) (n : x.blocks = s.sf.rings[r].blocks) : SameWindows s (putRing r x s) := by
  refine ⟨rfl, rfl, rfl, rfl, rfl, fun q => ?_⟩
  have pick : (putRing r x s).sf.rings[q] = if q = r then x else s.sf.rings[q] := by
    simp only [putRing, State.withSf_sf, Fin.getElem_fin, Vector.getElem_set, Fin.ext_iff, eq_comm]
  unfold SameRing
  rw [pick]
  split
  · next e => subst e; exact ⟨d, b, n⟩
  · exact ⟨rfl, rfl, rfl⟩

theorem putRingState_windows (r : Fin 8) (x : RingState) (s : State) : SameWindows s (putRingState r x s) :=
  putRing_windows r _ s rfl rfl rfl

theorem refuseBlock_windows (why : RefuseReason) (stream : Bool) (r : Fin 8) (next : RingState) (s : State) :
    SameWindows s (refuseBlock why stream r next s) :=
  ((putRingState_windows r next s).trans ((countOccurrence_within _ _).trans (raiseIf_within _ _ _)).windows).trans
    (report_within _ _ _).windows

theorem startCapture_windows (r : Fin 8) (p : Nat) (d : Word) (s : State) : SameWindows s (startCapture r p d s) :=
  (putRingState_windows r _ s).trans (report_within _ _ _).windows

theorem huntWrite_windows (r : Fin 8) (off : Nat) (be : Enables) (d : Word) (s : State) :
    SameWindows s (huntWrite r off be d s) :=
  .ite (.ite (startCapture_windows _ _ _ s) (refuseBlock_windows _ _ _ _ s)) (.refl s)

theorem fallAndHunt_windows (why : RefuseReason) (r : Fin 8) (off : Nat) (be : Enables) (d : Word) (s : State) :
    SameWindows s (fallAndHunt why r off be d s) :=
  (refuseBlock_windows _ _ _ _ s).trans (huntWrite_windows _ _ _ _ _)

theorem acceptBlock_windows (r : Fin 8) (c : Capture) (s : State) : SameWindows s (acceptBlock r c s) := by
  have ring : SameWindows s (putRing r (ringAfterAccept (ringOf s r) c (acceptedBlock r (ringOf s r) c s.localTime)) s) :=
    putRing_windows r _ s rfl rfl rfl
  have queue (u : State) (q : List AcceptedBlock) : SameWindows u (u.withSf { u.sf with queue := q }) :=
    .of_rings rfl rfl rfl rfl rfl rfl
  have counts (u : State) (m : BlockMark) (o : Occurrence) : SameWindows u (countMark m (countOccurrence o u)) :=
    ((countOccurrence_within _ _).trans (countMark_within _ _)).windows
  exact (((ring.trans (queue _ _)).trans (counts _ _ _)).trans (report_within _ _ _).windows).trans
    (refreshCovered_within _ _).windows

theorem closeCapture_windows (r : Fin 8) (c : Capture) (d : Word) (s : State) : SameWindows s (closeCapture r c d s) := by
  have forced : SameWindows s (putRing r { ringOf s r with forced := true } s) := putRing_windows r _ s rfl rfl rfl
  exact .ite (refuseBlock_windows _ _ _ _ s)
    (.ite (acceptBlock_windows r c s) (forced.trans (refuseBlock_windows _ _ _ _ _)))

/-- A write of a ring moves no window. -/
theorem ringWrite_windows (r : Fin 8) (off : Nat) (be : Enables) (d : Word) (s : State) :
    SameWindows s (ringWrite r off be d s) := by
  unfold ringWrite
  split
  · exact .refl s
  · exact huntWrite_windows _ _ _ _ s
  · exact .ite (fallAndHunt_windows _ _ _ _ _ s) (.ite (fallAndHunt_windows _ _ _ _ _ s)
      (.ite (putRingState_windows _ _ s) (closeCapture_windows _ _ _ s)))
  · exact .ite (.ite (startCapture_windows _ _ _ s) (refuseBlock_windows _ _ _ _ s))
      (fallAndHunt_windows _ _ _ _ _ s)

theorem timeoutBlock_windows (r : Fin 8) (s : State) : SameWindows s (timeoutBlock r s) := by
  unfold timeoutBlock
  split
  · exact .ite (refuseBlock_windows _ _ _ _ s) (.refl s)
  all_goals exact .refl s

theorem staleRing_windows (r : Fin 8) (s : State) : SameWindows s (staleRing r s) := by
  have ring : SameWindows s (putRing r { ringOf s r with stale := true } s) := putRing_windows r _ s rfl rfl rfl
  exact .ite (((ring.trans (raiseCause_within _ _).windows).trans (report_within _ _ _).windows).trans
    (refreshCovered_within _ _).windows) (.refl s)

theorem takeBlock_windows (s : State) : SameWindows s (takeBlock s) := by
  unfold takeBlock
  split
  · refine SameWindows.trans (t := s.withSf { s.sf with queue := _ }) ?_ (beginBlock_within _ _).windows
    exact .of_rings rfl rfl rfl rfl rfl rfl
  all_goals exact .refl s

/-! ### Commands that move no window -/

theorem SameWindows.answer {s : State} {p : Prop} [Decidable p] {a b : Answer} (h : SameWindows s a.state)
    (k : SameWindows s b.state) : SameWindows s (if p then a else b).state := by
  split <;> assumption

theorem dropRing_windows (r : Fin 8) (x : Ring) (st : ChannelState) (c : Fin 8) (s : State)
    (h : SameWindows s (putRing r x s)) :
    SameWindows s (dropChannel st c (abandonBlock c (dropEntries r (putRing r x s)))) := by
  have entries : SameWindows (putRing r x s) (dropEntries r (putRing r x s)) :=
    .of_rings rfl rfl rfl rfl rfl rfl
  exact (h.trans entries).trans ((abandonBlock_within _ _).trans (dropChannel_within _ _ _)).windows

/-- The commands that move windows: DEFINE LAYOUT and DEFINE RING, and RESET PART, whose owner does nothing yet. -/
theorem own_windows {c : Command} (hl : c ≠ .defineLayout) (hr : c ≠ .defineRing) (s : State) :
    SameWindows s (own c s).state := by
  have here : SameWindows s s := .refl s
  have admitted (t : Task) : SameWindows s (admitAnswer t s).state := (admitTask_within t s).windows
  have ru (x : ReportUnit) (u : State) : SameWindows u (u.withRu x) := (withRu_within u x).windows
  cases c with
  | defineLayout => exact absurd rfl hl
  | defineRing => exact absurd rfl hr
  | resetPart => exact here
  | ringOn =>
    have ring : SameWindows s (putRing (ringParam (param1 s)) (huntingRing (ringOf s (ringParam (param1 s))) s.localTime) s) :=
      putRing_windows _ _ s rfl rfl rfl
    exact .answer here (.answer here (ring.trans (dropChannel_within _ _ _).windows))
  | ringOff =>
    exact .answer here (.answer here (.answer here
      (dropRing_windows _ _ _ _ s (putRing_windows _ (silentRing _) s rfl rfl rfl))))
  | resetRing =>
    exact .answer here (.answer here (dropRing_windows _ _ _ _ s (putRing_windows _ (huntingRing _ _) s rfl rfl rfl)))
  | setFraming =>
    have framing : SameWindows s (s.withSf { s.sf with framing := framingOf s }) :=
      .of_rings rfl rfl rfl rfl rfl rfl
    exact .answer here (.ite (framing.trans (ru _ _)) framing)
  | load =>
    show SameWindows s (ownLoad s).state
    unfold ownLoad
    split
    · exact here
    · exact .answer here (.answer here (admitted _))
  | lockSlot => exact .answer here (.answer here (putEntry_within _ _ s).windows)
  | clearLocks => exact .answer here (withTu_within s _).windows
  | setMasterLock => exact .answer here (withTu_within s _).windows
  | clearSlot => exact .answer here (.answer here (.answer here (admitted _)))
  | sweep => exact admitted _
  | suspendSweep =>
    show SameWindows s (ownSuspendSweep s).state
    unfold ownSuspendSweep
    split
    · exact (setSweep_within _ s).windows
    · exact (setSweep_within _ s).windows
    · exact here
    · exact here
  | resumeSweep => exact .answer here (.answer here (sweepGo_within s).windows)
  | mount => exact .answer here (.answer here (admitted _))
  | checkpoint => exact .answer here (admitted _)
  | release => exact .answer here (admitted _)
  | clearCavity =>
    show SameWindows s (ownClearCavity s).state
    unfold ownClearCavity
    split
    · exact here
    · refine .answer here ?_
      dsimp only [accept]
      exact (cleared_within _ _ s).windows
  | clearMould =>
    show SameWindows s (ownClearMould s).state
    unfold ownClearMould
    split
    · exact here
    · dsimp only [accept]
      exact (cleared_within _ _ s).windows
  | setReporting => exact .answer here ((ru _ s).trans (withEu_task _ _).windows)
  | setCounter => exact .answer here (ru _ s)
  | clearStatus => exact ru _ s
  | acknowledge => exact .answer here (ru _ s)

/-! ### DEFINE LAYOUT and DEFINE RING -/

/-- The layout that DEFINE LAYOUT sets has passed the checks that keep its areas apart (R5). -/
theorem defineLayout_apart {s : State} (r : s.inReset = false) (h : windowsApart s) :
    windowsApart (own .defineLayout s).state := by
  show windowsApart (ownDefineLayout s).state
  unfold ownDefineLayout
  split
  · exact h
  · split
    · exact h
    · next ok =>
      have fits := (basesOk_iff s _ _).mp (by simpa using ok)
      obtain ⟨hr, ha, -, -, -, -, areas⟩ := fits
      have er : (addressOf (param1 s)).toNat = (param1 s).toNat := addressOf_toNat hr
      have ea : (addressOf (param2 s)).toNat = (param2 s).toNat := addressOf_toNat ha
      refine ⟨fun k => absurd (r.symm.trans k) (by decide), fun _ => ?_, h.rings⟩
      show apart (addressOf (param1 s)).toNat _ (addressOf (param2 s)).toNat _ ∧
        apart (addressOf (param1 s)).toNat _ _ _ ∧ apart (addressOf (param2 s)).toNat _ _ _ ∧
        apartFromRings (addressOf (param1 s)).toNat _ _ _ ∧ apartFromRings (addressOf (param2 s)).toNat _ _ _
      rw [er, ea]
      exact areas

/-- A ring's new window, apart from all the others, leaves the windows apart. -/
theorem putRing_apart {s : State} (r : Fin 8) (x : Ring) (i : s.inReset = false) (h : windowsApart s)
    (free : windowTaken s r (ringWindow x) = false) : windowsApart (putRing r x s) := by
  obtain ⟨command, areas, others⟩ := (windowTaken_eq_false_iff s r _).mp free
  have pick (q : Fin 8) : (putRing r x s).sf.rings[q] = if q = r then x else s.sf.rings[q] := by
    simp only [putRing, State.withSf_sf, Fin.getElem_fin, Vector.getElem_set, Fin.ext_iff, eq_comm]
  have extend {a n : Nat} {p : Fin 8 → Prop} (k : apartFromRings a n s p) (new : apart a n x.base.toNat (272 * x.blocks)) :
      apartFromRings a n (putRing r x s) p := by
    intro q d l
    rw [pick] at d ⊢
    split at d
    · next e => rw [if_pos e]; exact new
    · next e => rw [if_neg e]; exact k q d l
  refine ⟨fun k => absurd (i.symm.trans k) (by decide), fun d => ?_, fun q d => ?_⟩
  · obtain ⟨ra, rc, ac, rr, ar⟩ := h.areas d
    obtain ⟨xr, xa⟩ := areas d
    exact ⟨ra, rc, ac, extend rr (apart_comm xr), extend ar (apart_comm xa)⟩
  · rw [pick] at d ⊢
    by_cases e : q = r
    · rw [if_pos e]
      refine ⟨command, fun z dz l => ?_⟩
      rw [pick, if_neg (e ▸ l)] at dz ⊢
      exact others z dz (e ▸ l)
    · rw [if_neg e] at d ⊢
      obtain ⟨c, o⟩ := h.rings q d
      exact ⟨c, extend o (apart_comm (others q d e))⟩

theorem defineRing_apart {s : State} (i : s.inReset = false) (h : windowsApart s) :
    windowsApart (own .defineRing s).state := by
  have base {p : Prop} [Decidable p] {a b : Answer} (ha : windowsApart a.state) (hb : ¬ p → windowsApart b.state) :
      windowsApart (if p then a else b).state := by
    split
    · exact ha
    · next n => exact hb n
  show windowsApart (ownDefineRing s).state
  unfold ownDefineRing
  refine base h fun _ => base h fun _ => base h fun shape => base h fun _ => base h fun free => ?_
  refine putRing_apart _ _ i h ?_
  have fits : (param3 s).toNat < 2 ^ 24 := by
    simp only [ringShapeOk, Bool.not_eq_false, Bool.and_eq_true] at shape
    exact (addressFits_iff _).mp shape.1.1.2
  have window : ringWindow (definedRing (ringParam (param2 s)) (param3 s) (param4 s).toNat) =
      newRingWindow (param3 s) (param4 s).toNat := by
    simp [ringWindow, definedRing, newRingWindow, addressOf_toNat fits]
  rw [window]
  simpa using free

/-! ### Frames and writes -/

/-- Outside RESETn, with nothing defined, there is one window only. -/
theorem windowsApart_of_undefined {s : State} (l : s.pu.layoutDefined = false)
    (r : ∀ q : Fin 8, s.sf.rings[q].defined = false) : windowsApart s where
  inReset _ := ⟨l, r⟩
  areas d := absurd (l.symm.trans d) (by decide)
  rings q d := absurd ((r q).symm.trans d) (by decide)

theorem reset_rings (q : Fin 8) : StreamFramer.reset.rings[q].defined = false := by
  revert q
  decide

theorem own_apart (c : Command) {s : State} (i : s.inReset = false) (h : windowsApart s) : windowsApart (own c s).state := by
  by_cases hl : c = .defineLayout
  · subst hl; exact defineLayout_apart i h
  · by_cases hr : c = .defineRing
    · subst hr; exact defineRing_apart i h
    · exact h.congr (own_windows hl hr s)

theorem withCd_windows (x : CommandDecoder) (s : State) : SameWindows s (s.withCd x) :=
  .of_rings rfl rfl rfl rfl rfl rfl

theorem recordOutcome_windows (code : Byte) (o : FrameOutcome) (s : State) : SameWindows s (recordOutcome code o s) := by
  unfold recordOutcome
  have ended := (withCd_windows { s.cd with tally := s.cd.tally + 1 } s).trans
    (withRu_within _ { (s.withCd { s.cd with tally := s.cd.tally + 1 }).ru with
      lastCode := code, lastOutcome := o.code }).windows
  exact .ite (ended.trans (withRu_within _ _).windows) ended

theorem endFrame_windows (code : Byte) (o : FrameOutcome) (s : State) : SameWindows s (endFrame code o s) :=
  ((withCd_windows _ s).trans (recordOutcome_windows _ _ _)).trans (report_within _ _ _).windows

theorem takeCommand_apart (c : Command) {s : State} (i : s.inReset = false) (h : windowsApart s) :
    windowsApart (takeCommand c s) := by
  unfold takeCommand
  split
  · exact windowsApart_of_undefined rfl reset_rings
  · have ended : windowsApart (recordOutcome c.code (own c s).outcome (setDecoder .ready (own c s).state)) :=
      (own_apart c i h).congr ((withCd_windows _ _).trans (recordOutcome_windows _ _ _))
    have reported : windowsApart (answerReport c (own c s) s) := by
      unfold answerReport
      dsimp only
      split
      · exact ended.congr (postDirty_within _).windows
      · exact ended.congr (report_within _ _ _).windows
    unfold followUp
    split
    · exact reported
    · exact reported.congr (refreshCovered_within _ _).windows
    · exact reported.congr (followProfile_within _ _ _).windows

theorem closingWrite_apart (d : Word) {s : State} (i : s.inReset = false) (h : windowsApart s) :
    windowsApart (closingWrite d s) := by
  have ended (code : Byte) (o : FrameOutcome) : windowsApart (endFrame code o s) := h.congr (endFrame_windows code o s)
  unfold closingWrite
  split
  · exact ended _ _
  · exact ended _ _
  · split
    · exact ended _ _
    · split
      · exact ended _ _
      · unfold closeCommand
        split
        · exact ended _ _
        · exact takeCommand_apart _ i h

theorem cdWrite_apart (n : Nat) (be : Enables) (d : Word) {s : State} (i : s.inReset = false) (h : windowsApart s) :
    windowsApart (cdWrite n be d s) := by
  have cd (x : CommandDecoder) (u : State) (k : windowsApart u) : windowsApart (u.withCd x) := k.congr (withCd_windows x u)
  unfold cdWrite
  split
  · unfold poisonFrame
    split
    · exact cd _ s h
    all_goals exact h
  · split
    · unfold openingWrite
      split
      · exact cd _ s h
      all_goals
        exact cd _ _ (h.congr ((recordOutcome_windows _ _ s).trans (report_within _ _ _).windows))
    · split
      · exact closingWrite_apart d i h
      · unfold parameterWrite
        split
        · exact cd _ s h
        all_goals exact h

theorem writeArrives_apart (w : WordAddr) (be : Enables) (d : Word) {s : State} (i : s.inReset = false)
    (h : windowsApart s) : windowsApart (writeArrives w be d s) := by
  unfold writeArrives
  split
  · next k _ => exact h.congr ((noteDrop_within k _ s).windows.trans (report_within _ _ _).windows)
  · have written : windowsApart (s.withMem (s.mem.writeWord w be d)) :=
      h.congr (.of_rings rfl rfl rfl rfl rfl rfl)
    unfold copyWrite
    split
    · exact cdWrite_apart _ _ _ i written
    · exact written.congr (ringWrite_windows _ _ _ _ _)
    · exact written.congr (slotTouched_within _ _).windows
    all_goals exact written

/-! ### Steps -/

theorem windowsApart_kept : KeptByParts windowsApart where
  assertReset _ := windowsApart_of_undefined rfl reset_rings
  released n s r h := by
    obtain ⟨layout, rings⟩ := h.inReset r
    exact windowsApart_of_undefined layout rings
  withHolds _ _ _ h := h.congr (.of_rings rfl rfl rfl rfl rfl rfl)
  withPins _ _ h := h.congr (.of_rings rfl rfl rfl rfl rfl rfl)
  writeArrives w be d _ i h := writeArrives_apart w be d i h
  readArrives _ _ _ h := h.congr (.of_rings rfl rfl rfl rfl rfl rfl)
  performWord h := h.congr (performWord_within _).windows
  askRecords h := h.congr (askRecords_within 16 _).windows
  postDirty h := h.congr (postDirty_within _).windows
  serveRead r _ h := h.congr (serveRead_within r _).windows
  promoteRead r _ h := h.congr (promoteRead_within r _).windows
  timeoutBlock r _ h := h.congr (timeoutBlock_windows r _)
  staleRing r _ h := h.congr (staleRing_windows r _)
  endPulse h := h.congr (endPulse_within _).windows
  takeBlock h := h.congr (takeBlock_windows _)
  processSample w _ h := h.congr (processSample_within w _).windows

/-- Settles O5: only DEFINE LAYOUT, DEFINE RING and the resets move a window; the first two check the new windows against all
the others, and the resets leave none but the command window. -/
theorem stepKeepsWindowsApart : Obligations.StepKeepsWindowsApart := by
  intro s t h e
  refine windowsApart_kept.step (fun _ _ h => ?_) (fun _ _ h => ?_) h e
  all_goals exact h.congr (.of_rings rfl rfl rfl rfl rfl rfl)

end Sys2Proof.Machine
end

section
/-! Sizes, hot counts, whole copies and the check register through every kind of effect that a row can have. -/

namespace Sys2Proof.Machine

/-! ### Queues, pools and hot counts -/

theorem writeArrives_sound (w : WordAddr) (be : Enables) (d : Word) {s : State} (h : Sound s) :
    Sound (writeArrives w be d s) := by
  unfold writeArrives
  split
  · exact Sound.report (h.onlyRu (noteDrop_within _ _ s)) _ _
  · have written : Sound (s.withMem (s.mem.writeWord w be d)) := h.same rfl rfl rfl rfl rfl
    unfold copyWrite
    split
    · exact cdWrite_sound _ _ _ written
    · exact ringWrite_sound _ _ _ _ written
    · exact slotTouched_sound _ written
    all_goals exact written

theorem takeBlock_sound {s : State} (h : Sound s) : Sound (takeBlock s) := by
  unfold takeBlock
  split
  · next e rest _ q =>
    refine beginBlock_sound _ (h.withSf _ ?_)
    have fits := h.cap.accepted
    rw [q] at fits
    exact (Nat.le_succ _).trans fits
  all_goals exact h

theorem sound_kept : KeptByParts Sound where
  assertReset _ := ⟨⟨Nat.zero_le _, Nat.zero_le _, Nat.zero_le _, Nat.zero_le _⟩, fun _ m => nomatch m⟩
  released _ _ _ h := h.same rfl rfl rfl rfl rfl
  withHolds _ _ _ h := h.same rfl rfl rfl rfl rfl
  withPins _ _ h := h.same rfl rfl rfl rfl rfl
  writeArrives w be d _ _ h := writeArrives_sound w be d h
  readArrives _ _ _ h := h.same rfl rfl rfl rfl rfl
  performWord := performWord_sound
  askRecords := askRecords_sound 16
  postDirty h := h.post (postDirty_within _) (postDirty_facts _).2.2
  serveRead r _ := serveRead_sound r
  promoteRead r _ := promoteRead_sound r
  timeoutBlock r _ := timeoutBlock_sound r
  staleRing r _ := staleRing_sound r
  endPulse h := by
    unfold endPulse
    split
    · exact KeptByParts.ite (P := Sound) (h.same rfl rfl rfl rfl rfl) h
    · exact h
  takeBlock := takeBlock_sound
  processSample w _ := processSample_sound w

/-! ### Whole copies of RU's records -/

/-- The copies stay whole where the queue stays. -/
theorem wholeRecords.same {s t : State} (h : wholeRecords s) (q : t.pu.queue = s.pu.queue) : wholeRecords t :=
  fun id hid => (h id hid).congr q

/-- They stay whole where nothing but TU's slot records is queued. -/
theorem Unposted.wholeRecords {s t : State} (u : Unposted s t) (h : wholeRecords s) : wholeRecords t :=
  fun id hid => u.whole hid (h id hid)

theorem wholeRecords.ite {t u : State} {p : Prop} [Decidable p] (h : wholeRecords t) (k : wholeRecords u) :
    wholeRecords (if p then t else u) := by
  split <;> assumption

theorem wholeRecords.within {m : Touch} {s t : State} (h : wholeRecords s) (w : Within m s t)
    (k : m.queue = false := by rfl) : wholeRecords t := h.same (w.queue k)

theorem raiseTrace_whole {s : State} (h : wholeRecords s) : wholeRecords (raiseTrace s) := by
  unfold raiseTrace
  split
  · have raised : wholeRecords (raiseCause .trace (s.withRu { s.ru with traceAwait := false })) := h.same rfl
    exact .ite (fun id hid => offer_whole _ (raised id hid)) raised
  · exact h

/-- A round of reports queues RU's records whole. -/
theorem wholeRecords.report {s : State} (h : wholeRecords s) (p : Posting) (b : State) : wholeRecords (report p b s) := by
  rw [report_eq]
  refine raiseTrace_whole fun id hid => ?_
  exact ((wholeCopies.verdicts p.verdicts _ ((((withLog_whole p hid (h id hid)).offerIf _ _).offerIf _ _).offerIf _ _)).offerIf
    _ _).offerIf _ _

theorem enqueueRecord_whole {id : RecordId} {s t : State} (e : enqueueRecord id s = some t) (h : wholeRecords s) :
    wholeRecords t := by
  unfold enqueueRecord at e
  obtain ⟨u, hu, rfl⟩ := Option.map_eq_some_iff.mp e
  intro k hk r hr hi hb
  rw [recordWords_length _ s.freeBits _ s]
  change r ∈ u.pu.queue at hr
  rw [enqueue_queue hu] at hr
  rcases List.mem_append.mp hr with hr | hr
  · exact h k hk r hr hi hb
  · cases List.mem_singleton.mp hr
    rw [← hi]

theorem postDirty_whole {s : State} (h : wholeRecords s) : wholeRecords (postDirty s) := by
  have list (ids : List RecordId) : ∀ {u : State}, wholeRecords u → wholeRecords (postDirtyList ids u) := by
    induction ids with
    | nil => exact fun k => k
    | cons id ids ih =>
      intro u k
      unfold postDirtyList
      split
      · split
        · next e => exact ih (enqueueRecord_whole e k)
        · exact k
      · exact ih k
  exact raiseTrace_whole (list replaceableIds h)

theorem closeLoop_whole (n : Nat) : ∀ {s : State}, wholeRecords s → wholeRecords (closeLoop n s) := by
  induction n with
  | zero => exact fun h => h
  | succ n ih => exact fun {s} h => .ite (ih (((closeEffect_unposted false s).wholeRecords h).report _ _)) h

theorem testClose_whole {s : State} (h : wholeRecords s) : wholeRecords (testClose s) := closeLoop_whole _ h

theorem blockBegun_whole (c : Half) (start : Time) {s : State} (h : wholeRecords s) :
    wholeRecords (blockBegun c start s) := by
  have create {u : State} (k : wholeRecords u) : wholeRecords (createEntry c start u) :=
    (createEntry_unposted c start u).wholeRecords k
  exact .ite h (testClose_whole (.ite ((create h).report _ _)
    ((create ((closeEffect_unposted true s).wholeRecords h)).report _ _)))

theorem reportEvent_whole (e : EventRecord) (b : State) {s : State} (h : wholeRecords s) :
    wholeRecords (reportEvent e b s) :=
  (h.within (((countOccurrence_within _ s).trans (countIf_within _ _ _)).trans (countTrace_within _ _))).report _ _

theorem formEvent_whole (forced : Bool) {s : State} (h : wholeRecords s) : wholeRecords (formEvent forced s) := by
  unfold formEvent
  split
  · exact h
  · dsimp only
    split
    · exact reportEvent_whole _ _ (h.same rfl)
    · exact .ite (reportEvent_whole _ _ (h.same rfl)) (reportEvent_whole _ _ (h.same rfl))

theorem formLoop_whole (n : Nat) : ∀ {s : State}, wholeRecords s → wholeRecords (formLoop n s) := by
  induction n with
  | zero => exact fun h => h
  | succ n ih => exact fun h => .ite (ih (testClose_whole (formEvent_whole false h))) h

theorem locatorTest_whole {s : State} (h : wholeRecords s) : wholeRecords (locatorTest s) :=
  testClose_whole (formLoop_whole _ h)

theorem placeHit_whole (g : Hit) {s : State} (h : wholeRecords s) : wholeRecords (placeHit g s) :=
  .ite (h.same rfl) (h.same rfl)

theorem deliverHit_whole (g : Hit) {s : State} (h : wholeRecords s) : wholeRecords (deliverHit g s) :=
  .ite (h.same rfl) (.ite (locatorTest_whole (placeHit_whole g h))
    (locatorTest_whole (placeHit_whole g (testClose_whole (formEvent_whole true h)))))

theorem refreshCovered_whole (c : Fin 8) {s : State} (h : wholeRecords s) : wholeRecords (refreshCovered c s) :=
  .ite h (.ite (h.same rfl) (locatorTest_whole (h.same rfl)))

theorem disposeHit_whole (c : Fin 8) (g : OpenHit) (truncated : Bool) {s : State} (h : wholeRecords s) :
    wholeRecords (disposeHit c g truncated s) := by
  have counted : wholeRecords (countIf truncated (.hit .truncated) (countOccurrence (.hit .accepted) s)) :=
    h.within ((countOccurrence_within _ s).trans (countIf_within _ _ _))
  exact .ite (h.same rfl) (.ite (h.same rfl) (deliverHit_whole _ (counted.same rfl)))

theorem closeHit_whole (c : Fin 8) (b t : Nat) (g : OpenHit) (truncated : Bool) {s : State} (h : wholeRecords s) :
    wholeRecords (closeHit c b t g truncated s) :=
  refreshCovered_whole c (disposeHit_whole c g truncated (h.same rfl))

theorem followHit_whole (c : Fin 8) (b t : Nat) (g : OpenHit) (x : Nat) {s : State} (h : wholeRecords s) :
    wholeRecords (followHit c b t g x s) := by
  unfold followHit
  dsimp only
  split
  · exact h.same rfl
  · exact closeHit_whole _ _ _ _ _ h
  · exact closeHit_whole _ _ _ _ _ h

theorem sampleEffect_whole (w : BlockInWork) {s : State} (h : wholeRecords s) : wholeRecords (sampleEffect w s) := by
  unfold sampleEffect
  dsimp only
  split
  · exact h
  · exact h.same rfl
  · exact .ite (followHit_whole _ _ _ _ _ (refreshCovered_whole _ (h.same rfl))) (h.same rfl)
  · exact followHit_whole _ _ _ _ _ h
  · exact .ite (h.same rfl) (h.same rfl)

theorem processSample_whole (w : BlockInWork) {s : State} (h : wholeRecords s) : wholeRecords (processSample w s) := by
  have taken : wholeRecords (sampleEffect w (putBlock (some { w with next := w.next + 1 }) s)) :=
    sampleEffect_whole w (h.same rfl)
  have seeded : wholeRecords (seedChannel w.entry.channel (w.sum + sampleAt w.entry w.next)
      (sampleEffect w (putBlock (some { w with next := w.next + 1 }) s))) := .ite (taken.same rfl) taken
  exact .ite taken (refreshCovered_whole _ (seeded.same rfl))

theorem breakChannel_whole (c : Fin 8) {s : State} (h : wholeRecords s) : wholeRecords (breakChannel c s) := by
  unfold breakChannel
  split
  · exact refreshCovered_whole _ (h.same rfl)
  all_goals exact h.same rfl

theorem takeBlock_whole {s : State} (h : wholeRecords s) : wholeRecords (takeBlock s) := by
  have again (c : Fin 8) {u : State} (k : wholeRecords u) : wholeRecords (recomputeThreshold c u) := by
    unfold recomputeThreshold
    split <;> exact k.same rfl
  have begun (e : AcceptedBlock) {u : State} (k : wholeRecords u) : wholeRecords (beginBlock e u) := by
    have params : wholeRecords (recomputeThreshold e.channel (takeParams e.channel
        (putBlock (some { entry := e, next := 0, sum := 0 }) u))) := again _ (k.same rfl)
    exact blockBegun_whole _ _ (.ite params (breakChannel_whole _ params))
  unfold takeBlock
  split
  · exact begun _ (h.same rfl)
  all_goals exact h

theorem putRing_whole (r : Fin 8) (x : Ring) {s : State} (h : wholeRecords s) : wholeRecords (putRing r x s) := h.same rfl

theorem putRingState_whole (r : Fin 8) (x : RingState) {s : State} (h : wholeRecords s) :
    wholeRecords (putRingState r x s) := putRing_whole r _ h

theorem refuseBlock_whole (why : RefuseReason) (stream : Bool) (r : Fin 8) (next : RingState) {s : State}
    (h : wholeRecords s) : wholeRecords (refuseBlock why stream r next s) :=
  ((putRingState_whole r next h).within ((countOccurrence_within _ _).trans (raiseIf_within _ _ _))).report _ _

theorem startCapture_whole (r : Fin 8) (p : Nat) (d : Word) {s : State} (h : wholeRecords s) :
    wholeRecords (startCapture r p d s) := (putRingState_whole r _ h).report _ _

theorem huntWrite_whole (r : Fin 8) (off : Nat) (be : Enables) (d : Word) {s : State} (h : wholeRecords s) :
    wholeRecords (huntWrite r off be d s) :=
  .ite (.ite (startCapture_whole _ _ _ h) (refuseBlock_whole _ _ _ _ h)) h

theorem fallAndHunt_whole (why : RefuseReason) (r : Fin 8) (off : Nat) (be : Enables) (d : Word) {s : State}
    (h : wholeRecords s) : wholeRecords (fallAndHunt why r off be d s) :=
  huntWrite_whole _ _ _ _ (refuseBlock_whole _ _ _ _ h)

theorem acceptBlock_whole (r : Fin 8) (c : Capture) {s : State} (h : wholeRecords s) :
    wholeRecords (acceptBlock r c s) := by
  have counts (m : BlockMark) (o : Occurrence) {u : State} (k : wholeRecords u) :
      wholeRecords (countMark m (countOccurrence o u)) :=
    k.within ((countOccurrence_within _ _).trans (countMark_within _ _))
  have queue (q : List AcceptedBlock) {u : State} (k : wholeRecords u) :
      wholeRecords (u.withSf { u.sf with queue := q }) := k.same rfl
  exact refreshCovered_whole _ ((counts _ _ (queue _ (putRing_whole r _ h))).report _ _)

theorem closeCapture_whole (r : Fin 8) (c : Capture) (d : Word) {s : State} (h : wholeRecords s) :
    wholeRecords (closeCapture r c d s) :=
  .ite (refuseBlock_whole _ _ _ _ h) (.ite (acceptBlock_whole r c h) (refuseBlock_whole _ _ _ _ (putRing_whole r _ h)))

theorem ringWrite_whole (r : Fin 8) (off : Nat) (be : Enables) (d : Word) {s : State} (h : wholeRecords s) :
    wholeRecords (ringWrite r off be d s) := by
  unfold ringWrite
  split
  · exact h
  · exact huntWrite_whole _ _ _ _ h
  · exact .ite (fallAndHunt_whole _ _ _ _ _ h) (.ite (fallAndHunt_whole _ _ _ _ _ h)
      (.ite (putRingState_whole _ _ h) (closeCapture_whole _ _ _ h)))
  · exact .ite (.ite (startCapture_whole _ _ _ h) (refuseBlock_whole _ _ _ _ h))
      (fallAndHunt_whole _ _ _ _ _ h)

theorem timeoutBlock_whole (r : Fin 8) {s : State} (h : wholeRecords s) : wholeRecords (timeoutBlock r s) := by
  unfold timeoutBlock
  split
  · exact .ite (refuseBlock_whole _ _ _ _ h) h
  all_goals exact h

theorem staleRing_whole (r : Fin 8) {s : State} (h : wholeRecords s) : wholeRecords (staleRing r s) :=
  .ite (refreshCovered_whole _ (((putRing_whole r _ h).within (raiseCause_within .stream _)).report _ _)) h

theorem followProfile_whole (loaded : Bool) (b : State) {s : State} (h : wholeRecords s) :
    wholeRecords (followProfile loaded b s) := .ite (locatorTest_whole h) h

theorem reportTask_whole (p : Posting) (loaded : Bool) (b : State) {s : State} (h : wholeRecords s) :
    wholeRecords (reportTask p loaded b s) := followProfile_whole _ _ (h.report p b)

theorem endFrame_whole (code : Byte) (o : FrameOutcome) {s : State} (h : wholeRecords s) :
    wholeRecords (endFrame code o s) :=
  (((withCd_unposted s _).trans (recordOutcome_unposted code o _)).wholeRecords h).report _ _

/-- A command empties the queue, or posts nothing before its outcome is reported. -/
theorem own_whole (c : Command) {s : State} (h : wholeRecords s) : wholeRecords (own c s).state := by
  have empty {u : State} (q : u.pu.queue = []) : wholeRecords u := fun _ _ r hr => by rw [q] at hr; cases hr
  by_cases hc : c = .defineLayout
  · subst hc
    show wholeRecords (ownDefineLayout s).state
    unfold ownDefineLayout
    split
    · exact h
    · split
      · exact h
      · exact empty rfl
  · exact (own_unposted hc s).wholeRecords h

theorem takeCommand_whole (c : Command) {s : State} (h : wholeRecords s) : wholeRecords (takeCommand c s) := by
  unfold takeCommand
  split
  · exact fun _ _ _ hr => nomatch hr
  · have ended : wholeRecords (recordOutcome c.code (own c s).outcome (setDecoder .ready (own c s).state)) :=
      ((withCd_unposted _ _).trans (recordOutcome_unposted _ _ _)).wholeRecords (own_whole c h)
    have reported : wholeRecords (answerReport c (own c s) s) := .ite (postDirty_whole ended) (ended.report _ _)
    unfold followUp
    split
    · exact reported
    · exact refreshCovered_whole _ reported
    · exact followProfile_whole _ _ reported

theorem closingWrite_whole (d : Word) {s : State} (h : wholeRecords s) : wholeRecords (closingWrite d s) := by
  unfold closingWrite
  split
  · exact endFrame_whole _ _ h
  · exact endFrame_whole _ _ h
  · split
    · exact endFrame_whole _ _ h
    · split
      · exact endFrame_whole _ _ h
      · unfold closeCommand
        split
        · exact endFrame_whole _ _ h
        · exact takeCommand_whole _ h

theorem cdWrite_whole (n : Nat) (be : Enables) (d : Word) {s : State} (h : wholeRecords s) :
    wholeRecords (cdWrite n be d s) := by
  unfold cdWrite
  split
  · unfold poisonFrame
    split <;> exact h.same rfl
  · split
    · unfold openingWrite
      split
      · exact h.same rfl
      all_goals
        exact (withCd_unposted _ _).wholeRecords (((recordOutcome_unposted _ _ s).wholeRecords h).report _ _)
    · split
      · exact closingWrite_whole d h
      · unfold parameterWrite
        split <;> exact h.same rfl

theorem slotTouched_whole (n : Fin 12) {s : State} (h : wholeRecords s) : wholeRecords (slotTouched n s) := by
  have touched : wholeRecords (putSlot n .unchecked 0 s) := h.same rfl
  have voided : wholeRecords ((putSlot n .unchecked 0 s).withTu { (putSlot n .unchecked 0 s).tu with
      sweep := { (putSlot n .unchecked 0 s).tu.sweep with check := some { slot := n, void := true } } }) := touched.same rfl
  exact (wholeRecords.ite voided touched).report _ _

theorem writeArrives_whole (w : WordAddr) (be : Enables) (d : Word) {s : State} (h : wholeRecords s) :
    wholeRecords (writeArrives w be d s) := by
  unfold writeArrives
  split
  · next k _ => exact (h.within (noteDrop_within k _ s)).report _ _
  · have written : wholeRecords (s.withMem (s.mem.writeWord w be d)) := h.same rfl
    unfold copyWrite
    split
    · exact cdWrite_whole _ _ _ written
    · exact ringWrite_whole _ _ _ _ written
    · exact slotTouched_whole _ written
    all_goals exact written

/-- Behind the head word stand the words of a record that has begun, or the records after it. -/
theorem queueAfter_whole {s : State} {r : QueuedRecord} {rest : List QueuedRecord} (d : Word) (ds : List Word)
    (q : s.pu.queue = r :: rest) (h : wholeRecords s) : wholeRecords (wordPerformed r d ds rest s) := by
  intro id hid x hx hi hb
  rw [recordWords_length _ s.freeBits _ s]
  refine h id hid x ?_ hi hb
  rw [q]
  change x ∈ queueAfter r ds rest at hx
  unfold queueAfter at hx
  split at hx
  · exact List.mem_cons_of_mem r hx
  · rcases List.mem_cons.mp hx with rfl | hx
    · cases hb
    · exact List.mem_cons_of_mem r hx

theorem recordCompletes_whole (id : RecordId) (b : State) {s : State} (h : wholeRecords s) :
    wholeRecords (recordCompletes id b s) := by
  unfold recordCompletes
  split
  · exact .ite (reportTask_whole _ _ _ ((imageComplete_unposted _ _).wholeRecords h)) h
  all_goals exact h

theorem performWord_whole {s : State} (h : wholeRecords s) : wholeRecords (performWord s) := by
  obtain ⟨-, e⟩ | ⟨r, rest, q, -, e⟩ | ⟨r, rest, d, ds, q, -, e⟩ := performWord_cases s
  · rw [e]; exact h
  · rw [e]
    intro id hid x hx hi hb
    rw [recordWords_length _ s.freeBits _ s]
    exact h id hid x (by rw [q]; exact List.mem_cons_of_mem r hx) hi hb
  · rw [e]
    have performed := queueAfter_whole d ds q h
    exact .ite (recordCompletes_whole _ _ performed) performed

theorem wholeRecords_kept : KeptByParts wholeRecords where
  assertReset _ := fun _ _ _ hr => nomatch hr
  released _ _ _ h := h.same rfl
  withHolds _ _ _ h := h.same rfl
  withPins _ _ h := h.same rfl
  writeArrives w be d _ _ h := writeArrives_whole w be d h
  readArrives _ _ _ h := h.same rfl
  performWord := performWord_whole
  askRecords h := (askRecords_unposted 16 _).wholeRecords h
  postDirty := postDirty_whole
  serveRead r s h := reportTask_whole _ _ _ ((taskData_unposted _ _).wholeRecords (h.same rfl))
  promoteRead _ _ h := h.same rfl
  timeoutBlock r _ := timeoutBlock_whole r
  staleRing r _ := staleRing_whole r
  endPulse h := by
    unfold endPulse
    split
    · exact .ite (h.same rfl) h
    · exact h
  takeBlock := takeBlock_whole
  processSample w _ := processSample_whole w

end Sys2Proof.Machine
end

section
/-! The check register of a slot that is read: TU's operations leave it and the words that have returned, or start both anew,
and a word that returns is fed through it. -/

namespace Sys2Proof.Machine

/-! ### The register is left, or started anew -/

/-- From s to t the words that have returned and the check register are left, or both are started anew (R133). -/
def CheckKept (s t : State) : Prop :=
  (t.tu.slotWords = s.tu.slotWords ∧ t.tu.slotCrc = s.tu.slotCrc) ∨ (t.tu.slotWords = [] ∧ t.tu.slotCrc = 0xFFFF)

theorem CheckKept.fed {s t : State} (k : CheckKept s t) (h : slotCheckFed s) : slotCheckFed t := by
  unfold slotCheckFed at h ⊢
  obtain ⟨w, c⟩ | ⟨w, c⟩ := k
  · rw [w, c]; exact h
  · rw [w, c]; rfl

theorem CheckKept.refl (s : State) : CheckKept s s := .inl ⟨rfl, rfl⟩

theorem CheckKept.trans {s t u : State} (h : CheckKept s t) (k : CheckKept t u) : CheckKept s u := by
  unfold CheckKept at k ⊢
  obtain ⟨w, c⟩ | k := k
  · rw [w, c]; exact h
  · exact .inr k

theorem CheckKept.ite {s t u : State} {p : Prop} [Decidable p] (h : CheckKept s t) (k : CheckKept s u) :
    CheckKept s (if p then t else u) := by
  split <;> assumption

/-- An operation that does not touch TU leaves the register. -/
theorem Within.check {m : Touch} {s t : State} (w : Within m s t) (k : m.tu = false := by rfl) : CheckKept s t := by
  refine .inl ?_
  rw [w.tu k]
  exact ⟨rfl, rfl⟩

theorem withTu_check {s : State} {x : TaskUnit} (w : x.slotWords = s.tu.slotWords) (c : x.slotCrc = s.tu.slotCrc) :
    CheckKept s (s.withTu x) := .inl ⟨w, c⟩

theorem putSlot_check (n : Fin 12) (st : SlotState) (i : Word) (s : State) : CheckKept s (putSlot n st i s) :=
  withTu_check rfl rfl

theorem setRunning_check (t : Option RunningTask) (s : State) : CheckKept s (setRunning t s) := withTu_check rfl rfl

theorem setSnapshot_check (m : Option Mould) (s : State) : CheckKept s (setSnapshot m s) := withTu_check rfl rfl

theorem setSweep_check (x : Sweep) (s : State) : CheckKept s (setSweep x s) := withTu_check rfl rfl

theorem setEuState_check (x : EvidenceState) (s : State) : CheckKept s (setEuState x s) := .inl ⟨rfl, rfl⟩

theorem withMould_check (m : Option Mould) (s : State) : CheckKept s (withMould m s) := .inl ⟨rfl, rfl⟩

theorem presentTaskRead_check (w : WordAddr) (s : State) : CheckKept s (presentTaskRead w s) := .inl ⟨rfl, rfl⟩

/-! ### Tasks -/

theorem askRecords_check (n : Nat) : ∀ s, CheckKept s (askRecords n s) := by
  induction n with
  | zero => exact CheckKept.refl
  | succ n ih =>
    intro s
    unfold askRecords
    split
    · split
      · split
        · next h => exact ((enqueue_within h).check.trans (withTu_check rfl rfl)).trans (ih _)
        · exact .refl s
      · exact .refl s
    · exact .refl s

theorem beginWriting_check (n : Fin 12) (image : List Word) (s : State) : CheckKept s (beginWriting n image s) :=
  CheckKept.trans (t := s.withTu { s.tu with writer := some { slot := n, image := image, next := 0 } })
    (withTu_check rfl rfl) (askRecords_check 16 _)

/-- A slot that is read anew starts the register (R133). -/
theorem beginReading_check (n : Fin 12) (s : State) : CheckKept s (beginReading n s) := .inr ⟨rfl, rfl⟩

theorem discardCycles_check (s : State) : CheckKept s (discardCycles s) :=
  (Within.foldl _ (fun t _ => countOccurrence_within .cycleDiscarded t) s.eu.cycles s).check.trans (.inl ⟨rfl, rfl⟩)

theorem openSave_check (task : Task) (m : Mould) (n : Fin 12) (s : State) : CheckKept s (openSave task m n s) :=
  ((((((setSnapshot_check _ s).trans (discardCycles_check _)).trans (setEuState_check _ _)).trans
    (withMould_check _ _)).trans (putSlot_check _ _ _ _)).trans (setRunning_check _ _)).trans
      (beginWriting_check _ _ _)

theorem openLoad_check (p : MountParams) (s : State) : CheckKept s (openLoad p s) :=
  (((setEuState_check _ s).trans (putSlot_check _ _ _ _)).trans (setRunning_check _ _)).trans (beginReading_check _ _)

theorem beginTask_check (t : Task) (s : State) : CheckKept s (beginTask t s) := by
  cases t with
  | load kind source => exact .inl ⟨rfl, rfl⟩
  | mount p =>
    show CheckKept s (beginMount p s)
    unfold beginMount
    split
    · exact openSave_check _ _ _ s
    · exact openLoad_check _ s
  | checkpoint =>
    show CheckKept s (beginCheckpoint s)
    unfold beginCheckpoint
    split
    · exact ((setSnapshot_check _ s).trans (setRunning_check _ _)).trans (beginWriting_check _ _ _)
    · exact .refl s
  | release =>
    show CheckKept s (beginRelease s)
    unfold beginRelease
    split
    · exact openSave_check _ _ _ s
    · exact .refl s
  | clearSlot n => exact ((putSlot_check _ _ _ s).trans (setRunning_check _ _)).trans (beginWriting_check _ _ _)
  | sweep => exact .refl s

theorem beginPending_check (s : State) : CheckKept s (beginPending s) := by
  unfold beginPending
  split
  · exact CheckKept.trans (t := s.withTu { s.tu with pendingTask := none }) (withTu_check rfl rfl) (beginTask_check _ _)
  · exact .refl s

theorem noteResult_check (t : Task) (r : TaskResult) (s : State) : CheckKept s (noteResult t r s) :=
  (noteResult_within t r s).check

theorem endSweep_check (s : State) : CheckKept s (endSweep s) :=
  (((setSweep_check _ s).trans (noteResult_check _ _ _)).trans (setRunning_check _ _)).trans (beginPending_check _)

theorem sweepGo_check (s : State) : CheckKept s (sweepGo s) := by
  unfold sweepGo
  split
  · exact ((setSweep_check _ s).trans (setRunning_check _ _)).trans (beginReading_check _ _)
  · exact endSweep_check s

theorem sweepBoundary_check (s : State) : CheckKept s (sweepBoundary s) := by
  have ended := setSweep_check { s.tu.sweep with check := none } s
  unfold sweepBoundary
  dsimp only
  split
  · exact ended.trans (endSweep_check _)
  · exact ended.trans (sweepGo_check _)
  · exact ended.trans (((setSweep_check _ _).trans (setRunning_check _ _)).trans (beginPending_check _))
  · exact ended.trans (((setSweep_check _ _).trans (setRunning_check _ _)).trans (beginPending_check _))

theorem endTask_check (t : Task) (r : TaskResult) (s : State) : CheckKept s (endTask t r s) := by
  have ended := (noteResult_check t r s).trans (setRunning_check none _)
  exact .ite (ended.trans (beginPending_check _)) (.ite (ended.trans (sweepGo_check _)) ended)

theorem admitTask_check (t : Task) (s : State) : CheckKept s (admitTask t s).2 := by
  unfold admitTask
  split
  · exact .refl s
  · exact .ite ((setSweep_check _ s).trans (sweepGo_check _)) (beginTask_check _ s)
  · exact withTu_check rfl rfl

theorem imageComplete_check (n : Fin 12) (s : State) : CheckKept s (imageComplete n s) := by
  have written : CheckKept s (s.withTu { s.tu with writer := none }) := withTu_check rfl rfl
  unfold imageComplete
  dsimp only
  split
  · exact (written.trans (putSlot_check _ _ _ _)).trans (endTask_check _ _ _)
  · exact (written.trans (setSnapshot_check _ _)).trans (endTask_check _ _ _)
  · exact (((written.trans (putSlot_check _ _ _ _)).trans (setSnapshot_check _ _)).trans (setEuState_check _ _)).trans
      (endTask_check _ _ _)
  · exact ((written.trans (putSlot_check _ _ _ _)).trans (setSnapshot_check _ _)).trans (openLoad_check _ _)
  all_goals exact written

theorem storeTable_check (kind : LoadKind) (ws : List Word) (s : State) : CheckKept s (storeTable kind ws s) := by
  cases kind with
  | profile p =>
    have stored : CheckKept s (s.withTu { s.tu with profiles := s.tu.profiles.set p (profileOfTable ws) }) :=
      withTu_check rfl rfl
    exact .ite (stored.trans (withRu_within _ _).check) stored
  | zones =>
    show CheckKept s (compareMap _)
    unfold compareMap
    split <;> exact .inl ⟨rfl, rfl⟩

theorem tableWord_check (kind : LoadKind) (source : Addr) (d : Word) (s : State) :
    CheckKept s (tableWord kind source d s) := by
  have staged (ws : List Word) : CheckKept s (s.withTu { s.tu with staging := ws }) := withTu_check rfl rfl
  unfold tableWord
  dsimp only
  split
  · exact (staged _).trans (presentTaskRead_check _ _)
  · exact ((staged _).trans (storeTable_check _ _ _)).trans (endTask_check _ _ _)
  · exact (staged _).trans (endTask_check _ _ _)

theorem sweepJudged_check (j : Judgement) (s : State) : CheckKept s (sweepJudged j s) := by
  have applied (n : Fin 12) : CheckKept s (applyJudgement n j s) := by cases j <;> exact .inl ⟨rfl, rfl⟩
  unfold sweepJudged
  split
  · exact (CheckKept.ite (.refl s) (applied _)).trans (sweepBoundary_check _)
  · exact sweepBoundary_check s

theorem mountFails_check (p : MountParams) (r : TaskResult) (st : SlotState) (i : Word) (s : State) :
    CheckKept s (mountFails p r st i s) := by
  have failed := (putSlot_check p.slot st i s).trans (setEuState_check .empty _)
  exact (CheckKept.ite (failed.trans (raiseCause_within _ _).check) failed).trans (endTask_check _ _ _)

theorem mountSucceeds_check (p : MountParams) (m : Mould) (s : State) : CheckKept s (mountSucceeds p m s) :=
  ((((putSlot_check _ _ _ s).trans (setEuState_check _ _)).trans (withMould_check _ _)).trans
    (handVerdicts_within _ _).check).trans (endTask_check _ _ _)

theorem mountJudged_check (p : MountParams) (j : Judgement) (ws : List Word) (s : State) :
    CheckKept s (mountJudged p j ws s) := by
  cases j with
  | bad => exact mountFails_check _ _ _ _ s
  | goodEmpty => exact mountSucceeds_check _ _ s
  | goodOccupied i c =>
    exact .ite (mountFails_check _ _ _ _ s) (.ite (mountFails_check _ _ _ _ s) (mountSucceeds_check _ _ s))

/-! ### A word of the slot returns -/

/-- Words 0 to 254 are fed through the register, and word 255, the check word, is not. -/
theorem keepSlotWord_fed (d : Word) {s : State} (h : slotCheckFed s) : slotCheckFed (keepSlotWord d s) := by
  unfold slotCheckFed at h ⊢
  show feedCheck s.tu.slotWords.length s.tu.slotCrc d = crcWords .polyB 0xFFFF ((s.tu.slotWords ++ [d]).take 255)
  rw [h]
  unfold feedCheck
  split
  · next l =>
    have all : (s.tu.slotWords ++ [d]).length ≤ 255 := by
      rw [List.length_append]
      exact l
    rw [List.take_of_length_le all, List.take_of_length_le (Nat.le_of_lt l)]
    unfold crcWords
    rw [List.foldl_append]
    rfl
  · next l => rw [List.take_append_of_le_length (Nat.le_of_not_lt l)]

theorem slotWord_fed (t : Task) (d : Word) {s : State} (h : slotCheckFed s) : slotCheckFed (slotWord t d s) := by
  have fed := keepSlotWord_fed d h
  unfold slotWord
  dsimp only
  split
  · unfold readOn
    split
    · exact (presentTaskRead_check _ _).fed fed
    · exact fed
  · split
    · exact (mountJudged_check _ _ _ _).fed fed
    · exact (sweepJudged_check _ _).fed fed
    all_goals exact fed

theorem taskData_fed (d : Word) {s : State} (h : slotCheckFed s) : slotCheckFed (taskData d s) := by
  unfold taskData
  split
  · split
    · exact (tableWord_check _ _ _ s).fed h
    · exact slotWord_fed _ d h
    · exact slotWord_fed _ d h
    all_goals exact h
  · exact h

/-! ### Reports, commands and rows -/

theorem reportTask_check (p : Posting) (loaded : Bool) (b s : State) : CheckKept s (reportTask p loaded b s) :=
  (report_within p b s).check.trans (CheckKept.ite (locatorTest_within _).check (.refl _))

theorem CheckKept.answer {s : State} {p : Prop} [Decidable p] {a b : Answer} (h : CheckKept s a.state)
    (k : CheckKept s b.state) : CheckKept s (if p then a else b).state := by
  split <;> assumption

theorem own_check (c : Command) (s : State) : CheckKept s (own c s).state := by
  have here : CheckKept s s := .refl s
  have admitted (t : Task) : CheckKept s (admitAnswer t s).state := admitTask_check t s
  have ru (x : ReportUnit) (u : State) : CheckKept u (u.withRu x) := (withRu_within u x).check
  have cleared (cs : List (Fin 48)) (m : Option Mould) : CheckKept s (handVerdicts cs (withMould m s)) :=
    (withMould_check m s).trans (handVerdicts_within _ _).check
  cases c with
  | defineLayout => exact .answer here (.answer here (.inl ⟨rfl, rfl⟩))
  | resetPart => exact here
  | defineRing =>
    exact .answer here (.answer here (.answer here (.answer here (.answer here (putRing_within _ _ s).check))))
  | ringOn => exact .answer here (.answer here (ringToHunt_within _ s).check)
  | ringOff => exact .answer here (.answer here (.answer here (ringToOff_within _ s).check))
  | resetRing => exact .answer here (.answer here (ringRestart_within _ s).check)
  | setFraming =>
    have framing : CheckKept s (s.withSf { s.sf with framing := framingOf s }) := (withSf_within s _).check
    exact .answer here (.ite (framing.trans (ru _ _)) framing)
  | load =>
    show CheckKept s (ownLoad s).state
    unfold ownLoad
    split
    · exact here
    · exact .answer here (.answer here (admitted _))
  | lockSlot => exact .answer here (.answer here (withTu_check rfl rfl))
  | clearLocks => exact .answer here (withTu_check rfl rfl)
  | setMasterLock => exact .answer here (withTu_check rfl rfl)
  | clearSlot => exact .answer here (.answer here (.answer here (admitted _)))
  | sweep => exact admitted _
  | suspendSweep =>
    show CheckKept s (ownSuspendSweep s).state
    unfold ownSuspendSweep
    split
    · exact setSweep_check _ s
    · exact setSweep_check _ s
    · exact here
    · exact here
  | resumeSweep => exact .answer here (.answer here (sweepGo_check s))
  | mount => exact .answer here (.answer here (admitted _))
  | checkpoint => exact .answer here (admitted _)
  | release => exact .answer here (admitted _)
  | clearCavity =>
    show CheckKept s (ownClearCavity s).state
    unfold ownClearCavity
    split
    · exact here
    · refine .answer here ?_
      dsimp only [accept]
      exact cleared _ _
  | clearMould =>
    show CheckKept s (ownClearMould s).state
    unfold ownClearMould
    split
    · exact here
    · dsimp only [accept]
      exact cleared _ _
  | setReporting => exact .answer here (.inl ⟨rfl, rfl⟩)
  | setCounter => exact .answer here (ru _ s)
  | clearStatus => exact ru _ s
  | acknowledge => exact .answer here (ru _ s)

theorem recordOutcome_check (code : Byte) (o : FrameOutcome) (s : State) : CheckKept s (recordOutcome code o s) :=
  .ite (.inl ⟨rfl, rfl⟩) (.inl ⟨rfl, rfl⟩)

theorem setDecoder_check (x : DecoderState) (s : State) : CheckKept s (setDecoder x s) := .inl ⟨rfl, rfl⟩

theorem endFrame_check (code : Byte) (o : FrameOutcome) (s : State) : CheckKept s (endFrame code o s) :=
  ((setDecoder_check .ready s).trans (recordOutcome_check code o _)).trans (report_within _ _ _).check

theorem takeCommand_check (c : Command) (s : State) : CheckKept s (takeCommand c s) := by
  unfold takeCommand
  split
  · exact .inr ⟨rfl, rfl⟩
  · have ended := ((own_check c s).trans (setDecoder_check .ready _)).trans (recordOutcome_check c.code (own c s).outcome _)
    have reported : CheckKept s (answerReport c (own c s) s) :=
      .ite (ended.trans (postDirty_within _).check) (ended.trans (report_within _ _ _).check)
    unfold followUp
    split
    · exact reported
    · exact reported.trans (refreshCovered_within _ _).check
    · exact reported.trans (CheckKept.ite (locatorTest_within _).check (.refl _))

theorem closingWrite_check (d : Word) (s : State) : CheckKept s (closingWrite d s) := by
  unfold closingWrite
  split
  · exact endFrame_check _ _ s
  · exact endFrame_check _ _ s
  · split
    · exact endFrame_check _ _ s
    · split
      · exact endFrame_check _ _ s
      · unfold closeCommand
        split
        · exact endFrame_check _ _ s
        · exact takeCommand_check _ s

theorem cdWrite_check (n : Nat) (be : Enables) (d : Word) (s : State) : CheckKept s (cdWrite n be d s) := by
  have cd (x : CommandDecoder) (u : State) : CheckKept u (u.withCd x) := .inl ⟨rfl, rfl⟩
  unfold cdWrite
  split
  · unfold poisonFrame
    split
    · exact cd _ s
    all_goals exact .refl s
  · split
    · unfold openingWrite
      split
      · exact cd _ s
      all_goals exact ((recordOutcome_check _ _ s).trans (report_within _ _ _).check).trans (cd _ _)
    · split
      · exact closingWrite_check d s
      · unfold parameterWrite
        split
        · exact cd _ s
        all_goals exact .refl s

theorem slotTouched_check (n : Fin 12) (s : State) : CheckKept s (slotTouched n s) := by
  have touched := putSlot_check n .unchecked 0 s
  have voided : CheckKept s ((putSlot n .unchecked 0 s).withTu { (putSlot n .unchecked 0 s).tu with
      sweep := { (putSlot n .unchecked 0 s).tu.sweep with check := some { slot := n, void := true } } }) := .inl ⟨rfl, rfl⟩
  exact (CheckKept.ite voided touched).trans (report_within _ _ _).check

theorem writeArrives_check (w : WordAddr) (be : Enables) (d : Word) (s : State) : CheckKept s (writeArrives w be d s) := by
  unfold writeArrives
  split
  · next k _ => exact (noteDrop_within k _ s).check.trans (report_within _ _ _).check
  · have written : CheckKept s (s.withMem (s.mem.writeWord w be d)) := .inl ⟨rfl, rfl⟩
    refine written.trans ?_
    unfold copyWrite
    split
    · exact cdWrite_check _ _ _ _
    · exact (ringWrite_within _ _ _ _ _).check
    · exact slotTouched_check _ _
    all_goals exact .refl _

theorem recordCompletes_check (id : RecordId) (b s : State) : CheckKept s (recordCompletes id b s) := by
  unfold recordCompletes
  split
  · exact .ite ((imageComplete_check _ _).trans (reportTask_check _ _ _ _)) (.refl s)
  all_goals exact .refl s

theorem performWord_check (s : State) : CheckKept s (performWord s) := by
  obtain ⟨-, e⟩ | ⟨r, rest, -, -, e⟩ | ⟨r, rest, d, ds, -, -, e⟩ := performWord_cases s
  · rw [e]; exact .refl s
  · rw [e]; exact .inl ⟨rfl, rfl⟩
  · rw [e]
    have performed : CheckKept s (wordPerformed r d ds rest s) := .inl ⟨rfl, rfl⟩
    exact .ite (performed.trans (recordCompletes_check _ _ _)) performed

theorem slotCheckFed_kept : KeptByParts slotCheckFed where
  assertReset _ := rfl
  released _ _ _ h := h
  withHolds _ _ _ h := h
  withPins _ _ h := h
  writeArrives w be d _ _ h := (writeArrives_check w be d _).fed h
  readArrives _ _ _ h := h
  performWord h := (performWord_check _).fed h
  askRecords h := (askRecords_check 16 _).fed h
  postDirty h := (postDirty_within _).check.fed h
  serveRead r s h := (reportTask_check _ _ _ _).fed (taskData_fed _ h)
  promoteRead _ _ h := h
  timeoutBlock r _ h := (timeoutBlock_within r _).check.fed h
  staleRing r _ h := (staleRing_within r _).check.fed h
  endPulse h := (endPulse_within _).check.fed h
  takeBlock h := (takeBlock_within _).check.fed h
  processSample w _ h := (processSample_within w _).check.fed h

/-- Settles O4: each of the three invariants is kept by every kind of effect that a row can have. -/
theorem stepKeepsCapacitiesCountsAndChecks : Obligations.StepKeepsCapacitiesCountsAndChecks := by
  intro s t e
  refine ⟨fun cap hot => ?_, fun h => ?_, fun h => ?_⟩
  · have sound : Sound t := sound_kept.step (fun _ _ h => h.same rfl rfl rfl rfl rfl)
      (fun _ _ h => h.same rfl rfl rfl rfl rfl) ⟨cap, hot⟩ e
    exact ⟨sound.cap, sound.hot⟩
  · exact wholeRecords_kept.step (fun _ _ h => h.same rfl) (fun _ _ h => h.same rfl) h e
  · exact slotCheckFed_kept.step (fun _ _ h => h) (fun _ _ h => h) h e

end Sys2Proof.Machine
end

section
/-! The memory path of one upstream access: the protected window set, a write that is performed or dropped, a write into a slot,
and the word that a read passes upstream. -/

namespace Sys2Proof.Machine

/-! ### The window decode, window by window -/

/-- An address in the command window. -/
def inCommandWindow (s : State) (w : WordAddr) : Prop :=
  commandBase s ≤ 4 * w.toNat ∧ 4 * w.toNat < commandBase s + 64

/-- An address in the results area. -/
def inResults (s : State) (w : WordAddr) : Prop :=
  s.pu.resultsBase.toNat ≤ 4 * w.toNat ∧ 4 * w.toNat < s.pu.resultsBase.toNat + 0x1400

theorem commandWindow_holds_iff (s : State) (w : WordAddr) :
    (commandWindow s.pu.strap).holds (4 * w.toNat) = true ↔ inCommandWindow s w := by
  rw [Window.holds_iff, commandWindow_first]
  rfl

theorem resultsWindow_holds_iff (s : State) (w : WordAddr) :
    (resultsWindow s.pu.resultsBase.toNat).holds (4 * w.toNat) = true ↔ inResults s w := Window.holds_iff _ _

theorem archiveWindow_holds_iff (s : State) (w : WordAddr) :
    (archiveWindow s.pu.archiveBase.toNat).holds (4 * w.toNat) = true ↔
      s.pu.archiveBase.toNat ≤ 4 * w.toNat ∧ 4 * w.toNat < s.pu.archiveBase.toNat + 0x3000 := Window.holds_iff _ _

theorem placeOf_command {s : State} {w : WordAddr} (c : inCommandWindow s w) :
    ∃ k, placeOf s.pu s.sf w = .command k :=
  (placeOf_command_iff s.pu s.sf w).mpr ((commandWindow_holds_iff s w).mpr c)

theorem placeOf_results {s : State} {w : WordAddr} (c : ¬ inCommandWindow s w) (l : s.pu.layoutDefined = true)
    (r : inResults s w) : placeOf s.pu s.sf w = .results ((4 * w.toNat - s.pu.resultsBase.toNat) / 4) := by
  rw [placeOf_chain, if_neg (mt (commandWindow_holds_iff s w).mp c), if_pos ⟨l, (resultsWindow_holds_iff s w).mpr r⟩]

/-- A byte of slot n outside the two windows that are decoded before the archive. -/
theorem placeOf_slot {s : State} {w : WordAddr} (c : ¬ inCommandWindow s w) (l : s.pu.layoutDefined = true)
    (r : ¬ inResults s w) {n : Fin 12} (lo : s.pu.archiveBase.toNat + 0x400 * n.val ≤ 4 * w.toNat)
    (hi : 4 * w.toNat < s.pu.archiveBase.toNat + 0x400 * n.val + 0x400) : ∃ k, placeOf s.pu s.sf w = .slot n k := by
  have archive : (archiveWindow s.pu.archiveBase.toNat).holds (4 * w.toNat) = true := by
    rw [archiveWindow_holds_iff]
    omega
  have number : (4 * w.toNat - s.pu.archiveBase.toNat) / 0x400 = n.val := by omega
  rw [placeOf_chain, if_neg (mt (commandWindow_holds_iff s w).mp c),
    if_neg fun k => r ((resultsWindow_holds_iff s w).mp k.2), if_pos ⟨l, archive⟩, fin_of_val number]
  exact ⟨_, rfl⟩

/-! ### The protected window set -/

theorem busy_iff (x : SlotState) : x.busy = true ↔ x ∈ [SlotState.mounted, .loading, .saving, .clearing] := by
  cases x <;> decide

theorem protection_slot (tu : TaskUnit) (n : Fin 12) (k : Nat) : protection tu (.slot n k) =
    if tu.directory[n].state ∈ [SlotState.mounted, .loading, .saving, .clearing] then some .busySlot
    else if tu.directory[n].lock then some .lockedSlot else none := by
  show (if tu.directory[n].state.busy = true then _ else _) = _
  simp only [busy_iff]

/-- Settles O8: each case is one window of the decode. -/
theorem protectedWindowSet : Obligations.ProtectedWindowSet := by
  intro s w
  refine ⟨fun c => ?_, fun c => ⟨fun l => ?_, fun l => ⟨fun r => ?_, fun r => ⟨fun n lo hi => ?_, fun out => ?_⟩⟩⟩⟩
  · obtain ⟨k, e⟩ := placeOf_command c
    rw [e]
    rfl
  · exact protection_outside (by simp [l]) (by simp [l])
  · rw [placeOf_results c l r]
    rfl
  · obtain ⟨k, e⟩ := placeOf_slot c l r lo hi
    rw [e, protection_slot]
  · refine protection_outside (fun k => r ((resultsWindow_holds_iff s w).mp k.2)) fun k => ?_
    obtain ⟨lo, hi⟩ := (archiveWindow_holds_iff s w).mp k.2
    omega

/-! ### Lanes -/

/-- The word of four bytes, lane 0 the least significant. -/
def wordOfBytes (b : Nat → Byte) : Word :=
  field 0 8 (b 0).toNat ||| field 8 8 (b 1).toNat ||| field 16 8 (b 2).toNat ||| field 24 8 (b 3).toNat

theorem readWord_eq (m : Memory) (w : WordAddr) : m.readWord w = wordOfBytes fun i => m.readByte (4 * w.toNat + i) := rfl

theorem mergeLanes_eq (be : Enables) (d other : Word) :
    mergeLanes be d other = wordOfBytes fun i => lane (if be.getLsbD i then d else other) i := rfl

theorem ofNat_toNat_byte (x : Byte) : BitVec.ofNat 8 (x.toNat % 256) = x :=
  BitVec.eq_of_toNat_eq (by simp [x.isLt])

/-- Each lane of the word of four bytes is its byte. -/
theorem lane_wordOfBytes (b : Nat → Byte) {i : Nat} (h : i < 4) : lane (wordOfBytes b) i = b i := by
  unfold lane wordOfBytes
  simp only [bits_or]
  interval_cases i <;> simp [bits_field_self, bits_field_apart, ofNat_toNat_byte]

/-- An enabled lane of a read is the byte at memory. -/
theorem lane_read {be : Enables} {i : Nat} (h : i < 4) (e : be.getLsbD i = true) (m : Memory) (w : WordAddr) (other : Word) :
    lane (mergeLanes be (m.readWord w) other) i = m.readByte (4 * w.toNat + i) := by
  rw [mergeLanes_eq, lane_wordOfBytes _ h]
  simp only [e, if_true]
  rw [readWord_eq, lane_wordOfBytes _ h]

/-! ### Accesses that arrive -/

/-- Every byte after a word write. -/
theorem readByte_afterWrite {m : Memory} (h : m.wf = true) (w : WordAddr) (be : Enables) (d : Word) (a : Nat) :
    (m.writeWord w be d).readByte a =
      if a / 4 = w.toNat ∧ be.getLsbD (a % 4) = true then lane d (a % 4) else m.readByte a := by
  by_cases e : a / 4 = w.toNat
  · have split : a = 4 * w.toNat + (⟨a % 4, Nat.mod_lt _ (by decide)⟩ : Fin 4).val := by
      show a = 4 * w.toNat + a % 4
      omega
    have written := Memory.readByte_writeWord h w be d ⟨a % 4, Nat.mod_lt _ (by decide)⟩
    rw [← split] at written
    rw [written]
    simp [e]
  · rw [Memory.readByte_writeWord_of_ne h w be d a e, if_neg fun k => e k.1]

/-- A write that nothing protects is performed and copied to the block of its window (R1, R3). -/
theorem writeArrives_unprotected {s : State} {w : WordAddr} (p : protection s.tu (placeOf s.pu s.sf w) = none) (be : Enables)
    (d : Word) : writeArrives w be d s = copyWrite (placeOf s.pu s.sf w) be d (s.withMem (s.mem.writeWord w be d)) := by
  unfold writeArrives
  rw [p]

/-- A write into the protected window set is dropped (R8). -/
theorem writeArrives_protected {s : State} {w : WordAddr} {k : DropKind} (p : protection s.tu (placeOf s.pu s.sf w) = some k)
    (be : Enables) (d : Word) :
    writeArrives w be d s = report {} s (noteDrop k (BitVec.ofNat 24 (4 * w.toNat)) s) := by
  unfold writeArrives
  rw [p]
  rfl

/-- The row of a read that arrives at once. -/
theorem upstreamRead_arrives {s : State} {w : WordAddr} {be : Enables} (h : arrivesAtOnce s (.read w be)) :
    exec (.upstreamRead w be) s = .next (readArrives w be s) := by
  show Host.Outcome.next (busRead w be s) = _
  unfold busRead
  rw [arrive_of_clear _ h]

/-- Settles O9. -/
theorem upstreamAccessIsPerformed : Obligations.UpstreamAccessIsPerformed := by
  refine ⟨fun s w be d wf free p => ?_, fun s w be h => ?_⟩
  · have mem : (writeArrives w be d s).mem = s.mem.writeWord w be d := by rw [writeArrives_mem, p]; rfl
    refine ⟨_, upstreamWrite_arrives free w be d, mem, fun a => ?_, fun o => ?_⟩
    · rw [mem]
      exact readByte_afterWrite wf w be d a
    · rw [writeArrives_unprotected p, o]
      rfl
  · exact ⟨_, upstreamRead_arrives h, fun i hi e => lane_read hi e s.mem w _, rfl⟩

/-- Settles O10: the drop is noted at RU, and then a round of reports posts it. -/
theorem protectedWriteIsDropped : Obligations.ProtectedWriteIsDropped := by
  intro s w be d k free p
  refine ⟨_, upstreamWrite_arrives free w be d, ?_⟩
  rw [writeArrives_protected p]
  exact report_posted {} s _ rfl

/-! ### A write into a slot -/

/-- The check of a running sweep after a write into slot n (R136). -/
def checkAfterWrite (n : Fin 12) (x : Sweep) : Option SlotCheck :=
  if x.state = .running then x.check.map fun k => { k with void := k.void || decide (k.slot = n) } else x.check

/-- A slot that is written, before the change is reported: UNCHECKED with ID 0, and its check void. -/
def slotWritten (n : Fin 12) (s : State) : State :=
  { s with tu := { s.tu with
    directory := s.tu.directory.set n { s.tu.directory[n] with state := .unchecked, mouldId := 0 }
    sweep := { s.tu.sweep with check := checkAfterWrite n s.tu.sweep } } }

theorem checkAfterWrite_of_underCheck {tu : TaskUnit} {n : Fin 12} (u : underCheck tu n = true) :
    checkAfterWrite n tu.sweep = some { slot := n, void := true } := by
  unfold underCheck at u
  simp only [Bool.and_eq_true, beq_iff_eq, Option.map_eq_some_iff] at u
  obtain ⟨running, k, check, rfl⟩ := u
  simp [checkAfterWrite, running, check]

theorem checkAfterWrite_of_not_underCheck {tu : TaskUnit} {n : Fin 12} (u : underCheck tu n = false) :
    checkAfterWrite n tu.sweep = tu.sweep.check := by
  unfold checkAfterWrite
  split
  · next running =>
    cases check : tu.sweep.check with
    | none => rfl
    | some k =>
      have other : k.slot ≠ n := by simpa [underCheck, running, check] using u
      simp [other]
  · rfl

theorem slotTouched_eq (n : Fin 12) (s : State) : slotTouched n s = report {} s (slotWritten n s) := by
  unfold slotTouched slotWritten
  dsimp only
  split
  · next u =>
    rw [checkAfterWrite_of_underCheck u]
    rfl
  · next u =>
    rw [checkAfterWrite_of_not_underCheck (by simpa using u)]
    rfl

theorem slotWritten_of_unlocked {s : State} {n : Fin 12} (h : s.tu.directory[n].lock = false) :
    slotWritten n s = { s with tu := { s.tu with
      directory := s.tu.directory.set n { state := .unchecked, mouldId := 0, lock := false }
      sweep := { s.tu.sweep with check := checkAfterWrite n s.tu.sweep } } } := by
  unfold slotWritten
  dsimp only
  rw [h]

/-- Settles O48: a slot that is neither busy nor locked is unprotected, so the write is performed and copied to TU. -/
theorem slotWriteUnchecksTheSlot : Obligations.SlotWriteUnchecksTheSlot := by
  intro s w be d n i free place idle open_
  have p : protection s.tu (placeOf s.pu s.sf w) = none := by
    rw [place, protection_slot, if_neg (by rw [← busy_iff, idle]; decide), open_]
    rfl
  refine ⟨_, upstreamWrite_arrives free w be d, ?_⟩
  rw [writeArrives_unprotected p, place]
  show PostedFrom _ (slotTouched n _)
  rw [slotTouched_eq, slotWritten_of_unlocked (s := s.withMem (s.mem.writeWord w be d)) open_]
  exact report_posted {} _ _ rfl

end Sys2Proof.Machine
end

section
/-! The post queue: what it takes of a record, what a replacement changes, where a record lies, and the performing of its head
word. -/

namespace Sys2Proof.Machine

/-! ### Taking and replacing a record -/

theorem accepts_iff (pu : PathUnit) (n : Nat) :
    accepts pu n = true ↔ pu.layoutDefined = true ∧ queueLength pu.queue + n ≤ 32 := by
  unfold accepts
  rw [Bool.and_eq_true, decide_eq_true_iff]
  rfl

theorem enqueue_of_accepts {s : State} {ws : List Word} (h : accepts s.pu ws.length = true) (id : RecordId) :
    enqueue id ws s = some { s with pu := { s.pu with
      queue := s.pu.queue ++ [{ id := id, addr := recordAddr s.pu id, words := ws, begun := false }] } } :=
  if_pos h

theorem enqueue_of_not_accepts {s : State} {ws : List Word} (h : ¬ accepts s.pu ws.length = true) (id : RecordId) :
    enqueue id ws s = none :=
  if_neg h

theorem isCopy_iff (id : RecordId) (r : QueuedRecord) : r.isCopy id = true ↔ r.id = id ∧ r.begun = false := by
  simp [QueuedRecord.isCopy]

/-- A copy of the same size takes the new words whole. -/
theorem replaceWords_same_length {id : RecordId} {ws : List Word} {r : QueuedRecord}
    (h : r.id = id → r.begun = false → r.words.length = ws.length) :
    r.replaceWords id ws = if r.id = id ∧ r.begun = false then { r with words := ws } else r := by
  unfold QueuedRecord.replaceWords
  simp only [isCopy_iff]
  split
  · next c => simp [h c.1 c.2]
  · rfl

theorem replaceQueued_same_length {id : RecordId} {ws : List Word} {s : State}
    (h : ∀ r ∈ s.pu.queue, r.id = id → r.begun = false → r.words.length = ws.length) :
    replaceQueued id ws s = { s with pu := { s.pu with
      queue := s.pu.queue.map fun r => if r.id = id ∧ r.begun = false then { r with words := ws } else r } } := by
  have mapped : s.pu.queue.map (QueuedRecord.replaceWords id ws) =
      s.pu.queue.map fun r => if r.id = id ∧ r.begun = false then { r with words := ws } else r :=
    List.map_congr_left fun r m => replaceWords_same_length (h r m)
  unfold replaceQueued
  rw [mapped]
  rfl

theorem recordAddr_cases (pu : PathUnit) (id : RecordId) : recordAddr pu id = match id with
    | .status => BitVec.ofNat 22 (pu.resultsBase.toNat / 4)
    | .counter => BitVec.ofNat 22 (pu.resultsBase.toNat / 4 + 12)
    | .directory => BitVec.ofNat 22 (pu.resultsBase.toNat / 4 + 20)
    | .verdict c => BitVec.ofNat 22 (pu.resultsBase.toNat / 4 + 64 + c.val)
    | .trace h => BitVec.ofNat 22 (pu.resultsBase.toNat / 4 + 128 + 16 * h.val)
    | .log e => BitVec.ofNat 22 (pu.resultsBase.toNat / 4 + 256 + 4 * e.toNat)
    | .slot n k => BitVec.ofNat 22 (pu.archiveBase.toNat / 4 + 256 * n.val + 16 * k) := by
  unfold recordAddr
  cases id <;> simp only [recordOffset, recordBase, Nat.add_assoc, Nat.add_zero]

/-! ### What the arbiter looks at is left by a test of the holds -/

theorem isHeld_withHolds (o : Option Outstanding) (cs : Vector Counter 4) (s : State) (a : Access) :
    isHeld (withHolds o cs s) a = isHeld s a :=
  isHeld_setAccess o s a

theorem holdsNow_withHolds (o : Option Outstanding) (cs : Vector Counter 4) (s : State) (a : Access) :
    holdsNow (withHolds o cs s) a = holdsNow s a :=
  holdsNow_setAccess o s a

theorem reportHolds_withHolds (s : State) : ∃ o cs, reportHolds s = withHolds o cs s := reportHolds_form s

/-- A test of the holds keeps which access is outstanding and whether it has arrived. -/
theorem reportHolds_access (s : State) : (reportHolds s).pu.access.map (fun o => (o.access, o.arrived)) =
    s.pu.access.map fun o => (o.access, o.arrived) := by
  obtain e | ⟨x, a, -, e⟩ := reportHolds_cases s
  · rw [e]
  · rw [e, noteHolds_counted, a]
    rfl

theorem accessEligible_eq (s : State) : accessEligible s =
    ((s.pu.access.map fun o => (o.access, o.arrived)).map fun x => x.2 || !isHeld s x.1).getD false := by
  unfold accessEligible
  cases s.pu.access <;> rfl

theorem accessEligible_reportHolds (s : State) : accessEligible (reportHolds s) = accessEligible s := by
  have held : isHeld (reportHolds s) = isHeld s := by
    obtain ⟨o, cs, form⟩ := reportHolds_withHolds s
    rw [form]
    exact funext (isHeld_withHolds o cs s)
  rw [accessEligible_eq, accessEligible_eq, reportHolds_access, held]

theorem choiceOne_reportHolds (s : State) : choiceOne (reportHolds s) = choiceOne s := by
  obtain ⟨o, cs, form⟩ := reportHolds_withHolds s
  rw [form]
  rfl

theorem reportHolds_queue (s : State) : (reportHolds s).pu.queue = s.pu.queue := by
  obtain ⟨o, cs, form⟩ := reportHolds_withHolds s
  rw [form]
  rfl

theorem servesPost_reportHolds (s : State) : servesPost (reportHolds s) = servesPost s := by
  unfold servesPost
  rw [reportHolds_queue, choiceOne_reportHolds, accessEligible_reportHolds]

/-! ### The head word -/

theorem servesPost_iff (s : State) :
    servesPost s = true ↔ s.pu.queue ≠ [] ∧ choiceOne s = false ∧ accessEligible s = false := by
  simp [servesPost, and_assoc]

theorem recordCompletes_of_not_image {id : RecordId} (h : ∀ n, id ≠ .slot n 15) (before s : State) :
    recordCompletes id before s = s := by
  cases id with
  | slot n k => exact if_neg fun e => h n (congrArg _ e)
  | status | counter | directory | verdict | trace | log => rfl

/-- The head word is performed; unless it ends a slot image, nothing else happens. -/
theorem performWord_head {s : State} {r : QueuedRecord} {rest : List QueuedRecord} {d : Word} {ds : List Word}
    (q : s.pu.queue = r :: rest) (w : r.words = d :: ds) (image : ds = [] → ∀ n, r.id ≠ .slot n 15) :
    performWord s = wordPerformed r d ds rest s := by
  have form : performWord s =
      if ds = [] then recordCompletes r.id s (wordPerformed r d ds rest s) else wordPerformed r d ds rest s := by
    obtain ⟨e, -⟩ | ⟨_, _, e, w', -⟩ | ⟨_, _, _, _, e, w', form⟩ := performWord_cases s <;> rw [q] at e <;> cases e
    · rw [w] at w'
      cases w'
    · rw [w] at w'
      cases w'
      exact form
  rw [form]
  split
  · next last => exact recordCompletes_of_not_image (image last) _ _
  · rfl

/-- The row of a queued word, when the arbiter serves the post queue. -/
theorem postWordPerformed_served {s₀ : State} (reset : s₀.inReset = false) (serves : servesPost s₀ = true) :
    exec .postWordPerformed s₀ = .next (reportHolds (performWord (reportHolds s₀))) := by
  show Host.Outcome.next (whileRunning (fun s => if servesPost s then performWord s else s) s₀) = _
  rw [whileRunning_eq _ reset, if_pos ((servesPost_reportHolds s₀).trans serves)]

/-- Settles O12. -/
theorem postQueueTakesRecordsAndPerformsWords : Obligations.PostQueueTakesRecordsAndPerformsWords := by
  refine ⟨fun s id ws => ⟨fun ⟨l, room, size⟩ => ?_, fun no => ?_, replaceQueued_same_length, recordAddr_cases s.pu id⟩,
    fun s₀ r rest d ds reset q w choice eligible image => ?_⟩
  · exact enqueue_of_accepts ((accepts_iff _ _).mpr ⟨l, by omega⟩) id
  · refine enqueue_of_not_accepts (fun a => ?_) id
    obtain ⟨l, room⟩ := (accepts_iff _ _).mp a
    obtain undefined | full := no
    · rw [l] at undefined
      cases undefined
    · omega
  · have serves : servesPost s₀ = true := (servesPost_iff s₀).mpr ⟨by simp [q], choice, eligible⟩
    dsimp only
    rw [postWordPerformed_served reset serves, performWord_head ((reportHolds_queue s₀).trans q) w image]
    rfl

end Sys2Proof.Machine
end

section
/-! The resets: the values of the reset state, and what RESETn does, keeps and lets through. -/

namespace Sys2Proof.Machine

/-! ### The reset state -/

theorem mouldAgrees_reset : mouldAgrees State.reset where
  unmounted _ := ⟨rfl, rfl, rfl, by decide +kernel⟩
  mounted h := by rcases h with h | h <;> cases h
  changing _ _ h := by cases h
  counts p h := by rcases h with ⟨_, h, _⟩ | h <;> cases h
  clearing _ _ h := by cases h
  toClear _ h := by cases h
  checked _ _ h := by cases h
  pending h := absurd rfl h

theorem wholeRecords_of_empty {s : State} (h : s.pu.queue = []) : wholeRecords s := by
  intro id _ r m
  rw [h] at m
  cases m

theorem withinCapacity_reset : withinCapacity State.reset where
  post := Nat.zero_le _
  accepted := Nat.zero_le _
  pool := Nat.zero_le _
  cycles := Nat.zero_le _

/-- Settles O19. -/
theorem resetValues : Obligations.ResetValues := by
  refine ⟨⟨rfl, rfl, rfl, rfl, rfl, rfl⟩, ⟨rfl, rfl, by decide +kernel, rfl⟩,
    ⟨by decide +kernel, rfl, rfl, by decide +kernel⟩,
    ⟨by decide +kernel, rfl⟩, ⟨rfl, rfl, rfl, rfl, rfl⟩, ⟨rfl, rfl, rfl, rfl, rfl, by decide +kernel⟩,
    ⟨rfl, rfl, rfl, by decide +kernel, rfl, rfl, by decide +kernel, rfl⟩,
    ⟨rfl, rfl, rfl, rfl, rfl, rfl, rfl, rfl, rfl, rfl, rfl, rfl, by decide +kernel, rfl, rfl, rfl, rfl, rfl, rfl,
      by decide +kernel⟩,
    rfl, withinCapacity_reset, nofun, windowsApart_of_undefined rfl reset_rings, mouldAgrees_reset, wholeRecords_of_empty rfl,
    rfl⟩

/-! ### While RESETn is asserted -/

theorem startAccess_inReset {s : State} (r : s.inReset = true) (a : Access) : startAccess a s = outstanding a false s :=
  if_pos r

theorem tryAccess_inReset {s : State} (r : s.inReset = true) (k : State → State) : tryAccess k s = s := if_pos r

/-- The row of an access can only present it: nothing arrives. -/
theorem arrive_inReset {s : State} (r : s.inReset = true) (a : Access) (k : State → State) :
    arrive a k s = presentAccess a s := by
  unfold arrive presentAccess
  split
  · rw [startAccess_inReset r]
    exact tryAccess_inReset (s := outstanding a false s) r k
  · rw [tryAccess_inReset r, ite_self]

theorem presentAccess_none {s : State} (h : s.pu.access = none) (a : Access) : presentAccess a s = startAccess a s := by
  unfold presentAccess
  rw [h]

theorem whileRunning_inReset {s : State} (r : s.inReset = true) (f : State → State) : whileRunning f s = s := if_pos r

/-- No step of the part's own takes place. -/
theorem exec_own_inReset {s : State} (r : s.inReset = true) {c : Instr}
    (m : c ∈ [Instr.postWordPerformed, .taskRecordEnqueue, .dirtyRecordPost, .taskReadData, .taskWaitExpiry, .alarmPulseEnd,
      .blockBegin, .sampleProcessed]) : exec c s = .next s := by
  have idle (f : State → State) : Host.Outcome.next (whileRunning f s) = (.next s : Result) := by
    rw [whileRunning_inReset r]
  fin_cases m <;> exact idle _

/-! ### The release -/

/-- The state that RESETn's release leaves with no access outstanding. -/
theorem releaseReset_none {s : State} (h : s.pu.access = none) (n : BitVec 4) : releaseReset n s = released n s := by
  show (match s.pu.access with | .none => released n s | some o => meetHolds o.access (released n s)) = _
  rw [h]

theorem meetHolds_setAccess (o : Option Outstanding) (a : Access) (s : State) :
    meetHolds a (setAccess o s) = meetHolds a s := by
  unfold meetHolds
  rw [isHeld_setAccess]
  rfl

theorem releaseReset_some {s : State} {o : Outstanding} (h : s.pu.access = some o) (n : BitVec 4) :
    releaseReset n s = meetHolds o.access (released n s) := by
  show (match s.pu.access with | .none => released n s | some o => meetHolds o.access (released n s)) = _
  rw [h]

theorem setAccess_self {s : State} {o : Option Outstanding} (h : s.pu.access = o) : setAccess o s = s := by
  rw [← h]
  rfl

theorem meetHolds_strap (a : Access) (s : State) : (meetHolds a s).pu.strap = s.pu.strap := by
  obtain ⟨_, _, form⟩ := reportHolds_form (outstanding a (!isHeld s a) s)
  unfold meetHolds
  rw [form]
  rfl

theorem releaseReset_strap (n : BitVec 4) (s : State) : (releaseReset n s).pu.strap = n := by
  cases h : s.pu.access with
  | none => rw [releaseReset_none h]; rfl
  | some o => rw [releaseReset_some h, meetHolds_strap]; rfl

theorem placeOf_command_bounds (s : State) (w : WordAddr) : (∃ k, placeOf s.pu s.sf w = .command k) ↔
    s.pu.strap.toNat * 0x100000 + 0xFFFC0 ≤ 4 * w.toNat ∧ 4 * w.toNat ≤ s.pu.strap.toNat * 0x100000 + 0xFFFFF := by
  have window : (∃ k, placeOf s.pu s.sf w = .command k) ↔ inCommandWindow s w :=
    (placeOf_command_iff s.pu s.sf w).trans (commandWindow_holds_iff s w)
  rw [window]
  unfold inCommandWindow commandBase
  omega

/-- Settles O20. -/
theorem resetnAndItsRelease : Obligations.ResetnAndItsRelease := by
  refine ⟨⟨fun s => rfl, fun s r => ⟨fun w be d => ⟨?_, ?_⟩, fun a none => ?_, fun _ => ⟨?_, ?_⟩,
      fun c => exec_own_inReset r⟩⟩,
    fun s n r => ⟨releaseReset n s, ?_, fun none => ?_, fun o some => ?_, fun w => ?_⟩⟩
  · exact congrArg Host.Outcome.next (arrive_inReset r _ _)
  · exact congrArg Host.Outcome.next (arrive_inReset r _ _)
  · exact congrArg Host.Outcome.next ((presentAccess_none none a).trans (startAccess_inReset r a))
  · exact congrArg Host.Outcome.next (whileRunning_inReset r _)
  · exact congrArg Host.Outcome.next (whileRunning_inReset r _)
  · exact congrArg Host.Outcome.next (if_pos r)
  · rw [releaseReset_none none]
    exact (setAccess_self (s := released n s) none).symm
  · rw [releaseReset_some some]
    exact congrArg Host.Outcome.next
      ((presentAccess_none (s := setAccess .none (released n s)) rfl o.access).trans (meetHolds_setAccess _ _ _))
  · rw [placeOf_command_bounds, releaseReset_strap]

end Sys2Proof.Machine
end

section
/-! The holds that a presented access meets: when it arrives, when it waits, and what is counted of the holds meanwhile. -/

namespace Sys2Proof.Machine

/-! ### The three hold cases -/

theorem postFullHolds_iff (s : State) : postFullHolds s = true ↔ 32 ≤ queueLength s.pu.queue := by
  unfold postFullHolds
  rw [decide_eq_true_iff]
  rfl

theorem taskWaitHolds_iff (s : State) : taskWaitHolds s = true ↔ ∃ r, s.pu.taskRead = some r ∧
    (r.promoted = true ∨ atOrAfter s.localTime (r.presentedAt + 200) = true) := by
  unfold taskWaitHolds
  cases s.pu.taskRead with
  | none => simp
  | some r => simp [promoted, Config.taskWaitLimit]

theorem recordQueued_iff (q : List QueuedRecord) (id : RecordId) : recordQueued q id = true ↔ ∃ r ∈ q, r.id = id := by
  simp [recordQueued]

theorem queuedWriteTo_iff (q : List QueuedRecord) (w : WordAddr) : queuedWriteTo q w = true ↔
    ∃ r ∈ q, r.addr.toNat ≤ w.toNat ∧ w.toNat < r.addr.toNat + r.words.length := by
  simp [queuedWriteTo, QueuedRecord.writes]

/-- A read that waits for a record reads the results area or a slot. -/
theorem recordReadHolds_read_iff (s : State) (w : WordAddr) (be : Enables) : recordReadHolds s (.read w be) = true ↔
    (∃ n id r, placeOf s.pu s.sf w = .results n ∧ recordOfResultsWord n = some id ∧ r ∈ s.pu.queue ∧ r.id = id) ∨
    ∃ k n r, placeOf s.pu s.sf w = .slot k n ∧ r ∈ s.pu.queue ∧ r.addr.toNat ≤ w.toNat ∧
      w.toNat < r.addr.toNat + r.words.length := by
  unfold recordReadHolds
  dsimp only
  cases placeOf s.pu s.sf w with
  | results n =>
    cases record : recordOfResultsWord n with
    | none => simp [record]
    | some id => simp [record, recordQueued_iff, and_comm, @eq_comm _ id]
  | slot k n => simp [queuedWriteTo_iff]
  | command n => simp
  | ring r n => simp
  | other => simp

theorem recordReadHolds_iff (s : State) (a : Access) : recordReadHolds s a = true ↔ ∃ w be, a = .read w be ∧
    ((∃ n id r, placeOf s.pu s.sf w = .results n ∧ recordOfResultsWord n = some id ∧ r ∈ s.pu.queue ∧ r.id = id) ∨
     ∃ k n r, placeOf s.pu s.sf w = .slot k n ∧ r ∈ s.pu.queue ∧ r.addr.toNat ≤ w.toNat ∧
      w.toNat < r.addr.toNat + r.words.length) := by
  cases a with
  | write w be d =>
    refine ⟨nofun, ?_⟩
    rintro ⟨_, _, e, -⟩
    cases e
  | read w be =>
    rw [recordReadHolds_read_iff]
    constructor
    · exact fun h => ⟨w, be, rfl, h⟩
    · rintro ⟨_, _, e, h⟩
      cases e
      exact h

/-! ### An access that is presented -/

theorem reportHolds_none {s : State} (h : s.pu.access = none) : reportHolds s = s := by
  unfold reportHolds
  rw [h]

theorem reportHolds_waiting {s : State} {o : Outstanding} (a : s.pu.access = some o) (w : o.arrived = false) :
    reportHolds s = noteHolds o s := by
  unfold reportHolds
  rw [a]
  exact if_neg (by rw [w]; decide)

/-- The hold cases that apply, in the order in which they are counted. -/
def heldKinds (m : HoldMarks) : List HoldKind :=
  (if m.postFull then [HoldKind.postFull] else []) ++ (if m.recordRead then [.recordRead] else []) ++
    (if m.taskWait then [.taskWait] else [])

theorem heldKinds_map (m : HoldMarks) : (heldKinds m).map Occurrence.hold =
    (if m.postFull then [.hold .postFull] else []) ++ (if m.recordRead then [.hold .recordRead] else []) ++
      (if m.taskWait then [.hold .taskWait] else []) := by
  obtain ⟨p, r, t⟩ := m
  cases p <;> cases r <;> cases t <;> rfl

theorem heldKinds_eq_nil (m : HoldMarks) : heldKinds m = [] ↔ m = HoldMarks.none := by
  obtain ⟨p, r, t⟩ := m
  revert p r t
  decide

theorem heldKinds_isEmpty (s : State) (a : Access) : (heldKinds (holdsNow s a)).isEmpty = !isHeld s a := by
  have none : isHeld s a = true ↔ heldKinds (holdsNow s a) ≠ [] := (isHeld_iff s a).trans (heldKinds_eq_nil _).not.symm
  cases held : isHeld s a with
  | true => simpa [held] using none
  | false => simpa [held] using none

/-- The holds of an access that is presented are counted, each once. -/
def metHolds (a : Access) (s : State) : State :=
  { s with
    pu := { s.pu with access := some {
      access := a, reported := holdsNow s a, standing := holdsNow s a, arrived := (heldKinds (holdsNow s a)).isEmpty } }
    ru := { s.ru with
      counters := s.ru.counters.map fun c => (heldKinds (holdsNow s a)).foldl (fun c k => c.occur (.hold k)) c } }

theorem meetHolds_clear {s : State} {a : Access} (h : isHeld s a = false) : meetHolds a s = metHolds a s := by
  have presented : meetHolds a s = outstanding a true s := by
    unfold meetHolds
    rw [h]
    exact reportHolds_of_arrived (s := outstanding a true s) rfl rfl
  have none := holdsNow_clear h
  rw [presented]
  unfold metHolds
  rw [none]
  simp [outstanding, setAccess, State.withPu, (heldKinds_eq_nil HoldMarks.none).mpr rfl]

/-- Nothing holds an access longer than the case that it is presented with. -/
theorem holdsOn_outstanding (a : Access) (b : Bool) (s : State) :
    holdsOn (outstanding a b s) { access := a, reported := HoldMarks.none, standing := HoldMarks.none, arrived := b } =
      holdsNow s a := by
  rw [← holdsNow_setAccess (some { access := a, reported := HoldMarks.none, standing := HoldMarks.none, arrived := b }) s a]
  simp [holdsOn, waitsOn, HoldMarks.none, outstanding, holdsNow]

theorem meetHolds_held {s : State} {a : Access} (h : isHeld s a = true) : meetHolds a s = metHolds a s := by
  unfold meetHolds
  rw [h, reportHolds_waiting (s := outstanding a (!true) s) rfl rfl, noteHolds_counted]
  dsimp only
  rw [holdsOn_outstanding, show holdsNow (outstanding a (!true) s) a = holdsNow s a from holdsNow_setAccess _ s a]
  simp only [HoldMarks.none, Bool.not_false, Bool.and_true, Bool.false_or]
  rw [← heldKinds_map]
  unfold metHolds
  rw [heldKinds_isEmpty, h]
  simp [counted, outstanding, setAccess, State.withPu, List.foldl_map]

/-- What an access meets that is presented: it arrives, or each hold case that applies is counted and it waits (R1). -/
theorem meetHolds_eq (a : Access) (s : State) : meetHolds a s = metHolds a s := by
  cases h : isHeld s a with
  | true => exact meetHolds_held h
  | false => exact meetHolds_clear h

theorem presentAccess_free {s : State} (reset : s.inReset = false) (free : s.pu.access = none) (a : Access) :
    presentAccess a s = metHolds a s := by
  rw [presentAccess_none free, ← meetHolds_eq]
  exact if_neg (by rw [reset]; decide)

theorem presentAccess_outstanding {s : State} {o : Outstanding} (h : s.pu.access = some o) (a : Access) :
    presentAccess a s = s := by
  unfold presentAccess
  rw [h]

/-! ### The row of an access that waits -/

theorem accessHeld_eq (s : State) : accessHeld s =
    ((s.pu.access.map fun o => (o.access, o.arrived)).map fun x => !x.2 && isHeld s x.1).getD false := by
  unfold accessHeld
  cases s.pu.access <;> rfl

theorem isHeld_reportHolds (s : State) : isHeld (reportHolds s) = isHeld s := by
  obtain ⟨o, cs, form⟩ := reportHolds_withHolds s
  rw [form]
  exact funext (isHeld_withHolds o cs s)

theorem accessHeld_reportHolds {s : State} {o : Outstanding} (a : s.pu.access = some o) (w : o.arrived = false) :
    accessHeld (reportHolds s) = isHeld s o.access := by
  rw [accessHeld_eq, reportHolds_access, isHeld_reportHolds, a]
  simp [w]

theorem tryAccess_held {s : State} {o : Outstanding} (k : State → State) (reset : s.inReset = false)
    (a : s.pu.access = some o) (w : o.arrived = false) (h : isHeld s o.access = true) : tryAccess k s = reportHolds s := by
  unfold tryAccess
  dsimp only
  rw [if_neg (by rw [reset]; decide), if_pos ((accessHeld_reportHolds a w).trans h)]

/-- A test that finds no hold case reports nothing. -/
theorem noteHolds_clear {s : State} {o : Outstanding} (h : isHeld s o.access = false) :
    noteHolds o s = setAccess (some { o with standing := HoldMarks.none }) s := by
  have none := holdsNow_clear h
  have marks : holdsOn s o = HoldMarks.none := by
    have full : postFullHolds s = false := congrArg HoldMarks.postFull none
    unfold holdsOn
    rw [none, full]
    rfl
  rw [noteHolds_counted, marks, none]
  simp [HoldMarks.none, counted_nil, setAccess, State.withPu]

theorem tryAccess_clear {s : State} {o : Outstanding} (k : State → State) (reset : s.inReset = false)
    (a : s.pu.access = some o) (w : o.arrived = false) (h : isHeld s o.access = false) :
    tryAccess k s = k (setAccess none s) := by
  unfold tryAccess
  dsimp only
  rw [if_neg (by rw [reset]; decide), if_neg (by rw [accessHeld_reportHolds a w, h]; decide), reportHolds_waiting a w,
    noteHolds_clear h]
  rfl

theorem arrive_outstanding {s : State} {o : Outstanding} (k : State → State) (a : s.pu.access = some o) :
    arrive o.access k s = tryAccess k s := by
  unfold arrive
  rw [a]
  exact if_pos rfl

theorem arrive_other {s : State} {o : Outstanding} {b : Access} (k : State → State) (a : s.pu.access = some o)
    (h : o.access ≠ b) : arrive b k s = s := by
  unfold arrive
  rw [a]
  exact if_neg h

/-- The row of an access that waits completes it when no hold case applies any more, and else tests the holds. -/
theorem arrive_waiting {s : State} {o : Outstanding} (k : State → State) (reset : s.inReset = false)
    (a : s.pu.access = some o) (w : o.arrived = false) : arrive o.access k s =
      if holdsNow s o.access = HoldMarks.none then arrive o.access k (setAccess none s) else reportHolds s := by
  rw [arrive_outstanding k a]
  cases h : isHeld s o.access with
  | true => rw [if_neg ((isHeld_iff _ _).mp h), tryAccess_held k reset a w h]
  | false =>
    have clear : arrivesAtOnce (setAccess none s) o.access := ⟨reset, rfl, (isHeld_setAccess none s o.access).trans h⟩
    rw [if_pos (holdsNow_clear h), tryAccess_clear k reset a w h, arrive_of_clear k clear]

/-- The row of an access that is presented by it, and held. -/
theorem arrive_presented_held {s : State} {a : Access} (k : State → State) (reset : s.inReset = false)
    (free : s.pu.access = none) (h : isHeld s a = true) : arrive a k s = metHolds a s := by
  have presented : startAccess a s = metHolds a s :=
    (presentAccess_none free a).symm.trans (presentAccess_free reset free a)
  have tested : reportHolds (metHolds a s) = metHolds a s := by
    rw [← meetHolds_eq]
    exact reportHolds_again _
  have waits : (heldKinds (holdsNow s a)).isEmpty = false := by rw [heldKinds_isEmpty, h]; rfl
  unfold arrive
  rw [free]
  dsimp only
  rw [presented]
  refine (tryAccess_held k (s := metHolds a s) reset rfl waits ?_).trans tested
  exact (isHeld_withHolds _ _ s a).trans h

/-! ### An access that has arrived -/

theorem accessEligible_arrived {s : State} {o : Outstanding} (a : s.pu.access = some o) (w : o.arrived = true) :
    accessEligible s = true := by
  simp [accessEligible, a, w]

theorem servesPost_arrived {s : State} {o : Outstanding} (a : s.pu.access = some o) (w : o.arrived = true) :
    servesPost s = false := by
  simp [servesPost, accessEligible_arrived a w]

theorem servesRead_arrived {s : State} {o : Outstanding} (a : s.pu.access = some o) (w : o.arrived = true) (r : TaskRead) :
    servesRead s r = false := by
  simp [servesRead, accessEligible_arrived a w, portTaken, a, w]

theorem serveIfChosen_arrived {s : State} {o : Outstanding} (a : s.pu.access = some o) (w : o.arrived = true) :
    serveIfChosen s = s := by
  unfold serveIfChosen
  split
  · exact if_neg (by rw [servesRead_arrived a w]; decide)
  · rfl

/-- A step of the part's own that leaves the state leaves it with an arrived access, whose holds are tested no more. -/
theorem whileRunning_arrived {s : State} {o : Outstanding} {f : State → State} (reset : s.inReset = false)
    (a : s.pu.access = some o) (w : o.arrived = true) (h : f s = s) : whileRunning f s = s := by
  rw [whileRunning_eq f reset, reportHolds_of_arrived a w, h, reportHolds_of_arrived a w]

/-- Every step of the part's own leaves the holds tested. -/
theorem exec_own_tested {s : State} (reset : s.inReset = false) (r : Fin 8) {i : Instr}
    (m : i ∈ [Instr.postWordPerformed, .taskRecordEnqueue, .dirtyRecordPost, .taskReadData, .taskWaitExpiry,
      .blockTimeout r, .ringStale r, .alarmPulseEnd, .blockBegin, .sampleProcessed]) :
    ∃ t, exec i s = .next t ∧ reportHolds t = t := by
  fin_cases m <;> exact ⟨_, rfl, whileRunning_tested _ reset⟩

/-- The same as an outcome, t being what the test of the holds leaves. -/
theorem row_waiting {s : State} {o : Outstanding} {b : Access} {t : State} (k : State → State) (reset : s.inReset = false)
    (out : s.pu.access = some o) (w : o.arrived = false) (e : o.access = b) (tested : reportHolds s = t) :
    (.next (arrive b k s) : Result) =
      if holdsNow s o.access = HoldMarks.none then .next (arrive b k (setAccess none s)) else .next t := by
  rw [← e, arrive_waiting k reset out w, apply_ite Host.Outcome.next, tested]

theorem row_arrived {s : State} {o : Outstanding} {b : Access} (k : State → State) (reset : s.inReset = false)
    (out : s.pu.access = some o) (w : o.arrived = true) (e : o.access = b) :
    (.next (arrive b k s) : Result) = .next (k (setAccess none s)) := by
  rw [← e, arrive_outstanding k out, tryAccess_of_arrived k reset out w]

/-- Settles O11. -/
theorem presentedAccessMeetsItsHolds : Obligations.PresentedAccessMeetsItsHolds := by
  intro s a
  refine ⟨postFullHolds_iff s, recordReadHolds_iff s a, taskWaitHolds_iff s, reportHolds_none,
    fun reset r i => exec_own_tested reset r, fun reset free => ?_, fun o out => ?_⟩
  · refine ⟨congrArg Host.Outcome.next (presentAccess_free reset free a), fun w be d => ⟨fun held => ?_, fun clear => ?_⟩⟩
    · have h : isHeld s a = true := (isHeld_iff s a).mpr fun none => held ((heldKinds_eq_nil _).mpr none)
      constructor <;> rintro rfl <;> exact congrArg Host.Outcome.next (arrive_presented_held _ reset free h)
    · have h : isHeld s a = false := by
        rw [Bool.eq_false_iff, ne_eq, isHeld_iff]
        exact fun n => n ((heldKinds_eq_nil _).mp clear)
      constructor <;> rintro rfl <;> exact congrArg Host.Outcome.next (arrive_of_clear _ ⟨reset, free, h⟩)
  · refine ⟨congrArg Host.Outcome.next (presentAccess_outstanding out a), fun w be d => ⟨fun other => ?_, fun other => ?_⟩,
      fun reset w => ⟨reportHolds_of_arrived out w, ?_, ?_, fun _ _ _ =>
        ⟨row_arrived _ reset out w, row_arrived _ reset out w⟩⟩,
      fun reset w e => ?_⟩
    · exact congrArg Host.Outcome.next (arrive_other _ out other)
    · exact congrArg Host.Outcome.next (arrive_other _ out other)
    · have idle : servesPost s = false := servesPost_arrived out w
      exact congrArg Host.Outcome.next (whileRunning_arrived reset out w (if_neg (by rw [idle]; decide)))
    · exact congrArg Host.Outcome.next (whileRunning_arrived reset out w (serveIfChosen_arrived out w))
    · obtain ⟨b, reported, standing, arrived⟩ := o
      cases e
      cases w
      have tested := (reportHolds_waiting out rfl).trans (noteHolds_counted _ s)
      exact ⟨tested, fun _ _ _ =>
        ⟨fun e => row_waiting _ reset out rfl e tested, fun e => row_waiting _ reset out rfl e tested⟩⟩

end Sys2Proof.Machine
end

section
/-! The timers: a step takes each when it is due, and not before. -/

namespace Sys2Proof.Machine

/-! ### A task read, a capture, an alarm pulse -/

theorem promoted_eq (s : State) (r : TaskRead) :
    promoted s r = (r.promoted || atOrAfter s.localTime (r.presentedAt + 200)) := rfl

theorem promoteIfDue_due {s : State} {r : TaskRead} (t : s.pu.taskRead = some r)
    (due : atOrAfter s.localTime (r.presentedAt + 200) = true) : promoteIfDue s =
      { s with pu := { s.pu with taskRead := some { r with promoted := true } } } := by
  have now : promoted s r = true := by rw [promoted_eq, due, Bool.or_true]
  unfold promoteIfDue
  rw [t]
  exact if_pos now

theorem promoteIfDue_waiting {s : State} {r : TaskRead} (t : s.pu.taskRead = some r) (p : r.promoted = false)
    (due : atOrAfter s.localTime (r.presentedAt + 200) = false) : promoteIfDue s = s := by
  have later : ¬ promoted s r = true := by rw [promoted_eq, p, due]; decide
  unfold promoteIfDue
  rw [t]
  exact if_neg later

theorem timeoutBlock_collecting {s : State} {r : Fin 8} {c : Capture} (h : s.sf.rings[r].state = .locked (.collecting c)) :
    timeoutBlock r s = if blockTimedOut s c = true then refuseBlock .timeout true r .hunt s else s := by
  unfold timeoutBlock
  rw [show (ringOf s r).state = .locked (.collecting c) from h]

/-- R47 and R54: the refusal is counted, STREAM becomes pending, and the ring falls to HUNT. -/
theorem refuseBlock_timeout_posted (r : Fin 8) (s : State) : PostedFrom { s with
    sf := { s.sf with rings := s.sf.rings.set r { s.sf.rings[r] with state := .hunt } }
    ru := { s.ru with
      counters := s.ru.counters.map (Counter.occur (.blockRefused .timeout)), causes := s.ru.causes ||| 0x10 } }
    (refuseBlock .timeout true r .hunt s) :=
  report_posted {} s _ rfl

theorem endPulse_eq {s : State} {start : Time} (h : s.eu.pulse = some start) : endPulse s =
    if atOrAfter s.localTime (start + 50000) then { s with eu := { s.eu with pulse := none } } else s := by
  unfold endPulse
  rw [h]
  rfl

/-! ### A ring becomes stale -/

/-- The ring of a channel that no other ring has. -/
theorem ringOfChannel_eq {sf : StreamFramer} {r : Fin 8} (d : sf.rings[r].defined = true)
    (only : ∀ q : Fin 8, q ≠ r → sf.rings[q].defined = true → sf.rings[q].channel ≠ sf.rings[r].channel) :
    ringOfChannel sf sf.rings[r].channel = some sf.rings[r] := by
  have found : (allChannels.find? fun q => sf.rings[q].defined && sf.rings[q].channel == sf.rings[r].channel) = some r := by
    cases h : allChannels.find? fun q => sf.rings[q].defined && sf.rings[q].channel == sf.rings[r].channel with
    | none => exact absurd (Bool.and_eq_true_iff.mpr ⟨d, beq_self_eq_true _⟩) (List.find?_eq_none.mp h r (mem_allChannels r))
    | some q =>
      have p := List.find?_some h
      simp only [Bool.and_eq_true, beq_iff_eq] at p
      exact congrArg some (by_contra fun ne => only q ne p.1 p.2)
  unfold ringOfChannel
  rw [found]
  rfl

/-- The ring has become stale and STREAM is pending; nothing has been posted and the channel has not been looked at. -/
def staleMarked (r : Fin 8) (s : State) : State :=
  { s with
    sf := { s.sf with rings := s.sf.rings.set r { s.sf.rings[r] with stale := true } }
    ru := { s.ru with causes := s.ru.causes ||| 0x10 } }

theorem staleMarked_ring (r : Fin 8) (s : State) :
    (staleMarked r s).sf.rings[r] = { s.sf.rings[r] with stale := true } := by
  simp [staleMarked]

theorem staleMarked_other {r q : Fin 8} (h : q ≠ r) (s : State) : (staleMarked r s).sf.rings[q] = s.sf.rings[q] :=
  Vector.getElem_set_ne r.isLt q.isLt fun e => h (Fin.ext e.symm)

theorem ringOfChannel_staleMarked {s : State} {r : Fin 8} (d : s.sf.rings[r].defined = true)
    (only : ∀ q : Fin 8, q ≠ r → s.sf.rings[q].defined = true → s.sf.rings[q].channel ≠ s.sf.rings[r].channel) :
    ringOfChannel (staleMarked r s).sf s.sf.rings[r].channel = some { s.sf.rings[r] with stale := true } := by
  have e := staleMarked_ring r s
  have unique := ringOfChannel_eq (sf := (staleMarked r s).sf) (r := r) (by rw [e]; exact d) fun q ne => by
    rw [staleMarked_other ne, e]
    exact only q ne
  rw [e] at unique
  exact unique

/-- R73: a channel whose ring is stale has no covered-to time. -/
theorem coveredTo_of_stale {s : State} {c : Fin 8} {x : Ring} (h : ringOfChannel s.sf c = some x) (stale : x.stale = true) :
    coveredTo s c = none := by
  unfold coveredTo
  dsimp only
  exact if_pos (.inr (by simp [h, ringCounts, stale]))

theorem withCovered_none (c : Fin 8) (s : State) : withCovered c none s =
    { s with hx := { s.hx with channels := s.hx.channels.set c { s.hx.channels[c] with coveredTo := none } } } := by
  unfold withCovered
  split
  · next e =>
    have same : { s.hx.channels[c] with coveredTo := none } = s.hx.channels[c] := by
      rw [show (none : Option Time) = s.hx.channels[c].coveredTo from e]
    rw [same]
    simp
  · simp [putChannel, Channel.cover, channelOf, State.withHx]

theorem staleDue_eq {x : Ring} {ref : Time} (on : x.state ≠ .off) (fresh : x.stale = false) (h : x.staleRef = some ref)
    (s : State) : staleDue s x = atOrAfter s.localTime (ref + BitVec.ofNat 32 (1000 * s.sf.framing.staleTime)) := by
  simp [staleDue, on, fresh, h]

theorem staleRing_due {s : State} {r : Fin 8} (due : staleDue s (ringOf s r) = true) : staleRing r s =
    refreshCovered s.sf.rings[r].channel (report {} s (staleMarked r s)) :=
  if_pos due

/-- R53 and R73: the flag and STREAM, and then the channel without a covered-to time, which may form events. -/
theorem staleRing_located {s : State} {r : Fin 8} (d : s.sf.rings[r].defined = true)
    (only : ∀ q : Fin 8, q ≠ r → s.sf.rings[q].defined = true → s.sf.rings[q].channel ≠ s.sf.rings[r].channel)
    (due : staleDue s (ringOf s r) = true) :
    Located (withCovered s.sf.rings[r].channel none (staleMarked r s)) (staleRing r s) ∧
      (s.hx.channels[s.sf.rings[r].channel].coveredTo = none →
        PostedFrom (withCovered s.sf.rings[r].channel none (staleMarked r s)) (staleRing r s)) := by
  have posted : PostedFrom (staleMarked r s) (report {} s (staleMarked r s)) := report_posted {} s _ rfl
  have gone : coveredTo (report {} s (staleMarked r s)) s.sf.rings[r].channel = none := by
    refine coveredTo_of_stale (x := { s.sf.rings[r] with stale := true }) ?_ rfl
    rw [posted.within.sf rfl]
    exact ringOfChannel_staleMarked d only
  obtain ⟨located, same⟩ := refreshCovered_facts s.sf.rings[r].channel (report {} s (staleMarked r s))
  rw [staleRing_due due]
  rw [gone] at located same
  refine ⟨(withCovered_posted posted _ none).located.trans located, fun uncovered => ?_⟩
  have channel : (channelOf (report {} s (staleMarked r s)) s.sf.rings[r].channel).coveredTo = none := by
    unfold channelOf
    rw [posted.within.hx rfl]
    exact uncovered
  rw [same channel, withCovered_same (s := staleMarked r s) uncovered]
  exact posted

/-! ### The rows -/

theorem reportHolds_sf (s : State) : (reportHolds s).sf = s.sf := (reportHolds_within s).sf rfl

/-- The row of a timer: the holds are tested before it and after. -/
theorem timer_row {f : State → State} {s₀ t : State} (reset : s₀.inReset = false) (e : f (reportHolds s₀) = t) :
    (.next (whileRunning f s₀) : Result) = .next (reportHolds t) := by
  rw [whileRunning_eq f reset, e]

/-- Settles O45. -/
theorem timersTakeEffectWhenDue : Obligations.TimersTakeEffectWhenDue := by
  refine ⟨fun s₀ reset => ⟨fun r t p => ⟨fun due => ?_, fun due => ?_⟩, fun r c h => ⟨fun due => ?_, fun due => ?_⟩,
    fun start h => ?_⟩, fun s₀ r ref reset d only on fresh h => ?_⟩
  · exact timer_row reset (promoteIfDue_due t due)
  · exact timer_row reset (promoteIfDue_waiting t p due)
  · exact timer_row reset ((timeoutBlock_collecting h).trans (if_neg (Bool.eq_false_iff.mp due)))
  · exact ⟨_, timer_row reset ((timeoutBlock_collecting h).trans (if_pos due)), refuseBlock_timeout_posted r _⟩
  · exact timer_row reset (endPulse_eq h)
  · rw [← reportHolds_sf s₀] at d only on fresh h
    have timer := staleDue_eq on fresh h (reportHolds s₀)
    refine ⟨fun due => timer_row reset (if_neg (Bool.eq_false_iff.mp (timer.trans due))), fun due => ?_⟩
    obtain ⟨located, posted⟩ := staleRing_located d only (timer.trans due)
    rw [withCovered_none] at located posted
    exact ⟨_, timer_row reset rfl, located, posted⟩

end Sys2Proof.Machine
end

section
/-! DEFINE LAYOUT: its checks, and the records that are posted into the new area. -/

namespace Sys2Proof.Machine

/-! ### The records that are posted -/

/-- The record placed at the tail of the queue with its contents as they stand, and clean. -/
def placed (id : RecordId) (s : State) : State :=
  markDirty id false (State.takeFree { s with pu := { s.pu with
    queue := s.pu.queue ++ [{ id := id, addr := recordAddr s.pu id, words := recordWords s.freeBits s id, begun := false }] } })

theorem enqueueRecord_of_accepts {id : RecordId} {s : State} (h : accepts s.pu (recordWords s.freeBits s id).length = true) :
    enqueueRecord id s = some (placed id s) := by
  unfold enqueueRecord
  rw [enqueue_of_accepts h]
  rfl

theorem enqueueRecord_of_not_accepts {id : RecordId} {s : State}
    (h : ¬ accepts s.pu (recordWords s.freeBits s id).length = true) : enqueueRecord id s = none := by
  unfold enqueueRecord
  rw [enqueue_of_not_accepts h]
  rfl

theorem recordWords_placed (f : FreeBits) (id k : RecordId) (s : State) :
    recordWords f (placed id s) k = recordWords f s k := by
  cases k <;> rfl

theorem recordAddr_placed (id k : RecordId) (s : State) : recordAddr (placed id s).pu k = recordAddr s.pu k := by
  cases k <;> rfl

/-- A queued record lies at its address, has not begun, and has the record's words as they stand, whatever the free bits. -/
def Stands (s : State) (q : QueuedRecord) : Prop :=
  q.addr = recordAddr s.pu q.id ∧ q.begun = false ∧ ∃ f, q.words = recordWords f s q.id

/-- The queue holds copies of these records, as they stand. -/
def HoldsRecords (ids : List RecordId) (s : State) : Prop :=
  s.pu.queue.map QueuedRecord.id = ids ∧ ∀ q ∈ s.pu.queue, Stands s q

theorem Stands.congr {s t : State} {q : QueuedRecord} (h : Stands s q) (a : recordAddr t.pu q.id = recordAddr s.pu q.id)
    (w : ∀ f, recordWords f t q.id = recordWords f s q.id) : Stands t q := by
  obtain ⟨addr, fresh, f, words⟩ := h
  exact ⟨addr.trans a.symm, fresh, f, words.trans (w f).symm⟩

theorem HoldsRecords.placed {ids : List RecordId} {s : State} (h : HoldsRecords ids s) (id : RecordId) :
    HoldsRecords (ids ++ [id]) (placed id s) := by
  obtain ⟨names, stand⟩ := h
  have queue : (Machine.placed id s).pu.queue = s.pu.queue ++
      [{ id := id, addr := recordAddr s.pu id, words := recordWords s.freeBits s id, begun := false }] := rfl
  refine ⟨by rw [queue, List.map_append, names]; rfl, fun q m => ?_⟩
  rw [queue, List.mem_append, List.mem_singleton] at m
  obtain m | rfl := m
  · exact (stand q m).congr (recordAddr_placed id _ s) fun f => recordWords_placed f id _ s
  · exact ⟨(recordAddr_placed id id s).symm, rfl, s.freeBits, (recordWords_placed _ id id s).symm⟩

/-- The number of words of a record. -/
def recordSize (id : RecordId) : Nat := (recordWords sameFree State.reset id).length

theorem length_recordWords (f : FreeBits) (s : State) (id : RecordId) : (recordWords f s id).length = recordSize id :=
  recordWords_length f sameFree s State.reset id

theorem Stands.length {s : State} {q : QueuedRecord} (h : Stands s q) : q.words.length = recordSize q.id := by
  obtain ⟨-, -, f, words⟩ := h
  rw [words, length_recordWords]

/-- The queue's length by the records that it holds. -/
theorem HoldsRecords.queueLength {ids : List RecordId} {s : State} (h : HoldsRecords ids s) :
    queueLength s.pu.queue = (ids.map recordSize).sum := by
  obtain ⟨names, stand⟩ := h
  unfold Machine.queueLength
  rw [List.map_congr_left fun q m => (stand q m).length, ← names, List.map_map]
  rfl

/-- There is room for a record when it fits behind those that are held. -/
theorem HoldsRecords.accepts_iff {ids : List RecordId} {s : State} (h : HoldsRecords ids s)
    (l : s.pu.layoutDefined = true) (id : RecordId) :
    accepts s.pu (recordWords s.freeBits s id).length = true ↔ (ids.map recordSize).sum + recordSize id ≤ 32 := by
  rw [Machine.accepts_iff, h.queueLength, length_recordWords]
  exact and_iff_right l

/-! ### Going through the dirty records -/

theorem postDirtyList_placed {id : RecordId} {s : State} (dirty : s.ru.dirty.get id = true)
    (h : accepts s.pu (recordWords s.freeBits s id).length = true) (ids : List RecordId) :
    postDirtyList (id :: ids) s = postDirtyList ids (placed id s) := by
  rw [postDirtyList, if_pos dirty, enqueueRecord_of_accepts h]

theorem postDirtyList_refused {id : RecordId} {s : State} (dirty : s.ru.dirty.get id = true)
    (h : ¬ accepts s.pu (recordWords s.freeBits s id).length = true) (ids : List RecordId) :
    postDirtyList (id :: ids) s = s := by
  rw [postDirtyList, if_pos dirty, enqueueRecord_of_not_accepts h]

/-- The records that fill the queue of a new layout. -/
def layoutRecords (s : State) : State := placed .directory (placed .counter (placed .status s))

/-- With everything dirty and nothing queued, three records fill the queue, and the first verdict word finds no room. -/
theorem postDirtyList_layout {s : State} (empty : s.pu.queue = []) (l : s.pu.layoutDefined = true)
    (dirty : ∀ id ∈ [RecordId.status, .counter, .directory, .verdict 0], s.ru.dirty.get id = true) :
    postDirtyList replaceableIds s = layoutRecords s ∧
      HoldsRecords [.status, .counter, .directory] (layoutRecords s) := by
  have list : replaceableIds = .status :: .counter :: .directory :: .verdict 0 :: replaceableIds.drop 4 := rfl
  have zero : HoldsRecords [] s := ⟨by rw [empty]; rfl, by simp [empty]⟩
  have one := zero.placed .status
  have two := one.placed .counter
  have three := two.placed .directory
  have status := dirty .status (by simp)
  have counter : (placed .status s).ru.dirty.get .counter = true := dirty .counter (by simp)
  have directory : (placed .counter (placed .status s)).ru.dirty.get .directory = true := dirty .directory (by simp)
  have verdict : (placed .directory (placed .counter (placed .status s))).ru.dirty.get (.verdict 0) = true :=
    dirty (.verdict 0) (by simp)
  refine ⟨?_, three⟩
  rw [list, postDirtyList_placed status ((zero.accepts_iff l _).mpr (by decide +kernel)),
    postDirtyList_placed counter ((one.accepts_iff l _).mpr (by decide +kernel)),
    postDirtyList_placed directory ((two.accepts_iff l _).mpr (by decide +kernel)),
    postDirtyList_refused verdict (mt (three.accepts_iff l _).mp (by decide +kernel))]
  rfl

/-! ### TRACE, when it is due -/

/-- TRACE has become pending (R157), and nothing has been posted. -/
def traceRaised (s : State) : State := raiseCause .trace (s.withRu { s.ru with traceAwait := false })

theorem raiseTrace_eq (s : State) : raiseTrace s = s ∨
    raiseTrace s = offerIf (statusChanged s (traceRaised s)) .status (traceRaised s) := by
  unfold raiseTrace
  split
  · exact .inr rfl
  · exact .inl rfl

theorem recordWords_traceRaised {s : State} {k : RecordId} (h : k = .status → statusChanged s (traceRaised s) = false)
    (f : FreeBits) : recordWords f (traceRaised s) k = recordWords f s k := by
  cases k with
  | status =>
    show statusFields f (traceRaised s) ++ [s.localTime] = statusFields f s ++ [s.localTime]
    rw [statusFields_same (h rfl) f]
  | counter | directory | verdict | trace | log | slot => rfl

theorem offer_queued {id : RecordId} {s : State} (h : ∃ r ∈ s.pu.queue, r.id = id ∧ r.begun = false) :
    offer id s = (replaceQueued id (recordWords s.freeBits s id) s).takeFree := by
  have queued : copyState s.pu.queue id = .queued := by
    obtain ⟨r, m, copy⟩ := h
    exact if_pos (List.any_eq_true.mpr ⟨r, m, (isCopy_iff id r).mpr copy⟩)
  unfold offer
  rw [queued]

/-- The status record has been queued, and its copies have been replaced. -/
def statusReplaced (s : State) : State :=
  State.takeFree { s with pu := { s.pu with queue := s.pu.queue.map fun r =>
    if r.id = .status ∧ r.begun = false then { r with words := recordWords s.freeBits s .status } else r } }

theorem recordWords_statusReplaced (f : FreeBits) (s : State) (k : RecordId) :
    recordWords f (statusReplaced s) k = recordWords f s k := by
  cases k <;> rfl

theorem recordAddr_statusReplaced (s : State) (k : RecordId) : recordAddr (statusReplaced s).pu k = recordAddr s.pu k := by
  cases k <;> rfl

/-- A queued copy takes the record's words as they stand now. -/
theorem HoldsRecords.offered {ids : List RecordId} {s t : State} (h : HoldsRecords ids s) (m : .status ∈ ids)
    (q : t.pu = s.pu) (w : ∀ f, ∀ k ≠ .status, recordWords f t k = recordWords f s k) :
    HoldsRecords ids (offer .status t) ∧ (offer .status t).ru.dirty = t.ru.dirty := by
  obtain ⟨names, stand⟩ := h
  have copy : ∃ r ∈ t.pu.queue, r.id = .status ∧ r.begun = false := by
    rw [← names, ← q] at m
    obtain ⟨r, mem, name⟩ := List.mem_map.mp m
    exact ⟨r, mem, name, (stand r (q ▸ mem)).2.1⟩
  have sizes : ∀ r ∈ t.pu.queue, r.id = .status → r.begun = false →
      r.words.length = (recordWords t.freeBits t .status).length := fun r mem name _ => by
    rw [(stand r (q ▸ mem)).length, length_recordWords, name]
  have form : offer .status t = statusReplaced t := by
    rw [offer_queued copy, replaceQueued_same_length sizes]
    rfl
  rw [form]
  refine ⟨⟨?_, fun r mem => ?_⟩, rfl⟩
  · rw [← names, ← q]
    refine List.map_map.trans (List.map_congr_left fun r _ => ?_)
    dsimp only [Function.comp]
    split <;> rfl
  · obtain ⟨x, member, rfl⟩ := List.mem_map.mp mem
    obtain ⟨addr, fresh, f, words⟩ := stand x (q ▸ member)
    rw [← q] at addr
    by_cases name : x.id = .status
    · rw [if_pos ⟨name, fresh⟩]
      refine ⟨addr.trans (recordAddr_statusReplaced t _).symm, fresh, t.freeBits, ?_⟩
      rw [recordWords_statusReplaced, name]
    · rw [if_neg fun c => name c.1]
      refine ⟨addr.trans (recordAddr_statusReplaced t _).symm, fresh, f, ?_⟩
      rw [recordWords_statusReplaced, w f _ name, words]

/-- The records stand after TRACE has become pending too: the status record's copy is replaced when its contents change. -/
theorem HoldsRecords.raiseTrace {ids : List RecordId} {s : State} (h : HoldsRecords ids s) (m : .status ∈ ids) :
    HoldsRecords ids (raiseTrace s) ∧ (Machine.raiseTrace s).ru.dirty = s.ru.dirty := by
  obtain e | e := raiseTrace_eq s <;> rw [e]
  · exact ⟨h, rfl⟩
  · cases changed : statusChanged s (traceRaised s) with
    | true => exact h.offered (t := traceRaised s) m rfl fun f k ne => recordWords_traceRaised (fun e => absurd e ne) f
    | false =>
      obtain ⟨names, stand⟩ := h
      exact ⟨⟨names, fun q mem => (stand q mem).congr rfl (recordWords_traceRaised fun _ => changed)⟩, rfl⟩

/-! ### The checks -/

theorem layoutFree_iff (s : State) : layoutFree s = true ↔
    ¬ (s.eu.state = .running ∨ s.eu.state = .held ∨ s.tu.running ≠ none ∨ s.tu.pendingTask ≠ none ∨
      s.tu.sweep.state = .suspended) := by
  have live : s.eu.state.live = false ↔ s.eu.state ≠ .running ∧ s.eu.state ≠ .held := by
    cases s.eu.state <;> decide
  unfold layoutFree
  simp only [Bool.and_eq_true, Bool.not_eq_true', live, Option.isNone_iff_eq_none, bne_iff_ne, not_or, ne_eq, not_not,
    and_assoc]

theorem own_defineLayout_busy {s : State} (h : ¬ layoutFree s = true) : own .defineLayout s = refuse .refusedState s :=
  if_pos (Bool.eq_false_iff.mpr h)

theorem own_defineLayout_unfit {s : State} (h : layoutFree s = true) (k : ¬ basesOk s (param1 s) (param2 s) = true) :
    own .defineLayout s = refuse .refusedParam s :=
  (if_neg (by rw [h]; decide)).trans (if_pos (Bool.eq_false_iff.mpr k))

theorem own_defineLayout_fit {s : State} (h : layoutFree s = true) (k : basesOk s (param1 s) (param2 s) = true) :
    own .defineLayout s = accept (applyLayout (param1 s) (param2 s) s) :=
  (if_neg (by rw [h]; decide)).trans (if_neg (by rw [k]; decide))

/-! ### The row that is taken -/

/-- The state that DEFINE LAYOUT leaves before its records are posted. -/
def laidOut (s : State) : State :=
  withOutcome .defineLayout .done (applyLayout (param1 s) (param2 s) (closed s))

/-- R6: a layout that is taken is answered by going through the dirty records. -/
theorem takeCommand_defineLayout {s : State} (done : (own .defineLayout s).outcome = .done)
    (follow : (own .defineLayout s).follow = .nothing) :
    takeCommand .defineLayout s = postDirty (answered .defineLayout (own .defineLayout s)) := by
  unfold takeCommand answerReport
  dsimp only
  rw [if_neg (by decide), if_pos ⟨rfl, done⟩, follow]
  rfl

theorem commandRow_laidOut {s : State} (free : writesFreely s) (t : taken .defineLayout s) (h : layoutFree s = true)
    (k : basesOk s (param1 s) (param2 s) = true) : commandRow .defineLayout s.pins s = postDirty (laidOut s) := by
  have own : own .defineLayout (closed s) = accept (applyLayout (param1 s) (param2 s) (closed s)) :=
    own_defineLayout_fit (s := closed s) h k
  have taken : commandRow .defineLayout s.pins s = takeCommand .defineLayout (closed s) := commandRow_taken s.pins free t
  have answer : answered .defineLayout (accept (applyLayout (param1 s) (param2 s) (closed s))) = laidOut s :=
    answered_of (o := .done) (by decide) _ rfl rfl
  rw [taken, takeCommand_defineLayout (by rw [own]; rfl) (by rw [own]; rfl), own, answer]

theorem laidOut_verdicts (s : State) (c : Fin 48) : (laidOut s).ru.dirty.verdicts[c] = true :=
  Vector.getElem_replicate c.isLt

theorem laidOut_dirty (s : State) {id : RecordId} (h : id ∈ [RecordId.status, .counter, .directory, .verdict 0]) :
    (laidOut s).ru.dirty.get id = true := by
  simp only [List.mem_cons, List.not_mem_nil, or_false] at h
  obtain rfl | rfl | rfl | rfl := h
  · rfl
  · rfl
  · rfl
  · exact laidOut_verdicts s 0

/-- The records that stand in the new area, and the verdict words that are to follow. -/
theorem postDirty_laidOut (s : State) : HoldsRecords [.status, .counter, .directory] (postDirty (laidOut s)) ∧
    ∀ c : Fin 48, (postDirty (laidOut s)).ru.dirty.verdicts[c] = true := by
  obtain ⟨form, records⟩ := postDirtyList_layout (s := laidOut s) rfl rfl fun _ => laidOut_dirty s
  obtain ⟨held, dirty⟩ := records.raiseTrace (by simp)
  unfold postDirty
  rw [form]
  exact ⟨held, fun c => (congrArg (fun d : DirtyMarks => d.verdicts[c]) dirty).trans (laidOut_verdicts s c)⟩

/-- What posting may change does not show the dirty marks. -/
theorem PostedFrom.withDirty {s t : State} (h : PostedFrom s t) (d : DirtyMarks) :
    PostedFrom { s with ru := { s.ru with dirty := d } } t := by
  obtain ⟨w, k, c, q⟩ := h
  exact ⟨⟨w.1, w.2, w.3, w.4, w.5, w.6, w.7, w.8, w.9, w.10, w.11, w.12, w.13, w.14, w.15, w.16, w.17, w.18, w.19, w.20,
    w.21, fun h => (nomatch h), w.23⟩, ⟨k.1, k.2, k.3, k.4, k.5, k.6, k.7, k.8, k.9, k.10, k.11, k.12, k.13, k.14, k.15, k.16,
    k.17, k.18⟩, c, ⟨q.1, q.2⟩⟩

theorem addressOf_eq (w : Word) : addressOf w = BitVec.ofNat 24 w.toNat := by
  refine BitVec.eq_of_toNat_eq ?_
  unfold addressOf
  rw [bits_low, BitVec.toNat_ofNat, BitVec.toNat_ofNat, Nat.mod_mod]

theorem unchecked_directory (v : Vector DirEntry 12) : v.map DirEntry.uncheck =
    Vector.ofFn fun n : Fin 12 => { state := .unchecked, mouldId := 0, lock := v[n].lock } :=
  Vector.ext fun i h => by simp [DirEntry.uncheck]

/-- R6, but for what is posted. -/
theorem laidOut_eq (s : State) : { laidOut s with ru := { (laidOut s).ru with dirty := s.ru.dirty } } =
    let u := finished .defineLayout .done s
    { u with
      pu := { s.pu with
        layoutDefined := true, queue := []
        resultsBase := BitVec.ofNat 24 (param1 s).toNat, archiveBase := BitVec.ofNat 24 (param2 s).toNat }
      tu := { s.tu with
        directory := Vector.ofFn fun n : Fin 12 => { state := .unchecked, mouldId := 0, lock := s.tu.directory[n].lock } }
      ru := { u.ru with logHead := 0, verdictWords := Vector.replicate 48 0 } } := by
  rw [← addressOf_eq, ← addressOf_eq, ← unchecked_directory]
  rfl

/-- Settles O22. -/
theorem defineLayoutMovesTheAreas : Obligations.DefineLayoutMovesTheAreas := by
  intro s free t
  refine ⟨_, rfl, fun busy => ?_, fun idle unfit => ?_, fun idle fits => ?_⟩
  · exact row_refused s.pins free t (own_defineLayout_busy fun k => (layoutFree_iff s).mp k busy)
  · exact row_refused s.pins free t
      (own_defineLayout_unfit ((layoutFree_iff s).mpr idle) fun k => unfit ((basesOk_iff s _ _).mp k))
  · show PostedFrom _ (commandRow .defineLayout s.pins s) ∧ (commandRow .defineLayout s.pins s).pu.queue.map _ = _ ∧
      (∀ q ∈ (commandRow .defineLayout s.pins s).pu.queue, Stands (commandRow .defineLayout s.pins s) q) ∧
      ∀ c : Fin 48, (commandRow .defineLayout s.pins s).ru.dirty.verdicts[c] = true
    rw [commandRow_laidOut free t ((layoutFree_iff s).mpr idle) ((basesOk_iff s _ _).mpr fits)]
    obtain ⟨⟨names, stand⟩, verdicts⟩ := postDirty_laidOut s
    refine ⟨?_, names, stand, verdicts⟩
    have posted := (postDirty_posted (laidOut s)).withDirty s.ru.dirty
    rw [laidOut_eq] at posted
    exact posted

end Sys2Proof.Machine
end

section
/-! Frames: the code and check 1 of a frame as the statements write them, what a closing write does in each state of the decoder,
and the rows that collect a frame or end it undispatched. -/

namespace Sys2Proof.Machine

/-! ### The opening word and check 1 -/

theorem codeOf_eq (opening : Word) : codeOf opening = BitVec.ofNat 8 (opening.toNat / 2 ^ 24) :=
  BitVec.eq_of_toNat_eq (by simp [codeOf, bits])

theorem writtenUpTo_iff (written : Vector Bool 14) (n : Nat) :
    writtenUpTo written n = true ↔ ∀ i : Fin 14, i.val < n → written[i] = true := by
  simp only [writtenUpTo, List.all_eq_true, List.mem_take_iff_getElem]
  constructor
  · exact fun h i l => h _ ⟨i.val, by simp [l], by simp⟩
  · rintro h b ⟨i, l, rfl⟩
    simp only [Vector.length_toList, lt_min_iff] at l
    simpa using h ⟨i, l.2⟩ l.1

theorem checkOne_iff (s : State) (d : Word) : checkOne s.cd d = true ↔ passesCheckOne s d := by
  simp only [checkOne, passesCheckOne, closingOf, bits_low, Bool.and_eq_true, beq_iff_eq, decide_eq_true_eq, writtenUpTo_iff,
    and_assoc]

theorem ofCode_eq_none_iff (b : Byte) : Command.ofCode b = none ↔ ∀ c : Command, b ≠ c.code := by
  constructor
  · rintro h c rfl
    rw [command_ofCode] at h
    cases h
  · intro h
    cases e : Command.ofCode b with
    | none => rfl
    | some c => exact absurd (ofCode_code e) (h c)

theorem framesCommand_of_check {c : Command} {s : State} (collecting : s.cd.state = .collecting)
    (one : passesCheckOne s (~~~s.cd.opening)) (code : BitVec.ofNat 8 (s.cd.opening.toNat / 2 ^ 24) = c.code) :
    framesCommand c s = true :=
  (framesCommand_iff c s).mpr ⟨collecting, (checkOne_iff s _).mpr one, (codeOf_eq _).trans code⟩

/-- The open frame is a frame of one command. -/
theorem framesCommand_unique {c k : Command} {s : State} (h : framesCommand c s = true) (g : framesCommand k s = true) :
    c = k := by
  obtain ⟨-, -, code⟩ := (framesCommand_iff c s).mp h
  obtain ⟨-, -, other⟩ := (framesCommand_iff k s).mp g
  have found := command_ofCode c
  rw [← code, other, command_ofCode] at found
  exact (Option.some.inj found).symm

/-! ### A closing write, by the state of the decoder -/

theorem closingWrite_ready {s : State} (h : s.cd.state = .ready) (d : Word) :
    closingWrite d s = endFrame (codeOf (~~~d)) .noFrame s := by
  unfold closingWrite
  rw [h]

theorem closingWrite_poisoned {s : State} (h : s.cd.state = .poisoned) (d : Word) :
    closingWrite d s = endFrame (codeOf s.cd.opening) .invalidSequence s := by
  unfold closingWrite
  rw [h]

theorem closingWrite_malformed {s : State} (h : s.cd.state = .collecting) {d : Word} (bad : checkOne s.cd d = false) :
    closingWrite d s = endFrame (codeOf s.cd.opening) .invalidSequence s := by
  unfold closingWrite
  rw [h]
  exact if_pos bad

theorem closingWrite_unknown {s : State} (h : s.cd.state = .collecting) {d : Word} (one : checkOne s.cd d = true)
    (unknown : Command.ofCode (codeOf s.cd.opening) = none) :
    closingWrite d s = endFrame (codeOf s.cd.opening) .refusedCode s := by
  unfold closingWrite
  rw [h]
  dsimp only
  rw [if_neg (by rw [one]; decide), unknown]

theorem closingWrite_command {c : Command} {s : State} (f : framesCommand c s = true) :
    closingWrite (closingOf s.cd.opening) s = closeCommand c s := by
  obtain ⟨collecting, one, code⟩ := (framesCommand_iff c s).mp f
  unfold closingWrite
  rw [collecting]
  dsimp only
  rw [if_neg (by rw [one]; decide), code, command_ofCode]

/-! ### Writes of the command window -/

theorem windowWrite_performed {s : State} (free : writesFreely s) {n : Nat} (h : n < 16) (d : Word) :
    windowWrite n d s = cdWrite n fullEnables d (windowWritten n d s) := windowWrite_of_clear free h d

theorem windowWrite_opening {s : State} (free : writesFreely s) (d : Word) :
    windowWrite 0 d s = openingWrite d (windowWritten 0 d s) := windowWrite_performed free (by decide) d

theorem windowWrite_closing {s : State} (free : writesFreely s) (d : Word) :
    windowWrite 15 d s = closingWrite d (windowWritten 15 d s) := windowWrite_performed free (by decide) d

/-- A write of the command window with any byte enables is performed and copied to CD (R3, R4). -/
theorem busWrite_commandWord {s : State} (free : writesFreely s) {n : Nat} (h : n < 16) (be : Enables) (d : Word) :
    busWrite (commandWordAddr s.pu.strap n) be d s =
      cdWrite n be d { s with mem := s.mem.writeWord (commandWordAddr s.pu.strap n) be d } := by
  rw [busWrite_of_clear free]
  unfold writeArrives
  rw [placeOf_commandWord _ _ h]
  rfl

/-! ### The end of a frame -/

/-- What an outcome changes in CD and in RU (R28, R30). -/
theorem recordOutcome_eq (code : Byte) (o : FrameOutcome) (s : State) : recordOutcome code o s = { s with
    cd := { s.cd with tally := s.cd.tally + 1 }
    ru := { s.ru with
      seqErr := if o = .invalidSequence then true else s.ru.seqErr, lastCode := code, lastOutcome := o.code } } := by
  unfold recordOutcome
  by_cases h : o = .invalidSequence
  · simp only [h, if_true]
    rfl
  · simp only [h, if_false]
    rfl

theorem recordOutcome_frameEnded (code : Byte) (o : FrameOutcome) (d : Word) (s : State) :
    recordOutcome code o (setDecoder .ready (windowWritten 15 d s)) = frameEnded code o d s := by
  rw [recordOutcome_eq]
  rfl

theorem endFrame_eq (code : Byte) (o : FrameOutcome) (d : Word) (s : State) :
    endFrame code o (windowWritten 15 d s) = report {} (windowWritten 15 d s) (frameEnded code o d s) := by
  rw [← recordOutcome_frameEnded]
  rfl

/-- The end of a frame posts what it changes, and nothing more (R28, R154). -/
theorem endFrame_posted (code : Byte) (o : FrameOutcome) (d : Word) (s : State) :
    PostedFrom (frameEnded code o d s) (endFrame code o (windowWritten 15 d s)) := by
  rw [endFrame_eq]
  exact report_posted {} _ _ rfl

/-! ### An opening word -/

/-- The decoder with a new frame open (R21). -/
def openedDecoder (d : Word) (tally : Half) : CommandDecoder :=
  { state := .collecting, opening := d, latch := Vector.replicate 14 0, written := Vector.replicate 14 false, tally := tally }

theorem openingWrite_ready {s : State} (h : s.cd.state = .ready) (d : Word) :
    openingWrite d s = s.withCd (openedDecoder d s.cd.tally) := by
  unfold openingWrite
  rw [h]
  rfl

/-- The reports of a frame that an opening word abandons leave the decoder to the new frame (R22). -/
theorem openingWrite_abandons {s : State} (h : s.cd.state ≠ .ready) (d : Word) :
    openingWrite d s = (report {} s (recordOutcome (codeOf s.cd.opening) .invalidSequence s)).withCd
      (openedDecoder d (s.cd.tally + 1)) := by
  have abandoned : openingWrite d s = beginFrame d (report {} s (recordOutcome (codeOf s.cd.opening) .invalidSequence s)) := by
    unfold openingWrite
    cases e : s.cd.state with
    | ready => exact absurd e h
    | collecting => rfl
    | poisoned => rfl
  have cd := (report_within {} s (recordOutcome (codeOf s.cd.opening) .invalidSequence s)).cd rfl
  rw [abandoned]
  unfold beginFrame
  rw [cd]
  rfl

/-- Settles O13. -/
theorem openingWordOpensAFrame : Obligations.OpeningWordOpensAFrame := by
  intro s d free opened
  have row : exec (.openingWordWrite d) s = .next (openingWrite d (windowWritten 0 d s)) :=
    congrArg Host.Outcome.next (windowWrite_opening free d)
  refine ⟨fun ready => ?_, fun busy => ⟨_, row, ?_⟩⟩
  · rw [row, openingWrite_ready (s := windowWritten 0 d s) ready]
    rfl
  · rw [openingWrite_abandons (s := windowWritten 0 d s) busy, ← codeOf_eq]
    have posted := report_posted {} (windowWritten 0 d s)
      (recordOutcome (codeOf s.cd.opening) .invalidSequence (windowWritten 0 d s)) rfl
    exact posted.withCd (openedDecoder d (s.cd.tally + 1))

/-! ### Parameter and partial writes -/

theorem parameterWrite_eq (n : Fin 14) (d : Word) (s : State) : parameterWrite n d s = { s with
    cd := if s.cd.state = .collecting then { s.cd with latch := s.cd.latch.set n d, written := s.cd.written.set n true }
      else s.cd } := by
  unfold parameterWrite
  cases e : s.cd.state <;> rfl

theorem poisonFrame_eq (s : State) : poisonFrame s = { s with
    cd := if s.cd.state = .collecting then { s.cd with state := .poisoned } else s.cd } := by
  unfold poisonFrame
  cases e : s.cd.state <;> rfl

theorem cdWrite_parameter (n : Fin 14) (d : Word) (s : State) :
    cdWrite (n.val + 1) fullEnables d s = parameterWrite n d s := by
  have word : Fin.ofNat 14 (n.val + 1 - 1) = n := fin_of_val (Nat.add_sub_cancel n.val 1)
  unfold cdWrite
  rw [if_neg (by simp), if_neg (by omega), if_neg (by omega), word]

theorem cdWrite_partial {be : Enables} (h : be ≠ fullEnables) (n : Nat) (d : Word) (s : State) :
    cdWrite n be d s = poisonFrame s := if_pos h

/-- Settles O14. -/
theorem parameterAndPartialWrites : Obligations.ParameterAndPartialWrites := by
  intro s free
  refine ⟨fun n d => ?_, fun index be d part => ?_⟩
  · have number : (BitVec.ofNat 4 (n.val + 1)).toNat = n.val + 1 := by
      rw [BitVec.toNat_ofNat]
      omega
    have admitted : parameterIndexOk (BitVec.ofNat 4 (n.val + 1)) = true := by
      revert n
      decide
    show Host.Outcome.next (if parameterIndexOk _ then windowWrite _ d s else s) = _
    rw [if_pos admitted, number, windowWrite_performed free (by omega), cdWrite_parameter, parameterWrite_eq]
    rfl
  · have admitted : partialEnablesOk be = true := bne_iff_ne.mpr part
    show Host.Outcome.next (if partialEnablesOk be then busWrite _ be d s else s) = _
    rw [if_pos admitted, busWrite_commandWord free index.isLt, cdWrite_partial part, poisonFrame_eq]

/-! ### The rows that end a frame undispatched -/

theorem exec_noFrame {s : State} (free : writesFreely s) (h : s.cd.state = .ready) (d : Word) :
    exec (.noFrame d) s = .next (endFrame (BitVec.ofNat 8 ((~~~d).toNat / 2 ^ 24)) .noFrame (windowWritten 15 d s)) := by
  show Host.Outcome.next (if s.cd.state = .ready then windowWrite 15 d s else s) = _
  rw [if_pos h, windowWrite_closing free, closingWrite_ready (s := windowWritten 15 d s) h, codeOf_eq]

theorem exec_invalidSequence {s : State} (free : writesFreely s) {d : Word}
    (h : s.cd.state = .poisoned ∨ (s.cd.state = .collecting ∧ ¬ passesCheckOne s d)) :
    exec (.invalidSequence d) s =
      .next (endFrame (BitVec.ofNat 8 (s.cd.opening.toNat / 2 ^ 24)) .invalidSequence (windowWritten 15 d s)) := by
  show Host.Outcome.next (if endsInvalid s d = true then windowWrite 15 d s else s) = _
  rw [← codeOf_eq]
  obtain poisoned | ⟨collecting, bad⟩ := h
  · have ends : endsInvalid s d = true := by unfold endsInvalid; rw [poisoned]
    rw [if_pos ends, windowWrite_closing free, closingWrite_poisoned (s := windowWritten 15 d s) poisoned]
    rfl
  · have malformed : checkOne s.cd d = false := Bool.eq_false_iff.mpr (mt (checkOne_iff s d).mp bad)
    have ends : endsInvalid s d = true := by unfold endsInvalid; rw [collecting, malformed]; rfl
    rw [if_pos ends, windowWrite_closing free, closingWrite_malformed (s := windowWritten 15 d s) collecting malformed]
    rfl

theorem exec_refusedCode {s : State} (free : writesFreely s) (collecting : s.cd.state = .collecting)
    (one : passesCheckOne s (~~~s.cd.opening))
    (unknown : ∀ c : Command, BitVec.ofNat 8 (s.cd.opening.toNat / 2 ^ 24) ≠ c.code) :
    exec .refusedCode s = .next (endFrame (BitVec.ofNat 8 (s.cd.opening.toNat / 2 ^ 24)) .refusedCode
      (windowWritten 15 (~~~s.cd.opening) s)) := by
  rw [← codeOf_eq] at unknown ⊢
  have passes : checkOne s.cd (closingOf s.cd.opening) = true := (checkOne_iff s _).mpr one
  have none : Command.ofCode (codeOf s.cd.opening) = none := (ofCode_eq_none_iff _).mpr unknown
  have frames : framesUnknown s = true := by simp [framesUnknown, collecting, passes, none]
  show Host.Outcome.next (if framesUnknown s = true then windowWrite 15 (closingOf s.cd.opening) s else s) = _
  rw [if_pos frames, windowWrite_closing free,
    closingWrite_unknown (s := windowWritten 15 (closingOf s.cd.opening) s) collecting passes none]
  rfl

/-- Settles O15. -/
theorem closingWritesThatEndUndispatched : Obligations.ClosingWritesThatEndUndispatched := by
  intro s d free
  refine ⟨fun ready => ⟨_, exec_noFrame free ready d, endFrame_posted _ _ _ _⟩,
    fun ends => ⟨_, exec_invalidSequence free ends, endFrame_posted _ _ _ _⟩, fun ⟨collecting, one, unknown⟩ => ?_⟩
  exact ⟨_, exec_refusedCode free collecting one unknown, endFrame_posted _ _ _ _⟩

/-! ### Checks 3 to 5 -/

theorem exec_row (c : Command) (s : State) : exec (c.row s.pins) s = .next (commandRow c s.pins s) := by
  cases c <;> rfl

/-- The closing write of a frame of a known command (R26). -/
theorem commandRow_closes {c : Command} {s : State} (free : writesFreely s) (f : framesCommand c s = true) :
    commandRow c s.pins s = closeCommand c (closed s) := by
  unfold commandRow
  rw [if_pos f]
  exact (windowWrite_closing free _).trans (closingWrite_command (s := closed s) f)

/-- A check that fails ends the frame with its outcome. -/
theorem commandRow_gated {c : Command} {s : State} {o : FrameOutcome} (free : writesFreely s)
    (f : framesCommand c s = true) (g : gate c s = some o) :
    commandRow c s.pins s = endFrame c.code o (windowWritten 15 (~~~s.cd.opening) s) := by
  have gated : gate c (closed s) = some o := g
  rw [commandRow_closes free f]
  unfold closeCommand
  rw [gated]
  rfl

theorem exempt_iff (c : Command) : c.exempt = true ↔ c ∈ [Command.clearStatus, .acknowledge, .resetPart] := by
  cases c <;> decide

theorem needsLayout_iff (c : Command) : c.needsLayout = true ↔
    c ∉ [Command.defineLayout, .defineRing, .ringOn, .ringOff, .resetRing, .setFraming, .setReporting, .setCounter,
      .clearStatus, .acknowledge, .resetPart] := by
  cases c <;> decide

theorem gate_count {c : Command} {s : State} (h : countOf s.cd.opening ≠ c.count) : gate c s = some .refusedParam :=
  if_pos h

theorem gate_held {c : Command} {s : State} (count : countOf s.cd.opening = c.count) (h : s.ru.seqErr = true)
    (e : c.exempt = false) : gate c s = some .refusedHeld :=
  (if_neg (not_not.mpr count)).trans (if_pos ⟨h, e⟩)

theorem gate_notSetUp {c : Command} {s : State} (count : countOf s.cd.opening = c.count)
    (passes : s.ru.seqErr = false ∨ c.exempt = true) (l : s.pu.layoutDefined = false) (n : c.needsLayout = true) :
    gate c s = some .refusedNotSetUp := by
  have free : ¬ (s.ru.seqErr = true ∧ c.exempt = false) := by
    rintro ⟨held, bound⟩
    rw [held, bound] at passes
    exact passes.elim nofun nofun
  exact (if_neg (not_not.mpr count)).trans ((if_neg free).trans (if_pos ⟨l, n⟩))

/-- Settles O16: each check is one branch of the gate, and a branch that is met ends the frame. -/
theorem frameChecksRefuse : Obligations.FrameChecksRefuse := by
  refine ⟨by decide, by decide, fun c s free collecting one code => ?_⟩
  have ended {o : FrameOutcome} (g : gate c s = some o) :
      ∃ t, exec (c.row s.pins) s = .next t ∧ PostedFrom (finished c o s) t := by
    refine ⟨_, exec_row c s, ?_⟩
    rw [commandRow_gated free (framesCommand_of_check collecting one code) g]
    exact endFrame_posted _ _ _ _
  refine ⟨fun n => ended (gate_count n), fun count held bound => ?_, fun count passes l needs => ?_⟩
  · exact ended (gate_held count held (Bool.eq_false_iff.mpr (mt (exempt_iff c).mp bound)))
  · exact ended (gate_notSetUp count (passes.imp_right (exempt_iff c).mpr) l ((needsLayout_iff c).mpr needs))

end Sys2Proof.Machine
end

section
/-! Commands that are taken: what an owner's answer leaves of the outcome once the events that follow it have formed, a refusal
that changes nothing, and RESET PART. -/

namespace Sys2Proof.Machine

/-! ### The outcome that a taken command shows -/

/-- What follows the report of an outcome is events that form and a channel's covered-to time, so CD and RU's outcome stay. -/
theorem followUp_keeps (f : Follow) (before v : State) :
    (followUp f before v).cd = v.cd ∧ (followUp f before v).ru.lastOutcome = v.ru.lastOutcome := by
  cases f with
  | nothing => exact ⟨rfl, rfl⟩
  | channel c =>
    have located := (refreshCovered_facts c v).1
    have covered : (withCovered c (coveredTo v c) v).cd = v.cd ∧ (withCovered c (coveredTo v c) v).ru = v.ru := by
      unfold withCovered
      split <;> exact ⟨rfl, rfl⟩
    exact ⟨(located.within.cd rfl).trans covered.1, located.keeps.lastOutcome.trans (congrArg _ covered.2)⟩
  | profile =>
    have located := followProfile_located false before v
    exact ⟨located.within.cd rfl, located.keeps.lastOutcome⟩

/-- Every command that is taken shows its owner's outcome (R28). -/
theorem commandRow_lastOutcome {c : Command} {s : State} (free : writesFreely s) (t : taken c s) (hc : c ≠ .resetPart) :
    (commandRow c s.pins s).ru.lastOutcome = (own c (closed s)).outcome.code := by
  obtain ⟨v, posted, row⟩ := commandRow_answered s.pins free t hc
  rw [row, (followUp_keeps _ _ v).2, posted.keeps.lastOutcome, answered, recordOutcome_eq]
  rfl

/-! ### Refusals -/

/-- A refusal: the state is what it was, and at most a test of the profile in use follows. -/
def Answer.Refuses (s : State) (a : Answer) : Prop :=
  a.state = s ∧ (a.follow = .nothing ∨ a.follow = .profile)

/-- What every owner's answer keeps: CD is not the owner's, and every outcome but DONE and STARTED is a refusal. -/
structure Answer.Honest (s : State) (a : Answer) : Prop where
  cd : a.state.cd = s.cd
  kinds : a.outcome = .done ∨ a.outcome = .started ∨ a.Refuses s

theorem refuse_honest (o : FrameOutcome) (s : State) : (refuse o s).Honest s := ⟨rfl, .inr (.inr ⟨rfl, .inl rfl⟩)⟩

theorem Answer.Honest.ite {s : State} {p : Prop} [Decidable p] {a b : Answer} (h : a.Honest s) (k : b.Honest s) :
    (if p then a else b).Honest s := by
  split <;> assumption

/-- A test of an owner: it refuses, or the owner goes on. -/
theorem Answer.Honest.check {s : State} {p : Prop} [Decidable p] {o : FrameOutcome} {a : Answer} (h : a.Honest s) :
    (if p then refuse o s else a).Honest s := .ite (refuse_honest o s) h

theorem honest_done {s : State} {a : Answer} (cd : a.state.cd = s.cd) (h : a.outcome = .done) : a.Honest s := ⟨cd, .inl h⟩

theorem admitAnswer_honest (t : Task) (s : State) : (admitAnswer t s).Honest s := by
  refine ⟨(admitTask_within t s).cd rfl, ?_⟩
  unfold admitAnswer admitTask
  split
  · exact .inr (.inr ⟨rfl, .inr rfl⟩)
  · exact .inr (.inl rfl)
  · exact .inr (.inl rfl)

/-- An owner that answers neither DONE nor STARTED has changed nothing, and no owner changes CD (R27). -/
theorem own_honest (c : Command) (s : State) : (own c s).Honest s := by
  have no (o : FrameOutcome) : (refuse o s).Honest s := refuse_honest o s
  cases c with
  | defineLayout => exact .check (.check (honest_done rfl rfl))
  | resetPart => exact honest_done rfl rfl
  | defineRing => exact .check (.check (.check (.check (.check (honest_done rfl rfl)))))
  | ringOn => exact .check (.check (honest_done rfl rfl))
  | ringOff => exact .check (.check (.ite (honest_done rfl rfl) (honest_done ((ringToOff_within _ s).cd rfl) rfl)))
  | resetRing => exact .check (.check (honest_done ((ringRestart_within _ s).cd rfl) rfl))
  | setFraming =>
    refine .check (honest_done ?_ rfl)
    show State.cd (if _ then _ else _) = _
    split <;> rfl
  | load =>
    show (ownLoad s).Honest s
    unfold ownLoad
    split
    · exact no _
    · exact .check (.check (admitAnswer_honest _ s))
  | lockSlot => exact .check (.check (honest_done rfl rfl))
  | clearLocks => exact .check (honest_done rfl rfl)
  | setMasterLock => exact .check (honest_done rfl rfl)
  | clearSlot => exact .check (.check (.check (admitAnswer_honest _ s)))
  | sweep => exact admitAnswer_honest _ s
  | suspendSweep =>
    show (ownSuspendSweep s).Honest s
    unfold ownSuspendSweep
    split
    · exact honest_done rfl rfl
    · exact honest_done rfl rfl
    · exact no _
    · exact no _
  | resumeSweep => exact .check (.check ⟨(sweepGo_within s).cd rfl, .inr (.inl rfl)⟩)
  | mount => exact .check (.check (admitAnswer_honest _ s))
  | checkpoint => exact .check (admitAnswer_honest _ s)
  | release => exact .check (admitAnswer_honest _ s)
  | clearCavity =>
    show (ownClearCavity s).Honest s
    unfold ownClearCavity
    split
    · exact no _
    · exact .check (honest_done ((cleared_within _ _ s).cd rfl) rfl)
  | clearMould =>
    show (ownClearMould s).Honest s
    unfold ownClearMould
    split
    · exact no _
    · exact honest_done ((cleared_within _ _ s).cd rfl) rfl
  | setReporting => exact .check (honest_done rfl rfl)
  | setCounter => exact .check (honest_done rfl rfl)
  | clearStatus => exact honest_done rfl rfl
  | acknowledge => exact .check (honest_done rfl rfl)

/-- The outcome with a code (R29). -/
def FrameOutcome.ofCode (b : Byte) : Option FrameOutcome :=
  [FrameOutcome.noFrame, .invalidSequence, .refusedCode, .refusedHeld, .refusedNotSetUp, .refusedParam, .done, .started,
    .refusedBusy, .refusedState, .refusedLocked].find? fun o => o.code == b

theorem FrameOutcome.ofCode_code (o : FrameOutcome) : FrameOutcome.ofCode o.code = some o := by
  cases o <;> rfl

theorem FrameOutcome.code_injective {a b : FrameOutcome} (h : a.code = b.code) : a = b := by
  have found := FrameOutcome.ofCode_code a
  rw [h, FrameOutcome.ofCode_code] at found
  exact (Option.some.inj found).symm

theorem answered_refuses (c : Command) {o : FrameOutcome} (ho : o ≠ .invalidSequence) {s : State} {a : Answer}
    (outcome : a.outcome = o) (state : a.state = closed s) : answered c a = finished c o s := by
  rw [← answered_refuse c ho]
  unfold answered
  rw [outcome, state]
  rfl

/-- The row of a command whose owner refuses it; the profile in use is what it was, so no events form. -/
theorem commandRow_refused {c : Command} {s : State} {o : FrameOutcome} (free : writesFreely s) (t : taken c s)
    (hc : c ≠ .resetPart) (ho : o ≠ .invalidSequence) (outcome : (own c (closed s)).outcome = o)
    (refuses : (own c (closed s)).Refuses (closed s)) : PostedFrom (finished c o s) (commandRow c s.pins s) := by
  obtain ⟨v, posted, row⟩ := commandRow_answered s.pins free t hc
  obtain ⟨state, follow⟩ := refuses
  have posted : PostedFrom (answered c (own c (closed s))) v := posted
  rw [answered_refuses c ho outcome state] at posted
  have row : commandRow c s.pins s = followUp (own c (closed s)).follow (closed s) v := row
  have same : profileNumberInUse (closed s) = profileNumberInUse v := profileNumberInUse_eu (posted.within.eu rfl).symm
  have stays : followUp (own c (closed s)).follow (closed s) v = v := by
    obtain e | e := follow <;> rw [e]
    · rfl
    · exact followProfile_same same
  rw [row, stays]
  exact posted

/-- Settles O17: the outcome shown is the owner's, and an owner that refuses has changed nothing. -/
theorem refusedCommandsChangeNothing : Obligations.RefusedCommandsChangeNothing := by
  intro c s t hc free take row o refusal shown
  rw [exec_row] at row
  cases row
  rw [commandRow_lastOutcome free take hc] at shown
  have outcome := FrameOutcome.code_injective shown
  obtain ⟨ho, notDone, notStarted⟩ : o ≠ .invalidSequence ∧ o ≠ .done ∧ o ≠ .started := by
    clear shown outcome
    revert o
    decide
  obtain done | started | refuses := (own_honest c (closed s)).kinds
  · exact absurd (outcome.symm.trans done) notDone
  · exact absurd (outcome.symm.trans started) notStarted
  · exact commandRow_refused free take hc ho outcome refuses

/-! ### RESET PART -/

/-- The row of a RESET PART frame that is taken, with the straps at n (R33). -/
theorem exec_resetPart {s : State} (free : writesFreely s) (t : taken .resetPart s) (n : BitVec 4) :
    exec (.resetPart n) s = .next (resetPart (closed (s.withPins (withStraps n s)))) :=
  congrArg Host.Outcome.next (commandRow_taken (withStraps n s) free t)

theorem resetPart_directory (s : State) (k : Fin 12) :
    (resetPart s).tu.directory[k] = { state := .unchecked, mouldId := 0, lock := s.tu.directory[k].lock } :=
  Vector.getElem_map DirEntry.uncheck k.isLt

/-- Settles O21. -/
theorem resetPartKeepsTheLocks : Obligations.ResetPartKeepsTheLocks := by
  intro s n free t
  exact ⟨_, exec_resetPart free t n, rfl, resetPart_directory (closed (s.withPins (withStraps n s)))⟩

end Sys2Proof.Machine
end

section
/-! The words of the status record: each field read back at its bits. -/

namespace Sys2Proof.Machine

/-! ### Reading a field back -/

@[simp] theorem bits_field_of_lt {lo width v : Nat} (h : lo + width ≤ 32) (l : v < 2 ^ width) :
    bits (field lo width v) lo width = v := (bits_field_self lo width v h).trans (Nat.mod_eq_of_lt l)

@[simp] theorem bit_or (a b : Word) (n : Nat) : bit (a ||| b) n = (bit a n || bit b n) := BitVec.getLsbD_or

@[simp] theorem bit_flag_self {n : Nat} (b : Bool) (h : n < 32) : bit (flag n b) n = b := by
  unfold bit
  simp only [getLsbD_flag, h, decide_true, Bool.true_and]

@[simp] theorem bit_field_apart {lo width n : Nat} (v : Nat) (h : n < lo ∨ lo + width ≤ n) : bit (field lo width v) n = false := by
  unfold bit
  rw [getLsbD_field]
  by_cases l : lo ≤ n
  · have outside : ¬ n - lo < width := by omega
    simp [outside]
  · simp [l]

@[simp] theorem bit_flag_apart {m n : Nat} (b : Bool) (h : m ≠ n) : bit (flag m b) n = false :=
  bit_field_apart _ (by omega)

theorem field_zero (lo width : Nat) : field lo width 0 = 0 := by simp [field]

/-- The bit of a union over a list. -/
theorem getLsbD_foldl_or {α : Type} (g : α → Word) (i : Nat) (l : List α) : ∀ w : Word,
    (l.foldl (fun w a => w ||| g a) w).getLsbD i = (w.getLsbD i || l.any fun a => (g a).getLsbD i) := by
  induction l with
  | nil => simp
  | cons a l ih =>
    intro w
    rw [List.foldl_cons, ih, BitVec.getLsbD_or, List.any_cons, Bool.or_assoc]

theorem getLsbD_ringMarks (sf : StreamFramer) (lo : Nat) (f : Ring → Bool) (i : Nat) :
    (ringMarks sf lo f).getLsbD i = allChannels.any fun r => decide (i < 32) && (decide (i = lo + r.val) && f sf.rings[r]) := by
  have zero : (0 : Word).getLsbD i = false := BitVec.getLsbD_zero
  unfold ringMarks
  simp only [getLsbD_foldl_or, getLsbD_flag, zero, Bool.false_or]

/-- A ring's mark is at its own bit. -/
theorem ringMarks_at (sf : StreamFramer) {lo : Nat} (f : Ring → Bool) (h : lo ≤ 24) (r : Fin 8) :
    (ringMarks sf lo f).getLsbD (lo + r.val) = f sf.rings[r] := by
  have inside : lo + r.val < 32 := by omega
  rw [getLsbD_ringMarks]
  cases e : f sf.rings[r] with
  | true => exact List.any_eq_true.mpr ⟨r, mem_allChannels r, by simp only [inside, e, decide_true, Bool.and_self]⟩
  | false =>
    refine List.any_eq_false.mpr fun q _ => ?_
    by_cases k : q = r
    · rw [k, e]
      simp
    · have other : ¬ lo + r.val = lo + q.val := fun n => k (Fin.ext (by omega))
      simp only [other, decide_false, Bool.false_and, Bool.and_false, Bool.false_eq_true, not_false_eq_true]

/-- And at no other. -/
theorem ringMarks_apart (sf : StreamFramer) {lo i : Nat} (f : Ring → Bool) (h : i < lo ∨ lo + 8 ≤ i) :
    (ringMarks sf lo f).getLsbD i = false := by
  rw [getLsbD_ringMarks]
  refine List.any_eq_false.mpr fun q _ => ?_
  have other : ¬ i = lo + q.val := by omega
  simp [other]

theorem getLsbD_ringStates (sf : StreamFramer) {i : Nat} (h : 16 ≤ i) : (ringStates sf).getLsbD i = false := by
  have zero : (0 : Word).getLsbD i = false := BitVec.getLsbD_zero
  unfold ringStates
  rw [getLsbD_foldl_or, zero, Bool.false_or]
  refine List.any_eq_false.mpr fun q _ => ?_
  have outside : ¬ i - 2 * q.val < 2 := by omega
  simp [getLsbD_field, outside]

/-- The bits of the ring states hold no mark. -/
theorem bits_ringMarks (sf : StreamFramer) {lo : Nat} (f : Ring → Bool) {start width : Nat} (h : start + width ≤ lo) :
    bits (ringMarks sf lo f) start width = 0 := by
  refine Nat.eq_of_testBit_eq fun i => ?_
  rw [bits_testBit, Nat.zero_testBit]
  by_cases k : i < width
  · rw [ringMarks_apart sf f (.inl (by omega)), Bool.and_false]
  · simp [k]

/-! ### What the fields mirror -/

theorem live_of {x : EvidenceState} (h : x = .running ∨ x = .held) : x.live = true := by
  obtain rfl | rfl := h <;> rfl

theorem not_live_of {x : EvidenceState} (h : x = .empty ∨ x = .changing) : x.live = false := by
  obtain rfl | rfl := h <;> rfl

theorem liveMould_of_live {s : State} {m : Mould} (h : s.eu.state = .running ∨ s.eu.state = .held)
    (e : s.eu.mould = some m) : liveMould s = some m := (if_pos (live_of h)).trans e

theorem liveMould_none {s : State} (h : s.eu.state = .empty ∨ s.eu.state = .changing) : liveMould s = none :=
  if_neg (by rw [not_live_of h]; decide)

theorem census_of_live {s : State} {m : Mould} (h : liveMould s = some m) (v : Verdict) :
    census s v = (m.cavities.filter fun c => c.verdict == v).length := by
  unfold census
  rw [h]

theorem census_none {s : State} (h : liveMould s = none) (v : Verdict) : census s v = 0 := by
  unfold census
  rw [h]

/-- No census field of a mould of at most 48 cavities overflows. -/
theorem census_lt {s : State} {m : Mould} (h : liveMould s = some m) (l : m.cavities.length ≤ 48) (v : Verdict) :
    census s v < 2 ^ 8 := by
  have := List.length_filter_le (fun c : CavityRecord => c.verdict == v) m.cavities
  rw [census_of_live h]
  omega

theorem kind_eq (k : Task) : k.kind = taskNumber (some k) := by
  cases k <;> rfl

theorem taskNumber_lt (k : Option Task) : taskNumber k < 2 ^ 3 := by
  cases k with
  | none => decide
  | some k => cases k <;> simp [taskNumber]

theorem EvidenceState.code_lt (x : EvidenceState) : x.code < 2 ^ 2 := by
  cases x <;> decide

theorem SweepState.code_lt (x : SweepState) : x.code < 2 ^ 2 := by
  cases x <;> decide

theorem AlarmMode.code_lt (x : AlarmMode) : x.code < 2 ^ 2 := by
  cases x <;> decide

theorem runningKind_eq (r : Option RunningTask) :
    (r.map fun x => x.task.kind).getD 0 = taskNumber (r.map RunningTask.task) := by
  cases r with
  | none => rfl
  | some x => exact kind_eq x.task

theorem pendingKind_eq (k : Option Task) : (k.map Task.kind).getD 0 = taskNumber k := by
  cases k with
  | none => rfl
  | some k => exact kind_eq k

theorem mountedSlot_none {s : State} (h : ∀ n : Fin 12, s.tu.directory[n].state ≠ .mounted) : mountedSlot s.tu = none :=
  List.find?_eq_none.mpr fun n _ => by simpa using h n

theorem topCause_of {s : State} {i : Nat} (hi : i < 8) (h : callsFor i s) (l : ∀ j < i, ¬ callsFor j s) :
    topCause s.ru = i + 1 := by
  refine firstSet_of _ hi ?_ fun j hj => ?_
  · rw [BitVec.getLsbD_and, h.1, h.2]
    rfl
  · rw [BitVec.getLsbD_and]
    exact Bool.eq_false_iff.mpr fun k => l j hj (Bool.and_eq_true_iff.mp k)

theorem topCause_none {s : State} (h : ∀ i < 8, ¬ callsFor i s) : topCause s.ru = 0 := by
  refine firstSet_none _ _ fun j hj => ?_
  have bound : j < 8 := List.mem_range.mp (show j ∈ List.range 8 from hj)
  rw [BitVec.getLsbD_and]
  exact Bool.eq_false_iff.mpr fun k => h j bound (Bool.and_eq_true_iff.mp k)

/-! ### The words -/

/-- A word by its lower half and its two upper bytes. -/
theorem toNat_halves (w : Word) : w.toNat = bits w 0 16 + 2 ^ 16 * bits w 16 8 + 2 ^ 24 * bits w 24 8 := by
  have := w.isLt
  unfold bits
  omega

theorem statusWord0_toNat (s : State) : (statusWord0 s).toNat =
    s.cd.tally.toNat + 2 ^ 16 * s.ru.lastCode.toNat + 2 ^ 24 * s.ru.lastOutcome.toNat := by
  rw [toNat_halves]
  unfold statusWord0
  simp (disch := omega) [bits_or, bits_field_apart]

/-- The verdict census, each number in its byte. -/
theorem statusWord8_census {s : State} (fits : ∀ v, census s v < 2 ^ 8) :
    ∀ x ∈ [(0, Verdict.sound), (8, .watch), (16, .suspect), (24, .cracked)], bits (statusWord8 s) x.1 8 = census s x.2 := by
  have sound := fits .sound
  have watch := fits .watch
  have suspect := fits .suspect
  have cracked := fits .cracked
  simp (disch := omega) [statusWord8, bits_or, bits_field_apart]

theorem statusWord5_state (s : State) (r : Fin 8) :
    bits (statusWord5 s) (2 * r.val) 2 = s.sf.rings[r].state.code := by
  have below : 2 * r.val + 2 ≤ 16 := by omega
  unfold statusWord5
  rw [bits_or, bits_or, ringStates_bits, bits_ringMarks _ _ below, bits_ringMarks _ _ (by omega), Nat.or_zero, Nat.or_zero]

theorem statusWord5_stale (s : State) (r : Fin 8) : (statusWord5 s).getLsbD (16 + r.val) = s.sf.rings[r].stale := by
  unfold statusWord5
  rw [BitVec.getLsbD_or, BitVec.getLsbD_or, getLsbD_ringStates _ (by omega), ringMarks_at _ _ (by decide),
    ringMarks_apart _ _ (by omega), Bool.false_or, Bool.or_false]

theorem statusWord5_defined (s : State) (r : Fin 8) : (statusWord5 s).getLsbD (24 + r.val) = s.sf.rings[r].defined := by
  unfold statusWord5
  rw [BitVec.getLsbD_or, BitVec.getLsbD_or, getLsbD_ringStates _ (by omega), ringMarks_at _ _ (by decide),
    ringMarks_apart _ _ (by omega), Bool.false_or, Bool.false_or]

/-- Every field of the status record at its bits (R153). -/
theorem spellsStatus (s : State) (f : FreeBits) : SpellsStatus s (recordWords f s .status) where
  length := rfl
  frame := statusWord0_toNat s
  seqErr := by
    show bit (statusWord1 s) 0 = _
    simp (disch := omega) [statusWord1]
  paramAdj := by
    show bit (statusWord1 s) 1 = _
    simp (disch := omega) [statusWord1]
  protect := by
    show bit (statusWord1 s) 2 = _
    simp (disch := omega) [statusWord1]
  taskFail := by
    show bit (statusWord1 s) 3 = _
    simp (disch := omega) [statusWord1]
  causes := by
    show bits (statusWord1 s) 8 8 = _
    simp (disch := omega) [statusWord1, bits_or, bits_field_apart, bits_flag_apart]
  enables := by
    show bits (statusWord1 s) 16 8 = _
    simp (disch := omega) [statusWord1, bits_or, bits_field_apart, bits_flag_apart]
  masterEnable := by
    show bit (statusWord1 s) 24 = _
    simp (disch := omega) [statusWord1]
  noTopCause h := by
    show bits (statusWord1 s) 28 4 = _
    simp (disch := omega) [statusWord1, bits_or, bits_field_apart, bits_flag_apart, topCause_none h]
  topCause i hi h l := by
    show bits (statusWord1 s) 28 4 = _
    have fits : i + 1 < 2 ^ 4 := by omega
    simp (disch := omega) [statusWord1, bits_or, bits_field_apart, bits_flag_apart, topCause_of hi h l]
  euState := by
    show bits (statusWord2 s) 0 2 = s.eu.state.code
    have fits := EvidenceState.code_lt s.eu.state
    simp (disch := omega) [statusWord2, bits_or, bits_field_apart, bits_flag_apart]
  running := by
    show bits (statusWord2 s) 4 3 = _
    have fits := taskNumber_lt (s.tu.running.map RunningTask.task)
    simp (disch := omega) [statusWord2, bits_or, bits_field_apart, bits_flag_apart, runningKind_eq]
  pendingTask := by
    show bits (statusWord2 s) 8 3 = _
    have fits := taskNumber_lt s.tu.pendingTask
    simp (disch := omega) [statusWord2, bits_or, bits_field_apart, bits_flag_apart, pendingKind_eq]
  sweep := by
    show bits (statusWord2 s) 12 2 = s.tu.sweep.state.code
    have fits := SweepState.code_lt s.tu.sweep.state
    simp (disch := omega) [statusWord2, bits_or, bits_field_apart, bits_flag_apart]
  lastTask := by
    show bits (statusWord2 s) 16 3 = _
    simp (disch := omega) [statusWord2, bits_or, bits_field_apart, bits_flag_apart]
  lastResult := by
    show bits (statusWord2 s) 20 4 = _
    simp (disch := omega) [statusWord2, bits_or, bits_field_apart, bits_flag_apart]
  mounted n h := by
    show bits (statusWord2 s) 24 4 = _
    have fits : n.val < 2 ^ 4 := by omega
    simp (disch := omega) [statusWord2, bits_or, bits_field_apart, bits_flag_apart, mountedSlot_of_mountedAt h]
  unmounted h := by
    show bits (statusWord2 s) 24 4 = _
    simp (disch := omega) [statusWord2, bits_or, bits_field_apart, bits_flag_apart, mountedSlot_none h]
  masterLock := by
    show bit (statusWord2 s) 28 = _
    simp (disch := omega) [statusWord2]
  alarmMode := by
    show bits (statusWord2 s) 29 2 = s.ru.alarmMode.code
    have fits := AlarmMode.code_lt s.ru.alarmMode
    simp (disch := omega) [statusWord2, bits_or, bits_field_apart, bits_flag_apart]
  mould m live e l := by
    have h := liveMould_of_live live e
    refine ⟨?_, ?_, ?_⟩
    · show statusWord3 s = _
      simp [statusWord3, h]
    · show bits (statusWord9 s) 16 16 = _
      simp (disch := omega) [statusWord9, bits_or, bits_field_apart, h]
    · simp only [← census_of_live h]
      exact statusWord8_census (census_lt h l)
  noMould idle := by
    have h := liveMould_none idle
    refine ⟨?_, ?_, ?_⟩
    · show statusWord3 s = _
      simp [statusWord3, h]
    · show bits (statusWord9 s) 16 16 = _
      simp (disch := omega) [statusWord9, bits_or, bits_field_apart, h]
    · show statusWord8 s = _
      simp [statusWord8, census_none h, field_zero]
  newest n h := by
    show bits (cycleWord f s) 0 16 = _
    simp (disch := omega) [cycleWord, bits_or, bits_field_apart, bits_flag_apart, h]
  noNewest := by
    show bit (cycleWord f s) 19 = _
    simp (disch := omega) [cycleWord]
  depth l := by
    show bits (cycleWord f s) 16 3 = _
    have fits : s.eu.cycles.length < 2 ^ 3 := by omega
    simp (disch := omega) [cycleWord, bits_or, bits_field_apart, bits_flag_apart]
  rings r := ⟨statusWord5_state s r, statusWord5_stale s r, statusWord5_defined s r⟩
  logHead := by
    show bits (statusWord6 s) 0 8 = _
    simp (disch := omega) [statusWord6, bits_or, bits_field_apart]
  serial := by
    show bits (statusWord6 s) 16 16 = _
    simp (disch := omega) [statusWord6, bits_or, bits_field_apart]
  firstDrop a h := by
    show bits (dropWord f s) 0 24 = _
    simp (disch := omega) [dropWord, bits_or, bits_flag_apart, h]
  dropKept := by
    show bit (dropWord f s) 31 = _
    simp (disch := omega) [dropWord]
  zones := by
    show bits (statusWord9 s) 0 16 = _
    simp (disch := omega) [statusWord9, bits_or, bits_field_apart]
  zero := rfl
  time := rfl

end Sys2Proof.Machine
end

section
/-! Every row shows what it changes: the relation `Follows` of one write of the window and of each of the part's own steps, and
the case split over the rows. -/

namespace Sys2Proof.Machine

/-! ### Changes that neither record mirrors -/

theorem Same.of_fields {id : RecordId} (hid : Mirrors id) {s t : State}
    (fields : statusFields sameFree t = statusFields sameFree s) (directory : t.tu.directory = s.tu.directory) :
    Same id s t := by
  obtain rfl | rfl := hid
  · exact statusChanged_false.mpr fields.symm
  · exact directory.symm

/-- TU asks for its records: the queue and the place reached in the slot image. -/
theorem askRecords_form (n : Nat) : ∀ s, ∃ q w, askRecords n s =
    { s with pu := { s.pu with queue := q }, tu := { s.tu with writer := w } } := by
  induction n with
  | zero => exact fun s => ⟨s.pu.queue, s.tu.writer, rfl⟩
  | succ n ih =>
    intro s
    unfold askRecords
    split
    · next w _ =>
      split
      · split
        · next t asked =>
          obtain ⟨q, v, form⟩ := ih (t.withTu { t.tu with writer := some { w with next := w.next + 1 } })
          unfold enqueue at asked
          split at asked
          · cases asked
            exact ⟨q, v, form⟩
          · cases asked
        · exact ⟨s.pu.queue, s.tu.writer, rfl⟩
      · exact ⟨s.pu.queue, s.tu.writer, rfl⟩
    · exact ⟨s.pu.queue, s.tu.writer, rfl⟩

theorem reportHolds_same {id : RecordId} (hid : Mirrors id) (s : State) : Same id s (reportHolds s) := by
  obtain ⟨o, cs, form⟩ := reportHolds_form s
  rw [form]
  exact .of_fields hid rfl rfl

/-- The release of RESETn changes the straps, the local time and what is reported of the access. -/
theorem releaseReset_same {id : RecordId} (hid : Mirrors id) (n : BitVec 4) (s : State) :
    Same id s (releaseReset n s) := by
  cases access : s.pu.access with
  | none =>
    rw [releaseReset_none access]
    exact .of_fields hid rfl rfl
  | some o =>
    rw [releaseReset_some access]
    have presented : Same id s (outstanding o.access (!isHeld (released n s) o.access) (released n s)) :=
      .of_fields hid rfl rfl
    exact presented.trans (reportHolds_same hid _)

/-! ### Writes of the command window -/

/-- Whether a command is taken depends on the decoder, on SEQ_ERR and on the layout. -/
theorem taken_congr {c : Command} {s u : State} (cd : u.cd = s.cd) (seqErr : u.ru.seqErr = s.ru.seqErr)
    (layout : u.pu.layoutDefined = s.pu.layoutDefined) (t : taken c u) : taken c s := by
  obtain ⟨frames, gated⟩ := t
  refine ⟨?_, ?_⟩
  · unfold framesCommand at frames ⊢
    rw [← cd]
    exact frames
  · unfold gate at gated ⊢
    rw [← cd, ← seqErr, ← layout]
    exact gated

/-- The address that is decoded as a word of the command window is that word's (R3, R4). -/
theorem commandWordAddr_of_place {s : State} {w : WordAddr} {n : Nat} (place : placeOf s.pu s.sf w = .command n) :
    w = commandWordAddr s.pu.strap n := by
  have inside := (placeOf_command_iff s.pu s.sf w).mp ⟨n, place⟩
  have number : (4 * w.toNat - (commandWindow s.pu.strap).first) / 4 = n := by
    rw [placeOf_chain, if_pos inside] at place
    exact Place.command.inj place
  obtain ⟨lo, hi⟩ := (Window.holds_iff _ _).mp inside
  have size : (commandWindow s.pu.strap).size = 64 := rfl
  have first := commandWindow_first s.pu.strap
  have address := byteAddr_commandWord s.pu.strap (n := n) (by omega)
  refine BitVec.eq_of_toNat_eq ?_
  unfold byteAddr at address
  omega

theorem parameterIndex_lt {n : BitVec 4} (h : parameterIndexOk n = true) : n.toNat < 15 := by
  revert n
  decide

section
variable {id : RecordId} (hid : Mirrors id)
include hid

/-- An upstream write, but the closing write of a RESET PART that is taken. -/
theorem busWrite_follows (w : WordAddr) (be : Enables) (d : Word) (s : State)
    (h : taken .resetPart s → placeOf s.pu s.sf w = .command 15 → be = fullEnables → d ≠ closingOf s.cd.opening) :
    Follows id s (busWrite w be d s) := by
  refine arrive_follows hid _ _ s fun u cd seqErr layout strap results archive sf => writeArrives_follows hid w be d u ?_
  rintro ⟨t, place, full, closing⟩
  rw [placeOf_congr strap layout results archive, sf] at place
  rw [cd] at closing
  exact h (taken_congr cd seqErr layout t) place full closing

/-- A write of a word of the command window, but the last. -/
theorem commandWord_follows {n : Nat} (hn : n < 15) (be : Enables) (d : Word) (s : State) :
    Follows id s (busWrite (commandWordAddr s.pu.strap n) be d s) := by
  refine busWrite_follows hid _ be d s fun _ place => ?_
  rw [placeOf_commandWord _ _ (by omega)] at place
  cases place
  omega

theorem windowWrite_closing_follows (d : Word) (s : State) (h : taken .resetPart s → d ≠ closingOf s.cd.opening) :
    Follows id s (windowWrite 15 d s) := busWrite_follows hid _ _ d s fun t _ _ => h t

/-- The row of a command, but that of a RESET PART that is taken. -/
theorem commandRow_follows (c : Command) (p : Pins) (s : State) (h : c = .resetPart → ¬ taken .resetPart s) :
    Follows id s (commandRow c p s) := by
  have sampled : Follows id s (s.withPins p) := .aside hid (.of_eq rfl rfl rfl) rfl rfl
  unfold commandRow
  split
  · next frames =>
    refine sampled.trans (windowWrite_closing_follows hid _ _ fun t _ => ?_)
    have reset : taken .resetPart s := t
    exact h (framesCommand_unique frames reset.1) reset
  · exact Follows.refl hid.replaceable s

/-! ### The part's own steps -/

/-- A step of the part's own that follows, with the tests of the holds around it. -/
theorem whileRunning_of_follows {f : State → State} (h : ∀ u, Follows id u (f u)) (s : State) (w : wholeCopies id s)
    (d : ¬ Same id s (whileRunning f s)) : Shown id (whileRunning f s) :=
  (whileRunning_shows hid ⟨(h _).whole, (h _).shown⟩).2 w d

theorem askRecords_follows (n : Nat) (s : State) : Follows id s (askRecords n s) := by
  have same : Same id s (askRecords n s) := by
    obtain ⟨q, w, form⟩ := askRecords_form n s
    rw [form]
    exact .of_fields hid rfl rfl
  exact .of_unposted hid.replaceable (askRecords_unposted n s) same

theorem serveIfChosen_follows (s : State) : Follows id s (serveIfChosen s) := by
  unfold serveIfChosen
  split
  · exact .ite (serveRead_follows hid _ s) (Follows.refl hid.replaceable s)
  · exact Follows.refl hid.replaceable s

theorem promoteIfDue_follows (s : State) : Follows id s (promoteIfDue s) := by
  unfold promoteIfDue
  split
  · exact .ite (.aside hid (.of_eq rfl rfl rfl) rfl rfl) (Follows.refl hid.replaceable s)
  · exact Follows.refl hid.replaceable s

theorem endPulse_follows (s : State) : Follows id s (endPulse s) := by
  unfold endPulse
  split
  · exact .ite (.aside hid (.of_eq rfl rfl rfl) rfl rfl) (Follows.refl hid.replaceable s)
  · exact Follows.refl hid.replaceable s

theorem takeBlock_follows (s : State) : Follows id s (takeBlock s) := by
  unfold takeBlock
  split
  · next rest _ _ =>
    have taken : Follows id s (s.withSf { s.sf with queue := rest }) := .aside hid (.of_eq rfl rfl rfl) rfl rfl
    exact taken.trans (beginBlock_follows hid _ _)
  all_goals exact Follows.refl hid.replaceable s

theorem takeNextSample_follows (s : State) : Follows id s (takeNextSample s) := by
  unfold takeNextSample
  split
  · exact .ite (processSample_follows hid _ s) (Follows.refl hid.replaceable s)
  · exact Follows.refl hid.replaceable s

/-- The head word is performed when the arbiter chooses it; the copy that it begins may be one that showed the record. -/
theorem servedWord_shows (s : State) :
    (wholeCopies id s → wholeCopies id (if servesPost s then performWord s else s)) ∧
      (wholeCopies id s → ¬ Same id s (if servesPost s then performWord s else s) →
        Shown id (if servesPost s then performWord s else s)) := by
  split
  · exact performWord_shows hid s
  · exact ⟨fun w => w, fun _ d => absurd (Same.refl id s) d⟩

/-! ### Accesses -/

theorem presentAccess_follows (a : Access) (s : State) : Follows id s (presentAccess a s) := by
  unfold presentAccess
  split
  · exact startAccess_follows hid a s
  · exact Follows.refl hid.replaceable s

theorem busRead_follows (w : WordAddr) (be : Enables) (s : State) : Follows id s (busRead w be s) :=
  arrive_follows hid _ _ s fun _ _ _ _ _ _ _ _ => .aside hid (.of_eq rfl rfl rfl) rfl rfl

/-! ### The rows -/

/-- Every row but RESETn and a RESET PART that is taken: where it changes what the record mirrors, the record is shown. -/
theorem exec_shows {i : Instr} {s t : State} (asserts : i ≠ .resetnAssert) (reset : ¬ closesReset s i)
    (row : exec i s = .next t) (w : wholeCopies id s) (d : ¬ Same id s t) : Shown id t := by
  have still : Follows id s s := Follows.refl hid.replaceable s
  have command (c : Command) (p : Pins) (h : c ≠ .resetPart) : Follows id s (commandRow c p s) :=
    commandRow_follows hid c p s fun e => absurd e h
  cases i with
  | resetnAssert => exact absurd rfl asserts
  | resetnRelease n =>
    cases row
    split at d
    · exact absurd (releaseReset_same hid n s) d
    · exact absurd (Same.refl id s) d
  | upstreamAccessPresented a => cases row; exact (presentAccess_follows hid a s).shown w d
  | upstreamWrite a be x =>
    cases row
    refine (busWrite_follows hid a be x s fun t place full closing => reset ⟨t, .inr ?_⟩).shown w d
    rw [commandWordAddr_of_place place, full, closing]
    rfl
  | upstreamRead a be => cases row; exact (busRead_follows hid a be s).shown w d
  | openingWordWrite x => cases row; exact (commandWord_follows hid (by decide) _ x s).shown w d
  | parameterWordWrite n x =>
    cases row
    refine Follows.shown ?_ w d
    split
    · next ok => exact commandWord_follows hid (parameterIndex_lt ok) _ x s
    · exact still
  | partialWrite n be x =>
    cases row
    refine Follows.shown ?_ w d
    split
    · next ok => exact busWrite_follows hid _ be x s fun _ _ full => absurd full (bne_iff_ne.mp ok)
    · exact still
  | noFrame x =>
    cases row
    refine Follows.shown ?_ w d
    split
    · next ready =>
      refine windowWrite_closing_follows hid x s fun t => ?_
      rw [((framesCommand_iff _ s).mp t.1).1] at ready
      cases ready
    · exact still
  | invalidSequence x =>
    cases row
    refine Follows.shown ?_ w d
    split
    · next ends =>
      refine windowWrite_closing_follows hid x s fun t closing => ?_
      obtain ⟨collecting, one, -⟩ := (framesCommand_iff _ s).mp t.1
      unfold endsInvalid at ends
      rw [collecting, closing, one] at ends
      cases ends
    · exact still
  | refusedCode =>
    cases row
    refine Follows.shown ?_ w d
    split
    · next unknown =>
      refine windowWrite_closing_follows hid _ s fun t _ => ?_
      obtain ⟨-, -, code⟩ := (framesCommand_iff _ s).mp t.1
      unfold framesUnknown at unknown
      rw [code, command_ofCode, Option.isNone_some, Bool.and_false] at unknown
      cases unknown
    · exact still
  | resetPart n =>
    cases row
    exact (commandRow_follows hid _ _ s fun _ t => reset ⟨t, .inl ⟨n, rfl⟩⟩).shown w d
  | defineLayout | defineRing | ringOn | ringOff | resetRing | setFraming | load | sweep | suspendSweep | resumeSweep | mount
  | checkpoint | release | clearCavity | clearMould | setReporting | setCounter | clearStatus | acknowledge =>
    cases row
    exact (command _ _ (by decide)).shown w d
  | lockSlot b | clearLocks b | setMasterLock b | clearSlot b =>
    cases row
    exact (command _ _ (by decide)).shown w d
  | postWordPerformed => cases row; exact (whileRunning_shows hid (servedWord_shows hid _)).2 w d
  | taskRecordEnqueue => cases row; exact whileRunning_of_follows hid (askRecords_follows hid 16) s w d
  | dirtyRecordPost => cases row; exact whileRunning_of_follows hid (postDirty_follows hid) s w d
  | taskReadData => cases row; exact whileRunning_of_follows hid (serveIfChosen_follows hid) s w d
  | taskWaitExpiry => cases row; exact whileRunning_of_follows hid (promoteIfDue_follows hid) s w d
  | blockTimeout r => cases row; exact whileRunning_of_follows hid (timeoutBlock_follows hid r) s w d
  | ringStale r => cases row; exact whileRunning_of_follows hid (staleRing_follows hid r) s w d
  | alarmPulseEnd => cases row; exact whileRunning_of_follows hid (endPulse_follows hid) s w d
  | blockBegin => cases row; exact whileRunning_of_follows hid (takeBlock_follows hid) s w d
  | sampleProcessed => cases row; exact whileRunning_of_follows hid (takeNextSample_follows hid) s w d

end

end Sys2Proof.Machine
end

section
/-! The end of a frame and the status record: the tally advances at every end, so the record changes; where the frame ends
undispatched, what the queue holds of it then. -/

namespace Sys2Proof.Machine

/-! ### The tally is a field of the status record -/

/-- A frame that ends changes the status record. -/
theorem statusFields_ne_of_tally {s t : State} (h : t.cd.tally = s.cd.tally + 1) (f g : FreeBits) :
    statusFields f s ≠ statusFields g t := by
  intro e
  have word : statusWord0 s = statusWord0 t := List.head_eq_of_cons_eq e
  have tally (u : State) : bits (statusWord0 u) 0 16 = u.cd.tally.toNat := by
    unfold statusWord0
    simp (disch := omega) [bits_or, bits_field_apart]
  have same : s.cd.tally.toNat = t.cd.tally.toNat := by rw [← tally, ← tally, word]
  rw [h] at same
  bv_omega

theorem not_same_of_tally {s t : State} (h : t.cd.tally = s.cd.tally + 1) : ¬ Same .status s t :=
  fun same => statusFields_ne_of_tally h _ _ (statusChanged_false.mp same)

theorem endFrame_tally (code : Byte) (o : FrameOutcome) (d : Word) (s : State) :
    (endFrame code o (windowWritten 15 d s)).cd.tally = s.cd.tally + 1 :=
  congrArg CommandDecoder.tally ((endFrame_posted code o d s).within.cd rfl)

theorem commandRow_tally {c : Command} {s : State} (free : writesFreely s) (hc : c ≠ .resetPart)
    (f : framesCommand c s = true) : (commandRow c s.pins s).cd.tally = s.cd.tally + 1 := by
  cases g : gate c s with
  | some o =>
    rw [commandRow_gated free f g]
    exact endFrame_tally _ _ _ _
  | none =>
    obtain ⟨v, posted, row⟩ := commandRow_answered s.pins free ⟨f, g⟩ hc
    have kept : (own c (closed s)).state.cd.tally = s.cd.tally :=
      congrArg CommandDecoder.tally (own_honest c (closed s)).cd
    rw [row, (followUp_keeps _ _ v).1, posted.within.cd rfl, answered, recordOutcome_eq]
    exact congrArg (· + 1) kept

/-! ### A frame that ends undispatched -/

/-- The state that a frame leaves that ends undispatched: the write performed, the outcome recorded and reported, and the decoder
READY, or with the frame that an opening word has begun. -/
def undispatched (m : Memory) (x : DecoderState) (code : Byte) (o : FrameOutcome) (y : CommandDecoder) (s : State) : State :=
  (report {} (s.withMem m) (recordOutcome code o (setDecoder x (s.withMem m)))).withCd y

theorem endFrame_undispatched (code : Byte) (o : FrameOutcome) (d : Word) (s : State) : ∃ m x y,
    y.tally = s.cd.tally + 1 ∧ endFrame code o (windowWritten 15 d s) = undispatched m x code o y s :=
  ⟨_, .ready, (endFrame code o (windowWritten 15 d s)).cd, endFrame_tally code o d s, rfl⟩

/-- Every row that ends a frame undispatched (R22, R25, R26). -/
theorem exec_undispatched {s : State} (free : writesFreely s) {i : Instr} (h : endsUndispatched s i) :
    ∃ m x code o y, y.tally = s.cd.tally + 1 ∧ exec i s = .next (undispatched m x code o y s) := by
  have closes {code : Byte} {o : FrameOutcome} {d : Word}
      (row : exec i s = .next (endFrame code o (windowWritten 15 d s))) :
      ∃ m x code o y, y.tally = s.cd.tally + 1 ∧ exec i s = .next (undispatched m x code o y s) := by
    obtain ⟨m, x, y, tally, form⟩ := endFrame_undispatched code o d s
    exact ⟨m, x, code, o, y, tally, row.trans (congrArg _ form)⟩
  have gated (h : ∃ c : Command, i = c.row s.pins ∧ framesCommand c s = true ∧ gate c s ≠ none) :
      ∃ m x code o y, y.tally = s.cd.tally + 1 ∧ exec i s = .next (undispatched m x code o y s) := by
    obtain ⟨c, rfl, frames, fails⟩ := h
    obtain ⟨o, g⟩ := Option.ne_none_iff_exists'.mp fails
    exact closes ((exec_row c s).trans (congrArg _ (commandRow_gated free frames g)))
  cases i with
  | openingWordWrite d =>
    have row : exec (.openingWordWrite d) s = .next (openingWrite d (windowWritten 0 d s)) :=
      congrArg Host.Outcome.next (windowWrite_opening free d)
    rw [row, openingWrite_abandons (s := windowWritten 0 d s) h]
    exact ⟨_, s.cd.state, _, _, _, rfl, rfl⟩
  | noFrame d => exact closes (exec_noFrame free h d)
  | invalidSequence d => exact closes (exec_invalidSequence free h)
  | refusedCode => exact closes (exec_refusedCode free h.1 h.2.1 h.2.2)
  | _ => exact gated h

/-- A frame of another command, or one that fails a check, is not that of a RESET PART that is taken. -/
theorem not_closesReset_of_frames {c : Command} {s : State} (f : framesCommand c s = true)
    (h : c = .resetPart → gate c s ≠ none) (i : Instr) : ¬ closesReset s i := by
  rintro ⟨⟨frames, gated⟩, -⟩
  obtain rfl := framesCommand_unique f frames
  exact h rfl gated

theorem not_closesReset {s : State} {i : Instr} (h : endsUndispatched s i) : ¬ closesReset s i := by
  rintro ⟨t, ⟨n, rfl⟩ | rfl⟩
  all_goals
    obtain ⟨c, -, frames, fails⟩ := h
    obtain rfl := framesCommand_unique frames t.1
    exact fails t.2

theorem row_ne_resetnAssert (c : Command) (p : Pins) : c.row p ≠ .resetnAssert := by
  cases c <;> nofun

theorem ne_resetnAssert {s : State} {i : Instr} (h : endsUndispatched s i) : i ≠ .resetnAssert := by
  rintro rfl
  obtain ⟨c, row, -⟩ := h
  exact row_ne_resetnAssert c s.pins row.symm

/-! ### What the queue holds of the status record -/

/-- The status record has been offered to the queue of s, with these words: a copy that has not begun is replaced, else a new
copy is queued, else the record is dirty (R154). -/
structure StatusOffered (words : List Word) (s t : State) : Prop where
  replaced : (∃ r ∈ s.pu.queue, r.id = .status ∧ r.begun = false) →
    t.pu.queue = s.pu.queue.map fun r => if r.id = .status ∧ r.begun = false then { r with words := words } else r
  queued : (∀ r ∈ s.pu.queue, r.id = .status → r.begun = true) → s.pu.layoutDefined = true → queueLength s.pu.queue ≤ 20 →
    t.pu.queue = s.pu.queue ++ [{ id := .status, addr := recordAddr s.pu .status, words := words, begun := false }]
  refused : (∀ r ∈ s.pu.queue, r.id = .status → r.begun = true) →
    (s.pu.layoutDefined = false ∨ 20 < queueLength s.pu.queue) → t.pu.queue = s.pu.queue ∧ t.ru.dirty.status = true

/-- With no copy that has not begun, an offer asks for room. -/
theorem offer_unqueued {id : RecordId} {s : State} (h : ∀ r ∈ s.pu.queue, r.id = id → r.begun = true) :
    offer id s = (enqueueRecord id s).getD (markDirty id true s) := by
  have none : s.pu.queue.any (QueuedRecord.isCopy id) = false := by
    refine List.any_eq_false.mpr fun r m copy => ?_
    obtain ⟨name, fresh⟩ := (isCopy_iff id r).mp copy
    rw [h r m name] at fresh
    cases fresh
  unfold offer copyState
  rw [none, if_neg Bool.false_ne_true]
  split
  · next e => split at e <;> cases e
  all_goals rfl

theorem accepts_status_iff (s : State) : accepts s.pu (recordWords s.freeBits s .status).length = true ↔
    s.pu.layoutDefined = true ∧ queueLength s.pu.queue ≤ 20 := by
  have size : (recordWords s.freeBits s .status).length = 12 := rfl
  rw [accepts_iff, size]
  exact and_congr_right fun _ => by omega

theorem offer_statusOffered {s : State} (w : wholeCopies .status s) :
    StatusOffered (recordWords s.freeBits s .status) s (offer .status s) where
  replaced copy := by
    rw [offer_queued copy, replaceQueued_same_length w]
    rfl
  queued begun layout room := by
    rw [offer_unqueued begun, enqueueRecord_of_accepts ((accepts_status_iff s).mpr ⟨layout, room⟩)]
    rfl
  refused begun full := by
    have refused : ¬ accepts s.pu (recordWords s.freeBits s .status).length = true := by
      rw [accepts_status_iff]
      rintro ⟨layout, room⟩
      obtain undefined | long := full
      · rw [layout] at undefined
        cases undefined
      · omega
    rw [offer_unqueued begun, enqueueRecord_of_not_accepts refused]
    exact ⟨rfl, rfl⟩

/-- A round that changes the status record alone offers it alone, while no traced event awaits TRACE. -/
theorem report_statusOnly {s t : State} (changed : statusChanged s t = true) (directory : s.tu.directory = t.tu.directory)
    (await : t.ru.traceAwait = false) : report {} s t = offer .status t := by
  obtain ⟨q, d, f, form⟩ := offer_form .status t
  have same : (s.tu.directory != t.tu.directory) = false := bne_eq_false_iff_eq.mpr directory
  have offered : report {} s t = raiseTrace (offer .status t) := by
    rw [report_eq]
    show raiseTrace (offerIf (s.tu.directory != t.tu.directory) .directory (offerIf (statusChanged s t) .status t)) = _
    rw [changed, same]
    rfl
  rw [offered]
  unfold raiseTrace
  rw [form]
  simp only [await, Bool.false_and, Bool.false_eq_true, if_false]

theorem StatusOffered.congr {words : List Word} {s t u v : State} (h : StatusOffered words u v) (pu : u.pu = s.pu)
    (queue : t.pu.queue = v.pu.queue) (dirty : t.ru.dirty = v.ru.dirty) : StatusOffered words s t := by
  obtain ⟨replaced, queued, refused⟩ := h
  rw [pu, ← queue] at replaced queued refused
  rw [← dirty] at refused
  exact ⟨replaced, queued, refused⟩

theorem recordWords_withCd (f : FreeBits) {s : State} {y : CommandDecoder} (h : y.tally = s.cd.tally) :
    recordWords f (s.withCd y) .status = recordWords f s .status := by
  show [field 0 16 y.tally.toNat ||| _ ||| _, _, _, _, _, _, _, _, _, _, _] ++ _ = _
  rw [h]
  rfl

/-- A frame that ends undispatched offers the status record as it then stands. -/
theorem undispatched_offers {s : State} (w : wholeCopies .status s) (await : s.ru.traceAwait = false) (m : Memory)
    (x : DecoderState) (code : Byte) (o : FrameOutcome) {y : CommandDecoder} (tally : y.tally = s.cd.tally + 1) :
    ∃ f, StatusOffered (recordWords f (undispatched m x code o y s) .status) s (undispatched m x code o y s) := by
  have recorded := recordOutcome_eq code o (setDecoder x (s.withMem m))
  unfold undispatched
  generalize recordOutcome code o (setDecoder x (s.withMem m)) = u at recorded
  have advanced : u.cd.tally = s.cd.tally + 1 := by rw [recorded]; rfl
  have pu : u.pu = s.pu := by rw [recorded]; rfl
  have changed : statusChanged (s.withMem m) u = true := Bool.not_eq_false _ ▸ not_same_of_tally (s := s.withMem m) advanced
  have offered : report {} (s.withMem m) u = offer .status u :=
    report_statusOnly changed (by rw [recorded]; rfl) (by rw [recorded]; exact await)
  have whole : wholeCopies .status u := w.congr (congrArg PathUnit.queue pu)
  refine ⟨u.freeBits, ?_⟩
  have cd : (offer .status u).cd = u.cd := (offer_within .status u).cd rfl
  rw [offered, recordWords_withCd _ (by rw [cd, advanced, tally]), recordWords_offer]
  exact (offer_statusOffered whole).congr pu rfl rfl

/-! ### Records that are shown -/

theorem taskResult_codes : ∀ x ∈ [(TaskResult.done, 0), (.badTable, 1), (.damaged, 2), (.wrongMould, 3), (.wrongCount, 4)],
    x.1.code.toNat = x.2 := by decide

/-- A row that changes a record shows it. -/
theorem exec_shows_both {i : Instr} {s t : State} (asserts : i ≠ .resetnAssert) (reset : ¬ closesReset s i)
    (row : exec i s = .next t) :
    (wholeCopies .status s → (∃ f, statusFields f s ≠ statusFields f t) → Shown .status t) ∧
      (wholeCopies .directory s → s.tu.directory ≠ t.tu.directory → Shown .directory t) := by
  refine ⟨fun w ⟨f, differs⟩ => ?_, fun w differs => exec_shows (.inr rfl) asserts reset row w differs⟩
  exact exec_shows (.inl rfl) asserts reset row w fun same => differs (statusFields_same same f).symm

theorem undispatched_shown {s : State} (free : writesFreely s) (w : wholeCopies .status s) {i : Instr}
    (h : endsUndispatched s i) : ∃ t, exec i s = .next t ∧ Shown .status t := by
  obtain ⟨m, x, code, o, y, tally, row⟩ := exec_undispatched free h
  exact ⟨_, row, exec_shows (.inl rfl) (ne_resetnAssert h) (not_closesReset h) row w (not_same_of_tally tally)⟩

theorem command_shown {s : State} (free : writesFreely s) (w : wholeCopies .status s) {c : Command} (hc : c ≠ .resetPart)
    (frames : framesCommand c s = true) : ∃ t, exec (c.row s.pins) s = .next t ∧ Shown .status t := by
  have other : ¬ closesReset s (c.row s.pins) := not_closesReset_of_frames frames (fun e => absurd e hc) _
  exact ⟨_, exec_row c s, exec_shows (.inl rfl) (row_ne_resetnAssert c _) other (exec_row c s) w
    (not_same_of_tally (commandRow_tally free hc frames))⟩

/-- Settles O18: the words field by field; every row by its effect; and a frame that ends advances the tally, which is a field
of the status record. -/
theorem changesAreShownInTheRecords : Obligations.ChangesAreShownInTheRecords := by
  refine ⟨spellsStatus, kind_eq, taskResult_codes, fun i s t asserts reset row => exec_shows_both asserts reset row,
    fun s free w => ⟨fun i h => undispatched_shown free w h, fun c hc frames => command_shown free w hc frames,
      fun await i h => ?_⟩⟩
  obtain ⟨m, x, code, o, y, tally, row⟩ := exec_undispatched free h
  obtain ⟨f, replaced, queued, refused⟩ := undispatched_offers w await m x code o tally
  exact ⟨_, f, row, replaced, queued, refused⟩

end Sys2Proof.Machine
end

section
/-! SET FRAMING and DEFINE RING: their checks as statements about numbers, and what each leaves. -/

namespace Sys2Proof.Machine

/-! ### Halves of a word and clamped numbers -/

theorem lowerHalf_eq (w : Word) : lowerHalf w = BitVec.ofNat 16 w.toNat := by
  refine BitVec.eq_of_toNat_eq ?_
  unfold lowerHalf
  rw [bits_low, BitVec.toNat_ofNat, BitVec.toNat_ofNat, Nat.mod_mod]

theorem upperHalf_eq (w : Word) : upperHalf w = BitVec.ofNat 16 (w.toNat / 2 ^ 16) := by
  refine BitVec.eq_of_toNat_eq ?_
  unfold upperHalf bits
  rw [BitVec.toNat_ofNat, BitVec.toNat_ofNat, Nat.mod_mod]

theorem clampTo_eq_min {lo hi : Nat} (h : lo ≤ hi) (v : Nat) : clampTo lo hi v = min (max lo v) hi := by
  unfold clampTo
  split
  · omega
  · split <;> omega

/-! ### SET FRAMING (R40) -/

theorem framingOk_iff (s : State) :
    framingOk s = true ↔ (param1 s).toNat < 2 ^ 16 ∧ (param2 s).toNat ≤ 1 ∧ (param3 s).toNat ≤ 1 := by
  have := (param1 s).isLt
  simp only [framingOk, bits, Bool.and_eq_true, beq_iff_eq, decide_eq_true_eq, and_assoc]
  omega

/-- The settings that SET FRAMING asks for. -/
theorem framingOf_eq (s : State) : framingOf s =
    { sync := BitVec.ofNat 16 (param1 s).toNat
      poly := if (param2 s).toNat = 0 then .polyA else .polyB
      preset := if (param3 s).toNat = 0 then .zeros else .ones
      blockTimeout := min (max 100 (param4 s).toNat) 10000
      staleTime := min (max 1 (param5 s).toNat) 1000 } := by
  rw [framingOf, lowerHalf_eq, clampTo_eq_min (by decide), clampTo_eq_min (by decide)]

theorem framingClamped_eq (s : State) : framingClamped s =
    decide ((framingOf s).blockTimeout ≠ (param4 s).toNat ∨ (framingOf s).staleTime ≠ (param5 s).toNat) := by
  rw [Bool.eq_iff_iff]
  simp only [framingClamped, Bool.or_eq_true, bne_iff_ne, decide_eq_true_eq]

/-- The settings taken, and PARAM_ADJ set by a clamp. -/
def framingTaken (s : State) : State :=
  { s with
    sf := { s.sf with framing := framingOf s }
    ru := { s.ru with paramAdj := s.ru.paramAdj || framingClamped s } }

theorem own_setFraming_refused {s : State} (h : ¬ framingOk s = true) : own .setFraming s = refuse .refusedParam s :=
  if_pos (Bool.eq_false_iff.mpr h)

theorem own_setFraming_taken {s : State} (h : framingOk s = true) : own .setFraming s = accept (framingTaken s) := by
  refine (if_neg (by rw [h]; decide)).trans (congrArg accept ?_)
  unfold framingTaken
  cases framingClamped s with
  | true => rw [if_pos rfl, Bool.or_true]; rfl
  | false => rw [if_neg Bool.false_ne_true, Bool.or_false]; rfl

/-- Settles O26. -/
theorem setFramingTakesItsSettings : Obligations.SetFramingTakesItsSettings := by
  intro s free t ok timeout stale u
  refine ⟨_, rfl, fun bad => ?_, fun good => ?_⟩
  · exact row_refused s.pins free t (own_setFraming_refused fun k => bad ((framingOk_iff s).mp k))
  · have row := row_done s.pins free t (own_setFraming_taken (s := closed s) ((framingOk_iff s).mpr good))
    have clamped : framingClamped s = decide (timeout ≠ (param4 s).toNat ∨ stale ≠ (param5 s).toNat) := by
      rw [framingClamped_eq, framingOf_eq]
    rw [← framingOf_eq, ← clamped]
    exact row

/-! ### DEFINE RING (R39) -/

/-- Check 4 of R39. -/
theorem channelTaken_eq_false_iff (sf : StreamFramer) (r c : Fin 8) : channelTaken sf r c = false ↔
    ∀ q : Fin 8, q ≠ r → sf.rings[q].defined = true → sf.rings[q].channel ≠ c := by
  simp [channelTaken, otherRings, mem_allChannels]

theorem ringShapeOk_iff (base : Word) (blocks : Nat) : ringShapeOk base blocks = true ↔
    2 ≤ blocks ∧ blocks ≤ 1024 ∧ base.toNat < 2 ^ 24 ∧ base.toNat % 0x10 = 0 ∧ base.toNat + 272 * blocks - 1 ≤ 0xFFFFFF := by
  simp only [ringShapeOk, Bool.and_eq_true, addressFits_iff, beq_iff_eq, decide_eq_true_eq, bits_low, and_assoc,
    Nat.reducePow]

/-- Checks 3 to 5 of R39. -/
theorem ringFits_iff (s : State) (r c : Fin 8) (base : Word) (blocks : Nat) : ringFits s r c base.toNat blocks ↔
    ringShapeOk base blocks = true ∧ channelTaken s.sf r c = false ∧ windowTaken s r (newRingWindow base blocks) = false := by
  rw [ringShapeOk_iff, channelTaken_eq_false_iff, windowTaken_eq_false_iff]
  simp only [ringFits, newRingWindow, and_assoc]

/-- The checks of DEFINE RING in order. -/
theorem own_defineRing_eq {s : State} {r c : Fin 8} (hr : (param1 s).toNat = r.val) (hc : (param2 s).toNat = c.val) :
    own .defineRing s =
      if s.sf.rings[r].state ≠ .off then refuse .refusedState s
      else if ringShapeOk (param3 s) (param4 s).toNat = false then refuse .refusedParam s
      else if channelTaken s.sf r c = true then refuse .refusedParam s
      else if windowTaken s r (newRingWindow (param3 s) (param4 s).toNat) = true then refuse .refusedParam s
      else accept (putRing r (definedRing c (param3 s) (param4 s).toNat) s) := by
  have er : ringParam (param1 s) = r := fin_of_val hr
  have ec : ringParam (param2 s) = c := fin_of_val hc
  show ownDefineRing s = _
  unfold ownDefineRing
  rw [er, ec, hr, hc]
  exact if_neg (by omega)

theorem own_defineRing_unfit {s : State} {r c : Fin 8} (hr : (param1 s).toNat = r.val) (hc : (param2 s).toNat = c.val)
    (off : s.sf.rings[r].state = .off) (h : ¬ ringFits s r c (param3 s).toNat (param4 s).toNat) :
    own .defineRing s = refuse .refusedParam s := by
  rw [own_defineRing_eq hr hc, if_neg (not_not.mpr off)]
  rw [ringFits_iff] at h
  split
  · rfl
  · next shape =>
    split
    · rfl
    · next channel =>
      split
      · rfl
      · next window => exact absurd ⟨by simpa using shape, by simpa using channel, by simpa using window⟩ h

theorem own_defineRing_fits {s : State} {r c : Fin 8} (hr : (param1 s).toNat = r.val) (hc : (param2 s).toNat = c.val)
    (off : s.sf.rings[r].state = .off) (h : ringFits s r c (param3 s).toNat (param4 s).toNat) :
    own .defineRing s = accept (putRing r (definedRing c (param3 s) (param4 s).toNat) s) := by
  obtain ⟨shape, channel, window⟩ := (ringFits_iff s r c _ _).mp h
  rw [own_defineRing_eq hr hc, if_neg (not_not.mpr off), if_neg (by rw [shape]; decide), if_neg (by rw [channel]; decide),
    if_neg (by rw [window]; decide)]

/-- Settles O23. -/
theorem defineRingBindsAWindow : Obligations.DefineRingBindsAWindow := by
  intro s free t
  refine ⟨_, rfl, fun high => row_refused s.pins free t (if_pos high), fun r c hr hc =>
    ⟨fun on => ?_, fun off unfit => ?_, fun off fits => ?_⟩⟩
  · exact row_refused s.pins free t ((own_defineRing_eq (s := closed s) hr hc).trans (if_pos on))
  · exact row_refused s.pins free t (own_defineRing_unfit (s := closed s) hr hc off unfit)
  · have row := row_done s.pins free t (own_defineRing_fits (s := closed s) hr hc off fits)
    rw [← addressOf_eq]
    exact row

end Sys2Proof.Machine
end

section
/-! RING ON, RING OFF and RESET RING: each puts the ring's record and drops its channel, which is left without a covered-to
time. -/

namespace Sys2Proof.Machine

/-! ### A channel that is dropped -/

/-- R73: a channel that has finished no block has no covered-to time. -/
theorem coveredTo_of_unfinished {s : State} {c : Fin 8} (h : (channelOf s c).lastFinished = none) : coveredTo s c = none := by
  unfold coveredTo
  dsimp only
  rw [h]
  split <;> rfl

/-- The channel in its next state, without a finished block or a covered-to time. -/
def channelDropped (next : ChannelState) (c : Fin 8) (s : State) : State :=
  { s with hx := { s.hx with
    channels := s.hx.channels.set c { s.hx.channels[c] with state := next, lastFinished := none, coveredTo := none } } }

theorem channelOf_dropChannel (next : ChannelState) (c : Fin 8) (s : State) :
    channelOf (dropChannel next c s) c = { s.hx.channels[c] with state := next, lastFinished := none } := by
  simp [channelOf, dropChannel, putChannel]

theorem withCovered_dropChannel (c : Command) (o : FrameOutcome) (next : ChannelState) (ch : Fin 8) (s : State) :
    withCovered ch none (withOutcome c o (dropChannel next ch s)) = withOutcome c o (channelDropped next ch s) := by
  rw [withCovered_none]
  simp [withOutcome, dropChannel, putChannel, channelOf, channelDropped, State.withHx]

/-- The row of a ring command that drops the ring's channel. -/
theorem row_ring_dropped {c : Command} {s v : State} {next : ChannelState} {ch : Fin 8} (free : writesFreely s)
    (t : taken c s)
    (e : own c (closed s) = { outcome := .done, state := dropChannel next ch v, follow := .channel ch })
    (hc : c ≠ .resetPart := by simp) :
    Located (withOutcome c .done (channelDropped next ch v)) (commandRow c s.pins s) ∧
      (v.hx.channels[ch].coveredTo = none →
        PostedFrom (withOutcome c .done (channelDropped next ch v)) (commandRow c s.pins s)) := by
  have row := row_ring s.pins free t e hc
  have channel := channelOf_dropChannel next ch v
  have gone : coveredTo (dropChannel next ch v) ch = none := coveredTo_of_unfinished (by rw [channel])
  rw [gone, withCovered_dropChannel, channel] at row
  exact row

/-! ### RING ON (R41) -/

theorem own_ringOn_eq {s : State} {r : Fin 8} (hr : (param1 s).toNat = r.val) : own .ringOn s =
    if s.sf.rings[r].defined = false ∨ s.sf.rings[r].state ≠ .off then refuse .refusedState s
    else { accept (ringToHunt r s) with follow := .channel s.sf.rings[r].channel } := by
  show ownRingOn s = _
  unfold ownRingOn
  rw [show ringParam (param1 s) = r from fin_of_val hr, hr]
  exact if_neg (by omega)

/-- Settles O24. -/
theorem ringOnStartsHunting : Obligations.RingOnStartsHunting := by
  intro s free t
  refine ⟨_, rfl, fun high => row_refused s.pins free t (if_pos high), fun r hr =>
    ⟨fun bad => ?_, fun defined off => ?_⟩⟩
  · exact row_refused s.pins free t ((own_ringOn_eq (s := closed s) hr).trans (if_pos bad))
  · have fine : ¬ (s.sf.rings[r].defined = false ∨ s.sf.rings[r].state ≠ .off) :=
      fun bad => bad.elim (by rw [defined]; decide) (absurd off)
    exact row_ring_dropped free t ((own_ringOn_eq (s := closed s) hr).trans (if_neg fine))

/-! ### RING OFF and RESET RING (R42, R43) -/

theorem abandonBlock_eq (c : Fin 8) (s : State) :
    abandonBlock c s = putBlock (s.hx.block.filter fun w => w.entry.channel != c) s := by
  have keep : putBlock s.hx.block s = s := rfl
  unfold abandonBlock
  cases h : s.hx.block with
  | none => exact (h ▸ keep).symm
  | some w =>
    by_cases e : w.entry.channel = c
    · simp [e, Option.filter]
    · rw [h] at keep
      simp [e, Option.filter, keep]

/-- What a ring that is turned off or restarted leaves: its capture, its entries and its channel's block in extraction are
discarded. -/
def ringDiscarded (r : Fin 8) (x : Ring) (s : State) : State :=
  { s with
    sf := { s.sf with rings := s.sf.rings.set r x, queue := s.sf.queue.filter fun e => e.ring != r }
    hx := { s.hx with block := s.hx.block.filter fun w => w.entry.channel != s.sf.rings[r].channel } }

theorem ringToOff_eq (r : Fin 8) (s : State) : ringToOff r s =
    dropChannel .idle s.sf.rings[r].channel (ringDiscarded r (silentRing s.sf.rings[r]) s) := by
  unfold ringToOff
  dsimp only
  rw [abandonBlock_eq]
  rfl

theorem ringRestart_eq (r : Fin 8) (s : State) : ringRestart r s =
    dropChannel .settling s.sf.rings[r].channel (ringDiscarded r (huntingRing s.sf.rings[r] s.localTime) s) := by
  unfold ringRestart
  dsimp only
  rw [abandonBlock_eq]
  rfl

theorem own_ringOff_eq {s : State} {r : Fin 8} (hr : (param1 s).toNat = r.val) : own .ringOff s =
    if s.sf.rings[r].defined = false then refuse .refusedState s
    else if s.sf.rings[r].state = .off then accept s
    else { accept (ringToOff r s) with follow := .channel s.sf.rings[r].channel } := by
  show ownRingOff s = _
  unfold ownRingOff
  rw [show ringParam (param1 s) = r from fin_of_val hr, hr]
  exact if_neg (by omega)

theorem own_resetRing_eq {s : State} {r : Fin 8} (hr : (param1 s).toNat = r.val) : own .resetRing s =
    if s.sf.rings[r].defined = false ∨ s.sf.rings[r].state = .off then refuse .refusedState s
    else { accept (ringRestart r s) with follow := .channel s.sf.rings[r].channel } := by
  show ownResetRing s = _
  unfold ownResetRing
  rw [show ringParam (param1 s) = r from fin_of_val hr, hr]
  exact if_neg (by omega)

theorem own_ringOff_on {s : State} {r : Fin 8} (hr : (param1 s).toNat = r.val) (defined : s.sf.rings[r].defined = true)
    (on : s.sf.rings[r].state ≠ .off) : own .ringOff s =
      { outcome := .done
        state := dropChannel .idle s.sf.rings[r].channel (ringDiscarded r (silentRing s.sf.rings[r]) s)
        follow := .channel s.sf.rings[r].channel } := by
  rw [own_ringOff_eq hr, if_neg (by rw [defined]; decide), if_neg on, ringToOff_eq]
  rfl

theorem own_resetRing_on {s : State} {r : Fin 8} (hr : (param1 s).toNat = r.val) (defined : s.sf.rings[r].defined = true)
    (on : s.sf.rings[r].state ≠ .off) : own .resetRing s =
      { outcome := .done
        state := dropChannel .settling s.sf.rings[r].channel (ringDiscarded r (huntingRing s.sf.rings[r] s.localTime) s)
        follow := .channel s.sf.rings[r].channel } := by
  rw [own_resetRing_eq hr, if_neg fun bad => bad.elim (by rw [defined]; decide) on, ringRestart_eq]
  rfl

/-- Settles O25. -/
theorem ringOffAndResetRingDiscard : Obligations.RingOffAndResetRingDiscard := by
  intro s free u
  refine ⟨fun t => ⟨_, rfl, fun high => row_refused s.pins free t (if_pos high), fun r hr =>
    ⟨fun undefined => ?_, fun defined off => ?_, fun defined on => ?_⟩⟩,
    fun t => ⟨_, rfl, fun high => row_refused s.pins free t (if_pos high), fun r hr =>
    ⟨fun bad => ?_, fun defined on => ?_⟩⟩⟩
  · exact row_refused s.pins free t ((own_ringOff_eq (s := closed s) hr).trans (if_pos undefined))
  · have fine : ¬ s.sf.rings[r].defined = false := by rw [defined]; decide
    exact row_done s.pins free t ((own_ringOff_eq (s := closed s) hr).trans ((if_neg fine).trans (if_pos off)))
  · exact row_ring_dropped free t (own_ringOff_on (s := closed s) hr defined on)
  · exact row_refused s.pins free t ((own_resetRing_eq (s := closed s) hr).trans (if_pos bad))
  · exact row_ring_dropped free t (own_resetRing_on (s := closed s) hr defined on)

end Sys2Proof.Machine
end

section
/-! Writes of a ring: what each does in each state of the ring (R44 to R46). -/

namespace Sys2Proof.Machine

/-! ### A write that reaches its ring -/

/-- Nothing protects a ring's window, so the write is performed and copied to SF (R1, R3, R7). -/
theorem upstreamWrite_ring {s : State} {w : WordAddr} {r : Fin 8} {off : Nat} (free : writesFreely s)
    (place : placeOf s.pu s.sf w = .ring r off) (be : Enables) (d : Word) :
    exec (.upstreamWrite w be d) s = .next (ringWrite r off be d { s with mem := s.mem.writeWord w be d }) := by
  have open_ : protection s.tu (placeOf s.pu s.sf w) = none := by rw [place]; rfl
  rw [upstreamWrite_arrives free, writeArrives_unprotected open_, place]
  rfl

/-- The conditions of a sync write (R44). -/
def SyncWrite (f : Framing) (off : Nat) (be : Enables) (d : Word) : Prop :=
  be = fullEnables ∧ off % 68 = 0 ∧ d.toNat / 2 ^ 16 = f.sync.toNat

theorem isSyncWrite_iff (f : Framing) (off : Nat) (be : Enables) (d : Word) :
    isSyncWrite f off be d = true ↔ SyncWrite f off be d := by
  have upper : upperHalf d = f.sync ↔ d.toNat / 2 ^ 16 = f.sync.toNat := by
    have := d.isLt
    rw [upperHalf_eq, ← BitVec.toNat_inj, BitVec.toNat_ofNat]
    omega
  simp only [isSyncWrite, SyncWrite, Bool.and_eq_true, beq_iff_eq, upper, and_assoc]

theorem channelMatches_iff (x : Ring) (d : Word) : channelMatches x d = true ↔ d.toNat % 8 = x.channel.val := by
  simp only [channelMatches, blockChannel, bits_low, beq_iff_eq, Nat.reducePow]

/-! ### Refusals (R54) -/

/-- The refusal counted and the ring in its next state, before anything is posted. -/
theorem refuseBlock_posted (why : RefuseReason) (r : Fin 8) (next : RingState) (s : State) :
    PostedFrom (counted [.blockRefused why] (putRingState r next s)) (refuseBlock why false r next s) :=
  report_posted {} s _ rfl

/-- The ring fallen to HUNT by a refusal that makes STREAM pending, before anything is posted. -/
def fallen (why : RefuseReason) (r : Fin 8) (s : State) : State :=
  let v := counted [.blockRefused why] (putRingState r .hunt s)
  { v with ru := { v.ru with causes := s.ru.causes ||| 0x10 } }

theorem refuseBlock_fallen (why : RefuseReason) (r : Fin 8) (s : State) :
    PostedFrom (fallen why r s) (refuseBlock why true r .hunt s) :=
  report_posted {} s _ rfl

/-! ### HUNT (R44) -/

/-- What a write does to the state v when it is handled under HUNT: the framing, the ring's channel and the time are those of s. -/
def Hunted (s : State) (r : Fin 8) (off : Nat) (be : Enables) (d : Word) (v t : State) : Prop :=
  (¬ SyncWrite s.sf.framing off be d → t = v) ∧
  (SyncWrite s.sf.framing off be d → d.toNat % 8 = s.sf.rings[r].channel.val →
    PostedFrom (putRingState r (.locked (.collecting (newCapture s.sf.framing (off / 68) d s.localTime))) v) t) ∧
  (SyncWrite s.sf.framing off be d → d.toNat % 8 ≠ s.sf.rings[r].channel.val →
    PostedFrom (counted [.blockRefused .badHeader] (putRingState r .hunt v)) t)

theorem huntWrite_hunted (r : Fin 8) (off : Nat) (be : Enables) (d : Word) {s v : State}
    (framing : v.sf.framing = s.sf.framing) (channel : v.sf.rings[r].channel = s.sf.rings[r].channel)
    (time : v.localTime = s.localTime) : Hunted s r off be d v (huntWrite r off be d v) := by
  rw [Hunted, ← framing, ← channel, ← time, ← isSyncWrite_iff]
  unfold huntWrite
  refine ⟨fun quiet => if_neg quiet, fun sync matches_ => ?_, fun sync other => ?_⟩
  · rw [if_pos sync, if_pos ((channelMatches_iff (ringOf v r) d).mpr matches_)]
    exact report_posted {} v _ rfl
  · rw [if_pos sync, if_neg (mt (channelMatches_iff (ringOf v r) d).mp other)]
    exact refuseBlock_posted .badHeader r .hunt v

theorem fallen_ring (why : RefuseReason) (r : Fin 8) (s : State) :
    (fallen why r s).sf.rings[r] = { s.sf.rings[r] with state := .hunt } := by
  simp [fallen, counted, putRingState, putRing, ringOf]

/-- A refusal that falls to HUNT, and the write handled again there (log 24). -/
theorem fallAndHunt_hunted (why : RefuseReason) (r : Fin 8) (off : Nat) (be : Enables) (d : Word) (s : State) :
    ∃ v, PostedFrom (fallen why r s) v ∧ Hunted s r off be d v (fallAndHunt why r off be d s) := by
  have posted := refuseBlock_fallen why r s
  have sf := posted.within.sf rfl
  refine ⟨_, posted, huntWrite_hunted r off be d ?_ ?_ posted.within.localTime⟩
  · rw [sf]
    rfl
  · rw [sf, fallen_ring]

/-! ### The write, by the state of the ring -/

theorem ringWrite_collecting {r : Fin 8} {s : State} {c : Capture} (h : s.sf.rings[r].state = .locked (.collecting c)) (off : Nat)
    (be : Enables) (d : Word) : ringWrite r off be d s = collectingWrite r c off be d s := by
  unfold ringWrite
  rw [show (ringOf s r).state = .locked (.collecting c) from h]

theorem ringWrite_waiting {r : Fin 8} {s : State} {p : Nat} (h : s.sf.rings[r].state = .locked (.waiting p)) (off : Nat)
    (be : Enables) (d : Word) : ringWrite r off be d s = waitingWrite r p off be d s := by
  unfold ringWrite
  rw [show (ringOf s r).state = .locked (.waiting p) from h]

/-- The word that a capture expects reaches it. -/
theorem collectingWrite_expected (r : Fin 8) (c : Capture) (d : Word) (s : State) :
    collectingWrite r c (68 * c.position + c.nextWord) fullEnables d s =
      if c.nextWord < 67 then takeWord r c d s else closeCapture r c d s :=
  (if_neg (not_not.mpr rfl)).trans (if_neg (not_not.mpr rfl))

/-- A ring that waits takes a sync write at the next position (R46). -/
theorem waitingWrite_sync {r : Fin 8} {s : State} {p off : Nat} {be : Enables} {d : Word}
    (sync : SyncWrite s.sf.framing off be d) (place : off = 68 * ((p + 1) % s.sf.rings[r].blocks)) :
    waitingWrite r p off be d s =
      if channelMatches s.sf.rings[r] d = true then startCapture r ((p + 1) % s.sf.rings[r].blocks) d s
      else refuseBlock .badHeader true r .hunt s := by
  refine if_pos ?_
  rw [Bool.and_eq_true, isSyncWrite_iff, beq_iff_eq]
  exact ⟨sync, place⟩

theorem waitingWrite_other {r : Fin 8} {s : State} {p off : Nat} {be : Enables} {d : Word}
    (h : ¬ (SyncWrite s.sf.framing off be d ∧ off = 68 * ((p + 1) % s.sf.rings[r].blocks))) :
    waitingWrite r p off be d s = fallAndHunt .order r off be d s := by
  refine if_neg ?_
  rw [Bool.and_eq_true, isSyncWrite_iff, beq_iff_eq]
  exact h

/-- Settles O46. -/
theorem ringWritesFollowTheStream : Obligations.RingWritesFollowTheStream := by
  intro s w be d r off free place x sync written with_ begun hunted fell
  refine ⟨_, upstreamWrite_ring free place be d, fun off_ => ?_, fun hunt => ?_, fun c collecting => ?_, fun p waiting => ?_⟩
  · unfold ringWrite
    rw [show (ringOf written r).state = .off from off_]
  · unfold ringWrite
    rw [show (ringOf written r).state = .hunt from hunt]
    exact huntWrite_hunted (s := s) (v := written) r off be d rfl rfl rfl
  · rw [ringWrite_collecting (s := written) collecting]
    refine ⟨fun partial_ => ?_, fun full other => ?_, fun full expected early => ?_⟩
    · rw [collectingWrite, if_pos partial_]
      exact fallAndHunt_hunted .partialWrite r off be d written
    · rw [collectingWrite, if_neg (not_not.mpr full), if_pos other]
      exact fallAndHunt_hunted .order r off be d written
    · rw [full, expected, collectingWrite_expected, if_pos early]
      rfl
  · rw [ringWrite_waiting (s := written) waiting]
    intro next
    refine ⟨fun sync place matches_ => ?_, fun sync place other => ?_, fun neither => ?_⟩
    · rw [waitingWrite_sync (s := written) sync place, if_pos ((channelMatches_iff x d).mpr matches_)]
      exact report_posted {} written _ rfl
    · rw [waitingWrite_sync (s := written) sync place, if_neg (mt (channelMatches_iff x d).mp other)]
      exact refuseBlock_fallen .badHeader r written
    · rw [waitingWrite_other (s := written) neither]
      exact fallAndHunt_hunted .order r off be d written

end Sys2Proof.Machine
end

section
/-! Word 67: the check of a finished block, and its acceptance (R48 to R50). -/

namespace Sys2Proof.Machine

/-! ### The fields of a finished block -/

theorem blockPhase_eq (w : Word) : blockPhase w = BitVec.ofNat 3 (w.toNat / 16) := by
  refine BitVec.eq_of_toNat_eq ?_
  simp only [blockPhase, bits, Nat.reducePow]
  rw [BitVec.toNat_ofNat, BitVec.toNat_ofNat, Nat.mod_mod]

theorem samplesOf_eq (w : Word) : samplesOf w = [BitVec.ofNat 16 w.toNat, BitVec.ofNat 16 (w.toNat / 2 ^ 16)] := by
  rw [samplesOf, lowerHalf_eq, upperHalf_eq]

/-- The entry of a good block, its fields read from the words. -/
theorem acceptedBlock_eq (r : Fin 8) (x : Ring) (c : Capture) (now : Time) : acceptedBlock r x c now =
    { ring := r, channel := x.channel, sequence := BitVec.ofNat 16 ((bufferWord c 1).toNat / 2 ^ 16)
      cycle := BitVec.ofNat 16 (bufferWord c 1).toNat, phase := BitVec.ofNat 3 ((bufferWord c 0).toNat / 16)
      timestamp := bufferWord c 2
      mark := continuityMark x (BitVec.ofNat 16 ((bufferWord c 1).toNat / 2 ^ 16)) (bufferWord c 2)
      acceptedAt := now
      samples := (c.words.drop 3).flatMap fun v => [BitVec.ofNat 16 v.toNat, BitVec.ofNat 16 (v.toNat / 2 ^ 16)] } := by
  rw [acceptedBlock, upperHalf_eq, lowerHalf_eq, blockPhase_eq, blockSamples, funext samplesOf_eq]

theorem crc_eq_lowerHalf_iff (crc : Half) (d : Word) : crc = lowerHalf d ↔ crc.toNat = d.toNat % 2 ^ 16 := by
  rw [lowerHalf_eq, ← BitVec.toNat_inj, BitVec.toNat_ofNat]

/-! ### A refused block -/

theorem putRingState_putRing (r : Fin 8) (x : Ring) (st : RingState) (s : State) :
    putRingState r st (putRing r x s) = putRing r { x with state := st } s := by
  simp [putRingState, putRing, ringOf, State.withSf]

theorem refuseQueueFull_posted (r : Fin 8) (c : Capture) (s : State) :
    PostedFrom (counted [.blockRefused .queueFull]
      (putRing r { s.sf.rings[r] with state := .locked (.waiting c.position), forced := true } s)) (refuseQueueFull r c s) := by
  have posted := refuseBlock_posted .queueFull r (.locked (.waiting c.position)) (putRing r { ringOf s r with forced := true } s)
  rw [putRingState_putRing] at posted
  exact posted

/-! ### An accepted block -/

/-- The occurrences of an accepted block (R158). -/
def acceptance (r : Fin 8) : BlockMark → List Occurrence
  | .continuous => [.blockAccepted r]
  | .sequence => [.blockAccepted r, .discontinuitySequence]
  | .timestamp => [.blockAccepted r, .discontinuityTimestamp]

theorem countMark_eq (m : BlockMark) (r : Fin 8) (s : State) :
    countMark m (countOccurrence (.blockAccepted r) s) = counted (acceptance r m) s := by
  cases m <;> simp only [acceptance, countMark, counted_cons, counted_nil]

/-- The block queued and counted, before anything is posted. -/
def blockAccepted (r : Fin 8) (x : Ring) (e : AcceptedBlock) (s : State) : State :=
  counted (acceptance r e.mark) { s with
    sf := { s.sf with rings := s.sf.rings.set r x, queue := s.sf.queue ++ [e] } }

theorem acceptBlock_eq (r : Fin 8) (c : Capture) (s : State) : acceptBlock r c s =
    let x := s.sf.rings[r]
    let e := acceptedBlock r x c s.localTime
    refreshCovered x.channel (report {} s (blockAccepted r (ringAfterAccept x c e) e s)) := by
  unfold acceptBlock
  dsimp only
  rw [countMark_eq]
  rfl

/-- A covered-to time refreshed after a round of postings, which change neither the rings nor the channels. -/
theorem PostedFrom.refreshCovered {u v : State} (h : PostedFrom u v) (c : Fin 8) :
    (coveredTo u c = u.hx.channels[c].coveredTo → PostedFrom u (refreshCovered c v)) ∧
      (coveredTo u c ≠ u.hx.channels[c].coveredTo →
        Located (putChannel c (u.hx.channels[c].cover (coveredTo u c)) u) (Machine.refreshCovered c v)) := by
  have channel : channelOf v c = channelOf u c := by
    unfold channelOf
    rw [h.within.hx rfl]
  have covered : coveredTo v c = coveredTo u c := by
    unfold coveredTo
    rw [channel, h.within.sf rfl]
  obtain ⟨located, same⟩ := refreshCovered_facts c v
  rw [covered] at located same
  refine ⟨fun stays => ?_, fun changed => ?_⟩
  · rw [same ((congrArg Channel.coveredTo channel).trans stays.symm)]
    exact h
  · have joined : withCovered c (coveredTo u c) u = putChannel c (u.hx.channels[c].cover (coveredTo u c)) u := if_neg changed
    rw [← joined]
    exact (withCovered_posted h c _).located.trans located

theorem acceptBlock_refreshed (r : Fin 8) (c : Capture) (s : State) :
    let x := s.sf.rings[r]
    let e := acceptedBlock r x c s.localTime
    let u := blockAccepted r (ringAfterAccept x c e) e s
    let y := s.hx.channels[x.channel]
    (coveredTo u x.channel = y.coveredTo → PostedFrom u (acceptBlock r c s)) ∧
      (coveredTo u x.channel ≠ y.coveredTo →
        Located (putChannel x.channel (y.cover (coveredTo u x.channel)) u) (acceptBlock r c s)) := by
  rw [acceptBlock_eq]
  exact (report_posted {} s _ rfl).refreshCovered _

/-! ### Word 67, by its check and the room in the queue (R48, R50) -/

theorem closeCapture_wrong {r : Fin 8} {c : Capture} {d : Word} (h : c.crc.toNat ≠ d.toNat % 2 ^ 16) (s : State) :
    PostedFrom (counted [.blockRefused .crc] (putRingState r (.locked (.waiting c.position)) s)) (closeCapture r c d s) := by
  rw [closeCapture, if_pos (mt (crc_eq_lowerHalf_iff _ _).mp h)]
  exact refuseBlock_posted .crc r _ s

theorem closeCapture_right {r : Fin 8} {c : Capture} {d : Word} (h : c.crc.toNat = d.toNat % 2 ^ 16) (s : State) :
    closeCapture r c d s = if s.sf.queue.length < 16 then acceptBlock r c s else refuseQueueFull r c s :=
  if_neg (not_not.mpr ((crc_eq_lowerHalf_iff _ _).mpr h))

/-- Settles O47. -/
theorem wordSixtySevenClosesTheBlock : Obligations.WordSixtySevenClosesTheBlock := by
  intro s w d r c free place collecting last x refused word sequence mark happened accepted
  have row := upstreamWrite_ring free place fullEnables d
  generalize written_eq : ({ s with mem := s.mem.writeWord w fullEnables d } : State) = written at row
  have close : ringWrite r (68 * c.position + 67) fullEnables d written = closeCapture r c d written := by
    rw [ringWrite_collecting (by rw [← written_eq]; exact collecting), ← last, collectingWrite_expected, if_neg (by omega)]
  have length : written.sf.queue.length = s.sf.queue.length := by rw [← written_eq]
  refine ⟨_, row.trans (congrArg _ close), fun wrong => ?_, fun right full => ?_, fun right room => ?_⟩
  · have posted := closeCapture_wrong (r := r) wrong written
    subst written_eq
    exact posted
  · rw [closeCapture_right right, if_neg (by omega)]
    have posted := refuseQueueFull_posted r c written
    subst written_eq
    exact posted
  · rw [closeCapture_right right, if_pos (by omega)]
    have refreshed := acceptBlock_refreshed r c written
    dsimp only at refreshed
    rw [acceptedBlock_eq] at refreshed
    subst written_eq
    exact refreshed

end Sys2Proof.Machine
end

section
/-! A word of a slot returns to TU: it is kept, and the last brings the judgement, which a sweep applies at a slot boundary. -/

namespace Sys2Proof.Machine

/-! ### A word of a slot (R133) -/

theorem keepSlotWord_early {d : Word} {s : State} (h : s.tu.slotWords.length < 255) : keepSlotWord d s =
    { s with tu := { s.tu with slotWords := s.tu.slotWords ++ [d], slotCrc := crcWord .polyB s.tu.slotCrc d } } := by
  rw [keepSlotWord, feedCheck, if_pos h]
  rfl

/-- The last word is kept, and not fed through the check register. -/
def lastKept (d : Word) (s : State) : State := { s with tu := { s.tu with slotWords := s.tu.slotWords ++ [d] } }

theorem keepSlotWord_last {d : Word} {s : State} (h : s.tu.slotWords.length = 255) : keepSlotWord d s = lastKept d s := by
  rw [keepSlotWord, feedCheck, if_neg (by omega)]
  rfl

theorem keepSlotWord_length (d : Word) (s : State) :
    (keepSlotWord d s).tu.slotWords.length = s.tu.slotWords.length + 1 := List.length_append

/-- Before the last word of the slot that is read, the next is asked for. -/
theorem slotWord_early {t : Task} {d : Word} {s : State} {n : Fin 12} (reads : readSlot s = some n)
    (h : s.tu.slotWords.length < 255) : slotWord t d s = slotWordKept n d s := by
  have more : (keepSlotWord d s).tu.slotWords.length < 256 := by rw [keepSlotWord_length]; omega
  have same : readSlot (keepSlotWord d s) = some n := reads
  unfold slotWord
  dsimp only
  rw [if_pos more, readOn, same]
  dsimp only
  rw [keepSlotWord_length, keepSlotWord_early h]
  rfl

/-- The judgement that the last word d brings. -/
def lastJudgement (d : Word) (s : State) : Judgement := judgeSlot s.tu.slotCrc (s.tu.slotWords ++ [d])

theorem slotWord_sweep {d : Word} {s : State} (h : s.tu.slotWords.length = 255) :
    slotWord .sweep d s = sweepJudged (lastJudgement d s) (lastKept d s) := by
  unfold slotWord
  dsimp only
  rw [if_neg (by rw [keepSlotWord_length]; omega), keepSlotWord_last h]
  rfl

theorem slotWord_mount {p : MountParams} {d : Word} {s : State} (h : s.tu.slotWords.length = 255) :
    slotWord (.mount p) d s = mountJudged p (lastJudgement d s) (s.tu.slotWords ++ [d]) (lastKept d s) := by
  unfold slotWord
  dsimp only
  rw [if_neg (by rw [keepSlotWord_length]; omega), keepSlotWord_last h]
  rfl

/-! ### The read that is served -/

/-- The task read has been served (R14). -/
def readServed (s : State) : State := { s with pu := { s.pu with taskRead := none } }

theorem serveRead_sweep {s : State} {ph : TaskPhase} (running : s.tu.running = some { task := .sweep, phase := ph })
    (r : TaskRead) : serveRead r s = reportTask {} false s (slotWord .sweep (s.mem.readWord r.addr) (readServed s)) := by
  have running : (s.withPu { s.pu with taskRead := none }).tu.running = some { task := .sweep, phase := ph } := running
  unfold serveRead
  dsimp only
  simp only [readPosting, dataMounts, dataLoadsProfile, taskData, running, Bool.false_eq_true, if_false]
  rfl

/-! ### A slot boundary (R128) -/

theorem reportTask_pendingBegins {before w : State} (h : profileNumberInUse before = profileNumberInUse w) :
    PendingBegins w (reportTask {} false before (beginPending w)) where
  rests none_ := by
    rw [beginPending_none none_]
    exact reportTask_posted rfl h
  begins k some_ := by
    have begins : beginPending w = beginTask k { w with tu := { w.tu with pendingTask := none } } := by
      rw [beginPending, some_]
      rfl
    rw [begins]
    exact reportTask_located {} false before _ rfl

/-- The sweep has stopped at a slot boundary in the state st (R128). -/
def sweepStopped (st : SweepState) (s : State) : State :=
  { s with tu := { s.tu with running := none, sweep := { s.tu.sweep with state := st, stop := .none } } }

/-- The slot boundary, where no slot is under check any more. -/
theorem sweepBoundary_takes {s u : State} (e : setSweep { s.tu.sweep with check := none } s = u) {k : Fin 12}
    (takes : takesSlot u u.tu.sweep.next k) : sweepBoundary s =
      match u.tu.sweep.stop with
      | .none => sweepReads k u
      | .yield => beginPending (sweepStopped .yielded u)
      | .suspend => beginPending (sweepStopped .suspended u) := by
  have found := (sweepSlot_iff u.tu u rfl k).mpr takes
  unfold sweepBoundary
  rw [e]
  dsimp only
  rw [found]
  cases u.tu.sweep.stop with
  | none => exact sweepGo_reads takes
  | yield => rfl
  | suspend => rfl

theorem sweepBoundary_ends {s u : State} (e : setSweep { s.tu.sweep with check := none } s = u)
    (none_ : ∀ k, ¬ takesSlot u u.tu.sweep.next k) : sweepBoundary s = beginPending (sweepEnded u) := by
  have found := (sweepSlot_none u).mpr none_
  unfold sweepBoundary
  rw [e]
  dsimp only
  rw [found]
  cases u.tu.sweep.stop <;> exact endSweep_eq

/-! ### The judgement applied (R138) -/

/-- The directory entry of a judged slot. -/
def judgedEntry (j : Judgement) (e : DirEntry) : DirEntry :=
  match j with
  | .bad => { e with state := .damaged, mouldId := 0 }
  | .goodEmpty => { e with state := .empty, mouldId := 0 }
  | .goodOccupied id _ => { e with state := .valid, mouldId := id }

/-- The judgement applied to slot n unless its check is void, and no slot under check. -/
def sweepApplied (n : Fin 12) (void : Bool) (j : Judgement) (s : State) : State :=
  { s with
    tu := { s.tu with
      directory := if void then s.tu.directory else s.tu.directory.set n (judgedEntry j s.tu.directory[n])
      sweep := { s.tu.sweep with check := none } }
    ru := { s.ru with causes := if j = .bad ∧ void = false then s.ru.causes ||| 0x04 else s.ru.causes } }

theorem sweepJudged_eq {s : State} {n : Fin 12} {void : Bool} (check : s.tu.sweep.check = some { slot := n, void := void })
    (j : Judgement) : ∃ w, sweepJudged j s = sweepBoundary w ∧
      setSweep { w.tu.sweep with check := none } w = sweepApplied n void j s := by
  refine ⟨if void then s else applyJudgement n j s, by rw [sweepJudged, check], ?_⟩
  cases void with
  | true | false => cases j <;> rfl

/-- Settles O42. -/
theorem sweepAppliesItsJudgement : Obligations.SweepAppliesItsJudgement := by
  intro s₀ r n void ph reset read serves running check s ws j entry u stopped
  have tu : s.tu = s₀.tu := (reportHolds_within s₀).tu rfl
  rw [← tu] at running check
  refine ⟨_, serveRead r s, taskReadData_serves reset read serves, rfl, ?_⟩
  rw [serveRead_sweep running]
  refine ⟨fun early => ?_, fun last => ?_⟩
  · have reads : readSlot (readServed s) = some n := by
      unfold readSlot
      rw [show (readServed s).tu.running = _ from running, show (readServed s).tu.sweep.check = _ from check]
      rfl
    rw [slotWord_early reads early]
    exact reportTask_posted rfl rfl
  · obtain ⟨w, judged, applied⟩ := sweepJudged_eq
      (s := lastKept (s.mem.readWord r.addr) (readServed s)) (n := n) (void := void) check j
    have applied : setSweep { w.tu.sweep with check := none } w = u := applied
    rw [slotWord_sweep (s := readServed s) last, show lastJudgement (s.mem.readWord r.addr) (readServed s) = j from rfl, judged]
    refine ⟨fun k takes => ?_, fun none_ => ?_⟩
    · have boundary := sweepBoundary_takes applied takes
      refine ⟨fun stop => ?_, fun stop => ?_, fun stop => ?_⟩ <;> rw [show u.tu.sweep.stop = _ from stop] at boundary <;>
        rw [boundary]
      · exact reportTask_posted rfl rfl
      · exact reportTask_pendingBegins rfl
      · exact reportTask_pendingBegins rfl
    · rw [sweepBoundary_ends applied none_]
      exact reportTask_pendingBegins rfl

end Sys2Proof.Machine
end

section
/-! The end of a MOUNT: the judgement of the target ends the task, and the mould that is taken in has its verdict words handed
over and posted. -/

namespace Sys2Proof.Machine

/-! ### Events with no open cycle leave the evidence alone -/

/-- EU and the verdict words are left as they are, and verdict words that were shown stay shown. -/
structure LeavesEvidence (s t : State) : Prop where
  eu : t.eu = s.eu
  words : t.ru.verdictWords = s.ru.verdictWords
  shown : ∀ i, ShownWhole (.verdict i) s → ShownWhole (.verdict i) t

theorem LeavesEvidence.refl (s : State) : LeavesEvidence s s := ⟨rfl, rfl, fun _ h => h⟩

theorem LeavesEvidence.trans {s t u : State} (h : LeavesEvidence s t) (k : LeavesEvidence t u) : LeavesEvidence s u :=
  ⟨k.eu.trans h.eu, k.words.trans h.words, fun i z => k.shown i (h.shown i z)⟩

theorem Unposted.leaves {s t : State} (h : Unposted s t) (eu : t.eu = s.eu)
    (words : t.ru.verdictWords = s.ru.verdictWords) : LeavesEvidence s t := by
  refine ⟨eu, words, fun i ⟨whole, shown⟩ => ⟨h.whole rfl whole, h.shown ?_ shown⟩⟩
  intro f
  simp only [recordWords, words]

theorem LeavesEvidence.of_eq {s t : State} (queue : t.pu.queue = s.pu.queue) (dirty : t.ru.dirty = s.ru.dirty)
    (time : t.localTime = s.localTime) (eu : t.eu = s.eu) (words : t.ru.verdictWords = s.ru.verdictWords) :
    LeavesEvidence s t := (Unposted.of_eq queue dirty time).leaves eu words

theorem offerLog_unposted (ws : List Word) (s : State) : Unposted s (offerLog ws s) := by
  obtain ⟨-, dirty, time⟩ := offerLog_queue ws s
  refine ⟨?_, dirty, time⟩
  unfold offerLog
  split
  · next t placed =>
    refine ⟨_, (enqueue_queue placed : t.pu.queue = _), fun r m => ?_⟩
    rw [List.mem_singleton.mp m]
    rfl
  · exact ⟨[], by simp [countOccurrence]⟩

theorem withLog_leaves (p : Posting) (s : State) : LeavesEvidence s (withLog p s) := by
  unfold withLog
  split
  · next ws _ =>
    exact (offerLog_unposted ws s).leaves ((offerLog_within ws s).eu rfl) (offerLog_facts ws s).1.verdictWords
  · exact .refl s

theorem report_leaves (p : Posting) (before s : State) : LeavesEvidence s (report p before s) :=
  ⟨(report_within p before s).eu rfl, (report_facts p before s).1.verdictWords,
    fun i h => report_keeps p before s rfl ((withLog_leaves p s).shown i h)⟩

theorem countTrace_leaves (e : EventRecord) (s : State) : LeavesEvidence s (countTrace e s) := by
  unfold countTrace
  split
  · exact .refl s
  · split <;> exact .of_eq rfl rfl rfl rfl rfl

theorem countIf_leaves (b : Bool) (o : Occurrence) (s : State) : LeavesEvidence s (countIf b o s) :=
  (countIf_unposted b o s).leaves ((countIf_within b o s).eu rfl) (by unfold countIf; split <;> rfl)

theorem reportEvent_leaves (e : EventRecord) (before s : State) : LeavesEvidence s (reportEvent e before s) :=
  ((countIf_leaves true (.event e.outcome) s).trans (countIf_leaves _ _ _)).trans
    ((countTrace_leaves e _).trans (report_leaves _ _ _))

/-- With no cycle open an event is in no cycle's entry, and EU does not count it (R87, R101). -/
theorem formEvent_leaves {s : State} (h : s.eu.cycles = []) (forced : Bool) : LeavesEvidence s (formEvent forced s) := by
  have taken (anchor : Hit) (rest : List Hit) : LeavesEvidence s (takeEvent anchor rest s) :=
    .of_eq rfl rfl rfl rfl rfl
  have closed_ (c : Half) : cycleOpen s c = false := by rw [cycleOpen, h]; rfl
  unfold formEvent
  split
  · exact .refl s
  · dsimp only
    split
    · exact (taken _ _).trans (reportEvent_leaves _ _ _)
    · rw [closed_, if_neg Bool.false_ne_true]
      exact (taken _ _).trans (reportEvent_leaves _ _ _)

theorem testClose_no_cycles {s : State} (h : s.eu.cycles = []) : testClose s = s := by
  rw [testClose, h]
  rfl

theorem formLoop_leaves (n : Nat) : ∀ s : State, s.eu.cycles = [] → LeavesEvidence s (formLoop n s) := by
  induction n with
  | zero => exact fun s _ => .refl s
  | succ n ih =>
    intro s h
    have event := formEvent_leaves h false
    have still : (formEvent false s).eu.cycles = [] := by rw [event.eu, h]
    unfold formLoop
    split
    · rw [testClose_no_cycles still]
      exact event.trans (ih _ still)
    · exact .refl s

theorem locatorTest_leaves {s : State} (h : s.eu.cycles = []) : LeavesEvidence s (locatorTest s) := by
  have loop := formLoop_leaves s.el.pool.length s h
  rw [locatorTest, testClose_no_cycles (by rw [loop.eu, h])]
  exact loop

theorem followProfile_leaves {s : State} (h : s.eu.cycles = []) (b : Bool) (before : State) :
    LeavesEvidence s (followProfile b before s) := by
  unfold followProfile
  split
  · exact locatorTest_leaves h
  · exact .refl s

/-! ### What follows the end of a task -/

theorem GoesOn.cases {u w : State} (h : GoesOn u w) : w = u ∨ (∃ n, w = sweepReads n u) ∨ w = sweepEnded u := by
  by_cases yielded : u.tu.sweep.state = .yielded
  · by_cases takes : ∃ n, takesSlot u u.tu.sweep.next n
    · obtain ⟨n, takes⟩ := takes
      exact .inr (.inl ⟨n, h.reads yielded n takes⟩)
    · exact .inr (.inr (h.ends yielded fun n k => takes ⟨n, k⟩))
  · exact .inl (h.rests yielded)

theorem GoesOn.leaves {u w : State} (h : GoesOn u w) : LeavesEvidence u w := by
  obtain rfl | ⟨n, rfl⟩ | rfl := h.cases
  · exact .refl w
  · exact .of_eq rfl rfl rfl rfl rfl
  · exact .of_eq rfl rfl rfl rfl rfl

theorem GoesOn.queue {u w : State} (h : GoesOn u w) : w.pu.queue = u.pu.queue := by
  obtain rfl | ⟨n, rfl⟩ | rfl := h.cases <;> rfl

/-! ### The read of a MOUNT that is served -/

theorem serveRead_mount {s : State} {p : MountParams} {ph : TaskPhase}
    (running : s.tu.running = some { task := .mount p, phase := ph }) (r : TaskRead) : serveRead r s =
      reportTask (readPosting (s.mem.readWord r.addr) (readServed s)) false s
        (slotWord (.mount p) (s.mem.readWord r.addr) (readServed s)) := by
  have running : (s.withPu { s.pu with taskRead := none }).tu.running = some { task := .mount p, phase := ph } := running
  unfold serveRead
  dsimp only
  simp only [dataLoadsProfile, taskData, running]
  rfl

theorem readPosting_mount_early {s : State} {p : MountParams} {ph : TaskPhase}
    (running : s.tu.running = some { task := .mount p, phase := ph }) (d : Word) (h : s.tu.slotWords.length < 255) :
    readPosting d s = {} := by
  refine if_neg ?_
  unfold dataMounts
  rw [running]
  dsimp only
  rw [keepSlotWord_length, decide_eq_false (by omega), Bool.false_and]
  decide

/-- With the last word the verdict table is posted exactly when the MOUNT succeeds (R149). -/
theorem readPosting_mount_last {s : State} {p : MountParams} {ph : TaskPhase}
    (running : s.tu.running = some { task := .mount p, phase := ph }) (d : Word) (h : s.tu.slotWords.length = 255) :
    readPosting d s = if mountWillSucceed p (lastJudgement d s) then { verdicts := allCavities } else {} := by
  have mounts : dataMounts d s = mountWillSucceed p (lastJudgement d s) := by
    unfold dataMounts
    rw [running]
    dsimp only
    rw [keepSlotWord_length, decide_eq_true (by omega), Bool.true_and, keepSlotWord_last h]
    rfl
  rw [readPosting, mounts]

/-! ### A MOUNT that fails (R147) -/

/-- The target judged, EU EMPTY and, for a DAMAGED target, ARCHIVE pending. -/
def mountFailed (p : MountParams) (r : TaskResult) (st : SlotState) (id : Word) (s : State) : State :=
  { s with
    tu := { s.tu with directory := s.tu.directory.set p.slot { s.tu.directory[p.slot] with state := st, mouldId := id } }
    eu := { s.eu with state := .empty }
    ru := { s.ru with causes := s.ru.causes ||| if r = .damaged then 0x04 else 0 } }

theorem mountFails_eq (p : MountParams) (r : TaskResult) (st : SlotState) (id : Word) (s : State) :
    mountFails p r st id s = endTask (.mount p) r (mountFailed p r st id s) := by
  have same (x : Byte) : x ||| 0 = x := BitVec.or_zero
  unfold mountFails mountFailed
  split
  · rfl
  · rw [same]
    rfl

/-- With no mould mounted the profile in use is profile 0 (R113). -/
theorem profileNumberInUse_unmounted {s : State} (h : s.eu.state = .empty ∨ s.eu.state = .changing) :
    profileNumberInUse s = 0 := by
  rw [profileNumberInUse, liveMould_none h]
  rfl

theorem mountFails_endsWith {before s : State} (changing : before.eu.state = .changing) (idle : s.tu.pendingTask = none)
    (p : MountParams) (r : TaskResult) (st : SlotState) (id : Word) :
    EndsWith (taskEnded (.mount p) r (mountFailed p r st id s)) (reportTask {} false before (mountFails p r st id s)) := by
  have goes := endTask_goesOn (s := mountFailed p r st id s) (.mount p) r idle
  rw [mountFails_eq]
  refine ⟨_, goes, reportTask_posted rfl ?_⟩
  rw [profileNumberInUse_unmounted (.inr changing), profileNumberInUse_unmounted (.inl (by rw [goes.leaves.eu]; rfl))]

/-! ### A MOUNT that succeeds (R148, R149) -/

/-- The target MOUNTED, EU with the mould m, and the verdict words those of its cavities. -/
def mouldTaken (p : MountParams) (m : Mould) (s : State) : State :=
  { s with
    tu := { s.tu with
      directory := s.tu.directory.set p.slot { s.tu.directory[p.slot] with state := .mounted, mouldId := p.mouldId } }
    eu := { s.eu with state := if p.zoneId = s.el.zones.id then .running else .held, mould := some m }
    ru := { s.ru with verdictWords := Vector.ofFn fun i : Fin 48 => verdictWord m.cavities[i.val]? } }

theorem handVerdicts_all {s : State} {m : Mould} (h : s.eu.mould = some m) : handVerdicts allCavities s =
    { s with ru := { s.ru with verdictWords := Vector.ofFn fun i : Fin 48 => verdictWord m.cavities[i.val]? } } := by
  have all := setChosen_eq (fun _ => true) (fun i : Fin 48 => verdictWord m.cavities[i.val]?) s.ru.verdictWords
  rw [List.filter_true] at all
  unfold handVerdicts
  rw [h]
  dsimp only
  rw [all]
  rfl

theorem mountSucceeds_eq (p : MountParams) (m : Mould) (s : State) :
    mountSucceeds p m s = endTask (.mount p) .done (mouldTaken p m s) := by
  unfold mountSucceeds
  dsimp only
  rw [handVerdicts_all (m := m) rfl]
  rfl

theorem profileNumberInUse_mouldTaken {p : MountParams} {m : Mould} {s w : State} (eu : w.eu = (mouldTaken p m s).eu) :
    profileNumberInUse w = m.header.profile := by
  have live : w.eu.state = .running ∨ w.eu.state = .held := by
    rw [eu]
    exact ite_eq_or_eq _ _ _
  rw [profileNumberInUse, liveMould_of_live live (m := m) (by rw [eu]; rfl)]
  rfl

/-- The mould m has been taken in from s, TU has gone on, and the verdict words are posted: before s, the words' copies were
those of `start`. -/
theorem mountSucceeds_mounts {start s : State} (changing : start.eu.state = .changing) (queue : s.pu.queue = start.pu.queue)
    (idle : s.tu.pendingTask = none) (cycles : s.eu.cycles = []) (p : MountParams) (m : Mould)
    (profile : m.header.profile = p.profile) :
    let v := reportTask { verdicts := allCavities } false start (mountSucceeds p m s)
    let u := taskEnded (.mount p) .done (mouldTaken p m s)
    ∃ w, GoesOn u w ∧ Located w v ∧ v.eu = u.eu ∧ v.ru.verdictWords = u.ru.verdictWords ∧
      (p.profile = 0 → PostedFrom w v) ∧ ∀ i : Fin 48, wholeCopies (.verdict i) start → Shown (.verdict i) v := by
  have goes := endTask_goesOn (s := mouldTaken p m s) (.mount p) .done idle
  rw [mountSucceeds_eq]
  generalize endTask (.mount p) .done (mouldTaken p m s) = w at goes
  have reported := report_leaves { verdicts := allCavities } start w
  have followed := followProfile_leaves (s := report { verdicts := allCavities } start w)
    (by rw [reported.eu, goes.leaves.eu]; exact cycles) false start
  have evidence := (goes.leaves.trans reported).trans followed
  refine ⟨w, goes, reportTask_located _ false start w rfl, evidence.eu, evidence.words, fun zero => ?_, fun i whole => ?_⟩
  · refine reportTask_posted rfl ?_
    rw [profileNumberInUse_unmounted (.inr changing), profileNumberInUse_mouldTaken goes.leaves.eu, profile, zero]
  · have copies : wholeCopies (.verdict i) w := whole.congr (goes.queue.trans queue)
    exact (followed.shown i (report_verdict start (mem_allCavities i) copies)).2

/-- Settles O43. -/
theorem mountEndsByItsJudgement : Obligations.MountEndsByItsJudgement := by
  intro s₀ r p ph reset read serves running s ws u slot failed taken mounts
  have tu : s.tu = s₀.tu := (reportHolds_within s₀).tu rfl
  rw [← tu] at running
  refine ⟨_, serveRead r s, taskReadData_serves reset read serves, rfl, ?_⟩
  rw [serveRead_mount running]
  refine ⟨fun early => ?_, fun last idle changing cycles => ?_⟩
  · have reads : readSlot (readServed s) = some p.slot := by
      unfold readSlot
      rw [show (readServed s).tu.running = _ from running]
    rw [slotWord_early reads early, readPosting_mount_early (s := readServed s) running _ early]
    exact reportTask_posted rfl rfl
  · rw [slotWord_mount (s := readServed s) last, readPosting_mount_last (s := readServed s) running _ last]
    rw [show lastJudgement (s.mem.readWord r.addr) (readServed s) = judgeSlot s.tu.slotCrc ws from rfl]
    have fails := mountFails_endsWith (s := lastKept (s.mem.readWord r.addr) (readServed s)) changing idle p
    have succeeds := mountSucceeds_mounts (s := lastKept (s.mem.readWord r.addr) (readServed s)) changing rfl idle cycles p
    cases judgeSlot s.tu.slotCrc ws with
    | bad => exact fails .damaged .damaged 0
    | goodEmpty => exact succeeds (freshMould p) rfl
    | goodOccupied id count =>
      have posts : mountWillSucceed p (.goodOccupied id count) = (id == p.mouldId && count == p.count) := rfl
      rw [posts]
      dsimp only [mountJudged]
      by_cases mould : id = p.mouldId
      · by_cases number : count = p.count
        · have both : (id == p.mouldId && count == p.count) = true := by simp [mould, number]
          rw [if_neg (not_not.mpr mould), if_neg (not_not.mpr number), if_neg (not_not.mpr mould),
            if_neg (not_not.mpr number), if_pos both]
          exact succeeds (storedMould p ws) rfl
        · have other : ¬ (id == p.mouldId && count == p.count) = true := by simp [number]
          rw [if_neg (not_not.mpr mould), if_pos number, if_neg (not_not.mpr mould), if_pos number, if_neg other]
          exact fails .wrongCount .valid id
      · have other : ¬ (id == p.mouldId && count == p.count) = true := by simp [mould]
        rw [if_pos mould, if_pos mould, if_neg other]
        exact fails .wrongMould .valid id

end Sys2Proof.Machine
end

section
/-! Slot images: the words of a sealed image, what is stored in each, and that a mould saved is the mould taken in. -/

namespace Sys2Proof.Machine

/-! ### Fields as numbers -/

theorem toNat_field {lo width v : Nat} (h : lo + width ≤ 32) (l : v < 2 ^ width) : (field lo width v).toNat = 2 ^ lo * v := by
  have fits : 2 ^ lo * v < 2 ^ 32 :=
    calc 2 ^ lo * v < 2 ^ lo * 2 ^ width := Nat.mul_lt_mul_of_pos_left l (Nat.two_pow_pos lo)
      _ = 2 ^ (lo + width) := (Nat.pow_add 2 lo width).symm
      _ ≤ 2 ^ 32 := Nat.pow_le_pow_right (by decide) h
  rw [field, BitVec.toNat_ofNat, Nat.mod_eq_of_lt l, Nat.mul_comm, Nat.mod_eq_of_lt fits]

/-- A field put above all the bits of a word. -/
theorem toNat_or_field {w : Word} {lo width v : Nat} (h : lo + width ≤ 32) (low : w.toNat < 2 ^ lo) (l : v < 2 ^ width) :
    (w ||| field lo width v).toNat = w.toNat + 2 ^ lo * v := by
  rw [BitVec.toNat_or, toNat_field h l, Nat.or_comm, ← Nat.two_pow_add_eq_or_of_lt low, Nat.add_comm]

/-! ### Words of a list -/

theorem wordAt_append_left {as bs : List Word} {i : Nat} (h : i < as.length) : wordAt (as ++ bs) i = wordAt as i := by
  rw [wordAt, List.getElem?_append_left h, wordAt]

theorem wordAt_append_right (as bs : List Word) (i : Nat) : wordAt (as ++ bs) (as.length + i) = wordAt bs i := by
  rw [wordAt, List.getElem?_append_right (Nat.le_add_right _ _), Nat.add_sub_cancel_left, wordAt]

theorem wordAt_beyond {ws : List Word} {i : Nat} (h : ws.length ≤ i) : wordAt ws i = 0 := by
  rw [wordAt, List.getElem?_eq_none h]
  rfl

theorem wordAt_take {ws : List Word} {i n : Nat} (h : i < n) : wordAt (ws.take n) i = wordAt ws i := by
  rw [wordAt, List.getElem?_take_of_lt h, wordAt]

/-! ### A sealed image (R132) -/

/-- Words 0 to 254 of an image: those given, and zeros behind them. -/
def imageBody (ws : List Word) : List Word := (ws ++ List.replicate 255 0).take 255

theorem imageBody_length (ws : List Word) : (imageBody ws).length = 255 := by
  rw [imageBody, List.length_take, List.length_append, List.length_replicate]
  omega

theorem wordAt_imageBody {i : Nat} (h : i < 255) (ws : List Word) : wordAt (imageBody ws) i = wordAt ws i := by
  have zeros (n j : Nat) : wordAt (List.replicate n 0) j = 0 := by
    rw [wordAt, List.getElem?_replicate]
    split <;> rfl
  rw [imageBody, wordAt_take h]
  by_cases inside : i < ws.length
  · exact wordAt_append_left inside
  · obtain ⟨j, rfl⟩ := Nat.exists_eq_add_of_le (Nat.le_of_not_lt inside)
    rw [wordAt_append_right, zeros, wordAt_beyond (Nat.le_add_right _ _)]

theorem sealImage_eq (ws : List Word) :
    sealImage ws = imageBody ws ++ [field 0 16 (crcWords .polyB 0xFFFF (imageBody ws)).toNat] := rfl

theorem sealImage_length (ws : List Word) : (sealImage ws).length = 256 := by
  rw [sealImage_eq, List.length_append, imageBody_length]
  rfl

theorem take_sealImage (ws : List Word) : (sealImage ws).take 255 = imageBody ws := by
  have take := List.take_left (l₁ := imageBody ws) (l₂ := [field 0 16 (crcWords .polyB 0xFFFF (imageBody ws)).toNat])
  rw [imageBody_length] at take
  exact take

theorem wordAt_sealImage {i : Nat} (h : i < 255) (ws : List Word) : wordAt (sealImage ws) i = wordAt ws i := by
  rw [sealImage_eq, wordAt_append_left (by rw [imageBody_length]; exact h), wordAt_imageBody h]

/-- Word 255 is the check word of words 0 to 254. -/
theorem wordAt_sealImage_check (ws : List Word) :
    wordAt (sealImage ws) 255 = field 0 16 (crcWords .polyB 0xFFFF ((sealImage ws).take 255)).toNat := by
  have last := wordAt_append_right (imageBody ws) [field 0 16 (crcWords .polyB 0xFFFF (imageBody ws)).toNat] 0
  rw [imageBody_length] at last
  rw [take_sealImage]
  exact last

theorem toNat_checkWord (crc : Half) : (field 0 16 crc.toNat).toNat = crc.toNat := by
  rw [toNat_field (by decide) crc.isLt, Nat.pow_zero, Nat.one_mul]

theorem lowerHalf_checkWord (crc : Half) : lowerHalf (field 0 16 crc.toNat) = crc := by
  rw [lowerHalf_eq, toNat_checkWord, BitVec.ofNat_toNat, BitVec.setWidth_eq]

/-! ### The words of a mould's image (R131) -/

/-- The words of a mould before the zeros and the check word. -/
def mouldWords (m : Mould) : List Word := headerWords m.header ++ (m.cavities.take m.header.count).flatMap cavityWords

theorem mouldImage_eq (m : Mould) : mouldImage m = sealImage (mouldWords m) := rfl

theorem headerWords_length (h : MouldHeader) : (headerWords h).length = 8 := rfl

theorem cavityWords_length (r : CavityRecord) : (cavityWords r).length = 5 := rfl

/-- The words of the cavities, five to each. -/
theorem wordAt_cavities {j : Nat} (hj : j < 5) : ∀ (rs : List CavityRecord) (c : Nat) (r : CavityRecord), rs[c]? = some r →
    wordAt (rs.flatMap cavityWords) (5 * c + j) = wordAt (cavityWords r) j
  | [], _, _, h => by simp at h
  | r' :: rs, 0, r, h => by
    obtain rfl : r' = r := by simpa using h
    rw [Nat.mul_zero, Nat.zero_add]
    exact wordAt_append_left hj
  | r' :: rs, c + 1, r, h => by
    rw [show 5 * (c + 1) + j = (cavityWords r').length + (5 * c + j) by rw [cavityWords_length]; omega]
    exact (wordAt_append_right _ _ _).trans (wordAt_cavities hj rs c r (by simpa using h))

theorem wordAt_header {m : Mould} {i : Nat} (h : i < 8) : wordAt (mouldImage m) i = wordAt (headerWords m.header) i := by
  rw [mouldImage_eq, wordAt_sealImage (by omega)]
  exact wordAt_append_left h

theorem wordAt_cavity {m : Mould} {c j : Nat} {r : CavityRecord} (few : m.header.count ≤ 48) (hc : c < m.header.count)
    (h : m.cavities[c]? = some r) (hj : j < 5) : wordAt (mouldImage m) (8 + 5 * c + j) = wordAt (cavityWords r) j := by
  rw [mouldImage_eq, wordAt_sealImage (by omega), Nat.add_assoc]
  refine (wordAt_append_right (headerWords m.header) _ _).trans (wordAt_cavities hj _ c r ?_)
  rw [List.getElem?_take_of_lt hc, h]

theorem mouldWords_length {m : Mould} (h : m.cavities.length = m.header.count) :
    (mouldWords m).length = 8 + 5 * m.header.count := by
  rw [mouldWords, List.length_append, headerWords_length, List.length_flatMap, List.take_of_length_le (by omega)]
  simp [cavityWords_length, h, Nat.mul_comm]

theorem wordAt_behind {m : Mould} {i : Nat} (h : m.cavities.length = m.header.count) (lo : 8 + 5 * m.header.count ≤ i)
    (hi : i < 255) : wordAt (mouldImage m) i = 0 := by
  rw [mouldImage_eq, wordAt_sealImage hi, wordAt_beyond (by rw [mouldWords_length h]; exact lo)]

/-! ### The words of a cavity -/

theorem Verdict.code_lt (v : Verdict) : v.code < 2 ^ 2 := by cases v <;> decide

theorem Verdict.ofCode_code (v : Verdict) : Verdict.ofCode v.code = v := by cases v <;> rfl

theorem Verdict.code_ofCode {n : Nat} (h : n < 4) : (Verdict.ofCode n).code = n := by
  interval_cases n <;> rfl

/-- Word 0: the events of the last cycle, the verdict and the lifetime. -/
theorem cavityWord0_toNat {r : CavityRecord} (h : r.lastCycle < 2 ^ 8) : (wordAt (cavityWords r) 0).toNat =
    r.lastCycle + 2 ^ 8 * r.verdict.code + 2 ^ 10 * min r.lifetime (2 ^ 22 - 1) := by
  have code := r.verdict.code_lt
  have one : (field 0 8 r.lastCycle).toNat = r.lastCycle := by rw [toNat_field (by decide) h, Nat.pow_zero, Nat.one_mul]
  have two : (field 0 8 r.lastCycle ||| field 8 2 r.verdict.code).toNat = r.lastCycle + 2 ^ 8 * r.verdict.code := by
    rw [toNat_or_field (by decide) (by omega) code, one]
  show (field 0 8 r.lastCycle ||| field 8 2 r.verdict.code ||| field 10 22 (min r.lifetime 4194303)).toNat = _
  rw [toNat_or_field (by decide) (by omega) (by omega), two]
  rfl

/-- Word 4: the upper parts of the two energies. -/
theorem cavityWord4_toNat {r : CavityRecord} (ht : r.totalEnergy < 2 ^ 48) (hs : r.suspectEnergy < 2 ^ 48) :
    (wordAt (cavityWords r) 4).toNat = r.suspectEnergy / 2 ^ 32 + 2 ^ 16 * (r.totalEnergy / 2 ^ 32) := by
  have one : (field 0 16 (r.suspectEnergy / 2 ^ 32)).toNat = r.suspectEnergy / 2 ^ 32 := by
    rw [toNat_field (by decide) (by omega), Nat.pow_zero, Nat.one_mul]
  show (field 0 16 (r.suspectEnergy / 2 ^ 32) ||| field 16 16 (r.totalEnergy / 2 ^ 32)).toNat = _
  rw [toNat_or_field (by decide) (by omega) (by omega), one]

theorem cavityWord2_toNat (r : CavityRecord) : (wordAt (cavityWords r) 2).toNat = r.totalEnergy % 2 ^ 32 :=
  BitVec.toNat_ofNat ..

theorem cavityWord3_toNat (r : CavityRecord) : (wordAt (cavityWords r) 3).toNat = r.suspectEnergy % 2 ^ 32 :=
  BitVec.toNat_ofNat ..

/-! ### A mould taken in (R148) -/

theorem storedCavities_getElem? (ws : List Word) : ∀ n c i, (storedCavities ws c n)[i]? =
    if i < n then some (storedCavity ws (c + i)) else none
  | 0, _, _ => rfl
  | n + 1, c, 0 => rfl
  | n + 1, c, i + 1 => by
    show (storedCavities ws (c + 1) n)[i]? = _
    rw [storedCavities_getElem? ws n (c + 1) i, Nat.add_assoc, Nat.add_comm 1 i]
    simp only [Nat.add_lt_add_iff_right]

theorem storedCavities_length (ws : List Word) : ∀ n c, (storedCavities ws c n).length = n
  | 0, _ => rfl
  | n + 1, c => congrArg (· + 1) (storedCavities_length ws n (c + 1))

/-- A stored cavity read as numbers. -/
theorem storedCavity_eq (ws : List Word) (c : Nat) : storedCavity ws c =
    let w (i : Nat) : Nat := (wordAt ws (8 + 5 * c + i)).toNat
    { verdict := Verdict.ofCode (w 0 / 2 ^ 8 % 4), history := wordAt ws (8 + 5 * c + 1)
      hot := hotCount (wordAt ws (8 + 5 * c + 1)), totalEnergy := w 2 + 2 ^ 32 * (w 4 / 2 ^ 16)
      suspectEnergy := w 3 + 2 ^ 32 * (w 4 % 2 ^ 16), lifetime := w 0 / 2 ^ 10, lastCycle := w 0 % 2 ^ 8 } := by
  have h0 := (wordAt ws (8 + 5 * c + 0)).isLt
  have h4 := (wordAt ws (8 + 5 * c + 4)).isLt
  simp only [storedCavity, bits, CavityRecord.mk.injEq, true_and]
  refine ⟨rfl, ?_, ?_, ?_, ?_⟩ <;> omega

/-- A cavity whose words stand in a slot is taken in as it was saved. -/
theorem storedCavity_of_words {ws : List Word} {c : Nat} {r : CavityRecord}
    (words : ∀ j < 5, wordAt ws (8 + 5 * c + j) = wordAt (cavityWords r) j) (hot : r.hot = hotCount r.history)
    (ht : r.totalEnergy < 2 ^ 48) (hs : r.suspectEnergy < 2 ^ 48) (hl : r.lifetime < 2 ^ 22) (hc : r.lastCycle < 2 ^ 8) :
    storedCavity ws c = r := by
  have code := r.verdict.code_lt
  rw [storedCavity_eq]
  dsimp only
  rw [words 0 (by decide), words 1 (by decide), words 2 (by decide), words 3 (by decide), words 4 (by decide),
    cavityWord0_toNat hc, cavityWord2_toNat, cavityWord3_toNat, cavityWord4_toNat ht hs,
    show wordAt (cavityWords r) 1 = r.history from rfl, ← hot]
  obtain ⟨verdict, history, hot, total, suspect, lifetime, last⟩ := r
  simp only [CavityRecord.mk.injEq, true_and] at *
  refine ⟨?_, ?_, ?_, ?_, ?_⟩
  · rw [show (last + 2 ^ 8 * verdict.code + 2 ^ 10 * min lifetime (2 ^ 22 - 1)) / 2 ^ 8 % 4 = verdict.code by omega]
    exact verdict.ofCode_code
  all_goals omega

/-- Every item of a stored mould is read from its words. -/
theorem storedMould_items (p : MountParams) (ws : List Word) :
    let m := storedMould p ws
    m.header = { mouldId := p.mouldId, count := p.count, profile := p.profile, zoneId := p.zoneId
                 observed := (wordAt ws 4).toNat, lastClosed := BitVec.ofNat 16 (wordAt ws 5).toNat } ∧
    m.cavities.length = p.count ∧
    ∀ (c : Nat) (r : CavityRecord), m.cavities[c]? = some r → r = storedCavity ws c := by
  refine ⟨by rw [← lowerHalf_eq]; rfl, storedCavities_length ws p.count 0, fun c r h => ?_⟩
  have found := storedCavities_getElem? ws p.count 0 c
  rw [Nat.zero_add, show (storedCavities ws 0 p.count)[c]? = some r from h] at found
  split at found
  · exact Option.some.inj found
  · cases found

/-! ### The layout of an image -/

/-- Word 3: the zone map ID and the profile. -/
theorem headerWord3_toNat (h : MouldHeader) :
    (wordAt (headerWords h) 3).toNat = h.zoneId.toNat + 2 ^ 16 * h.profile.val := by
  show (field 0 16 h.zoneId.toNat ||| field 16 2 h.profile.val).toNat = _
  have low := toNat_checkWord h.zoneId
  rw [toNat_or_field (by decide) (by rw [low]; exact h.zoneId.isLt) h.profile.isLt, low]

theorem headerWord2_toNat {h : MouldHeader} (few : h.count ≤ 48) : (wordAt (headerWords h) 2).toNat = h.count := by
  show (BitVec.ofNat 32 h.count).toNat = _
  rw [BitVec.toNat_ofNat]
  omega

theorem headerWord4_toNat {h : MouldHeader} (fits : h.observed < 2 ^ 32) : (wordAt (headerWords h) 4).toNat = h.observed := by
  show (BitVec.ofNat 32 h.observed).toNat = _
  rw [BitVec.toNat_ofNat, Nat.mod_eq_of_lt fits]

theorem emptyImage_zero {i : Nat} (h : i < 255) : wordAt emptyImage i = 0 := by
  rw [emptyImage, wordAt_sealImage h, wordAt_beyond (Nat.zero_le i)]

theorem emptyImage_check : wordAt emptyImage 255 = field 0 16 (crcWords .polyB 0xFFFF (List.replicate 255 0)).toNat := by
  rw [emptyImage, wordAt_sealImage_check, take_sealImage, imageBody, List.nil_append,
    List.take_of_length_le (by rw [List.length_replicate])]

/-! ### The round trip -/

/-- The image of a mould that has cavities and an ID is judged good, with its ID and count (R133). -/
theorem judgeSlot_mouldImage {m : Mould} (id : m.header.mouldId ≠ 0) (one : 1 ≤ m.header.count)
    (few : m.header.count ≤ 48) :
    judgeSlot (crcWords .polyB 0xFFFF ((mouldImage m).take 255)) (mouldImage m) =
      .goodOccupied m.header.mouldId m.header.count := by
  have check : lowerHalf (wordAt (mouldImage m) 255) = crcWords .polyB 0xFFFF ((mouldImage m).take 255) := by
    rw [mouldImage_eq, wordAt_sealImage_check, lowerHalf_checkWord]
  have w0 : wordAt (mouldImage m) 0 = m.header.mouldId := wordAt_header (by decide)
  have w1 : wordAt (mouldImage m) 1 = occupiedMarker := wordAt_header (by decide)
  have w2 : (wordAt (mouldImage m) 2).toNat = m.header.count := by
    rw [wordAt_header (by decide), headerWord2_toNat few]
  have bounds : ¬ (m.header.mouldId = 0 ∨ m.header.count < 1 ∨ 48 < m.header.count) := by
    rintro (zero | none_ | many)
    · exact id zero
    · omega
    · omega
  unfold judgeSlot
  rw [check, w0, w1, w2, if_neg (not_not.mpr rfl), if_neg fun k => k.1 rfl, if_neg (by decide), if_neg bounds]

/-- A saved mould whose figures fit is taken in as it was, under the command's profile and zone map ID (R148). -/
theorem storedMould_mouldImage {m : Mould} {p : MountParams} (few : m.header.count ≤ 48)
    (length : m.cavities.length = m.header.count) (observed : m.header.observed < 2 ^ 32)
    (fits : ∀ r ∈ m.cavities, r.hot = hotCount r.history ∧ r.totalEnergy < 2 ^ 48 ∧ r.suspectEnergy < 2 ^ 48 ∧
      r.lifetime < 2 ^ 22 ∧ r.lastCycle < 2 ^ 8)
    (id : p.mouldId = m.header.mouldId) (count : p.count = m.header.count) :
    storedMould p (mouldImage m) = { m with header := { m.header with profile := p.profile, zoneId := p.zoneId } } := by
  have cavities : storedCavities (mouldImage m) 0 p.count = m.cavities := by
    refine List.ext_getElem? fun c => ?_
    rw [storedCavities_getElem?, Nat.zero_add]
    split
    · next inside =>
      have hc : c < m.cavities.length := by omega
      have found : m.cavities[c]? = some m.cavities[c] := List.getElem?_eq_getElem hc
      obtain ⟨hot, total, suspect, lifetime, last⟩ := fits _ (List.getElem_mem hc)
      rw [found, storedCavity_of_words (fun j hj => wordAt_cavity few (by omega) found hj) hot total suspect lifetime last]
    · next outside => rw [List.getElem?_eq_none (by omega)]
  have w4 : (wordAt (mouldImage m) 4).toNat = m.header.observed := by
    rw [wordAt_header (by decide), headerWord4_toNat observed]
  have w5 : lowerHalf (wordAt (mouldImage m) 5) = m.header.lastClosed := by
    rw [wordAt_header (by decide)]
    exact lowerHalf_checkWord _
  rw [storedMould, cavities, w4, w5, id, count]

/-- Settles O60. -/
theorem savedMouldComesBack : Obligations.SavedMouldComesBack := by
  refine ⟨fun p ws => ?_, ⟨sealImage_length [], fun i h => ?_, ?_, fun m few => ?_⟩,
    fun m p id one few length observed fits hid hcount => ⟨sealImage_length _, judgeSlot_mouldImage id one few,
      storedMould_mouldImage few length observed fits hid hcount⟩⟩
  · obtain ⟨header, length, items⟩ := storedMould_items p ws
    refine ⟨header, length, fun c r h => ?_⟩
    rw [items c r h, storedCavity_eq]
    exact ⟨(Verdict.code_ofCode (Nat.mod_lt _ (by decide))).symm, rfl, rfl, rfl, rfl, rfl, rfl⟩
  · exact congrArg BitVec.toNat (emptyImage_zero h)
  · exact (congrArg BitVec.toNat emptyImage_check).trans (toNat_checkWord _)
  · intro image
    have header {i : Nat} (h : i < 8) : (wordAt image i).toNat = (wordAt (headerWords m.header) i).toNat :=
      congrArg BitVec.toNat (wordAt_header h)
    have check : (wordAt image 255).toNat = (crcWords .polyB 0xFFFF (image.take 255)).toNat :=
      (congrArg BitVec.toNat (wordAt_sealImage_check (mouldWords m))).trans (toNat_checkWord _)
    refine ⟨wordAt_header (by decide), wordAt_header (by decide), (header (by decide)).trans (headerWord2_toNat few),
      (header (by decide)).trans (headerWord3_toNat _), fun fits => (header (by decide)).trans (headerWord4_toNat fits),
      (header (by decide)).trans (toNat_checkWord _), header (by decide), header (by decide),
      fun c r hc h total suspect last => ?_, fun i length lo hi => congrArg BitVec.toNat (wordAt_behind length lo hi), check⟩
    have words (j : Nat) (hj : j < 5) := wordAt_cavity few hc h hj
    dsimp only
    rw [words 0 (by decide), words 1 (by decide), words 2 (by decide), words 3 (by decide), words 4 (by decide),
      cavityWord0_toNat last, cavityWord2_toNat, cavityWord3_toNat, cavityWord4_toNat total suspect]
    exact ⟨rfl, rfl, by omega, by omega⟩

end Sys2Proof.Machine
end

section
/-! The beginning of a block: what HX does to the channel, and the entry of the block's cycle at EU. -/

namespace Sys2Proof.Machine

/-! ### The channel at the beginning of a block (R58, R70) -/

/-- The channel's state under the parameters p, once a block with the mark m has begun. -/
def begunState (p : ExtractionParams) (m : BlockMark) : ChannelState → ChannelState
  | .idle => .idle
  | .settling => .settling
  | .armed b _ => .armed b (thresholdOf p b)
  | .inHit b t h => if m = .continuous then .inHit b t h else .armed b (thresholdOf p b)
  | .lockout b _ n => if m = .continuous then .lockout b (thresholdOf p b) n else .armed b (thresholdOf p b)

/-- A block with the mark m discards the open hit of a channel in this state. -/
def breaksHit (m : BlockMark) : ChannelState → Bool
  | .inHit _ _ _ => m != .continuous
  | .idle | .settling | .armed _ _ | .lockout _ _ _ => false

/-- The channel's record once HX has begun the block e in the state s, before its covered-to time is looked at. -/
def begunChannel (e : AcceptedBlock) (s : State) : Channel :=
  { s.hx.channels[e.channel] with
    params := some (profileInUse s).extraction
    state := begunState (profileInUse s).extraction e.mark s.hx.channels[e.channel].state }

/-- HX with the block e at its first sample and the channel's record. -/
def hxBegun (e : AcceptedBlock) (s : State) : State :=
  { s with hx :=
    { channels := s.hx.channels.set e.channel (begunChannel e s), block := some { entry := e, next := 0, sum := 0 } } }

/-- The open hit that the block discards is counted, and the covered-to time follows (R70, R73). -/
def hitBroken (c : Fin 8) (s : State) : State := refreshCovered c (countOccurrence (.hit .broken) s)

/-- HX has begun the block e and, where it discards an open hit, has counted the hit; EU has not heard of the block. -/
def heardByHx (e : AcceptedBlock) (s : State) : State :=
  if breaksHit e.mark s.hx.channels[e.channel].state then hitBroken e.channel (hxBegun e s) else hxBegun e s

theorem putChannel_putChannel (c : Fin 8) (x y : Channel) (s : State) : putChannel c x (putChannel c y s) = putChannel c x s := by
  simp [putChannel, State.withHx]

theorem channelOf_putChannel (c : Fin 8) (x : Channel) (s : State) : channelOf (putChannel c x s) c = x := by
  simp [channelOf, putChannel]

theorem putChannelState_putChannel (c : Fin 8) (x : Channel) (st : ChannelState) (s : State) :
    putChannelState c st (putChannel c x s) = putChannel c { x with state := st } s := by
  rw [putChannelState, channelOf_putChannel, putChannel_putChannel]

/-- T under new parameters: step 2 of R58. -/
def rethreshold (p : ExtractionParams) : ChannelState → ChannelState
  | .armed b _ => armedAt p b
  | .lockout b _ n => .lockout b (thresholdOf p b) n
  | .idle => .idle
  | .settling => .settling
  | .inHit b t h => .inHit b t h

theorem recomputeThreshold_putChannel {c : Fin 8} {x : Channel} {p : ExtractionParams} (params : x.params = some p) (s : State) :
    recomputeThreshold c (putChannel c x s) = putChannel c { x with state := rethreshold p x.state } s := by
  have same : paramsOf (putChannel c x s) c = p := by rw [paramsOf, channelOf_putChannel, params]; rfl
  obtain ⟨state, params, lastFinished, lastEnd, coveredTo, joined⟩ := x
  unfold recomputeThreshold
  rw [channelOf_putChannel, same]
  cases state with
  | idle | settling | inHit => rfl
  | armed | lockout => exact putChannelState_putChannel ..

theorem breakChannel_putChannel {c : Fin 8} {x : Channel} {p : ExtractionParams} (params : x.params = some p) (s : State) :
    breakChannel c (putChannel c x s) =
      match x.state with
      | .inHit b _ _ => hitBroken c (putChannel c { x with state := armedAt p b } s)
      | .lockout b _ _ | .armed b _ => putChannel c { x with state := armedAt p b } s
      | .idle | .settling => putChannel c x s := by
  have same : paramsOf (putChannel c x s) c = p := by rw [paramsOf, channelOf_putChannel, params]; rfl
  unfold breakChannel
  rw [channelOf_putChannel, same]
  simp only [putChannelState_putChannel]
  cases x.state <;> rfl

/-- HX begins a block: the channel's record, the hit that a discontinuity breaks, and then EU hears of it. -/
theorem beginBlock_eq (e : AcceptedBlock) (s : State) : beginBlock e s = blockBegun e.cycle e.timestamp (heardByHx e s) := by
  have begun : putChannel e.channel (begunChannel e s) (putBlock (some { entry := e, next := 0, sum := 0 }) s) =
    hxBegun e s := rfl
  unfold beginBlock heardByHx
  dsimp only
  rw [takeParams, recomputeThreshold_putChannel rfl, ← begun]
  refine congrArg (blockBegun e.cycle e.timestamp) ?_
  rw [breakChannel_putChannel rfl]
  unfold begunChannel
  rw [show channelOf (putBlock (some { entry := e, next := 0, sum := 0 }) s) e.channel = s.hx.channels[e.channel] from rfl]
  generalize s.hx.channels[e.channel] = x
  obtain ⟨state, params, lastFinished, lastEnd, coveredTo, joined⟩ := x
  by_cases continuous : e.mark = .continuous
  · rw [if_pos continuous, continuous]
    cases state <;> rfl
  · have mark : (e.mark != .continuous) = true := by simp [continuous]
    rw [if_neg continuous]
    cases state <;> simp [breaksHit, begunState, rethreshold, continuous] <;> rfl

/-! ### HX once the block has begun -/

/-- HX of t holds the block e, at its first sample, and the channel of e as HX of s gives it; the other channels are as in s. The
covered-to time of the channel of e is left open. -/
structure HasBegun (e : AcceptedBlock) (s t : State) : Prop where
  block : t.hx.block = some { entry := e, next := 0, sum := 0 }
  others : ∀ c : Fin 8, c ≠ e.channel → t.hx.channels[c] = s.hx.channels[c]
  params : t.hx.channels[e.channel].params = some (profileInUse s).extraction
  lastFinished : t.hx.channels[e.channel].lastFinished = s.hx.channels[e.channel].lastFinished
  lastEnd : t.hx.channels[e.channel].lastEnd = s.hx.channels[e.channel].lastEnd
  state : t.hx.channels[e.channel].state = begunState (profileInUse s).extraction e.mark s.hx.channels[e.channel].state

theorem HasBegun.of_hx {e : AcceptedBlock} {s t u : State} (h : HasBegun e s t) (same : u.hx = t.hx) : HasBegun e s u := by
  obtain ⟨block, others, params, lastFinished, lastEnd, state⟩ := h
  constructor <;> rw [same] <;> assumption

theorem hxBegun_hasBegun (e : AcceptedBlock) (s : State) : HasBegun e s (hxBegun e s) := by
  have own : (hxBegun e s).hx.channels[e.channel] = begunChannel e s := Vector.getElem_set_self ..
  refine ⟨rfl, fun c other => ?_, ?_, ?_, ?_, ?_⟩
  · exact Vector.getElem_set_ne e.channel.isLt c.isLt fun same => other (Fin.ext same.symm)
  all_goals rw [own]; rfl

theorem HasBegun.withCovered {e : AcceptedBlock} {s t : State} (h : HasBegun e s t) (x : Option Time) :
    HasBegun e s (withCovered e.channel x t) := by
  unfold Machine.withCovered
  split
  · exact h
  · have own : (putChannel e.channel ((channelOf t e.channel).cover x) t).hx.channels[e.channel] =
        (channelOf t e.channel).cover x := channelOf_putChannel ..
    refine ⟨h.block, fun c other => ?_, ?_, ?_, ?_, ?_⟩
    · exact (Vector.getElem_set_ne e.channel.isLt c.isLt fun same => other (Fin.ext same.symm)).trans (h.others c other)
    all_goals rw [own]
    · exact h.params
    · exact h.lastFinished
    · exact h.lastEnd
    · exact h.state

theorem HasBegun.hitBroken {e : AcceptedBlock} {s t : State} (h : HasBegun e s t) : HasBegun e s (hitBroken e.channel t) :=
  have counted : HasBegun e s (countOccurrence (.hit .broken) t) := h.of_hx rfl
  (counted.withCovered _).of_hx ((refreshCovered_facts _ _).1.within.hx rfl)

/-! ### The counters that count no cycles -/

/-- The counters of s that do not count CYCLES stand in t as they were (R158). -/
def CyclesCounted (s t : State) : Prop :=
  ∀ n : Fin 4, s.ru.counters[n].select ≠ 9 → t.ru.counters[n] = s.ru.counters[n]

theorem CyclesCounted.of_same {s t : State} (h : t.ru.counters = s.ru.counters) : CyclesCounted s t := fun _ _ => by rw [h]

theorem CyclesCounted.refl (s : State) : CyclesCounted s s := .of_same rfl

theorem CyclesCounted.trans {s t u : State} (h : CyclesCounted s t) (k : CyclesCounted t u) : CyclesCounted s u := by
  intro n apart
  have same := h n apart
  rw [k n (by rwa [same]), same]

theorem CyclesCounted.ite {s t u : State} {p : Prop} [Decidable p] (h : CyclesCounted s t) (k : CyclesCounted s u) :
    CyclesCounted s (if p then t else u) := by
  split <;> assumption

theorem countOccurrence_cyclesCounted {o : Occurrence} (cycles : o.eventCode = 9) (s : State) :
    CyclesCounted s (countOccurrence o s) := by
  intro n apart
  show (s.ru.counters.map (Counter.occur o))[n] = _
  rw [Fin.getElem_fin, Vector.getElem_map, Counter.occur, if_neg]
  · rfl
  · exact fun counts => apart (counts.1.trans cycles)

theorem countIf_cyclesCounted {o : Occurrence} (cycles : o.eventCode = 9) (b : Bool) (s : State) :
    CyclesCounted s (countIf b o s) := .ite (countOccurrence_cyclesCounted cycles s) (.refl s)

theorem raiseIf_cyclesCounted (b : Bool) (c : Cause) (s : State) : CyclesCounted s (raiseIf b c s) :=
  .ite (.of_same rfl) (.refl s)

theorem handVerdicts_cyclesCounted (cs : List (Fin 48)) (s : State) : CyclesCounted s (handVerdicts cs s) := by
  unfold handVerdicts
  split
  · exact .of_same rfl
  · exact .refl s

theorem report_cyclesCounted {p : Posting} (plain : p.log = none) (before after : State) :
    CyclesCounted after (report p before after) := .of_same ((report_facts p before after).2.1 plain).1

theorem closePosting_log (s : State) : (closePosting s).log = none := by
  unfold closePosting
  split <;> rfl

theorem closeEffect_cyclesCounted (forced : Bool) (s : State) : CyclesCounted s (closeEffect forced s) := by
  unfold closeEffect
  split
  · exact .refl s
  · exact .of_same rfl
  · next e rest m _ _ =>
    have applied : CyclesCounted s (applyClose e rest m s) := .of_same rfl
    have counted := (applied.trans (countOccurrence_cyclesCounted (o := .cycleClosed) rfl _)).trans
      (countIf_cyclesCounted (o := .cycleForced) rfl forced _)
    have raised (b d : Bool) := ((counted.trans (.of_same rfl : CyclesCounted _ (raiseCause .cycle _))).trans
      (raiseIf_cyclesCounted b .suspect _)).trans (raiseIf_cyclesCounted d .crack _)
    exact (raised _ _).trans (handVerdicts_cyclesCounted _ _)

theorem closeLoop_cyclesCounted (n : Nat) : ∀ s, CyclesCounted s (closeLoop n s) := by
  induction n with
  | zero => exact .refl
  | succ n ih =>
    intro s
    have closes : CyclesCounted s (closeOldest s) :=
      (closeEffect_cyclesCounted false s).trans (report_cyclesCounted (closePosting_log s) _ _)
    exact .ite (closes.trans (ih _)) (.refl s)

theorem createEntry_cyclesCounted (c : Half) (start : Time) (s : State) : CyclesCounted s (createEntry c start s) :=
  have added : CyclesCounted s
      (s.withEu { s.eu with cycles := s.eu.cycles ++ [emptyEntry c start], newest := some c }) := .of_same rfl
  added.trans (countIf_cyclesCounted (o := .cycleGap) rfl _ _)

theorem blockBegun_cyclesCounted (c : Half) (start : Time) (s : State) : CyclesCounted s (blockBegun c start s) := by
  have opens : CyclesCounted s (openCycle c start s) :=
    .ite ((createEntry_cyclesCounted c start s).trans (report_cyclesCounted rfl _ _))
      (((closeEffect_cyclesCounted true s).trans (createEntry_cyclesCounted c start _)).trans
        (report_cyclesCounted (closePosting_log s) _ _))
  exact .ite (.refl s) (opens.trans (closeLoop_cyclesCounted _ _))

/-! ### The cycle queue under a close, and under the events that form (R97 to R100) -/

/-- What identifies an entry of the cycle queue: tallies apart. -/
def cycleNumber (k : CycleEntry) : Half × Time := (k.cycle, k.start)

theorem closeEffect_newest (forced : Bool) (s : State) : (closeEffect forced s).eu.newest = s.eu.newest := by
  unfold closeEffect
  split
  · rfl
  · rfl
  · next e rest m _ _ =>
    have counted := (countOccurrence_within .cycleClosed (applyClose e rest m s)).trans (countIf_within forced .cycleForced _)
    have raised (b d : Bool) := ((counted.trans (raiseCause_within .cycle _)).trans (raiseIf_within b .suspect _)).trans
      (raiseIf_within d .crack _)
    exact (congrArg EvidenceUnit.newest (((raised _ _).trans (handVerdicts_within _ _)).eu rfl)).trans rfl

theorem closeOldest_newest (s : State) : (closeOldest s).eu.newest = s.eu.newest := by
  rw [closeOldest, (report_within _ _ _).eu rfl, closeEffect_newest]

/-- The closure test takes entries off the front of the queue, and never the last one. -/
theorem closeLoop_eu (n : Nat) : ∀ s : State, (closeLoop n s).eu.newest = s.eu.newest ∧
    ∃ k, k ≤ s.eu.cycles.length - 1 ∧ (closeLoop n s).eu.cycles = s.eu.cycles.drop k := by
  induction n with
  | zero => exact fun s => ⟨rfl, 0, Nat.zero_le _, rfl⟩
  | succ n ih =>
    intro s
    unfold closeLoop
    split
    · next ready =>
      have two := closeReady_two ready
      obtain ⟨newest, k, bound, cycles⟩ := ih (closeOldest s)
      rw [closeOldest_newest] at newest
      rw [closeOldest_cycles, List.length_tail] at bound
      rw [closeOldest_cycles, ← List.drop_one, List.drop_drop] at cycles
      exact ⟨newest, 1 + k, by omega, cycles⟩
    · exact ⟨rfl, 0, Nat.zero_le _, rfl⟩

theorem testClose_eu (s : State) : (testClose s).eu.newest = s.eu.newest ∧
    ∃ k, k ≤ s.eu.cycles.length - 1 ∧ (testClose s).eu.cycles = s.eu.cycles.drop k := closeLoop_eu _ s

/-- The newest cycle number stands as it was, and the queue has lost entries at its front only, whatever has been added to the
tallies of the others. -/
structure CyclesPass (s t : State) : Prop where
  newest : t.eu.newest = s.eu.newest
  numbers : t.eu.cycles.map cycleNumber <:+ s.eu.cycles.map cycleNumber

theorem CyclesPass.of_eu {s t : State} (h : t.eu = s.eu) : CyclesPass s t := ⟨by rw [h], by rw [h]⟩

theorem CyclesPass.trans {s t u : State} (h : CyclesPass s t) (k : CyclesPass t u) : CyclesPass s u :=
  ⟨k.newest.trans h.newest, k.numbers.trans h.numbers⟩

theorem CyclesPass.of_same {s t u : State} (h : CyclesPass t u) (same : t.eu = s.eu) : CyclesPass s u :=
  (CyclesPass.of_eu same).trans h

theorem testClose_pass (s : State) : CyclesPass s (testClose s) := by
  obtain ⟨newest, k, _, cycles⟩ := testClose_eu s
  refine ⟨newest, ?_⟩
  rw [cycles, List.map_drop]
  exact List.drop_suffix ..

theorem takeCrackEvent_pass (c : Half) (cavity energy : Nat) (s : State) : CyclesPass s (takeCrackEvent c cavity energy s) := by
  have tally (k : CycleEntry) : cycleNumber (addToTally cavity energy k) = cycleNumber k := by
    unfold addToTally
    dsimp only
    split <;> rfl
  refine ⟨rfl, ?_⟩
  unfold takeCrackEvent
  have same : (cycleNumber ∘ fun k => if k.cycle = c then addToTally cavity energy k else k) = cycleNumber := by
    funext k
    show cycleNumber (if k.cycle = c then addToTally cavity energy k else k) = cycleNumber k
    split
    · exact tally k
    · rfl
  rw [State.withEu_eu, List.map_map, same]

theorem formEvent_pass (forced : Bool) (s : State) : CyclesPass s (formEvent forced s) := by
  have reported (r : EventRecord) (u : State) : CyclesPass u (reportEvent r s u) := .of_eu ((reportEvent_within r s u).eu rfl)
  unfold formEvent
  split
  · exact .of_eu rfl
  · next anchor rest _ =>
    have taken : CyclesPass s (takeEvent anchor rest s) := .of_eu rfl
    dsimp only
    split
    · exact taken.trans (reported _ _)
    · split
      · exact (taken.trans (takeCrackEvent_pass _ _ _ _)).trans (reported _ _)
      · exact taken.trans (reported _ _)

theorem formLoop_pass (n : Nat) : ∀ s, CyclesPass s (formLoop n s) := by
  induction n with
  | zero => exact fun s => .of_eu rfl
  | succ n ih =>
    intro s
    unfold formLoop
    split
    · exact ((formEvent_pass false s).trans (testClose_pass _)).trans (ih _)
    · exact .of_eu rfl

theorem locatorTest_pass (s : State) : CyclesPass s (locatorTest s) := (formLoop_pass _ s).trans (testClose_pass _)

theorem refreshCovered_pass (c : Fin 8) (s : State) : CyclesPass s (refreshCovered c s) := by
  unfold refreshCovered
  dsimp only
  split
  · exact .of_eu rfl
  · split
    · exact .of_eu rfl
    · exact (locatorTest_pass _).of_same rfl

theorem hitBroken_pass (c : Fin 8) (s : State) : CyclesPass s (hitBroken c s) :=
  (refreshCovered_pass c _).of_same rfl

theorem CyclesPass.drops {s t : State} (h : CyclesPass s t) : ∃ j, j ≤ s.eu.cycles.length ∧
    t.eu.cycles.map cycleNumber = (s.eu.cycles.map cycleNumber).drop j := by
  refine ⟨_, ?_, List.suffix_iff_eq_drop.mp h.numbers⟩
  simp

/-! ### The entry of a new cycle (R97 to R99) -/

theorem openCycle_newest (c : Half) (start : Time) (s : State) : (openCycle c start s).eu.newest = some c := by
  have created (u : State) : (createEntry c start u).eu.newest = some c := by
    rw [createEntry, (countIf_within _ _ _).eu rfl]
    rfl
  unfold openCycle
  split <;> rw [(report_within _ _ _).eu rfl, created]

theorem openCycle_cycles (c : Half) (start : Time) (s : State) : (openCycle c start s).eu.cycles =
    (s.eu.cycles ++ [emptyEntry c start]).drop (if s.eu.cycles.length < 4 then 0 else 1) := by
  have created (u : State) : (createEntry c start u).eu.cycles = u.eu.cycles ++ [emptyEntry c start] := by
    rw [createEntry, (countIf_within _ _ _).eu rfl]
    rfl
  unfold openCycle
  rw [show Config.cycleCapacity = 4 from rfl]
  split
  · rw [(report_within _ _ _).eu rfl, created]
    rfl
  · next full =>
    rw [(report_within _ _ _).eu rfl, created, closeEffect_cycles, List.drop_append_of_le_length (by omega), List.drop_one]

/-- A block of the cycle c is one of a cycle closed or passed over, as R97 says it of the newest number. -/
def hasPassed (newest : Option Half) (c : Half) : Prop := ∃ n, newest = some n ∧ 1 ≤ (n - c).toNat ∧ (n - c).toNat ≤ 4

theorem passedOver_iff (newest : Option Half) (c : Half) : passedOver newest c = true ↔ hasPassed newest c := by
  cases newest <;> simp [passedOver, hasPassed]

theorem live_iff (x : EvidenceState) : x.live = true ↔ x = .running ∨ x = .held := by
  cases x <;> simp [EvidenceState.live]

/-- A block of the cycle c gets an entry at EU (R97). -/
def opensEntry (c : Half) (s : State) : Prop :=
  (s.eu.state = .running ∨ s.eu.state = .held) ∧ (∀ k ∈ s.eu.cycles, k.cycle ≠ c) ∧ ¬ hasPassed s.eu.newest c

theorem opensEntry_iff (c : Half) (s : State) : opensEntry c s ↔
    (!s.eu.state.live || s.eu.cycles.any (fun e => e.cycle == c) || passedOver s.eu.newest c) = false := by
  rw [opensEntry, ← live_iff, ← passedOver_iff]
  simp [and_assoc]

theorem blockBegun_opens {c : Half} {s : State} (h : opensEntry c s) (start : Time) :
    blockBegun c start s = testClose (openCycle c start s) :=
  if_neg (Bool.eq_false_iff.mp ((opensEntry_iff c s).mp h))

theorem blockBegun_rest {c : Half} {s : State} (h : ¬ opensEntry c s) (start : Time) : blockBegun c start s = s :=
  if_pos (Bool.not_eq_false _ ▸ mt (opensEntry_iff c s).mpr h)

/-- The entry that a block opens stands at the tail; of four entries the oldest has left. -/
theorem blockBegun_entry {c : Half} {s : State} (h : opensEntry c s) (start : Time) :
    (blockBegun c start s).eu.newest = some c ∧ ∃ k, k ≤ s.eu.cycles.length ∧ (s.eu.cycles.length = 4 → 1 ≤ k) ∧
      (blockBegun c start s).eu.cycles = (s.eu.cycles ++ [emptyEntry c start]).drop k := by
  obtain ⟨newest, k, bound, cycles⟩ := testClose_eu (openCycle c start s)
  rw [blockBegun_opens h]
  refine ⟨newest.trans (openCycle_newest c start s), ?_⟩
  rw [openCycle_cycles, List.length_drop, List.length_append, List.length_singleton] at bound
  rw [openCycle_cycles, List.drop_drop] at cycles
  refine ⟨_, ?_, fun full => ?_, cycles⟩
  · split_ifs at bound ⊢ <;> omega
  · rw [if_neg (by omega)]
    omega

/-- The first entry after a MOUNT is no gap entry, and no close follows it. -/
theorem blockBegun_first {c : Half} {s : State} (live : s.eu.state = .running ∨ s.eu.state = .held)
    (newest : s.eu.newest = none) (cycles : s.eu.cycles = []) (start : Time) :
    PostedFrom { s with eu := { s.eu with newest := some c, cycles := [emptyEntry c start] } } (blockBegun c start s) := by
  have opens : opensEntry c s := ⟨live, by simp [cycles], by simp [newest, hasPassed]⟩
  have created : createEntry c start s = { s with eu := { s.eu with newest := some c, cycles := [emptyEntry c start] } } := by
    unfold createEntry
    rw [newest, cycles]
    rfl
  have opened : openCycle c start s = report {} s (createEntry c start s) := if_pos (by rw [cycles]; decide)
  have one : closeReady (openCycle c start s) = false := by
    unfold closeReady
    rw [openCycle_cycles, cycles]
    rfl
  rw [blockBegun_opens opens, testClose_rest one, opened, created]
  exact report_posted {} s _ rfl

theorem CyclesPass.opensEntry {s t : State} (h : CyclesPass s t) (state : t.eu.state = s.eu.state) {c : Half}
    (opens : opensEntry c s) : opensEntry c t := by
  obtain ⟨live, fresh, passed⟩ := opens
  refine ⟨by rwa [state], fun k mem => ?_, by rwa [h.newest]⟩
  obtain ⟨k', mem', same⟩ := List.mem_map.mp (h.numbers.subset (List.mem_map_of_mem mem))
  have cycle : k'.cycle = k.cycle := congrArg Prod.fst same
  exact cycle ▸ fresh k' mem'

/-- The entry of a new cycle, in a queue whose front entries may have left before. -/
theorem CyclesPass.entry {s t : State} (h : CyclesPass s t) {c : Half} (opens : Machine.opensEntry c t) (start : Time) :
    (blockBegun c start t).eu.newest = some c ∧ (blockBegun c start t).eu.cycles.getLast? = some (emptyEntry c start) ∧
      ∃ k, k ≤ s.eu.cycles.length ∧ (s.eu.cycles.length = 4 → 1 ≤ k) ∧
        (blockBegun c start t).eu.cycles.map cycleNumber = ((s.eu.cycles ++ [emptyEntry c start]).drop k).map cycleNumber ∧
        (t.eu = s.eu → (blockBegun c start t).eu.cycles = (s.eu.cycles ++ [emptyEntry c start]).drop k) := by
  obtain ⟨newest, k, bound, full, cycles⟩ := blockBegun_entry opens start
  obtain ⟨j, below, numbers⟩ := h.drops
  have lengths : t.eu.cycles.length = s.eu.cycles.length - j := by simpa using congrArg List.length numbers
  refine ⟨newest, ?_, j + k, by omega, by omega, ?_, fun same => ?_⟩
  · rw [cycles, List.drop_append_of_le_length bound, List.getLast?_concat]
  · rw [cycles, List.map_drop, List.map_append, numbers, ← List.drop_append_of_le_length (by simpa using below),
      List.drop_drop, List.map_drop, List.map_append]
  · have none_left : j = 0 := by
      rw [same] at lengths
      omega
    rw [cycles, same, none_left, Nat.zero_add]

/-! ### The state between the channel and the cycle -/

theorem heardByHx_unbroken {e : AcceptedBlock} {s : State} (h : breaksHit e.mark s.hx.channels[e.channel].state = false) :
    heardByHx e s = hxBegun e s := if_neg (Bool.eq_false_iff.mp h)

theorem breaksHit_continuous {m : BlockMark} (h : m = .continuous) (x : ChannelState) : breaksHit m x = false := by
  subst h
  cases x <;> rfl

theorem heardByHx_hasBegun (e : AcceptedBlock) (s : State) : HasBegun e s (heardByHx e s) := by
  unfold heardByHx
  split
  · exact (hxBegun_hasBegun e s).hitBroken
  · exact hxBegun_hasBegun e s

theorem heardByHx_pass (e : AcceptedBlock) (s : State) : CyclesPass s (heardByHx e s) := by
  unfold heardByHx
  split
  · exact (hitBroken_pass e.channel (hxBegun e s)).of_same rfl
  · exact .of_eu rfl

theorem withCovered_apartFromHx (c : Fin 8) (x : Option Time) (s : State) :
    (withCovered c x s).eu = s.eu ∧ (withCovered c x s).ru = s.ru := by
  unfold withCovered
  split <;> exact ⟨rfl, rfl⟩

theorem hitBroken_state (c : Fin 8) (s : State) : (hitBroken c s).eu.state = s.eu.state := by
  obtain ⟨located, _⟩ := refreshCovered_facts c (countOccurrence (.hit .broken) s)
  rw [hitBroken, located.within.euState rfl, (withCovered_apartFromHx ..).1]
  rfl

theorem heardByHx_state (e : AcceptedBlock) (s : State) : (heardByHx e s).eu.state = s.eu.state := by
  unfold heardByHx
  split
  · exact hitBroken_state e.channel (hxBegun e s)
  · rfl

theorem occur_apart {c : Counter} (o : Occurrence) (h : c.apartFromEvents) : (c.occur o).apartFromEvents := by
  unfold Counter.occur
  split <;> exact h

theorem hitBroken_counters (c : Fin 8) (s : State) {n : Fin 4} (h : s.ru.counters[n].apartFromEvents) :
    (hitBroken c s).ru.counters[n] = (s.ru.counters[n]).occur (.hit .broken) := by
  obtain ⟨located, _⟩ := refreshCovered_facts c (countOccurrence (.hit .broken) s)
  have counted (x : Option Time) : (withCovered c x (countOccurrence (.hit .broken) s)).ru.counters[n] =
      (s.ru.counters[n]).occur (.hit .broken) := by
    rw [(withCovered_apartFromHx ..).2]
    exact Vector.getElem_map ..
  rw [hitBroken, located.counters n (by rw [counted]; exact occur_apart _ h), counted]

theorem heardByHx_counters (e : AcceptedBlock) (s : State) {n : Fin 4} (h : s.ru.counters[n].apartFromEvents) :
    (heardByHx e s).ru.counters[n] = if breaksHit e.mark s.hx.channels[e.channel].state then
      (s.ru.counters[n]).occur (.hit .broken) else s.ru.counters[n] := by
  unfold heardByHx
  split
  · exact hitBroken_counters e.channel (hxBegun e s) h
  · rfl

theorem beginBlock_hasBegun (e : AcceptedBlock) (s : State) : HasBegun e s (beginBlock e s) := by
  rw [beginBlock_eq]
  exact (heardByHx_hasBegun e s).of_hx ((blockBegun_within ..).hx rfl)

theorem beginBlock_counters (e : AcceptedBlock) (s : State) {n : Fin 4} (h : s.ru.counters[n].apartFromEvents) :
    (beginBlock e s).ru.counters[n] = if breaksHit e.mark s.hx.channels[e.channel].state then
      (s.ru.counters[n]).occur (.hit .broken) else s.ru.counters[n] := by
  have heard := heardByHx_counters e s h
  have apart : (heardByHx e s).ru.counters[n].apartFromEvents := by
    rw [heard]
    split
    · exact occur_apart _ h
    · exact h
  obtain ⟨_, _, select⟩ := apart
  rw [beginBlock_eq]
  exact (blockBegun_cyclesCounted e.cycle e.timestamp (heardByHx e s) n select).trans heard

theorem takeBlock_begins {s : State} {e : AcceptedBlock} {rest : List AcceptedBlock} (idle : s.hx.block = none)
    (queue : s.sf.queue = e :: rest) : takeBlock s = beginBlock e (s.withSf { s.sf with queue := rest }) := by
  unfold takeBlock
  rw [idle, queue]

/-- Without a broken hit, HX of a state in which the block e has begun is all that is left of HX's part. -/
theorem beginBlock_unbroken {e : AcceptedBlock} {s : State} (h : breaksHit e.mark s.hx.channels[e.channel].state = false) :
    beginBlock e s = blockBegun e.cycle e.timestamp { s with hx := (beginBlock e s).hx } := by
  have whole : beginBlock e s = blockBegun e.cycle e.timestamp (heardByHx e s) := beginBlock_eq e s
  have hx : (beginBlock e s).hx = (hxBegun e s).hx := by
    rw [whole, (blockBegun_within ..).hx rfl, heardByHx_unbroken h]
  rw [hx, whole, heardByHx_unbroken h]
  rfl

/-- Of a cycle that is passed over, or without a mould, no entry opens, even where a hit has been broken. -/
theorem beginBlock_newest {e : AcceptedBlock} {s : State}
    (h : ¬ (s.eu.state = .running ∨ s.eu.state = .held) ∨ hasPassed s.eu.newest e.cycle) :
    (beginBlock e s).eu.newest = s.eu.newest := by
  have pass := heardByHx_pass e s
  have closed : ¬ opensEntry e.cycle (heardByHx e s) := by
    rintro ⟨live, _, passed⟩
    rw [heardByHx_state] at live
    rw [pass.newest] at passed
    exact h.elim (· live) passed
  have heard : beginBlock e s = heardByHx e s := (beginBlock_eq e s).trans (blockBegun_rest closed _)
  rw [heard, pass.newest]

/-- The entry that a block opens: the broken hit can have closed entries before it, and added to the tallies of the others. -/
theorem beginBlock_entry {e : AcceptedBlock} {s : State} (h : opensEntry e.cycle s) :
    (beginBlock e s).eu.newest = some e.cycle ∧
      (beginBlock e s).eu.cycles.getLast? = some (emptyEntry e.cycle e.timestamp) ∧
      ∃ k, k ≤ s.eu.cycles.length ∧ (s.eu.cycles.length = 4 → 1 ≤ k) ∧
        (beginBlock e s).eu.cycles.map cycleNumber =
          ((s.eu.cycles ++ [emptyEntry e.cycle e.timestamp]).drop k).map cycleNumber ∧
        (e.mark = .continuous →
          (beginBlock e s).eu.cycles = (s.eu.cycles ++ [emptyEntry e.cycle e.timestamp]).drop k) := by
  have pass := heardByHx_pass e s
  have whole : beginBlock e s = blockBegun e.cycle e.timestamp (heardByHx e s) := beginBlock_eq e s
  rw [whole]
  obtain ⟨newest, last, k, bound, full, numbers, cycles⟩ := pass.entry (pass.opensEntry (heardByHx_state e s) h) e.timestamp
  refine ⟨newest, last, k, bound, full, numbers, fun continuous => cycles ?_⟩
  rw [heardByHx_unbroken (breaksHit_continuous continuous _)]
  rfl

theorem beginBlock_rest {e : AcceptedBlock} {s : State} (unbroken : breaksHit e.mark s.hx.channels[e.channel].state = false)
    (closed : ¬ opensEntry e.cycle s) : beginBlock e s = { s with hx := (beginBlock e s).hx } :=
  (beginBlock_unbroken unbroken).trans (blockBegun_rest (s := { s with hx := (beginBlock e s).hx }) closed e.timestamp)

theorem beginBlock_cyclesCounted {e : AcceptedBlock} {s : State}
    (unbroken : breaksHit e.mark s.hx.channels[e.channel].state = false) : CyclesCounted s (beginBlock e s) := by
  have counted := blockBegun_cyclesCounted e.cycle e.timestamp { s with hx := (beginBlock e s).hx }
  rwa [← beginBlock_unbroken unbroken] at counted

theorem beginBlock_first {e : AcceptedBlock} {s : State} (unbroken : breaksHit e.mark s.hx.channels[e.channel].state = false)
    (live : s.eu.state = .running ∨ s.eu.state = .held) (newest : s.eu.newest = none) (cycles : s.eu.cycles = []) :
    PostedFrom { s with
      hx := (beginBlock e s).hx
      eu := { s.eu with newest := some e.cycle, cycles := [emptyEntry e.cycle e.timestamp] } } (beginBlock e s) := by
  have first := blockBegun_first (c := e.cycle) (s := { s with hx := (beginBlock e s).hx }) live newest cycles e.timestamp
  rwa [← beginBlock_unbroken unbroken] at first

/-- Settles O49. -/
theorem blockBegins : Obligations.BlockBegins := by
  intro s₀ e rest running idle queue s p x broken
  have idle_ : s.hx.block = none := ((reportHolds_within s₀).hx rfl).symm ▸ idle
  have queue_ : s.sf.queue = e :: rest := (reportHolds_sf s₀).symm ▸ queue
  let s' : State := s.withSf { s.sf with queue := rest }
  have row : exec .blockBegin s₀ = .next (reportHolds (beginBlock e s')) :=
    congrArg Host.Outcome.next ((whileRunning_eq takeBlock running).trans
      (congrArg reportHolds (takeBlock_begins idle_ queue_)))
  have sf : (beginBlock e s').sf = s'.sf := (beginBlock_within e s').sf rfl
  have within : Within .frame s (beginBlock e s') := (withSf_within s _).trans (beginBlock_within e s').widen
  obtain ⟨block, others, params, lastFinished, lastEnd, state⟩ := beginBlock_hasBegun e s'
  refine ⟨_, row, sf, block, others, params, lastFinished, lastEnd, state, within, fun n apart => ?_,
    fun unbroken n select => ?_, fun unbroken closed => ?_, fun unbroken live newest cycles => ?_, fun past => ?_,
    fun closed continuous => ?_, fun live opens _ _ => ?_⟩
  · exact beginBlock_counters e s' apart
  · exact beginBlock_cyclesCounted (s := s') unbroken n select
  · exact beginBlock_rest unbroken closed
  · exact beginBlock_first (s := s') unbroken live newest cycles
  · exact beginBlock_newest past
  · exact (congrArg State.eu (beginBlock_rest (s := s') (breaksHit_continuous continuous _) closed) :)
  · exact beginBlock_entry ⟨live, opens⟩

end Sys2Proof.Machine
end

section
/-! The covered-to time of a channel, the horizon they make, and the tests that a changed horizon gives cause to. -/

namespace Sys2Proof.Machine

/-! ### The covered-to time by its table (R73) -/

theorem ringOfChannel_none {sf : StreamFramer} {c : Fin 8}
    (without : ∀ r : Fin 8, sf.rings[r].defined = true → sf.rings[r].channel ≠ c) : ringOfChannel sf c = none := by
  have absent : (allChannels.find? fun r => sf.rings[r].defined && sf.rings[r].channel == c) = none := by
    refine List.find?_eq_none.mpr fun r _ found => ?_
    obtain ⟨defined, channel⟩ := Bool.and_eq_true_iff.mp found
    exact without r defined (beq_iff_eq.mp channel)
  rw [ringOfChannel, absent]
  rfl

/-- The only ring bound to the channel. -/
theorem ringOfChannel_bound {sf : StreamFramer} {r c : Fin 8} (defined : sf.rings[r].defined = true)
    (channel : sf.rings[r].channel = c)
    (only : ∀ q : Fin 8, q ≠ r → sf.rings[q].defined = true → sf.rings[q].channel ≠ c) :
    ringOfChannel sf c = some sf.rings[r] := by
  subst channel
  exact ringOfChannel_eq defined only

theorem ringCounts_iff (x : Ring) : ringCounts x = true ↔ x.state ≠ .off ∧ x.stale = false := by
  simp [ringCounts]

/-- A channel that is IDLE, or that has no ring that is on and not stale, has none. -/
theorem coveredTo_of_outside {s : State} {c : Fin 8}
    (h : (channelOf s c).state = .idle ∨ ((ringOfChannel s.sf c).map ringCounts).getD false = false) :
    coveredTo s c = none := if_pos h

/-- A channel in the horizon covers to the arrival of its open hit, and else to the end of its last finished block. -/
theorem coveredTo_of_counts {s : State} {c : Fin 8} {ring : Ring} (bound : ringOfChannel s.sf c = some ring)
    (counts : ringCounts ring = true) (working : (channelOf s c).state ≠ .idle) {t : Time}
    (finished : (channelOf s c).lastFinished = some t) :
    (∀ b t₀ h, (channelOf s c).state = .inHit b t₀ h → coveredTo s c = some h.arrival) ∧
      ((∀ b t₀ h, (channelOf s c).state ≠ .inHit b t₀ h) → coveredTo s c = some (t + 640)) := by
  have inside : ¬ ((channelOf s c).state = .idle ∨ ((ringOfChannel s.sf c).map ringCounts).getD false = false) := by
    simp [working, bound, counts]
  unfold coveredTo
  dsimp only
  rw [if_neg inside, finished]
  refine ⟨fun b t₀ h state => by rw [state], fun noHit => ?_⟩
  cases state : (channelOf s c).state with
  | idle => exact absurd state working
  | inHit b t₀ h => exact absurd state (noHit b t₀ h)
  | settling | armed | lockout => rfl

/-! ### The horizon (R75, R78) -/

/-- The earliest of the times `covers`, in the order measured from r, or none where there are none of them. -/
inductive IsEarliest (r : Time) (covers : Time → Prop) : Option Time → Prop where
  | unbounded : (∀ t, ¬ covers t) → IsEarliest r covers none
  | time {h : Time} : covers h → (∀ t, covers t → (h - r).toInt ≤ (t - r).toInt) → IsEarliest r covers (some h)

theorem earlier_iff (r t u : Time) : earlier r t u = true ↔ (t - r).toInt < (u - r).toInt := BitVec.slt_iff_toInt_lt

theorem IsEarliest.eq_none_iff {r : Time} {covers : Time → Prop} {a : Option Time} (h : IsEarliest r covers a) :
    a = none ↔ ∀ t, ¬ covers t := by
  cases h with
  | unbounded nothing => exact iff_of_true rfl nothing
  | time covered _ => exact iff_of_false (Option.some_ne_none _) fun nothing => nothing _ covered

theorem IsEarliest.earliestOf {r : Time} {covers : Time → Prop} {a : Option Time} (h : IsEarliest r covers a)
    (b : Option Time) : IsEarliest r (fun t => covers t ∨ b = some t) (earliestOf r a b) := by
  cases b with
  | none =>
    have same : Machine.earliestOf r a none = a := by cases a <;> rfl
    simpa [same] using h
  | some u =>
    cases h with
    | unbounded nothing =>
      refine .time (.inr rfl) ?_
      rintro t (cover | same)
      · exact absurd cover (nothing t)
      · rw [Option.some.inj same]
    | time covered first =>
      unfold Machine.earliestOf
      dsimp only
      split
      · next before =>
        have less := (earlier_iff _ _ _).mp before
        refine .time (.inr rfl) ?_
        rintro t (cover | same)
        · exact Int.le_trans (Int.le_of_lt less) (first t cover)
        · rw [Option.some.inj same]
      · next after =>
        have notLess := Int.not_lt.mp (mt (earlier_iff _ _ _).mpr after)
        refine .time (.inl covered) ?_
        rintro t (cover | same)
        · exact first t cover
        · rwa [Option.some.inj same] at notLess

theorem foldl_isEarliest (r : Time) (g : Fin 8 → Option Time) (l : List (Fin 8)) :
    ∀ {covers : Time → Prop} {a : Option Time}, IsEarliest r covers a →
      IsEarliest r (fun t => covers t ∨ ∃ c ∈ l, g c = some t) (l.foldl (fun a c => earliestOf r a (g c)) a) := by
  induction l with
  | nil => simp
  | cons c l ih =>
    intro covers a h
    simpa [or_assoc] using ih (h.earliestOf (g c))

theorem horizonOf_isEarliest (s : State) :
    IsEarliest (reference s.el) (fun t => ∃ c : Fin 8, s.hx.channels[c].coveredTo = some t) (horizonOf s) := by
  have fold := foldl_isEarliest (reference s.el) (fun c => s.hx.channels[c].coveredTo) allChannels (.unbounded fun _ => id)
  simpa [mem_allChannels, horizonOf] using fold

/-! ### A changed covered-to time (R73, R78) -/

theorem refreshCovered_changed {c : Fin 8} {s : State} (changed : coveredTo s c ≠ (channelOf s c).coveredTo) :
    refreshCovered c s =
      let u := putChannel c ((channelOf s c).cover (coveredTo s c)) s
      if horizonOf u = s.el.horizon then u else locatorTest (u.withEl { u.el with horizon := horizonOf u }) :=
  if_neg changed

/-- Settles O54. -/
theorem horizonReleasesEvents : Obligations.HorizonReleasesEvents := by
  intro s
  refine ⟨fun c => ⟨fun idle => coveredTo_of_outside (.inl idle), fun without => ?_, fun r defined channel only => ?_⟩,
    ⟨?_, fun h bound => ?_⟩, fun c => ⟨fun same => (refreshCovered_facts c s).2 same.symm, refreshCovered_changed⟩,
    fun due => locatorTest_ready ((formReady_iff s).mpr due),
    fun rests => locatorTest_rest (Bool.eq_false_iff.mpr (mt (formReady_iff s).mp rests))⟩
  · exact coveredTo_of_outside (.inr (by rw [ringOfChannel_none without]; rfl))
  · have bound := ringOfChannel_bound defined channel only
    refine ⟨fun silent => coveredTo_of_outside (.inr ?_), fun on fresh working =>
      ⟨coveredTo_of_unfinished, fun t => coveredTo_of_counts bound ((ringCounts_iff _).mpr ⟨on, fresh⟩) working⟩⟩
    rw [bound]
    refine Bool.eq_false_iff.mpr fun counts => ?_
    obtain ⟨on, fresh⟩ := (ringCounts_iff _).mp counts
    exact silent.elim on (Bool.eq_false_iff.mp fresh)
  · rw [(horizonOf_isEarliest s).eq_none_iff]
    simp [Option.eq_none_iff_forall_ne_some, forall_comm (α := Fin 8)]
  · have earliest := horizonOf_isEarliest s
    rw [bound] at earliest
    cases earliest with
    | time covered first => exact ⟨covered, fun c t cover => first t ⟨c, cover⟩⟩

end Sys2Proof.Machine
end

section
/-! One sample of a block: what it does under each state of its channel, the hit that it opens, follows or closes, and the block
that sample 127 finishes. -/

namespace Sys2Proof.Machine

/-! ### A refreshed covered-to time and the other items of the channel (R73) -/

theorem refreshCovered_hx (c : Fin 8) (s : State) : (refreshCovered c s).hx = (withCovered c (coveredTo s c) s).hx :=
  (refreshCovered_facts c s).1.within.hx rfl

theorem channelOf_refreshCovered_eq (c k : Fin 8) (s : State) :
    channelOf (refreshCovered c s) k = channelOf (withCovered c (coveredTo s c) s) k := by
  unfold channelOf
  rw [refreshCovered_hx]

@[simp] theorem refreshCovered_block (c : Fin 8) (s : State) : (refreshCovered c s).hx.block = s.hx.block := by
  rw [refreshCovered_hx, withCovered]
  split <;> rfl

/-- The channel has the covered-to time of R73, and the mark of the horizon apart it keeps all its other items. -/
theorem channelOf_refreshCovered (c : Fin 8) (s : State) :
    ∃ joined, channelOf (refreshCovered c s) c = { channelOf s c with coveredTo := coveredTo s c, joined := joined } := by
  rw [channelOf_refreshCovered_eq, withCovered]
  split
  · next same => exact ⟨_, by rw [same]⟩
  · exact ⟨_, channelOf_putChannel ..⟩

@[simp] theorem refreshCovered_state (c : Fin 8) (s : State) :
    (channelOf (refreshCovered c s) c).state = (channelOf s c).state := by
  obtain ⟨joined, e⟩ := channelOf_refreshCovered c s
  rw [e]

@[simp] theorem refreshCovered_params (c : Fin 8) (s : State) :
    (channelOf (refreshCovered c s) c).params = (channelOf s c).params := by
  obtain ⟨joined, e⟩ := channelOf_refreshCovered c s
  rw [e]

@[simp] theorem refreshCovered_lastEnd (c : Fin 8) (s : State) :
    (channelOf (refreshCovered c s) c).lastEnd = (channelOf s c).lastEnd := by
  obtain ⟨joined, e⟩ := channelOf_refreshCovered c s
  rw [e]

@[simp] theorem refreshCovered_lastFinished (c : Fin 8) (s : State) :
    (channelOf (refreshCovered c s) c).lastFinished = (channelOf s c).lastFinished := by
  obtain ⟨joined, e⟩ := channelOf_refreshCovered c s
  rw [e]

theorem refreshCovered_coveredTo (c : Fin 8) (s : State) :
    (channelOf (refreshCovered c s) c).coveredTo = coveredTo s c := by
  obtain ⟨joined, e⟩ := channelOf_refreshCovered c s
  rw [e]

theorem channelOf_putChannel_ne {c k : Fin 8} (h : k ≠ c) (x : Channel) (s : State) :
    channelOf (putChannel c x s) k = channelOf s k :=
  Vector.getElem_set_ne c.isLt k.isLt fun e => h (Fin.ext e.symm)

theorem channelOf_refreshCovered_ne {c k : Fin 8} (h : k ≠ c) (s : State) :
    channelOf (refreshCovered c s) k = channelOf s k := by
  rw [channelOf_refreshCovered_eq, withCovered]
  split
  · rfl
  · exact channelOf_putChannel_ne h _ s

theorem paramsOf_eq {s : State} {c : Fin 8} {p : ExtractionParams} (h : (channelOf s c).params = some p) :
    paramsOf s c = p := by
  rw [paramsOf, h]
  rfl

/-! ### A change of one channel, with the events that follow -/

/-- HX may be replaced on both sides. -/
theorem Located.withHx {s t : State} (h : Located s t) (x : HitExtractor) : Located (s.withHx x) (t.withHx x) := by
  obtain ⟨w, k, counters, q⟩ := h
  refine ⟨{ w with hx := fun _ => rfl }, { k with }, counters, { q with }⟩

/-- From s to t nothing has changed but HX's block, its record of the channel c, and what follows of events. -/
structure OnlyChannel (c : Fin 8) (s t : State) : Prop where
  others : ∀ k : Fin 8, k ≠ c → t.hx.channels[k] = s.hx.channels[k]
  located : Located { s with hx := t.hx } t

theorem OnlyChannel.trans {c : Fin 8} {s t u : State} (h : OnlyChannel c s t) (k : OnlyChannel c t u) : OnlyChannel c s u :=
  ⟨fun q ne => (k.others q ne).trans (h.others q ne), (h.located.withHx u.hx).trans k.located⟩

theorem putBlock_onlyChannel (c : Fin 8) (b : Option BlockInWork) (s : State) : OnlyChannel c s (putBlock b s) :=
  ⟨fun _ _ => rfl, .refl _⟩

theorem putChannel_onlyChannel (c : Fin 8) (x : Channel) (s : State) : OnlyChannel c s (putChannel c x s) :=
  ⟨fun _ ne => channelOf_putChannel_ne ne x s, .refl _⟩

theorem refreshCovered_onlyChannel (c : Fin 8) (s : State) : OnlyChannel c s (refreshCovered c s) := by
  refine ⟨fun _ ne => channelOf_refreshCovered_ne ne s, ?_⟩
  have located := (refreshCovered_facts c s).1
  have same : ({ s with hx := (refreshCovered c s).hx } : State) = withCovered c (coveredTo s c) s := by
    rw [refreshCovered_hx, withCovered]
    split <;> rfl
  rwa [same]

/-! ### A hit that closes (R65 to R67) -/

/-- The channel of a hit that is disposed of: the hit is SHORT or LATE, or its end is kept and it is counted and delivered. -/
theorem disposeHit_putChannel {c : Fin 8} {x : Channel} {p : ExtractionParams} (params : x.params = some p) (h : OpenHit)
    (truncated : Bool) (s : State) :
    disposeHit c h truncated (putChannel c x s) =
      if hitDuration h truncated < p.mindur then counted [.hit .short] (putChannel c x s)
      else if arrivesLate x.lastEnd h.arrival then counted [.hit .late] (putChannel c x s)
      else deliverHit (hitRecord c h (hitDuration h truncated))
        (counted (.hit .accepted :: if truncated then [.hit .truncated] else [])
          (putChannel c { x with lastEnd := some (hitLastTime h.arrival (hitDuration h truncated)) } s)) := by
  have inForce : paramsOf (putChannel c x s) c = p := paramsOf_eq (by rw [channelOf_putChannel, params])
  have accepted : countIf truncated (.hit .truncated) (countOccurrence (.hit .accepted) (putChannel c x s)) =
      putChannel c x (counted (.hit .accepted :: if truncated then [.hit .truncated] else []) s) := by
    cases truncated <;> simp only [counted_cons, counted_nil, if_true, Bool.false_eq_true, if_false] <;> rfl
  unfold disposeHit
  dsimp only
  rw [inForce, channelOf_putChannel, accepted, channelOf_putChannel, putChannel_putChannel]
  simp only [counted_cons, counted_nil]
  rfl

theorem putChannelState_eq (c : Fin 8) (st : ChannelState) (s : State) :
    putChannelState c st s = putChannel c { channelOf s c with state := st } s := rfl

theorem closeHit_eq {c : Fin 8} {p : ExtractionParams} {s : State} (params : (channelOf s c).params = some p) (b t : Nat)
    (h : OpenHit) (truncated : Bool) :
    closeHit c b t h truncated s = refreshCovered c (disposeHit c h truncated
      (putChannel c { channelOf s c with state := afterHit p b t } s)) := by
  rw [closeHit, putChannelState_eq, paramsOf_eq params]

/-- The disposal of a hit leaves the state of its channel. -/
theorem disposeHit_state (c : Fin 8) (h : OpenHit) (truncated : Bool) (s : State) :
    (channelOf (disposeHit c h truncated s) c).state = (channelOf s c).state := by
  have counted : (countIf truncated (.hit .truncated) (countOccurrence (.hit .accepted) s)).hx = s.hx :=
    ((countOccurrence_within _ s).trans (countIf_within truncated _ _)).hx rfl
  have delivered (r : Hit) (u : State) : channelOf (deliverHit r u) c = channelOf u c := by
    unfold channelOf
    rw [(deliverHit_within r u).hx rfl]
  unfold disposeHit
  dsimp only
  split
  · rfl
  · split
    · rfl
    · rw [delivered, channelOf_putChannel]
      dsimp only [channelOf]
      rw [counted]

theorem afterHit_unsettled (p : ExtractionParams) (b t : Nat) : afterHit p b t ≠ .settling := by
  unfold afterHit
  split <;> exact ChannelState.noConfusion

theorem closeHit_unsettled (c : Fin 8) (b t : Nat) (h : OpenHit) (truncated : Bool) (s : State) :
    (channelOf (closeHit c b t h truncated s) c).state ≠ .settling := by
  rw [closeHit, refreshCovered_state, disposeHit_state, putChannelState_eq, channelOf_putChannel]
  exact afterHit_unsettled _ b t

/-! ### One sample, by the state of its channel (R59 to R68) -/

theorem putChannelState_unsettled {st : ChannelState} (h : st ≠ .settling) (c : Fin 8) (s : State) :
    (channelOf (putChannelState c st s) c).state ≠ .settling := by
  rwa [putChannelState_eq, channelOf_putChannel]

theorem followHit_unsettled (c : Fin 8) (b t : Nat) (h : OpenHit) (v : Nat) (s : State) :
    (channelOf (followHit c b t h v s) c).state ≠ .settling := by
  unfold followHit
  dsimp only
  split
  · exact putChannelState_unsettled ChannelState.noConfusion c s
  · exact closeHit_unsettled c b t _ _ s
  · exact closeHit_unsettled c b t _ _ s

/-- Only a ring command makes a channel settle. -/
theorem sampleEffect_unsettled {w : BlockInWork} {s : State} (h : (channelOf s w.entry.channel).state ≠ .settling) :
    (channelOf (sampleEffect w s) w.entry.channel).state ≠ .settling := by
  unfold sampleEffect
  dsimp only
  split
  · exact h
  · next settling => exact absurd settling h
  · split
    · exact followHit_unsettled _ _ _ _ _ _
    · exact putChannelState_unsettled ChannelState.noConfusion _ s
  · exact followHit_unsettled _ _ _ _ _ s
  · unfold lockoutSample
    split <;> exact putChannelState_unsettled ChannelState.noConfusion _ s

/-! ### A hit that takes a sample (R62 to R66) -/

/-- A sample of a hit that has taken one before. -/
theorem takeSample_later {h : OpenHit} (opened : 1 ≤ h.count) (v : Nat) :
    takeSample h v =
      let above : Bool := decide (h.threshold ≤ v)
      { h with
        count := h.count + 1
        peak := max h.peak v
        peakOffset := if h.peak < v then h.count else h.peakOffset
        energy := if above then h.energy + (v - h.threshold) else h.energy
        lastAbove := if above then h.count else h.lastAbove
        belowRun := if above then 0 else h.belowRun + 1 } := by
  have notFirst : (h.count == 0) = false := beq_eq_false_iff_ne.mpr (by omega)
  have highest : (if h.peak < v then v else h.peak) = max h.peak v := by split <;> omega
  unfold takeSample
  simp only [notFirst, Bool.or_false, decide_eq_true_eq, highest]

/-- The hit that a sample v at or above T opens, with the sample taken. -/
def openedHit (e : AcceptedBlock) (i t v : Nat) : OpenHit :=
  { openHitAt e i t with count := 1, peak := v, energy := v - t }

theorem takeSample_openHitAt {t v : Nat} (above : t ≤ v) (e : AcceptedBlock) (i : Nat) :
    takeSample (openHitAt e i t) v = openedHit e i t v := by
  simp [takeSample, openHitAt, openedHit, above]

section
variable {c : Fin 8} {p : ExtractionParams} {s : State} (params : (channelOf s c).params = some p) {b t v : Nat} {h g : OpenHit}
  (taken : takeSample h v = g)
include params taken

theorem followHit_stillOpen (below : g.belowRun < p.hdt) (short : g.count < p.maxdur) :
    followHit c b t h v s = putChannelState c (.inHit b t g) s := by
  have stays : hitEnd p g = .stillOpen := (if_neg (by omega)).trans (if_neg (by omega))
  unfold followHit
  dsimp only
  rw [paramsOf_eq params, taken, stays]

theorem followHit_closed (below : p.hdt ≤ g.belowRun) : followHit c b t h v s = closeHit c b t g false s := by
  have ends : hitEnd p g = .closed := if_pos below
  unfold followHit
  dsimp only
  rw [paramsOf_eq params, taken, ends]

theorem followHit_truncated (below : g.belowRun < p.hdt) (long : p.maxdur ≤ g.count) :
    followHit c b t h v s = closeHit c b t g true s := by
  have ends : hitEnd p g = .truncated := (if_neg (by omega)).trans (if_pos long)
  unfold followHit
  dsimp only
  rw [paramsOf_eq params, taken, ends]

end

/-- The channel with a hit just opened, before the sample is taken: its covered-to time has followed (R63, R73). -/
def hitOpened (c : Fin 8) (b t : Nat) (e : AcceptedBlock) (i : Nat) (s : State) : State :=
  refreshCovered c (putChannelState c (.inHit b t (openHitAt e i t)) s)

/-- The hit has taken the sample that opens it, and stays open. -/
def hitBegun (c : Fin 8) (b t v : Nat) (e : AcceptedBlock) (i : Nat) (s : State) : State :=
  putChannelState c (.inHit b t (openedHit e i t v)) (hitOpened c b t e i s)

section
variable (c : Fin 8) (b t v : Nat) (e : AcceptedBlock) (i : Nat) (s : State)

theorem hitOpened_params : (channelOf (hitOpened c b t e i s) c).params = (channelOf s c).params := by
  rw [hitOpened, refreshCovered_params, putChannelState_eq, channelOf_putChannel]

theorem hitOpened_lastEnd : (channelOf (hitOpened c b t e i s) c).lastEnd = (channelOf s c).lastEnd := by
  rw [hitOpened, refreshCovered_lastEnd, putChannelState_eq, channelOf_putChannel]

theorem hitBegun_state : (channelOf (hitBegun c b t v e i s) c).state = .inHit b t (openedHit e i t v) := by
  rw [hitBegun, putChannelState_eq, channelOf_putChannel]

theorem hitBegun_block : (hitBegun c b t v e i s).hx.block = s.hx.block := refreshCovered_block ..

theorem hitBegun_onlyChannel : OnlyChannel c s (hitBegun c b t v e i s) :=
  ((putChannel_onlyChannel c _ s).trans (refreshCovered_onlyChannel c _)).trans (putChannel_onlyChannel c _ _)

end

theorem hitLastTime_one (arrival : Time) : hitLastTime arrival 1 = arrival := by simp [hitLastTime]

/-! ### The effect of a sample under each state -/

/-- R61, the clamp written out. -/
theorem thresholdOf_eq (p : ExtractionParams) (b : Nat) : thresholdOf p b =
    match p.mode with
    | .fixed => p.fixedThreshold
    | .floating => min (max 1 (b / 256 * p.f / 16 + p.m)) 65535 := by
  unfold thresholdOf
  cases p.mode with
  | fixed => rfl
  | floating => exact clampTo_eq_min (by decide) _

section
variable {w : BlockInWork} {s : State} {p : ExtractionParams} {b t : Nat}

theorem sampleEffect_settling (state : (channelOf s w.entry.channel).state = .settling) : sampleEffect w s =
    putBlock (some { w with next := w.next + 1, sum := w.sum + sampleAt w.entry w.next }) s := by
  unfold sampleEffect
  dsimp only
  rw [state]

theorem sampleEffect_armed (state : (channelOf s w.entry.channel).state = .armed b t) : sampleEffect w s =
    if t ≤ sampleAt w.entry w.next then openHit w.entry.channel b t w.entry w.next (sampleAt w.entry w.next) s
    else quietSample w.entry.channel b (sampleAt w.entry w.next) s := by
  unfold sampleEffect
  dsimp only
  rw [state]

theorem sampleEffect_inHit {h : OpenHit} (state : (channelOf s w.entry.channel).state = .inHit b t h) :
    sampleEffect w s = followHit w.entry.channel b t h (sampleAt w.entry w.next) s := by
  unfold sampleEffect
  dsimp only
  rw [state]

variable (params : (channelOf s w.entry.channel).params = some p)
include params

theorem sampleEffect_lockout {n : Nat} (state : (channelOf s w.entry.channel).state = .lockout b t n) :
    sampleEffect w s =
      putChannelState w.entry.channel (if n ≤ 1 then .armed b (thresholdOf p b) else .lockout b t (n - 1)) s := by
  unfold sampleEffect lockoutSample
  dsimp only
  rw [state, paramsOf_eq params]
  dsimp only
  split <;> rfl

variable (state : (channelOf s w.entry.channel).state = .armed b t)
include state

theorem sampleEffect_quiet (below : sampleAt w.entry w.next < t) : sampleEffect w s =
    putChannelState w.entry.channel (armedAt p (updateBackground p.k b (sampleAt w.entry w.next))) s := by
  rw [sampleEffect_armed state, if_neg (Nat.not_le.mpr below), quietSample, paramsOf_eq params]

variable (above : t ≤ sampleAt w.entry w.next) (hdt : 1 ≤ p.hdt)
include above hdt

theorem sampleEffect_opens (maxdur : 2 ≤ p.maxdur) :
    sampleEffect w s = hitBegun w.entry.channel b t (sampleAt w.entry w.next) w.entry w.next s := by
  rw [sampleEffect_armed state, if_pos above]
  exact followHit_stillOpen ((hitOpened_params _ b t w.entry w.next s).trans params)
    (takeSample_openHitAt above w.entry w.next) hdt maxdur

theorem sampleEffect_opens_truncated (maxdur : p.maxdur ≤ 1) : sampleEffect w s =
    closeHit w.entry.channel b t (openedHit w.entry w.next t (sampleAt w.entry w.next)) true
      (hitOpened w.entry.channel b t w.entry w.next s) := by
  rw [sampleEffect_armed state, if_pos above]
  exact followHit_truncated ((hitOpened_params _ b t w.entry w.next s).trans params)
    (takeSample_openHitAt above w.entry w.next) hdt maxdur

end

/-! ### The end of a block (R59, R72, R73) -/

/-- The block's timestamp is the channel's last finished, and HX is free; the covered-to time has not followed. -/
def blockLeft (w : BlockInWork) (s : State) : State :=
  putBlock none (putChannel w.entry.channel { channelOf s w.entry.channel with lastFinished := some w.entry.timestamp } s)

section
variable (w : BlockInWork) (s : State)

theorem blockFinished_eq : blockFinished w s = refreshCovered w.entry.channel (blockLeft w s) := rfl

theorem channelOf_blockLeft : channelOf (blockLeft w s) w.entry.channel =
    { channelOf s w.entry.channel with lastFinished := some w.entry.timestamp } := channelOf_putChannel ..

theorem blockFinished_block : (blockFinished w s).hx.block = none := refreshCovered_block ..

theorem blockFinished_state :
    (channelOf (blockFinished w s) w.entry.channel).state = (channelOf s w.entry.channel).state := by
  rw [blockFinished_eq, refreshCovered_state, channelOf_blockLeft]

theorem blockFinished_lastFinished :
    (channelOf (blockFinished w s) w.entry.channel).lastFinished = some w.entry.timestamp := by
  rw [blockFinished_eq, refreshCovered_lastFinished, channelOf_blockLeft]

theorem blockFinished_onlyChannel : OnlyChannel w.entry.channel s (blockFinished w s) :=
  ((putChannel_onlyChannel _ _ s).trans (putBlock_onlyChannel _ none _)).trans (refreshCovered_onlyChannel _ _)

end

/-- R73: the channel of a finished block covers to the end of the block, where no hit is open and its ring counts. -/
theorem blockFinished_coveredTo {w : BlockInWork} {s : State} {b t : Nat}
    (armed : (channelOf s w.entry.channel).state = .armed b t) {ring : Ring}
    (bound : ringOfChannel s.sf w.entry.channel = some ring) (counts : ringCounts ring = true) :
    (channelOf (blockFinished w s) w.entry.channel).coveredTo = some (w.entry.timestamp + 640) := by
  have left := channelOf_blockLeft w s
  have state : (channelOf (blockLeft w s) w.entry.channel).state = .armed b t := by rw [left]; exact armed
  rw [blockFinished_eq, refreshCovered_coveredTo]
  refine (coveredTo_of_counts (s := blockLeft w s) bound counts ?_ (by rw [left])).2 fun _ _ _ => ?_
  all_goals rw [state]; exact ChannelState.noConfusion

theorem finishBlock_eq (w : BlockInWork) (sum : Nat) (s : State) :
    finishBlock w sum s = blockFinished w (seedChannel w.entry.channel sum s) := rfl

theorem seedChannel_unsettled {c : Fin 8} {s : State} (h : (channelOf s c).state ≠ .settling) (sum : Nat) :
    seedChannel c sum s = s := if_neg h

theorem seedChannel_settling {c : Fin 8} {s : State} {p : ExtractionParams} (settling : (channelOf s c).state = .settling)
    (params : (channelOf s c).params = some p) (sum : Nat) :
    seedChannel c sum s = putChannelState c (armedAt p (256 * (sum / 128))) s := by
  rw [seedChannel, if_pos settling, paramsOf_eq params]

/-- The last sample of a settling block is in the sum, and the channel is seeded from it (R59). -/
def blockSeeded (w : BlockInWork) (p : ExtractionParams) (s : State) : State :=
  putChannelState w.entry.channel (armedAt p (256 * ((w.sum + sampleAt w.entry w.next) / 128)))
    (putBlock (some { w with next := w.next + 1, sum := w.sum + sampleAt w.entry w.next }) s)

theorem blockSeeded_state (w : BlockInWork) (p : ExtractionParams) (s : State) :
    (channelOf (blockSeeded w p s) w.entry.channel).state =
      armedAt p (256 * ((w.sum + sampleAt w.entry w.next) / 128)) := by
  rw [blockSeeded, putChannelState_eq, channelOf_putChannel]

theorem blockSeeded_onlyChannel (w : BlockInWork) (p : ExtractionParams) (s : State) :
    OnlyChannel w.entry.channel s (blockSeeded w p s) :=
  (putBlock_onlyChannel _ _ s).trans (putChannel_onlyChannel _ _ _)

/-! ### The row of a sample -/

/-- HX goes on to the sample after this one, whose effect is still to come. -/
def sampleCounted (w : BlockInWork) (s : State) : State := putBlock (some { w with next := w.next + 1 }) s

/-- The block is finished where its last sample has had its effect (R72). -/
def afterSample (w : BlockInWork) (s : State) : State := if w.next = 127 then blockFinished w s else s

theorem sampleCounted_onlyChannel (w : BlockInWork) (s : State) : OnlyChannel w.entry.channel s (sampleCounted w s) :=
  putBlock_onlyChannel _ _ s

theorem reportHolds_hx (s : State) : (reportHolds s).hx = s.hx := (reportHolds_within s).hx rfl

/-- The test of the holds leaves the channels. -/
theorem channelOf_sampleCounted (w : BlockInWork) (s₀ : State) (c : Fin 8) :
    channelOf (sampleCounted w (reportHolds s₀)) c = s₀.hx.channels[c] := by
  rw [← reportHolds_hx s₀]
  rfl

section
variable {s₀ : State} {w : BlockInWork} (running : s₀.inReset = false) (block : s₀.hx.block = some w)
include running block

theorem sampleProcessed_row (more : w.next ≤ 127) {t : State} (processed : processSample w (reportHolds s₀) = t) :
    exec .sampleProcessed s₀ = .next (reportHolds t) := by
  have takes : takeNextSample (reportHolds s₀) = t := by
    unfold takeNextSample
    rw [reportHolds_hx, block]
    exact (if_pos (by omega)).trans processed
  exact congrArg Host.Outcome.next ((whileRunning_eq takeNextSample running).trans (congrArg reportHolds takes))

variable {t : State} (effect : sampleEffect w (sampleCounted w (reportHolds s₀)) = t)
include effect

theorem sampleProcessed_early (early : w.next < 127) : exec .sampleProcessed s₀ = .next (reportHolds t) :=
  sampleProcessed_row running block (by omega) ((if_pos early).trans effect)

theorem sampleProcessed_last (last : w.next = 127) {u : State}
    (finish : finishBlock w (w.sum + sampleAt w.entry w.next) t = u) : exec .sampleProcessed s₀ = .next (reportHolds u) := by
  subst effect
  exact sampleProcessed_row running block (by omega) ((if_neg (by omega)).trans finish)

omit effect in
/-- The last sample of a settling block seeds the channel, and then the block is finished. -/
theorem sampleProcessed_seeds {p : ExtractionParams}
    (settling : (channelOf (sampleCounted w (reportHolds s₀)) w.entry.channel).state = .settling)
    (params : (channelOf (sampleCounted w (reportHolds s₀)) w.entry.channel).params = some p) (last : w.next = 127) :
    exec .sampleProcessed s₀ =
      .next (reportHolds (blockFinished w (blockSeeded w p (sampleCounted w (reportHolds s₀))))) := by
  refine sampleProcessed_last running block (sampleEffect_settling settling) last ?_
  rw [finishBlock_eq, seedChannel_settling (p := p) (by exact settling) (by exact params), blockSeeded]

variable (unsettled : (channelOf (sampleCounted w (reportHolds s₀)) w.entry.channel).state ≠ .settling)
include unsettled

/-- The last sample of a channel that does not settle has its effect, and then the block is finished. -/
theorem sampleProcessed_finishes (last : w.next = 127) :
    exec .sampleProcessed s₀ = .next (reportHolds (blockFinished w t)) :=
  sampleProcessed_last running block effect last
    (congrArg (blockFinished w) (seedChannel_unsettled (effect ▸ sampleEffect_unsettled unsettled) _))

theorem sampleProcessed_unsettled (more : w.next ≤ 127) :
    exec .sampleProcessed s₀ = .next (reportHolds (afterSample w t)) := by
  unfold afterSample
  split
  · next last => exact sampleProcessed_finishes running block effect unsettled last
  · next early => exact sampleProcessed_early running block effect (by omega)

end

/-- Settles O50. -/
theorem armedSample : Obligations.ArmedSample := by
  intro s₀ w b t₀ p running block more state params s x v b' t' put c opened with_ u left h late disposed ends
  rw [← channelOf_sampleCounted w s₀] at state params
  have row {t : State} (effect : sampleEffect w (sampleCounted w s) = t) :=
    sampleProcessed_unsettled running block effect (by rw [state]; exact ChannelState.noConfusion) more
  refine ⟨fun above hdt maxdur => ?_, fun above hdt maxdur => ?_, fun below => ?_, fun early above hdt maxdur => ?_⟩
  · have inForce : (channelOf u c).params = some p :=
      (hitOpened_params c b t₀ w.entry w.next (sampleCounted w s)).trans params
    have lastEnd : left.lastEnd = x.lastEnd := hitOpened_lastEnd c b t₀ w.entry w.next (sampleCounted w s)
    have disposal := disposeHit_putChannel (c := c) (x := left) inForce h true u
    rw [lastEnd, show hitDuration h true = 1 from rfl, hitLastTime_one] at disposal
    exact row ((sampleEffect_opens_truncated params state above hdt maxdur).trans
      ((closeHit_eq inForce b t₀ h true).trans (congrArg (refreshCovered c) disposal)))
  · exact row (sampleEffect_opens params state above hdt maxdur)
  · have quiet := sampleEffect_quiet params state below
    rw [armedAt, thresholdOf_eq] at quiet
    exact row quiet
  · obtain ⟨others, located⟩ := (sampleCounted_onlyChannel w s).trans
      (hitBegun_onlyChannel c b t₀ v w.entry w.next (sampleCounted w s))
    exact ⟨_, sampleProcessed_early running block (sampleEffect_opens params state above hdt maxdur) early,
      hitBegun_block .., hitBegun_state .., others, located⟩

/-- Settles O51. -/
theorem sampleFollowsItsHit : Obligations.SampleFollowsItsHit := by
  intro s₀ w b t₀ h p running block more state params opened s c x v above g put left late disposed ends
  rw [← channelOf_sampleCounted w s₀] at state params
  have taken : takeSample h v = g := takeSample_later opened v
  have row {t : State} (follows : followHit c b t₀ h v (sampleCounted w s) = t) :=
    sampleProcessed_unsettled running block ((sampleEffect_inHit state).trans follows)
      (by rw [state]; exact ChannelState.noConfusion) more
  have closes (truncated : Bool) := (closeHit_eq params b t₀ g truncated).trans
    (congrArg (refreshCovered c) (disposeHit_putChannel (x := left) (p := p) params g truncated (sampleCounted w s)))
  refine ⟨fun below short => ?_, fun closed => ?_, fun below long => ?_⟩
  · exact row (followHit_stillOpen params taken below short)
  · exact row ((followHit_closed params taken closed).trans (closes false))
  · exact row ((followHit_truncated params taken below long).trans (closes true))

/-- Settles O52. -/
theorem settlingLockoutAndFinish : Obligations.SettlingLockoutAndFinish := by
  intro s₀ w running block s c x v
  have apart {st : ChannelState} (state : x.state = st) (h : st ≠ .settling) : x.state ≠ .settling := state ▸ h
  refine ⟨fun early settling => ?_, fun p b t₀ n early params lockout => ?_, fun p last params settling => ?_,
    fun p last params => ⟨fun b t₀ n lockout => ?_, fun b t₀ armed below => ?_, fun b t₀ armed above hdt maxdur => ?_⟩⟩
  · exact sampleProcessed_early running block (sampleEffect_settling (s := sampleCounted w s) settling) early
  · exact sampleProcessed_early running block (sampleEffect_lockout (s := sampleCounted w s) params lockout) early
  · have row := sampleProcessed_seeds running block settling params last
    have armed := blockSeeded_state w p (sampleCounted w s)
    obtain ⟨others, located⟩ := ((sampleCounted_onlyChannel w s).trans
      (blockSeeded_onlyChannel w p _)).trans (blockFinished_onlyChannel w _)
    refine ⟨_, row, blockFinished_block .., (blockFinished_state ..).trans armed, blockFinished_lastFinished ..,
      fun r defined channel only on fresh => ?_, others, located⟩
    exact blockFinished_coveredTo armed (ringOfChannel_bound defined channel only) ((ringCounts_iff _).mpr ⟨on, fresh⟩)
  · exact sampleProcessed_finishes running block (sampleEffect_lockout (s := sampleCounted w s) params lockout)
      (apart lockout ChannelState.noConfusion) last
  · exact sampleProcessed_finishes running block (sampleEffect_quiet (s := sampleCounted w s) params armed below)
      (apart armed ChannelState.noConfusion) last
  · have opens := sampleEffect_opens (s := sampleCounted w s) params armed above hdt maxdur
    obtain ⟨others, located⟩ := ((sampleCounted_onlyChannel w s).trans
      (hitBegun_onlyChannel c b t₀ v w.entry w.next (sampleCounted w s))).trans (blockFinished_onlyChannel w _)
    exact ⟨_, sampleProcessed_finishes running block opens (apart armed ChannelState.noConfusion) last, blockFinished_block ..,
      (blockFinished_state ..).trans (hitBegun_state ..), blockFinished_lastFinished .., others, located⟩

end Sys2Proof.Machine
end

section
/-! A hit that HX delivers to EL: late, into the pool at its place, or first a forced event. -/

namespace Sys2Proof.Machine

theorem counted_one (o : Occurrence) (s : State) : counted [o] s = countOccurrence o s := by
  rw [counted_cons, counted_nil]

theorem lateHit_iff (el : EventLocator) (h : Hit) :
    lateHit el h = true ↔ ∃ f, el.floor = some f ∧ atOrAfter h.arrival f = false := by
  unfold lateHit
  cases el.floor <;> simp [isBefore]

theorem not_lateHit {el : EventLocator} {h : Hit} (early : ¬ ∃ f, el.floor = some f ∧ atOrAfter h.arrival f = false) :
    lateHit el h = false :=
  Bool.eq_false_iff.mpr (mt (lateHit_iff el h).mp early)

/-- The hit stands in the pool at its place, and nothing else has changed (R75). -/
def Enters (h : Hit) (u v : State) : Prop :=
  ∃ front back, u.el.pool = front ++ back ∧ (∀ g ∈ front, hitBefore (reference u.el) h g = false) ∧
    (∀ g, back.head? = some g → hitBefore (reference u.el) h g = true) ∧
    v = { u with el := { u.el with pool := front ++ h :: back } }

theorem placeHit_late {s : State} {h : Hit} (late : lateHit s.el h = true) : placeHit h s = counted [.hit .late] s := by
  rw [placeHit, if_pos late, counted_one]

theorem placeHit_enters {s : State} {h : Hit} (early : lateHit s.el h = false) : Enters h s (placeHit h s) := by
  obtain ⟨front, back, split, behind, ahead, inserted⟩ := insertHit_splits (reference s.el) h s.el.pool
  refine ⟨front, back, split, behind, ahead, ?_⟩
  rw [placeHit, if_neg (Bool.eq_false_iff.mp early), inserted]
  rfl

theorem deliverHit_late {s : State} {h : Hit} (late : lateHit s.el h = true) :
    deliverHit h s = counted [.hit .late] s := by
  rw [deliverHit, if_pos late, counted_one]

theorem deliverHit_room {s : State} {h : Hit} (early : lateHit s.el h = false) (room : s.el.pool.length < 32) :
    deliverHit h s = locatorTest (placeHit h s) := by
  rw [deliverHit, if_neg (Bool.eq_false_iff.mp early)]
  exact if_pos room

theorem deliverHit_full {s : State} {h : Hit} (early : lateHit s.el h = false) (full : 32 ≤ s.el.pool.length) :
    deliverHit h s = locatorTest (placeHit h (testClose (formEvent true s))) := by
  rw [deliverHit, if_neg (Bool.eq_false_iff.mp early)]
  exact if_neg (Nat.not_lt.mpr full)

/-- Settles O53. -/
theorem hitsEnterThePool : Obligations.HitsEnterThePool := by
  intro s h late reference enters
  refine ⟨hitBefore_iff, fun isLate => deliverHit_late ((lateHit_iff ..).mpr isLate), fun early room => ?_,
    fun early full => ⟨fun isLate => ?_, fun early' => ?_⟩⟩
  · exact ⟨_, placeHit_enters (not_lateHit early), deliverHit_room (not_lateHit early) room⟩
  · rw [deliverHit_full (not_lateHit early) full, placeHit_late ((lateHit_iff ..).mpr isLate)]
  · exact ⟨_, placeHit_enters (not_lateHit early'), deliverHit_full (not_lateHit early) full⟩

end Sys2Proof.Machine
end

section
/-! One event of the pool: the record it makes, the hits it takes and leaves, and EL and EU after it. -/

namespace Sys2Proof.Machine

/-! ### The two first hits (R85) -/

theorem secondChannel_eq (anchor : Hit) (others : List Hit) :
    secondChannel anchor others = (others.head?.getD anchor).channel := by
  cases others <;> rfl

theorem deltaT_eq (anchor : Hit) (others : List Hit) :
    deltaT anchor others = ((others.head?.getD anchor).arrival - anchor.arrival).toNat := by
  cases others with
  | nil => simp [deltaT]
  | cons => rfl

/-! ### The classification (R87) -/

/-- The outcome of an event: the first of tests 1 to 6 that applies, else by the entry of its cycle. -/
def outcomeOf (s : State) (anchor : Hit) (band : Option (Nat × Nat)) : EventOutcome :=
  match classify s anchor band with
  | some o => o
  | none => if cycleOpen s anchor.cycle then .crack else .late

theorem outcomeOf_test {s : State} {anchor : Hit} {band : Option (Nat × Nat)} {o : EventOutcome}
    (test : classify s anchor band = some o) : outcomeOf s anchor band = o := by
  rw [outcomeOf, test]

theorem outcomeOf_passed {s : State} {anchor : Hit} {band : Option (Nat × Nat)} (passed : classify s anchor band = none) :
    outcomeOf s anchor band = if cycleOpen s anchor.cycle then .crack else .late := by
  rw [outcomeOf, passed]

theorem classify_ne_crack (s : State) (anchor : Hit) (band : Option (Nat × Nat)) :
    classify s anchor band ≠ some .crack := by
  unfold classify
  dsimp only
  repeat' split
  all_goals exact nofun

/-- An event that passes tests 1 to 6 has matched a band of a cavity. -/
theorem cavity_of_passed {s : State} {anchor : Hit} {band : Option (Nat × Nat)} (passed : classify s anchor band = none) :
    (band.map Prod.snd).getD 0 ≠ 0 := by
  cases band with
  | none =>
    unfold classify at passed
    dsimp only at passed
    split at passed <;> cases passed
  | some b =>
    intro excluded
    unfold classify at passed
    dsimp only at passed
    rw [if_pos (show b.2 = 0 from excluded)] at passed
    split at passed <;> cases passed

theorem outcomeOf_eq (s : State) (anchor : Hit) (band : Option (Nat × Nat)) : outcomeOf s anchor band =
    let count := match s.eu.mould with
      | some m => m.header.count
      | none => 0
    let cavity := (band.map Prod.snd).getD 0
    let p := (profileInUse s).event
    if s.eu.state ≠ .running then .held
    else if band = none then .unlocated
    else if cavity = 0 then .excluded
    else if count < cavity then .outside
    else if p.risemax < anchor.rise ∨ anchor.peak < p.peakmin then .impact
    else if p.phaseMask.getLsbD anchor.phase.toNat = false then .gated
    else if s.eu.cycles.any (fun k => k.cycle == anchor.cycle) then .crack
    else .late := classified_eq s anchor band

/-! ### The event's record and EU's tallies (R89, R90, R101) -/

/-- The hits of the event behind its anchor (R80). -/
def eventOthers (s : State) (anchor : Hit) (rest : List Hit) : List Hit :=
  takeHits (windowEnd s anchor) [anchor.channel] rest

/-- The hits that the event leaves, in the order of the old floor. -/
def eventLeaves (s : State) (anchor : Hit) (rest : List Hit) : List Hit :=
  leaveHits (windowEnd s anchor) [anchor.channel] rest

/-- Where the event is located (R85, R86). -/
def eventBand (s : State) (anchor : Hit) (others : List Hit) : Option (Nat × Nat) :=
  locate s.el.zones anchor.channel (secondChannel anchor others) (deltaT anchor others)

def eventFormed (forced : Bool) (s : State) (anchor : Hit) (rest : List Hit) : EventRecord :=
  let others := eventOthers s anchor rest
  let band := eventBand s anchor others
  { serial := s.el.serial + 1, outcome := outcomeOf s anchor band, forced := forced, anchor := anchor, others := others
    dt := deltaT anchor others, band := band, energy := eventEnergy (anchor :: others), locatedAt := s.localTime }

/-- The entry of a cycle once EU has taken the event: only a CRACK of that cycle adds to it. -/
def talliedBy (e : EventRecord) (k : CycleEntry) : CycleEntry :=
  if e.outcome = .crack ∧ k.cycle = e.anchor.cycle then
    { k with tallies := Vector.ofFn fun i : Fin 48 =>
      if i.val + 1 = e.cavity then
        { count := min (k.tallies[i].count + 1) max8, energy := min (k.tallies[i].energy + e.energy) max32 }
      else k.tallies[i] }
  else k

theorem map_talliedBy_other {e : EventRecord} (h : e.outcome ≠ .crack) (ks : List CycleEntry) :
    ks.map (talliedBy e) = ks := by
  refine (List.map_congr_left fun k _ => ?_).trans (List.map_id ks)
  exact if_neg fun c => h c.1

theorem map_talliedBy_crack {e : EventRecord} (h : e.outcome = .crack) (cavity : e.cavity ≠ 0) (ks : List CycleEntry) :
    ks.map (talliedBy e) = ks.map fun k => if k.cycle = e.anchor.cycle then addToTally e.cavity e.energy k else k := by
  refine List.map_congr_left fun k _ => ?_
  simp only [talliedBy, h, true_and, addToTally_eq _ _ cavity]

/-- EL and EU after the event. -/
def afterEvent (e : EventRecord) (rest : List Hit) (s : State) : State :=
  (takeEvent e.anchor rest s).withEu { s.eu with cycles := s.eu.cycles.map (talliedBy e) }

theorem afterEvent_other {e : EventRecord} (h : e.outcome ≠ .crack) (rest : List Hit) (s : State) :
    afterEvent e rest s = takeEvent e.anchor rest s := by
  rw [afterEvent, map_talliedBy_other h]
  rfl

theorem afterEvent_crack {e : EventRecord} (h : e.outcome = .crack) (cavity : e.cavity ≠ 0) (rest : List Hit) (s : State) :
    afterEvent e rest s = takeCrackEvent e.anchor.cycle e.cavity e.energy (takeEvent e.anchor rest s) := by
  rw [afterEvent, map_talliedBy_crack h cavity]
  rfl

theorem formEvent_of_pool {s : State} {anchor : Hit} {rest : List Hit} (pool : s.el.pool = anchor :: rest) (forced : Bool) :
    formEvent forced s =
      reportEvent (eventFormed forced s anchor rest) s (afterEvent (eventFormed forced s anchor rest) rest s) := by
  unfold formEvent
  rw [pool]
  dsimp only
  split
  · next o test =>
    have outcome : (eventFormed forced s anchor rest).outcome = o := outcomeOf_test test
    have other : (eventFormed forced s anchor rest).outcome ≠ .crack := by
      intro crack
      exact classify_ne_crack s anchor _ (test.trans (congrArg some (outcome.symm.trans crack)))
    rw [afterEvent_other other, ← outcome]
    rfl
  · next passed =>
    have outcome : (eventFormed forced s anchor rest).outcome = if cycleOpen s anchor.cycle then .crack else .late :=
      outcomeOf_passed passed
    split
    · next opened =>
      rw [if_pos opened] at outcome
      rw [afterEvent_crack outcome (cavity_of_passed passed), ← outcome]
      rfl
    · next closed =>
      rw [if_neg closed] at outcome
      rw [afterEvent_other (by rw [outcome]; decide), ← outcome]
      rfl

/-- The lookup in the bands of the pair: the first that holds the time difference, or none (R86). -/
theorem eventBand_first {s : State} {anchor : Hit} {others : List Hit} {i : Nat} {b : Band}
    (place : (bandsOf s.el.zones anchor.channel (secondChannel anchor others))[i]? = some b)
    (holds : b.low ≤ deltaT anchor others ∧ deltaT anchor others ≤ b.high)
    (first : ∀ j b', j < i → (bandsOf s.el.zones anchor.channel (secondChannel anchor others))[j]? = some b' →
      ¬ (b'.low ≤ deltaT anchor others ∧ deltaT anchor others ≤ b'.high)) :
    eventBand s anchor others = some (i, b.cavity) := by
  have found := findBand_first _ 0 _ i b place holds first
  rwa [Nat.zero_add] at found

/-- Settles O55. -/
theorem eventForms : Obligations.EventForms := by
  intro s anchor rest forced pool p within
  have split : (eventOthers s anchor rest ++ eventLeaves s anchor rest).Perm rest := takeHits_append_leaveHits ..
  refine ⟨eventFormed forced s anchor rest, eventLeaves s anchor rest, sortHits anchor.arrival (eventLeaves s anchor rest),
    rfl, rfl, rfl, rfl, takeHits_sublist .., leaveHits_sublist .., split, fun c => ?_, sortHits_perm .., sortHits_sorted ..,
    rfl, ⟨?_, fun i b place holds first => ?_, fun misses => ?_⟩, outcomeOf_eq .., formEvent_of_pool pool forced⟩
  · refine (takeHits_of_channel (windowEnd s anchor) c rest [anchor.channel]).trans ?_
    simp only [List.mem_singleton]
    rfl
  · exact deltaT_eq ..
  · dsimp only at place first
    rw [← secondChannel_eq] at place first
    exact eventBand_first place holds first
  · dsimp only at misses
    rw [← secondChannel_eq] at misses
    exact findBand_none _ _ _ misses

end Sys2Proof.Machine
end

section
/-! RU takes an event: it is counted, its log entry is offered, and a traced event's halves are posted. The words of the log
entry and of the trace record. -/

namespace Sys2Proof.Machine

/-! ### Counters and trace countdown (R90, R157) -/

/-- The countdown has counted the event, and the trace record stands if it is traced. -/
def traceCounted (e : EventRecord) (s : State) : State :=
  { s with ru := { s.ru with
    countdown := if s.ru.traceInterval = 0 then s.ru.countdown else if tracedNow s.ru then s.ru.traceInterval
      else s.ru.countdown - 1
    traceWords := if tracedNow s.ru then e.traceWords else s.ru.traceWords
    traceAwait := if tracedNow s.ru then true else s.ru.traceAwait } }

/-- RU once it has counted the event, and before it posts. -/
def eventTaken (e : EventRecord) (s : State) : State :=
  counted (.event e.outcome :: if e.forced then [.eventForced] else []) (traceCounted e s)

theorem tracedNow_eq (ru : ReportUnit) : tracedNow ru = decide (ru.traceInterval ≠ 0 ∧ ru.countdown = 1) := by
  rw [Bool.eq_iff_iff]
  simp [tracedNow]

theorem countIf_eq_counted (b : Bool) (o : Occurrence) (s : State) : countIf b o s = counted (if b then [o] else []) s := by
  cases b with
  | false => exact (counted_nil s).symm
  | true => exact (counted_one o s).symm

/-- The countdown does not look at the counters, and counting does not look at the countdown. -/
theorem countTrace_counted (e : EventRecord) (os : List Occurrence) (s : State) :
    countTrace e (counted os s) = counted os (countTrace e s) := by
  unfold countTrace
  rw [show tracedNow (counted os s).ru = tracedNow s.ru from rfl]
  by_cases off : s.ru.traceInterval = 0
  · rw [if_pos off, if_pos (show (counted os s).ru.traceInterval = 0 from off)]
  · rw [if_neg off, if_neg (show ¬ (counted os s).ru.traceInterval = 0 from off)]
    cases tracedNow s.ru <;> rfl

theorem countTrace_eq (e : EventRecord) (s : State) : countTrace e s = traceCounted e s := by
  unfold countTrace traceCounted
  by_cases off : s.ru.traceInterval = 0
  · have untraced : tracedNow s.ru = false := by simp [tracedNow, off]
    rw [if_pos off, if_pos off, untraced]
    rfl
  · rw [if_neg off, if_neg off]
    cases tracedNow s.ru <;> rfl

/-- What the event has RU post. -/
def eventPosting (e : EventRecord) (s : State) : Posting :=
  { log := if s.ru.logMask.getLsbD e.outcome.code then some e.logWords else none, trace := tracedNow s.ru }

theorem reportEvent_eq (e : EventRecord) (before s : State) :
    reportEvent e before s = report (eventPosting e s) before (eventTaken e s) := by
  have taken : countTrace e (countIf e.forced .eventForced (countOccurrence (.event e.outcome) s)) = eventTaken e s := by
    rw [countIf_eq_counted, ← counted_cons, countTrace_counted, countTrace_eq, eventTaken]
  rw [← taken]
  rfl

/-! ### The log entry (R156) -/

theorem offerLog_room {ws : List Word} {s : State} (room : accepts s.pu ws.length = true) : offerLog ws s =
    counted [.logWritten] { s with
      pu := { s.pu with queue := s.pu.queue ++
        [{ id := .log s.ru.logHead, addr := recordAddr s.pu (.log s.ru.logHead), words := ws, begun := false }] }
      ru := { s.ru with logHead := s.ru.logHead + 1 } } := by
  unfold offerLog
  rw [enqueue_of_accepts room, counted_one]
  rfl

theorem offerLog_no_room {ws : List Word} {s : State} (full : ¬ accepts s.pu ws.length = true) :
    offerLog ws s = counted [.logDropped] s := by
  unfold offerLog
  rw [enqueue_of_not_accepts full, counted_one]

theorem reportEvent_unlogged {e : EventRecord} {s : State} (masked : s.ru.logMask.getLsbD e.outcome.code = false)
    (before : State) : PostedFrom (eventTaken e s) (reportEvent e before s) := by
  have unlogged : (eventPosting e s).log = none := if_neg (by rw [masked]; exact Bool.false_ne_true)
  rw [reportEvent_eq]
  exact report_posted _ _ _ unlogged

theorem reportEvent_logged {e : EventRecord} {s : State} (admitted : s.ru.logMask.getLsbD e.outcome.code = true)
    (before : State) : PostedFrom (offerLog e.logWords (eventTaken e s)) (reportEvent e before s) := by
  have logs : (eventPosting e s).log = some e.logWords := if_pos admitted
  rw [reportEvent_eq, report_log logs]
  exact report_posted _ _ _ rfl

/-! ### TRACE follows a traced event (R157) -/

theorem offer_traceAwait (id : RecordId) (s : State) : (offer id s).ru.traceAwait = s.ru.traceAwait := by
  obtain ⟨q, d, f, form⟩ := offer_form id s
  rw [form]

theorem offer_causes (id : RecordId) (s : State) : (offer id s).ru.causes = s.ru.causes := by
  obtain ⟨q, d, f, form⟩ := offer_form id s
  rw [form]

theorem offerIf_traceAwait (b : Bool) (id : RecordId) (s : State) : (offerIf b id s).ru.traceAwait = s.ru.traceAwait := by
  cases b with
  | false => rfl
  | true => exact offer_traceAwait id s

theorem offerVerdicts_traceAwait (cs : List (Fin 48)) : ∀ s : State,
    (cs.foldl (fun t c => offer (.verdict c) t) s).ru.traceAwait = s.ru.traceAwait := by
  induction cs with
  | nil => exact fun _ => rfl
  | cons c cs ih => exact fun s => (ih _).trans (offer_traceAwait _ s)

theorem offerLog_traceAwait (ws : List Word) (s : State) : (offerLog ws s).ru.traceAwait = s.ru.traceAwait := by
  by_cases room : accepts s.pu ws.length = true
  · rw [offerLog_room room]
    rfl
  · rw [offerLog_no_room room]
    rfl

theorem withLog_traceAwait (p : Posting) (s : State) : (withLog p s).ru.traceAwait = s.ru.traceAwait := by
  unfold withLog
  split
  · exact offerLog_traceAwait _ s
  · rfl

/-- Of a traced event a half is dirty, or TRACE is pending. -/
def DirtyOrPending (s : State) : Prop :=
  s.ru.dirty.traces[(0 : Fin 2)] = false → s.ru.dirty.traces[(1 : Fin 2)] = false → s.ru.causes.getLsbD 6 = true

theorem raiseTrace_dirtyOrPending {s : State} (await : s.ru.traceAwait = true) : DirtyOrPending (raiseTrace s) := by
  unfold raiseTrace
  split
  · intro _ _
    have raised : (traceRaised s).ru.causes.getLsbD 6 = true := by
      show (s.ru.causes ||| 1#8 <<< 6).getLsbD 6 = true
      rw [BitVec.getLsbD_or]
      simp
    dsimp only
    split
    · rw [offer_causes]
      exact raised
    · exact raised
  · next dirty =>
    intro first second
    rw [await, first, second] at dirty
    exact absurd rfl dirty

theorem report_dirtyOrPending (p : Posting) (before : State) {after : State} (await : after.ru.traceAwait = true) :
    DirtyOrPending (report p before after) := by
  rw [report_eq]
  refine raiseTrace_dirtyOrPending ?_
  rw [offerIf_traceAwait, offerIf_traceAwait, offerVerdicts_traceAwait, offerIf_traceAwait, offerIf_traceAwait,
    offerIf_traceAwait, withLog_traceAwait, await]

theorem reportEvent_traced {e : EventRecord} {s : State} (traced : tracedNow s.ru = true) (before : State)
    (first : wholeCopies (.trace 0) s) (second : wholeCopies (.trace 1) s) :
    Shown (.trace 0) (reportEvent e before s) ∧ Shown (.trace 1) (reportEvent e before s) ∧
      DirtyOrPending (reportEvent e before s) := by
  have await : (eventTaken e s).ru.traceAwait = true := if_pos traced
  have queue : (eventTaken e s).pu.queue = s.pu.queue := rfl
  have shown (i : Fin 2) (whole : wholeCopies (.trace i) s) : Shown (.trace i) (reportEvent e before s) := by
    rw [reportEvent_eq]
    exact (report_trace (p := eventPosting e s) before traced i (whole.congr queue)).2
  refine ⟨shown 0 first, shown 1 second, ?_⟩
  rw [reportEvent_eq]
  exact report_dirtyOrPending _ before await

/-! ### The words of an event (R153) -/

/-- A field has the low bits of its value. -/
theorem field_mod (lo width v : Nat) : field lo width (v % 2 ^ width) = field lo width v := by
  rw [field, field, Nat.mod_mod]

theorem toNat_lowField {width : Nat} (v : Nat) (h : width ≤ 32) : (field 0 width v).toNat = v % 2 ^ width := by
  rw [← field_mod, toNat_field (by omega) (Nat.mod_lt _ (Nat.two_pow_pos _)), Nat.pow_zero, Nat.one_mul]

/-- A field put above all the bits of a word, of a value of any size. -/
theorem toNat_or_field_mod {w : Word} {lo width n : Nat} (v : Nat) (h : lo + width ≤ 32) (e : w.toNat = n)
    (low : n < 2 ^ lo) : (w ||| field lo width v).toNat = n + 2 ^ lo * (v % 2 ^ width) := by
  rw [← field_mod, toNat_or_field h (e ▸ low) (Nat.mod_lt _ (Nat.two_pow_pos _)), e]

theorem EventOutcome.code_lt (o : EventOutcome) : o.code < 2 ^ 3 := by cases o <;> decide

theorem EventRecord.word0_toNat (e : EventRecord) : e.word0.toNat =
    e.serial.toNat + 2 ^ 16 * e.outcome.code + 2 ^ 19 * e.forced.toNat + 2 ^ 20 * ((1 + e.others.length) % 16) +
      2 ^ 24 * (e.cavity % 64) := by
  have serial := e.serial.isLt
  have outcome := e.outcome.code_lt
  have forced := e.forced.toNat_lt
  have hits : e.hits.length = 1 + e.others.length := Nat.add_comm ..
  unfold word0 flag
  rw [toNat_or_field_mod _ (by decide) (toNat_or_field_mod _ (by decide) (toNat_or_field_mod _ (by decide)
    (toNat_or_field_mod _ (by decide) (toNat_checkWord _) serial) ?_) ?_) ?_, hits]
  all_goals omega

theorem EventRecord.word1_toNat (e : EventRecord) : e.word1.toNat =
    e.anchor.cycle.toNat + 2 ^ 16 * e.anchor.phase.toNat + 2 ^ 20 * e.anchor.channel.val +
      2 ^ 24 * (((e.others.head?).getD e.anchor).channel.val) + 2 ^ 28 * (((e.band.map Prod.fst).getD 15) % 16) := by
  have cycle := e.anchor.cycle.isLt
  have phase := e.anchor.phase.isLt
  have first := e.anchor.channel.isLt
  have second := (e.others.head?.getD e.anchor).channel.isLt
  unfold word1
  rw [toNat_or_field_mod _ (by decide) (toNat_or_field_mod _ (by decide) (toNat_or_field_mod _ (by decide)
    (toNat_or_field_mod _ (by decide) (toNat_checkWord _) cycle) ?_) ?_) ?_, secondChannel_eq]
  all_goals omega

/-- Marks of the eight channels from bit 16 on. -/
theorem getLsbD_channelMarks (g : Fin 8 → Bool) (i : Nat) :
    (allChannels.foldl (fun w c => w ||| flag (16 + c.val) (g c)) (0 : Word)).getLsbD i = true ↔
      ∃ c : Fin 8, i = 16 + c.val ∧ g c = true := by
  have zero : (0 : Word).getLsbD i = false := BitVec.getLsbD_zero
  rw [getLsbD_foldl_or, zero, Bool.false_or, List.any_eq_true]
  simp only [mem_allChannels, true_and, getLsbD_flag, Bool.and_eq_true, decide_eq_true_eq]
  exact exists_congr fun c => ⟨fun h => h.2, fun h => ⟨by omega, h⟩⟩

theorem EventRecord.getLsbD_word2 (e : EventRecord) (i : Nat) : e.word2.getLsbD i = true ↔
    (i < 16 ∧ e.dt.testBit i = true) ∨ ∃ c : Fin 8, i = 16 + c.val ∧ (e.hitOn c).isSome = true := by
  unfold word2
  rw [BitVec.getLsbD_or, Bool.or_eq_true, getLsbD_channelMarks, getLsbD_field]
  simp only [Nat.zero_le, Nat.sub_zero, Bool.and_eq_true, decide_eq_true_eq, true_and]
  exact or_congr_left ⟨fun h => h.2, fun h => ⟨by omega, h⟩⟩

/-- The participation mask. -/
theorem EventRecord.word2_mask (e : EventRecord) (c : Fin 8) : e.word2.getLsbD (16 + c.val) = (e.hitOn c).isSome := by
  rw [Bool.eq_iff_iff, getLsbD_word2]
  constructor
  · rintro (⟨low, -⟩ | ⟨q, same, hit⟩)
    · omega
    · rwa [show c = q from Fin.ext (by omega)]
  · exact fun hit => .inr ⟨c, rfl, hit⟩

theorem EventRecord.word2_dt (e : EventRecord) : e.word2.toNat % 2 ^ 16 = e.dt % 2 ^ 16 := by
  refine Nat.eq_of_testBit_eq fun i => ?_
  rw [Nat.testBit_mod_two_pow, Nat.testBit_mod_two_pow, BitVec.testBit_toNat]
  by_cases low : i < 16
  · have noMark : ¬ ∃ c : Fin 8, i = 16 + c.val ∧ (e.hitOn c).isSome = true := by
      rintro ⟨c, high, -⟩
      omega
    have bit : e.word2.getLsbD i = e.dt.testBit i := by
      rw [Bool.eq_iff_iff, getLsbD_word2]
      simp only [low, true_and, noMark, or_false]
    rw [bit]
  · simp only [low, decide_false, Bool.false_and]

theorem EventRecord.word2_lt (e : EventRecord) : e.word2.toNat < 2 ^ 24 := by
  refine Nat.lt_pow_two_of_testBit _ fun i high => ?_
  rw [BitVec.testBit_toNat, Bool.eq_false_iff, Ne, getLsbD_word2]
  rintro (⟨low, -⟩ | ⟨c, same, -⟩) <;> omega

/-- The three words of a channel stand behind the first seven. -/
theorem EventRecord.traceWords_channel (e : EventRecord) (c : Fin 8) :
    e.traceWords[7 + 3 * c.val]? = some (e.arrivalWord c) ∧ e.traceWords[8 + 3 * c.val]? = some (e.shapeWord c) ∧
      e.traceWords[9 + 3 * c.val]? = some (e.energyWord c) := by
  fin_cases c <;> exact ⟨rfl, rfl, rfl⟩

theorem EventRecord.channelWords_none {e : EventRecord} {c : Fin 8} (h : e.hitOn c = none) :
    e.arrivalWord c = 0 ∧ e.shapeWord c = 0 ∧ e.energyWord c = 0 := by
  simp only [arrivalWord, shapeWord, energyWord, h, and_self]

theorem EventRecord.channelWords_some {e : EventRecord} {c : Fin 8} {h : Hit} (hit : e.hitOn c = some h) :
    (e.arrivalWord c).toNat = (h.arrival - e.anchor.arrival).toNat % 2 ^ 16 + 2 ^ 16 * (h.peak % 2 ^ 16) ∧
      (e.shapeWord c).toNat = h.rise % 2 ^ 12 + 2 ^ 16 * (h.duration % 2 ^ 12) ∧
      e.energyWord c = BitVec.ofNat 32 h.energy := by
  simp only [arrivalWord, shapeWord, energyWord, hit, and_true]
  exact ⟨toNat_or_field_mod _ (by decide) (toNat_lowField _ (by decide)) (by omega),
    toNat_or_field_mod _ (by decide) (toNat_lowField _ (by decide)) (by omega)⟩

/-- Settles O56. -/
theorem eventsAreLoggedAndTraced : Obligations.EventsAreLoggedAndTraced := by
  intro e before s first second t traced taken entry logged room
  have now : tracedNow s.ru = traced := tracedNow_eq s.ru
  have same : eventTaken e s = taken := by
    unfold eventTaken traceCounted
    rw [now]
  have accepts : accepts (eventTaken e s).pu e.logWords.length = true ↔ room := accepts_iff s.pu 4
  refine ⟨fun masked => same ▸ reportEvent_unlogged masked before, fun admitted fits => ?_, fun admitted full => ?_,
    fun isTraced => reportEvent_traced (now.trans isTraced) before first second,
    ⟨rfl, e.word0_toNat, e.word1_toNat⟩, rfl, rfl, rfl, rfl, rfl, rfl, toNat_checkWord e.serial, e.word2_dt, e.word2_lt,
    fun c => ?_⟩
  · have posted := reportEvent_logged admitted before
    rw [offerLog_room (accepts.mpr fits), same] at posted
    exact posted
  · have posted := reportEvent_logged admitted before
    rw [offerLog_no_room (mt accepts.mp full), same] at posted
    exact posted
  · obtain ⟨arrival, shape, energy⟩ := e.traceWords_channel c
    dsimp only
    rw [arrival, shape, energy]
    exact ⟨e.word2_mask c, EventRecord.channelWords_none, fun _ => EventRecord.channelWords_some⟩

end Sys2Proof.Machine
end

section
/-! The mounted mould under the Task Unit: `mouldAgrees` as an agreement of EU's records, of the MOUNTED slot and of the tasks,
and that the beginning and the end of every task keep it. -/

namespace Sys2Proof.Machine

/-! ### The agreement, part by part -/

/-- With no mould mounted EU holds no records and no cycle; with one it holds a record for each cavity (R92, R94, R97). -/
structure EvidenceAgrees (s : State) : Prop where
  unmounted : s.eu.state.live = false → s.eu.mould = none ∧ s.eu.cycles = [] ∧ s.eu.newest = none
  mounted : s.eu.state.live = true →
    ∃ m, s.eu.mould = some m ∧ m.cavities.length = m.header.count ∧ 1 ≤ m.header.count ∧ m.header.count ≤ 48

/-- Exactly one slot is MOUNTED where a mould is mounted, and none otherwise (R137). -/
structure SlotsAgree (s : State) : Prop where
  unmounted : s.eu.state.live = false → ∀ n : Fin 12, s.tu.directory[n].state ≠ .mounted
  mounted : s.eu.state.live = true → ∃ n, mountedAt s n

/-- What holds while the task runs. -/
def Task.runsWith (k : Task) (s : State) : Prop :=
  match k with
  | .mount p => s.eu.state = .changing ∧ 1 ≤ p.count ∧ p.count ≤ 48
  | .release => s.eu.state = .changing
  | .clearSlot n => s.tu.directory[n].state = .clearing
  | .sweep => ∀ k, s.tu.sweep.check = some k → s.tu.directory[k.slot].state ≠ .mounted
  | .load _ _ | .checkpoint => True

/-- What the beginning of the task needs. -/
def Task.mayBegin (k : Task) (s : State) : Prop :=
  match k with
  | .mount p => 1 ≤ p.count ∧ p.count ≤ 48
  | .clearSlot n => s.tu.directory[n].state ≠ .mounted
  | .load _ _ | .checkpoint | .release | .sweep => True

/-- Between two tasks: whatever runs is about to be replaced, and a pending task may begin. -/
structure Ready (s : State) : Prop where
  evidence : EvidenceAgrees s
  slots : SlotsAgree s
  pending : ∀ k, s.tu.pendingTask = some k → k.mayBegin s

theorem live_eq_false_iff (x : EvidenceState) : x.live = false ↔ x = .empty ∨ x = .changing := by
  cases x <;> simp [EvidenceState.live]

/-- The agreement as what stands between two tasks, with the running task and the pending one behind it. -/
theorem mouldAgrees_iff (s : State) : mouldAgrees s ↔ Ready s ∧ (∀ r, s.tu.running = some r → r.task.runsWith s) ∧
    (s.tu.pendingTask ≠ none → ∃ r, s.tu.running = some r ∧ r.task = .sweep) := by
  constructor
  · intro h
    refine ⟨⟨⟨fun l => ?_, fun l => ?_⟩, ⟨fun l => ?_, fun l => ?_⟩, fun k e => ?_⟩, fun r e => ?_, h.pending⟩
    · obtain ⟨mould, cycles, newest, -⟩ := h.unmounted ((live_eq_false_iff _).mp l)
      exact ⟨mould, cycles, newest⟩
    · exact (h.mounted ((live_iff _).mp l)).1
    · obtain ⟨-, -, -, slots⟩ := h.unmounted ((live_eq_false_iff _).mp l)
      exact slots
    · exact (h.mounted ((live_iff _).mp l)).2
    · cases k with
      | mount p => exact h.counts p (.inr e)
      | clearSlot n => exact h.toClear n e
      | load _ _ | checkpoint | release | sweep => exact trivial
    · obtain ⟨k, ph⟩ := r
      cases k with
      | mount p => exact ⟨h.changing _ p e (.inl rfl), h.counts p (.inl ⟨_, e, rfl⟩)⟩
      | release => exact h.changing _ ⟨0, 0, 0, 0, 0⟩ e (.inr rfl)
      | clearSlot n => exact h.clearing _ n e rfl
      | sweep => exact fun k => h.checked _ k e rfl
      | load _ _ | checkpoint => exact trivial
  · rintro ⟨ready, running, pending⟩
    have runs {k : Task} {r : RunningTask} (e : s.tu.running = some r) (t : r.task = k) : k.runsWith s := t ▸ running r e
    refine ⟨fun l => ?_, fun l => ?_, fun r p e t => ?_, fun p e => ?_, fun r n e t => runs e t, fun n => ready.pending _,
      fun r k e t => runs e t k, pending⟩
    · have dead := (live_eq_false_iff _).mpr l
      obtain ⟨mould, cycles, newest⟩ := ready.evidence.unmounted dead
      exact ⟨mould, cycles, newest, ready.slots.unmounted dead⟩
    · have live := (live_iff _).mpr l
      exact ⟨ready.evidence.mounted live, ready.slots.mounted live⟩
    · obtain t | t := t
      · exact (runs e t).1
      · exact runs e t
    · obtain ⟨r, e, t⟩ | e := e
      · exact (runs e t).2
      · exact ready.pending _ e

theorem mouldAgrees.ready {s : State} (h : mouldAgrees s) : Ready s := ((mouldAgrees_iff s).mp h).1

theorem mouldAgrees.runs {s : State} (h : mouldAgrees s) {r : RunningTask} (e : s.tu.running = some r) :
    r.task.runsWith s := ((mouldAgrees_iff s).mp h).2.1 r e

/-- No task is pending behind a task other than a sweep. -/
theorem mouldAgrees.alone {s : State} (h : mouldAgrees s) {r : RunningTask} (e : s.tu.running = some r)
    (t : r.task ≠ .sweep) : s.tu.pendingTask = none := by
  by_contra p
  obtain ⟨q, eq, sweep⟩ := h.pending p
  rw [e] at eq
  cases eq
  exact t sweep

/-! ### What the agreement looks at -/

/-- EU's records stand where EU does. -/
theorem EvidenceAgrees.same {s t : State} (h : EvidenceAgrees s) (eu : t.eu = s.eu) : EvidenceAgrees t := by
  constructor <;> rw [eu]
  exacts [h.unmounted, h.mounted]

theorem Task.mayBegin.congr {k : Task} {s t : State} (h : k.mayBegin s)
    (slots : ∀ n : Fin 12, t.tu.directory[n].state = .mounted → s.tu.directory[n].state = .mounted) : k.mayBegin t := by
  cases k with
  | mount p => exact h
  | clearSlot n => exact fun e => h (slots n e)
  | load _ _ | checkpoint | release | sweep => exact trivial

/-- A running task finds the part as before where EU's state stands, a CLEARING slot stays so and the slot under check is not
MOUNTED. -/
theorem Task.runsWith.congr {k : Task} {s t : State} (h : k.runsWith s) (state : t.eu.state = s.eu.state)
    (clearing : ∀ n : Fin 12, s.tu.directory[n].state = .clearing → t.tu.directory[n].state = .clearing)
    (checked : Task.sweep.runsWith s → Task.sweep.runsWith t) : k.runsWith t := by
  cases k with
  | mount p => exact ⟨state.trans h.1, h.2⟩
  | release => exact state.trans h
  | clearSlot n => exact clearing n h
  | sweep => exact checked h
  | load _ _ | checkpoint => exact trivial

/-- Where EU stands and the same slot stays MOUNTED, the next task finds the part as before. -/
theorem Ready.congr {s t : State} (h : Ready s) (eu : t.eu = s.eu)
    (slots : ∀ n : Fin 12, t.tu.directory[n].state = .mounted ↔ s.tu.directory[n].state = .mounted)
    (pending : t.tu.pendingTask = s.tu.pendingTask ∨ t.tu.pendingTask = none) : Ready t := by
  refine ⟨h.evidence.same eu, ⟨fun l n => ?_, fun l => ?_⟩, fun k e => ?_⟩
  · rw [Ne, slots]
    exact h.slots.unmounted (eu ▸ l) n
  · obtain ⟨n, at_n⟩ := h.slots.mounted (eu ▸ l)
    exact ⟨n, fun k => (slots k).trans (at_n k)⟩
  · obtain p | p := pending
    · exact (h.pending k (p ▸ e)).congr fun n => (slots n).mp
    · rw [p] at e
      cases e

theorem Ready.same {s t : State} (h : Ready s) (eu : t.eu = s.eu) (dir : t.tu.directory = s.tu.directory)
    (pending : t.tu.pendingTask = s.tu.pendingTask) : Ready t :=
  h.congr eu (fun n => by rw [dir]) (.inl pending)

/-- The agreement stands where EU does, and of TU the directory, the tasks and the slot under check. -/
theorem mouldAgrees.same {s t : State} (h : mouldAgrees s) (eu : t.eu = s.eu) (dir : t.tu.directory = s.tu.directory)
    (running : t.tu.running = s.tu.running) (pending : t.tu.pendingTask = s.tu.pendingTask)
    (check : t.tu.sweep.check = s.tu.sweep.check) : mouldAgrees t := by
  rw [mouldAgrees_iff, running, pending]
  obtain ⟨ready, runs, behind⟩ := (mouldAgrees_iff s).mp h
  refine ⟨ready.same eu dir pending, fun r e => (runs r e).congr (by rw [eu]) (fun n => by rw [dir]; exact id)
    fun checked => ?_, behind⟩
  intro k checks
  rw [dir]
  exact checked k (check ▸ checks)

/-- What changes neither EU nor TU keeps the agreement. -/
theorem mouldAgrees.within {m : Touch} {s t : State} (h : mouldAgrees s) (w : Within m s t) (eu : m.eu = false := by rfl)
    (tu : m.tu = false := by rfl) : mouldAgrees t :=
  h.same (w.eu eu) (by rw [w.tu tu]) (by rw [w.tu tu]) (by rw [w.tu tu]) (by rw [w.tu tu])

theorem mouldAgrees.ite {t u : State} {p : Prop} [Decidable p] (h : mouldAgrees t) (k : mouldAgrees u) :
    mouldAgrees (if p then t else u) := by
  split <;> assumption

/-- A task that runs alone. -/
theorem Ready.runs {s : State} (h : Ready s) {r : RunningTask} (running : s.tu.running = some r) (fits : r.task.runsWith s)
    (idle : s.tu.pendingTask ≠ none → r.task = .sweep) : mouldAgrees s := by
  refine (mouldAgrees_iff s).mpr ⟨h, fun q e => ?_, fun p => ⟨r, running, idle p⟩⟩
  rw [running] at e
  cases e
  exact fits

/-- No task runs and none is pending. -/
theorem Ready.rests {s : State} (h : Ready s) (running : s.tu.running = none) (idle : s.tu.pendingTask = none) :
    mouldAgrees s := by
  refine (mouldAgrees_iff s).mpr ⟨h, fun q e => ?_, fun p => absurd idle p⟩
  rw [running] at e
  cases e

/-! ### The operations of TU (section 8.5, R92) -/

theorem putSlot_state (n k : Fin 12) (x : SlotState) (i : Word) (s : State) :
    (putSlot n x i s).tu.directory[k].state = if k = n then x else s.tu.directory[k].state := by
  simp only [putSlot, putEntry, State.withTu_tu, Fin.getElem_fin, Vector.getElem_set, slotEntry]
  by_cases h : k = n
  · rw [if_pos h, if_pos (congrArg Fin.val h.symm)]
  · rw [if_neg h, if_neg fun e => h (Fin.ext e.symm)]

/-- A slot that was not MOUNTED goes to a state that is not. -/
theorem putSlot_mounted_iff {n : Fin 12} {x : SlotState} {i : Word} {s : State} (was : s.tu.directory[n].state ≠ .mounted)
    (is : x ≠ .mounted) (k : Fin 12) :
    (putSlot n x i s).tu.directory[k].state = .mounted ↔ s.tu.directory[k].state = .mounted := by
  rw [putSlot_state]
  split
  · next e =>
    subst e
    exact ⟨fun h => absurd h is, fun h => absurd h was⟩
  · exact Iff.rfl

theorem Ready.putSlot {n : Fin 12} {x : SlotState} {s : State} (h : Ready s) (was : s.tu.directory[n].state ≠ .mounted)
    (is : x ≠ .mounted) (i : Word) : Ready (putSlot n x i s) :=
  h.congr rfl (putSlot_mounted_iff was is) (.inl rfl)

/-- No slot is MOUNTED while EU is EMPTY or CHANGING, and EU may go from one to the other. -/
theorem Ready.setEuState {s : State} (h : Ready s) (dead : s.eu.state.live = false) {x : EvidenceState} (still : x.live = false) :
    Ready (setEuState x s) where
  evidence := ⟨fun _ => h.evidence.unmounted dead, fun l => absurd (still.symm.trans l) (by decide)⟩
  slots := ⟨fun _ => h.slots.unmounted dead, fun l => absurd (still.symm.trans l) (by decide)⟩
  pending := h.pending

/-- A slot image is written. -/
theorem mouldAgrees.askRecords {s : State} (h : mouldAgrees s) (n : Nat) : mouldAgrees (askRecords n s) := by
  obtain ⟨q, w, form⟩ := askRecords_form n s
  rw [form]
  exact h.same rfl rfl rfl rfl rfl

theorem mouldAgrees.beginWriting {s : State} (h : mouldAgrees s) (n : Fin 12) (image : List Word) :
    mouldAgrees (beginWriting n image s) :=
  mouldAgrees.askRecords (s := s.withTu { s.tu with writer := some { slot := n, image := image, next := 0 } })
    (h.same rfl rfl rfl rfl rfl) 16

/-! ### The beginning of a task (R127, R143, R144, R146) -/

/-- The save phase: EU has no mould any more, and no slot is MOUNTED. -/
theorem openSave_agrees {k : Task} {m : Mould} {n : Fin 12} {s : State} (at_n : mountedAt s n)
    (runs : ∀ t : State, t.eu.state = .changing → k.runsWith t) (idle : s.tu.pendingTask = none) :
    mouldAgrees (openSave k m n s) := by
  rw [openSave_eq]
  refine mouldAgrees.askRecords ?_ 16
  refine Ready.runs (r := { task := k, phase := .writing }) ⟨⟨fun _ => ⟨rfl, rfl, rfl⟩, fun l => ?_⟩,
    ⟨fun _ c => ?_, fun l => ?_⟩, fun k e => ?_⟩ rfl (runs _ rfl) fun p => absurd idle p
  · cases l
  · show (s.tu.directory.set n { s.tu.directory[n] with state := .saving })[c].state ≠ .mounted
    by_cases e : c = n
    · simp [e]
    · rw [Fin.getElem_fin, Vector.getElem_set_ne _ _ fun v => e (Fin.ext v.symm)]
      exact fun mounted => e ((at_n c).mp mounted)
  · cases l
  · exact absurd (e.symm.trans idle) nofun

/-- The load phase: EU was not live, and stays CHANGING. -/
theorem openLoad_agrees {p : MountParams} {s : State} (h : Ready s) (dead : s.eu.state.live = false)
    (count : 1 ≤ p.count ∧ p.count ≤ 48) (idle : s.tu.pendingTask = none) : mouldAgrees (openLoad p s) := by
  have changing : Ready (setEuState .changing s) := h.setEuState dead rfl
  have put : Ready (putSlot p.slot .loading (slotEntry s p.slot).mouldId (setEuState .changing s)) :=
    changing.putSlot (h.slots.unmounted dead _) (by decide) _
  exact Ready.runs (r := { task := .mount p, phase := .reading }) (put.same rfl rfl rfl) rfl ⟨rfl, count⟩
    fun q => absurd idle q

/-- The mounted mould and its slot are found where EU is live, and nowhere else. -/
theorem mountedMould_cases {s : State} (h : Ready s) :
    (∃ m n, mountedMould s = some (m, n) ∧ s.eu.state.live = true ∧ mountedAt s n) ∨
    (mountedMould s = none ∧ s.eu.state.live = false) := by
  cases l : s.eu.state.live with
  | true =>
    obtain ⟨m, mould, -⟩ := h.evidence.mounted l
    obtain ⟨n, at_n⟩ := h.slots.mounted l
    exact .inl ⟨m, n, mountedMould_of_mountedAt ((live_iff _).mp l) mould at_n, rfl, at_n⟩
  | false =>
    refine .inr ⟨?_, rfl⟩
    unfold mountedMould
    rw [liveMould_none ((live_eq_false_iff _).mp l)]

theorem beginMount_agrees {p : MountParams} {s : State} (h : Ready s) (count : 1 ≤ p.count ∧ p.count ≤ 48)
    (idle : s.tu.pendingTask = none) : mouldAgrees (beginMount p s) := by
  unfold beginMount
  obtain ⟨m, n, found, -, at_n⟩ | ⟨found, dead⟩ := mountedMould_cases h <;> rw [found]
  · exact openSave_agrees at_n (fun _ changing => ⟨changing, count⟩) idle
  · exact openLoad_agrees h dead count idle

theorem beginRelease_agrees {s : State} (h : Ready s) (running : s.tu.running = none) (idle : s.tu.pendingTask = none) :
    mouldAgrees (beginRelease s) := by
  unfold beginRelease
  obtain ⟨m, n, found, -, at_n⟩ | ⟨found, -⟩ := mountedMould_cases h <;> rw [found]
  · exact openSave_agrees at_n (fun _ changing => changing) idle
  · exact h.rests running idle

theorem beginCheckpoint_agrees {s : State} (h : Ready s) (running : s.tu.running = none) (idle : s.tu.pendingTask = none) :
    mouldAgrees (beginCheckpoint s) := by
  unfold beginCheckpoint
  split
  · refine mouldAgrees.beginWriting ?_ _ _
    exact Ready.runs (r := { task := .checkpoint, phase := .writing }) (h.same rfl rfl rfl) rfl trivial
      fun p => absurd idle p
  · exact h.rests running idle

theorem beginClearSlot_agrees {n : Fin 12} {s : State} (h : Ready s) (was : s.tu.directory[n].state ≠ .mounted)
    (idle : s.tu.pendingTask = none) : mouldAgrees (beginClearSlot n s) := by
  have put : Ready (putSlot n .clearing 0 s) := h.putSlot was (by decide) 0
  refine mouldAgrees.beginWriting ?_ _ _
  refine Ready.runs (r := { task := .clearSlot n, phase := .writing }) (put.same rfl rfl rfl) rfl ?_ fun p => absurd idle p
  show (putSlot n .clearing 0 s).tu.directory[n].state = .clearing
  rw [putSlot_state, if_pos rfl]

/-- A task that may begin does so where none runs and none is pending. -/
theorem beginTask_agrees {k : Task} {s : State} (h : Ready s) (may : k.mayBegin s) (running : s.tu.running = none)
    (idle : s.tu.pendingTask = none) : mouldAgrees (beginTask k s) := by
  cases k with
  | load kind source =>
    exact Ready.runs (r := { task := .load kind source, phase := .reading }) (h.same rfl rfl rfl) rfl trivial
      fun p => absurd idle p
  | mount p => exact beginMount_agrees h may idle
  | checkpoint => exact beginCheckpoint_agrees h running idle
  | release => exact beginRelease_agrees h running idle
  | clearSlot n => exact beginClearSlot_agrees h may idle
  | sweep => exact h.rests running idle

theorem beginPending_agrees {s : State} (h : Ready s) (running : s.tu.running = none) : mouldAgrees (beginPending s) := by
  unfold beginPending
  split
  · next k e =>
    have taken : Ready (s.withTu { s.tu with pendingTask := none }) := h.congr rfl (fun _ => Iff.rfl) (.inr rfl)
    exact beginTask_agrees taken ((h.pending k e).congr fun _ => id) running rfl
  · next e => exact h.rests running e

/-! ### The sweep, and the end of a task (R128, R135, R138) -/

theorem noteResult_ready (t : Task) (r : TaskResult) {s : State} (h : Ready s) : Ready (noteResult t r s) := by
  have w := noteResult_within t r s
  exact h.same (w.eu rfl) (by rw [w.tu rfl]) (by rw [w.tu rfl])

theorem endSweep_agrees {s : State} (h : Ready s) : mouldAgrees (endSweep s) := by
  have swept : Ready (setSweep { s.tu.sweep with state := .none, stop := .none, check := none } s) := h.same rfl rfl rfl
  exact beginPending_agrees ((noteResult_ready .sweep .done swept).same rfl rfl rfl) rfl

/-- A sweep takes no MOUNTED slot. -/
theorem sweepSlot_not_mounted {s : State} {n : Fin 12} (h : sweepSlot s.tu = some n) :
    s.tu.directory[n].state ≠ .mounted := by
  obtain ⟨-, idle, -⟩ := (sweepSlot_iff s.tu s rfl n).mp h
  intro mounted
  rw [mounted] at idle
  cases idle

theorem sweepGo_agrees {s : State} (h : Ready s) : mouldAgrees (sweepGo s) := by
  unfold sweepGo
  split
  · next n e =>
    have takes := sweepSlot_not_mounted e
    refine Ready.runs (r := { task := .sweep, phase := .reading }) (h.same rfl rfl rfl) rfl (fun k checks => ?_) fun _ => rfl
    cases checks
    exact takes
  · exact endSweep_agrees h

theorem sweepBoundary_agrees {s : State} (h : Ready s) : mouldAgrees (sweepBoundary s) := by
  have cleared : Ready (setSweep { s.tu.sweep with check := none } s) := h.same rfl rfl rfl
  unfold sweepBoundary
  dsimp only
  split
  · exact endSweep_agrees cleared
  · exact sweepGo_agrees cleared
  all_goals exact beginPending_agrees (cleared.same rfl rfl rfl) rfl

theorem endTask_agrees (t : Task) (r : TaskResult) {s : State} (h : Ready s) : mouldAgrees (endTask t r s) := by
  have ended : Ready (setRunning none (noteResult t r s)) := (noteResult_ready t r h).same rfl rfl rfl
  unfold endTask
  dsimp only
  split
  · exact beginPending_agrees ended rfl
  · next idle =>
    exact .ite (sweepGo_agrees ended) (ended.rests rfl (Option.not_isSome_iff_eq_none.mp idle))

/-- An admitted task begins, or is pending behind the sweep (R127). -/
theorem admitTask_agrees {k : Task} {s : State} (h : mouldAgrees s) (may : k.mayBegin s) : mouldAgrees (admitTask k s).2 := by
  have ready := h.ready
  unfold admitTask
  split
  · exact h
  · next now =>
    have none : s.tu.running = none := by
      unfold admission at now
      split at now
      · cases now
      · split at now
        · assumption
        · split at now <;> cases now
    have idle : s.tu.pendingTask = .none := by
      by_contra p
      obtain ⟨r, e, -⟩ := h.pending p
      exact absurd (none.symm.trans e) nofun
    exact .ite (sweepGo_agrees (ready.same rfl rfl rfl)) (beginTask_agrees ready may none idle)
  · next later =>
    have sweeping : ∃ r, s.tu.running = some r ∧ r.task = .sweep := by
      unfold admission at later
      split at later
      · cases later
      · split at later
        · cases later
        · next r running =>
          split at later
          · next cond => exact ⟨r, running, cond.1⟩
          · cases later
    obtain ⟨r, running, sweep⟩ := sweeping
    refine Ready.runs ⟨ready.evidence.same rfl, ⟨ready.slots.unmounted, ready.slots.mounted⟩, fun q e => ?_⟩ running ?_
      fun _ => sweep
    · cases e
      exact may.congr fun _ => id
    · have runs := h.runs running
      rw [sweep] at runs ⊢
      exact runs

end Sys2Proof.Machine
end

section
/-! The mounted mould through the ends of tasks and the data of a task read, and through the blocks that leave TU alone: EU's
records under closes, new cycles and crack events. -/

namespace Sys2Proof.Machine

/-! ### The end of a slot image (R134, R141, R145, R151, R152) -/

/-- The slot written goes to VALID, with EU not live. -/
theorem saved_ready {s : State} (h : Ready s) (dead : s.eu.state.live = false) (n : Fin 12) (i : Word) (m : Option Mould) :
    Ready (setSnapshot m (putSlot n .valid i s)) :=
  (h.putSlot (x := .valid) (h.slots.unmounted dead n) (by decide) i).same rfl rfl rfl

theorem imageComplete_agrees (n : Fin 12) {s : State} (h : mouldAgrees s) : mouldAgrees (imageComplete n s) := by
  have written : mouldAgrees (s.withTu { s.tu with writer := none }) := h.same rfl rfl rfl rfl rfl
  have dead (changing : s.eu.state = .changing) : s.eu.state.live = false := by rw [changing]; rfl
  unfold imageComplete
  dsimp only
  split
  · next k task =>
    obtain ⟨r, running, task⟩ := Option.map_eq_some_iff.mp task
    have clearing : (Task.clearSlot k).runsWith s := task ▸ h.runs running
    refine endTask_agrees _ _ (written.ready.putSlot (x := .empty) ?_ (by decide) 0)
    exact fun mounted => absurd (clearing.symm.trans mounted) (by decide)
  · exact endTask_agrees _ _ (written.ready.same rfl rfl rfl)
  · next task =>
    obtain ⟨r, running, task⟩ := Option.map_eq_some_iff.mp task
    have changing : Task.release.runsWith s := task ▸ h.runs running
    exact endTask_agrees _ _ ((saved_ready written.ready (dead changing) n _ none).setEuState (dead changing) rfl)
  · next p task =>
    obtain ⟨r, running, task⟩ := Option.map_eq_some_iff.mp task
    obtain ⟨changing, count⟩ : (Task.mount p).runsWith s := task ▸ h.runs running
    refine openLoad_agrees (saved_ready written.ready (dead changing) n _ none) (dead changing) count ?_
    exact h.alone running (by rw [task]; nofun)
  all_goals exact written

/-! ### Tables (R93, R123, R124) -/

theorem liveStateFor_live (zoneId active : Half) : (liveStateFor zoneId active).live = true := by
  unfold liveStateFor
  split <;> rfl

/-- EU goes between RUNNING and HELD. -/
theorem compareMap_ready {s : State} (h : Ready s) : Ready (compareMap s) := by
  unfold compareMap
  split
  · next m e =>
    have live : s.eu.state.live = true := by
      by_contra l
      rw [liveMould, if_neg l] at e
      cases e
    have still := liveStateFor_live m.header.zoneId s.el.zones.id
    exact ⟨⟨fun l => absurd (still.symm.trans l) (by decide), fun _ => h.evidence.mounted live⟩,
      ⟨fun l => absurd (still.symm.trans l) (by decide), fun _ => h.slots.mounted live⟩, h.pending⟩
  · exact h

theorem storeTable_ready (kind : LoadKind) (ws : List Word) {s : State} (h : Ready s) : Ready (storeTable kind ws s) := by
  cases kind with
  | profile p =>
    show Ready (storeProfile p ws s)
    unfold storeProfile
    dsimp only
    split <;> exact h.same rfl rfl rfl
  | zones => exact compareMap_ready (h.same rfl rfl rfl)

theorem tableWord_agrees (kind : LoadKind) (source : Addr) (d : Word) {s : State} (h : mouldAgrees s) :
    mouldAgrees (tableWord kind source d s) := by
  have staged (ws : List Word) : Ready (s.withTu { s.tu with staging := ws }) := h.ready.same rfl rfl rfl
  unfold tableWord
  dsimp only
  split
  · exact h.same rfl rfl rfl rfl rfl
  · exact endTask_agrees _ _ (storeTable_ready _ _ (staged []))
  · exact endTask_agrees _ _ (staged [])

/-! ### A judged slot (R138, R146 to R149) -/

theorem applyJudgement_ready {n : Fin 12} (j : Judgement) {s : State} (h : Ready s)
    (was : s.tu.directory[n].state ≠ .mounted) : Ready (applyJudgement n j s) := by
  cases j with
  | bad => exact (h.putSlot (x := .damaged) was (by decide) 0).same rfl rfl rfl
  | goodEmpty => exact h.putSlot was (by decide) 0
  | goodOccupied i c => exact h.putSlot was (by decide) i

theorem sweepJudged_agrees (j : Judgement) {s : State} (h : Ready s) (checked : Task.sweep.runsWith s) :
    mouldAgrees (sweepJudged j s) := by
  unfold sweepJudged
  split
  · next k e =>
    refine sweepBoundary_agrees ?_
    split
    · exact h
    · exact applyJudgement_ready j h (checked k e)
  · exact sweepBoundary_agrees h

theorem mountFails_agrees {p : MountParams} {r : TaskResult} {x : SlotState} {i : Word} {s : State} (h : Ready s)
    (dead : s.eu.state.live = false) (is : x ≠ .mounted) : mouldAgrees (mountFails p r x i s) := by
  have failed : Ready (setEuState .empty (putSlot p.slot x i s)) :=
    (h.putSlot (h.slots.unmounted dead _) is i).setEuState dead rfl
  refine endTask_agrees _ _ ?_
  split
  · exact failed.same rfl rfl rfl
  · exact failed

/-- The target of the MOUNT becomes the one MOUNTED slot. -/
theorem mountSucceeds_agrees {p : MountParams} {m : Mould} {s : State} (h : Ready s) (dead : s.eu.state.live = false)
    (idle : s.tu.pendingTask = none) (whole : m.cavities.length = m.header.count)
    (count : 1 ≤ m.header.count ∧ m.header.count ≤ 48) : mouldAgrees (mountSucceeds p m s) := by
  rw [mountSucceeds_eq]
  have live : (mouldTaken p m s).eu.state.live = true := liveStateFor_live p.zoneId s.el.zones.id
  have mounts : mountedAt (mouldTaken p m s) p.slot := by
    intro k
    show (putSlot p.slot .mounted p.mouldId s).tu.directory[k].state = .mounted ↔ _
    rw [putSlot_state]
    split
    · next e => exact ⟨fun _ => e, fun _ => rfl⟩
    · next e => exact ⟨fun mounted => absurd mounted (h.slots.unmounted dead k), fun at_k => absurd at_k e⟩
  refine endTask_agrees _ _ ⟨⟨fun l => ?_, fun _ => ⟨m, rfl, whole, count⟩⟩, ⟨fun l => ?_, fun _ => ⟨_, mounts⟩⟩, fun k e => ?_⟩
  · exact absurd (live.symm.trans l) (by decide)
  · exact absurd (live.symm.trans l) (by decide)
  · exact absurd (idle.symm.trans e) nofun

theorem mountJudged_agrees {p : MountParams} (j : Judgement) (ws : List Word) {s : State} (h : Ready s)
    (runs : (Task.mount p).runsWith s) (idle : s.tu.pendingTask = none) : mouldAgrees (mountJudged p j ws s) := by
  obtain ⟨changing, count⟩ := runs
  have dead : s.eu.state.live = false := by rw [changing]; rfl
  cases j with
  | bad => exact mountFails_agrees h dead (by decide)
  | goodEmpty => exact mountSucceeds_agrees h dead idle List.length_replicate count
  | goodOccupied i c =>
    exact .ite (mountFails_agrees h dead (by decide)) (.ite (mountFails_agrees h dead (by decide))
      (mountSucceeds_agrees h dead idle (storedCavities_length ws _ 0) count))

/-! ### A task read returns its data (R14, R115, R133) -/

theorem slotWord_agrees {k : Task} (d : Word) {s : State} (h : mouldAgrees s) {r : RunningTask}
    (running : s.tu.running = some r) (task : r.task = k) : mouldAgrees (slotWord k d s) := by
  have kept : mouldAgrees (keepSlotWord d s) := h.same rfl rfl rfl rfl rfl
  have runs := kept.runs running
  rw [task] at runs
  unfold slotWord
  dsimp only
  split
  · unfold readOn
    split
    · exact kept.same rfl rfl rfl rfl rfl
    · exact kept
  · cases k with
    | mount p => exact mountJudged_agrees _ _ kept.ready runs (kept.alone running (by rw [task]; nofun))
    | sweep => exact sweepJudged_agrees _ kept.ready runs
    | load _ _ | checkpoint | release | clearSlot _ => exact kept

theorem taskData_agrees (d : Word) {s : State} (h : mouldAgrees s) : mouldAgrees (taskData d s) := by
  unfold taskData
  split
  · next r running =>
    split
    · exact tableWord_agrees _ _ d h
    · next task => exact slotWord_agrees d h running task
    · next task => exact slotWord_agrees d h running task
    all_goals exact h
  · exact h

/-! ### EU's records (R97, R98, R101, R102) -/

theorem EvidenceAgrees.ite {t u : State} {p : Prop} [Decidable p] (h : EvidenceAgrees t) (k : EvidenceAgrees u) :
    EvidenceAgrees (if p then t else u) := by
  split <;> assumption

theorem EvidenceAgrees.within {m : Touch} {s t : State} (h : EvidenceAgrees s) (w : Within m s t)
    (eu : m.eu = false := by rfl) : EvidenceAgrees t := h.same (w.eu eu)

theorem EvidenceAgrees.report {s : State} (h : EvidenceAgrees s) (p : Posting) (b : State) : EvidenceAgrees (report p b s) :=
  h.within (report_within p b s)

/-- A cycle stands in the queue only where a mould is mounted. -/
theorem EvidenceAgrees.live {s : State} (h : EvidenceAgrees s) {e : CycleEntry} {rest : List CycleEntry}
    (cycles : s.eu.cycles = e :: rest) : s.eu.state.live = true := by
  by_contra l
  obtain ⟨-, empty, -⟩ := h.unmounted (Bool.eq_false_iff.mpr l)
  exact absurd (empty.symm.trans cycles) nofun

/-- With a mould mounted, EU may hold any cycles. -/
theorem EvidenceAgrees.of_live {s : State} (live : s.eu.state.live = true) {m : Mould} (mould : s.eu.mould = some m)
    (whole : m.cavities.length = m.header.count) (count : 1 ≤ m.header.count ∧ m.header.count ≤ 48) : EvidenceAgrees s :=
  ⟨fun l => absurd (live.symm.trans l) (by decide), fun _ => ⟨m, mould, whole, count⟩⟩

/-- A close steps every cavity and loses none. -/
theorem closeMould_length (p : EvidenceParams) (e : CycleEntry) {m : Mould} (h : m.cavities.length ≤ 48) :
    (closeMould p e m).cavities.length = m.cavities.length := by
  simp [closeMould, h]

theorem closeEffect_evidence (forced : Bool) {s : State} (h : EvidenceAgrees s) : EvidenceAgrees (closeEffect forced s) := by
  unfold closeEffect
  split
  · exact h
  · next e rest cycles none =>
    obtain ⟨m, mould, -⟩ := h.mounted (h.live cycles)
    exact absurd (none.symm.trans mould) nofun
  · next e rest m cycles mould =>
    have live := h.live cycles
    obtain ⟨m', mould', whole, count⟩ := h.mounted live
    cases Option.some.inj (mould.symm.trans mould')
    have applied : EvidenceAgrees (applyClose e rest m s) :=
      .of_live live rfl ((closeMould_length _ _ (whole ▸ count.2)).trans whole) count
    have counted := applied.within ((countOccurrence_within .cycleClosed _).trans (countIf_within forced .cycleForced _))
    have raised (b d : Bool) := counted.within (((raiseCause_within .cycle _).trans (raiseIf_within b .suspect _)).trans
      (raiseIf_within d .crack _))
    exact (raised _ _).within (handVerdicts_within _ _)

theorem closeLoop_evidence (n : Nat) : ∀ {s : State}, EvidenceAgrees s → EvidenceAgrees (closeLoop n s) := by
  induction n with
  | zero => exact fun h => h
  | succ n ih => exact fun h => .ite (ih ((closeEffect_evidence false h).report _ _)) h

theorem testClose_evidence {s : State} (h : EvidenceAgrees s) : EvidenceAgrees (testClose s) := closeLoop_evidence _ h

/-- An entry is created only where a mould is mounted. -/
theorem blockBegun_evidence (c : Half) (start : Time) {s : State} (h : EvidenceAgrees s) :
    EvidenceAgrees (blockBegun c start s) := by
  by_cases opens : opensEntry c s
  · have create {u : State} (k : EvidenceAgrees u) (state : u.eu.state = s.eu.state) : EvidenceAgrees (createEntry c start u) := by
      have live : u.eu.state.live = true := state ▸ live_of opens.1
      obtain ⟨m, mould, whole, count⟩ := k.mounted live
      refine EvidenceAgrees.within (s := u.withEu _) ?_ (countIf_within _ _ _)
      exact .of_live live mould whole count
    rw [blockBegun_opens opens]
    refine testClose_evidence (.ite ((create h rfl).report _ _) ((create (closeEffect_evidence true h) ?_).report _ _))
    exact (closeEffect_within true s).euState rfl
  · rw [blockBegun_rest opens]
    exact h

theorem takeCrackEvent_evidence (c : Half) (cavity energy : Nat) {s : State} (h : EvidenceAgrees s) :
    EvidenceAgrees (takeCrackEvent c cavity energy s) := by
  refine ⟨fun l => ?_, h.mounted⟩
  obtain ⟨mould, cycles, newest⟩ := h.unmounted l
  refine ⟨mould, ?_, newest⟩
  show s.eu.cycles.map _ = []
  rw [cycles]
  rfl

end Sys2Proof.Machine
end

section
/-! The mounted mould through EL, HX and SF, through the owners of commands, and through every step. -/

namespace Sys2Proof.Machine

/-! ### Events, hits and samples: EU's records -/

theorem formEvent_evidence (forced : Bool) {s : State} (h : EvidenceAgrees s) : EvidenceAgrees (formEvent forced s) := by
  have reported (r : EventRecord) {u : State} (k : EvidenceAgrees u) : EvidenceAgrees (reportEvent r s u) :=
    k.within (reportEvent_within r s u)
  unfold formEvent
  split
  · exact h
  · next anchor rest _ =>
    have taken : EvidenceAgrees (takeEvent anchor rest s) := h.same rfl
    dsimp only
    split
    · exact reported _ taken
    · exact .ite (reported _ (takeCrackEvent_evidence _ _ _ taken)) (reported _ taken)

theorem formLoop_evidence (n : Nat) : ∀ {s : State}, EvidenceAgrees s → EvidenceAgrees (formLoop n s) := by
  induction n with
  | zero => exact fun h => h
  | succ n ih => exact fun h => .ite (ih (testClose_evidence (formEvent_evidence false h))) h

theorem locatorTest_evidence {s : State} (h : EvidenceAgrees s) : EvidenceAgrees (locatorTest s) :=
  testClose_evidence (formLoop_evidence _ h)

theorem placeHit_evidence (g : Hit) {s : State} (h : EvidenceAgrees s) : EvidenceAgrees (placeHit g s) :=
  .ite (h.same rfl) (h.same rfl)

theorem deliverHit_evidence (g : Hit) {s : State} (h : EvidenceAgrees s) : EvidenceAgrees (deliverHit g s) :=
  .ite (h.same rfl) (.ite (locatorTest_evidence (placeHit_evidence g h))
    (locatorTest_evidence (placeHit_evidence g (testClose_evidence (formEvent_evidence true h)))))

theorem refreshCovered_evidence (c : Fin 8) {s : State} (h : EvidenceAgrees s) : EvidenceAgrees (refreshCovered c s) :=
  .ite h (.ite (h.same rfl) (locatorTest_evidence (h.same rfl)))

theorem disposeHit_evidence (c : Fin 8) (g : OpenHit) (truncated : Bool) {s : State} (h : EvidenceAgrees s) :
    EvidenceAgrees (disposeHit c g truncated s) := by
  have counted : EvidenceAgrees (countIf truncated (.hit .truncated) (countOccurrence (.hit .accepted) s)) :=
    h.within ((countOccurrence_within _ s).trans (countIf_within _ _ _))
  exact .ite (h.same rfl) (.ite (h.same rfl) (deliverHit_evidence _ (counted.same rfl)))

theorem closeHit_evidence (c : Fin 8) (b t : Nat) (g : OpenHit) (truncated : Bool) {s : State} (h : EvidenceAgrees s) :
    EvidenceAgrees (closeHit c b t g truncated s) :=
  refreshCovered_evidence c (disposeHit_evidence c g truncated (h.same rfl))

theorem followHit_evidence (c : Fin 8) (b t : Nat) (g : OpenHit) (x : Nat) {s : State} (h : EvidenceAgrees s) :
    EvidenceAgrees (followHit c b t g x s) := by
  unfold followHit
  dsimp only
  split
  · exact h.same rfl
  · exact closeHit_evidence _ _ _ _ _ h
  · exact closeHit_evidence _ _ _ _ _ h

theorem sampleEffect_evidence (w : BlockInWork) {s : State} (h : EvidenceAgrees s) : EvidenceAgrees (sampleEffect w s) := by
  unfold sampleEffect
  dsimp only
  split
  · exact h
  · exact h.same rfl
  · exact .ite (followHit_evidence _ _ _ _ _ (refreshCovered_evidence _ (h.same rfl))) (h.same rfl)
  · exact followHit_evidence _ _ _ _ _ h
  · exact .ite (h.same rfl) (h.same rfl)

theorem processSample_evidence (w : BlockInWork) {s : State} (h : EvidenceAgrees s) : EvidenceAgrees (processSample w s) := by
  have taken : EvidenceAgrees (sampleEffect w (putBlock (some { w with next := w.next + 1 }) s)) :=
    sampleEffect_evidence w (h.same rfl)
  have seeded : EvidenceAgrees (seedChannel w.entry.channel (w.sum + sampleAt w.entry w.next)
      (sampleEffect w (putBlock (some { w with next := w.next + 1 }) s))) := .ite (taken.same rfl) taken
  exact .ite taken (refreshCovered_evidence _ (seeded.same rfl))

theorem breakChannel_evidence (c : Fin 8) {s : State} (h : EvidenceAgrees s) : EvidenceAgrees (breakChannel c s) := by
  unfold breakChannel
  split
  · exact refreshCovered_evidence _ (h.same rfl)
  all_goals exact h.same rfl

theorem recomputeThreshold_eu (c : Fin 8) (s : State) : (recomputeThreshold c s).eu = s.eu := by
  unfold recomputeThreshold
  split <;> rfl

theorem beginBlock_evidence (e : AcceptedBlock) {s : State} (h : EvidenceAgrees s) : EvidenceAgrees (beginBlock e s) := by
  have params : EvidenceAgrees (recomputeThreshold e.channel (takeParams e.channel
      (putBlock (some { entry := e, next := 0, sum := 0 }) s))) :=
    h.same (recomputeThreshold_eu _ _)
  exact blockBegun_evidence _ _ (.ite params (breakChannel_evidence _ params))

theorem takeBlock_evidence {s : State} (h : EvidenceAgrees s) : EvidenceAgrees (takeBlock s) := by
  unfold takeBlock
  split
  · exact beginBlock_evidence _ (h.same rfl)
  all_goals exact h

/-! ### The rings: EU's records -/

theorem putRing_evidence (r : Fin 8) (x : Ring) {s : State} (h : EvidenceAgrees s) : EvidenceAgrees (putRing r x s) :=
  h.same rfl

theorem putRingState_evidence (r : Fin 8) (x : RingState) {s : State} (h : EvidenceAgrees s) :
    EvidenceAgrees (putRingState r x s) := putRing_evidence r _ h

theorem refuseBlock_evidence (why : RefuseReason) (stream : Bool) (r : Fin 8) (next : RingState) {s : State}
    (h : EvidenceAgrees s) : EvidenceAgrees (refuseBlock why stream r next s) :=
  ((putRingState_evidence r next h).within ((countOccurrence_within _ _).trans (raiseIf_within _ _ _))).report _ _

theorem startCapture_evidence (r : Fin 8) (p : Nat) (d : Word) {s : State} (h : EvidenceAgrees s) :
    EvidenceAgrees (startCapture r p d s) := (putRingState_evidence r _ h).report _ _

theorem huntWrite_evidence (r : Fin 8) (off : Nat) (be : Enables) (d : Word) {s : State} (h : EvidenceAgrees s) :
    EvidenceAgrees (huntWrite r off be d s) :=
  .ite (.ite (startCapture_evidence _ _ _ h) (refuseBlock_evidence _ _ _ _ h)) h

theorem fallAndHunt_evidence (why : RefuseReason) (r : Fin 8) (off : Nat) (be : Enables) (d : Word) {s : State}
    (h : EvidenceAgrees s) : EvidenceAgrees (fallAndHunt why r off be d s) :=
  huntWrite_evidence _ _ _ _ (refuseBlock_evidence _ _ _ _ h)

theorem acceptBlock_evidence (r : Fin 8) (c : Capture) {s : State} (h : EvidenceAgrees s) :
    EvidenceAgrees (acceptBlock r c s) := by
  have counted (m : BlockMark) (o : Occurrence) {u : State} (k : EvidenceAgrees u) :
      EvidenceAgrees (countMark m (countOccurrence o u)) :=
    k.within ((countOccurrence_within _ _).trans (countMark_within _ _))
  have queued (q : List AcceptedBlock) {u : State} (k : EvidenceAgrees u) :
      EvidenceAgrees (u.withSf { u.sf with queue := q }) := k.same rfl
  exact refreshCovered_evidence _ ((counted _ _ (queued _ (putRing_evidence r _ h))).report _ _)

theorem closeCapture_evidence (r : Fin 8) (c : Capture) (d : Word) {s : State} (h : EvidenceAgrees s) :
    EvidenceAgrees (closeCapture r c d s) :=
  .ite (refuseBlock_evidence _ _ _ _ h) (.ite (acceptBlock_evidence r c h) (refuseBlock_evidence _ _ _ _ (putRing_evidence r _ h)))

theorem ringWrite_evidence (r : Fin 8) (off : Nat) (be : Enables) (d : Word) {s : State} (h : EvidenceAgrees s) :
    EvidenceAgrees (ringWrite r off be d s) := by
  unfold ringWrite
  split
  · exact h
  · exact huntWrite_evidence _ _ _ _ h
  · exact .ite (fallAndHunt_evidence _ _ _ _ _ h) (.ite (fallAndHunt_evidence _ _ _ _ _ h)
      (.ite (putRingState_evidence _ _ h) (closeCapture_evidence _ _ _ h)))
  · exact .ite (.ite (startCapture_evidence _ _ _ h) (refuseBlock_evidence _ _ _ _ h))
      (fallAndHunt_evidence _ _ _ _ _ h)

theorem timeoutBlock_evidence (r : Fin 8) {s : State} (h : EvidenceAgrees s) : EvidenceAgrees (timeoutBlock r s) := by
  unfold timeoutBlock
  split
  · exact .ite (refuseBlock_evidence _ _ _ _ h) h
  all_goals exact h

theorem staleRing_evidence (r : Fin 8) {s : State} (h : EvidenceAgrees s) : EvidenceAgrees (staleRing r s) :=
  .ite (refreshCovered_evidence _ (((putRing_evidence r _ h).within (raiseCause_within .stream _)).report _ _)) h

theorem ringToOff_eu (r : Fin 8) (s : State) : (ringToOff r s).eu = s.eu := by
  rw [ringToOff, abandonBlock_eq]
  rfl

theorem ringRestart_eu (r : Fin 8) (s : State) : (ringRestart r s).eu = s.eu := by
  rw [ringRestart, abandonBlock_eq]
  rfl

/-! ### What leaves TU and EU's state alone -/

/-- Where TU and EU's state stand, the agreement is that of EU's records. -/
theorem mouldAgrees.evidence {m : Touch} {s t : State} (h : mouldAgrees s) (w : Within m s t)
    (k : EvidenceAgrees s → EvidenceAgrees t) (tu : m.tu = false := by rfl) (state : m.euState = false := by rfl) :
    mouldAgrees t := by
  obtain ⟨ready, runs, behind⟩ := (mouldAgrees_iff s).mp h
  have same := w.tu tu
  have live := w.euState state
  refine (mouldAgrees_iff t).mpr ⟨⟨k ready.evidence, ⟨fun l => ?_, fun l => ?_⟩, fun q e => ?_⟩, fun r e => ?_, ?_⟩
  · rw [same]
    exact ready.slots.unmounted (live ▸ l)
  · unfold mountedAt
    rw [same]
    exact ready.slots.mounted (live ▸ l)
  · rw [same] at e
    exact (ready.pending q e).congr fun n => by rw [same]; exact id
  · rw [same] at e
    exact (runs r e).congr live (fun n => by rw [same]; exact id) fun checked k checks => by
      rw [same] at checks ⊢
      exact checked k checks
  · rwa [same]

theorem mouldAgrees.report {s : State} (h : mouldAgrees s) (p : Posting) (b : State) : mouldAgrees (report p b s) :=
  h.within (report_within p b s)

theorem mouldAgrees.reportTask {s : State} (h : mouldAgrees s) (p : Posting) (loaded : Bool) (b : State) :
    mouldAgrees (reportTask p loaded b s) :=
  .ite ((h.report p b).evidence (locatorTest_within _) locatorTest_evidence) (h.report p b)

/-! ### The owners of commands -/

theorem mouldAgrees.answer {p : Prop} [Decidable p] {a b : Answer} (h : mouldAgrees a.state)
    (k : ¬ p → mouldAgrees b.state) : mouldAgrees (if p then a else b).state := by
  split
  · exact h
  · next n => exact k n

/-- DEFINE LAYOUT makes every slot UNCHECKED, with no mould mounted and no task running (R5, R6). -/
theorem defineLayout_agrees {s : State} (h : mouldAgrees s) : mouldAgrees (ownDefineLayout s).state := by
  refine .answer h fun free => .answer h fun _ => ?_
  simp only [layoutFree, Bool.and_eq_false_iff, not_or, Bool.not_eq_false, Bool.not_eq_true',
    Option.isNone_iff_eq_none] at free
  obtain ⟨⟨⟨dead, running⟩, idle⟩, -⟩ := free
  refine Ready.rests ⟨h.ready.evidence.same rfl, ⟨fun _ n => ?_, fun live => absurd (dead.symm.trans live) (by decide)⟩,
    fun k e => absurd (idle.symm.trans e) nofun⟩ running idle
  show (s.tu.directory.map DirEntry.uncheck)[n].state ≠ _
  rw [Fin.getElem_fin, Vector.getElem_map]
  exact SlotState.noConfusion

/-- The lock commands change no slot's state (R139). -/
theorem locked_agrees {s : State} (h : mouldAgrees s) {dir : Vector DirEntry 12}
    (states : ∀ n : Fin 12, dir[n].state = s.tu.directory[n].state) :
    mouldAgrees (s.withTu { s.tu with directory := dir }) := by
  obtain ⟨ready, runs, behind⟩ := (mouldAgrees_iff s).mp h
  refine (mouldAgrees_iff _).mpr ⟨ready.congr rfl (fun n => by rw [← states]; rfl) (.inl rfl),
    fun r e => (runs r e).congr rfl (fun n => (states n).trans) fun checked k checks => ?_, behind⟩
  exact fun mounted => checked k checks ((states k.slot).symm.trans mounted)

/-- CLEAR SLOT and MOUNT check what their tasks need (R141, R143). -/
theorem clearSlot_agrees {s : State} (h : mouldAgrees s) : mouldAgrees (ownClearSlot s).state :=
  .answer h fun _ => .answer h fun free => .answer h fun _ =>
    admitTask_agrees (k := .clearSlot _) h free

theorem mount_agrees {s : State} (h : mouldAgrees s) : mouldAgrees (ownMount s).state := by
  refine .answer h fun ok => .answer h fun _ => admitTask_agrees (k := .mount (mountParamsOf s)) h ?_
  simp only [mountParamsOk, Bool.not_eq_false, Bool.and_eq_true, decide_eq_true_eq] at ok
  obtain ⟨⟨⟨⟨_, least⟩, most⟩, _⟩, _⟩ := ok
  exact ⟨least, most⟩

/-- CLEAR CAVITY and CLEAR MOULD keep the number of records (R106, R107). -/
theorem cleared_agrees {s : State} {m m' : Mould} (h : mouldAgrees s) (mounted : liveMould s = some m)
    (header : m'.header = m.header) (length : m'.cavities.length = m.cavities.length) (cs : List (Fin 48)) :
    mouldAgrees (handVerdicts cs (withMould (some m') s)) := by
  have live : s.eu.state.live = true := by
    by_contra l
    rw [liveMould, if_neg l] at mounted
    cases mounted
  have w : Within .close s (withMould (some m') s) := withEu_within s _ rfl
  refine mouldAgrees.within (h.evidence w fun k => ?_) (handVerdicts_within _ _)
  obtain ⟨x, mould, whole, count⟩ := k.mounted live
  rw [liveMould, if_pos live, mould] at mounted
  cases mounted
  exact .of_live live rfl (by rw [length, whole, header]) (by rw [header]; exact count)

theorem own_agrees (c : Command) {s : State} (h : mouldAgrees s) : mouldAgrees (own c s).state := by
  have admitted {k : Task} (may : k.mayBegin s) : mouldAgrees (admitAnswer k s).state := admitTask_agrees h may
  cases c with
  | defineLayout => exact defineLayout_agrees h
  | resetPart => exact h
  | defineRing =>
    exact .answer h fun _ => .answer h fun _ => .answer h fun _ => .answer h fun _ => .answer h fun _ =>
      h.evidence (putRing_within _ _ s) (putRing_evidence _ _)
  | ringOn => exact .answer h fun _ => .answer h fun _ => h.evidence (ringToHunt_within _ s) (·.same rfl)
  | ringOff =>
    exact .answer h fun _ => .answer h fun _ => .answer h fun _ =>
      h.evidence (ringToOff_within _ s) (·.same (ringToOff_eu _ s))
  | resetRing =>
    exact .answer h fun _ => .answer h fun _ =>
      h.evidence (ringRestart_within _ s) (·.same (ringRestart_eu _ s))
  | setFraming =>
    refine .answer h fun _ => ?_
    have framed : mouldAgrees (s.withSf { s.sf with framing := framingOf s }) :=
      h.evidence (withSf_within s _) (·.same rfl)
    exact .ite (framed.within (withRu_within _ _)) framed
  | load =>
    show mouldAgrees (ownLoad s).state
    unfold ownLoad
    split
    · exact h
    · exact .answer h fun _ => .answer h fun _ => admitted trivial
  | lockSlot =>
    refine .answer h fun _ => .answer h fun _ => locked_agrees h fun n => ?_
    rw [Fin.getElem_fin, Vector.getElem_set]
    split
    · next e => simp only [setLock, slotEntry, Fin.getElem_fin, e]
    · rfl
  | clearLocks =>
    refine .answer h fun _ => locked_agrees h fun n => ?_
    rw [Fin.getElem_fin, Vector.getElem_map]
    rfl
  | setMasterLock => exact .answer h fun _ => h.same rfl rfl rfl rfl rfl
  | clearSlot => exact clearSlot_agrees h
  | sweep => exact admitted trivial
  | suspendSweep =>
    show mouldAgrees (ownSuspendSweep s).state
    unfold ownSuspendSweep
    split
    · exact h.same rfl rfl rfl rfl rfl
    · exact h.same rfl rfl rfl rfl rfl
    all_goals exact h
  | resumeSweep => exact .answer h fun _ => .answer h fun _ => sweepGo_agrees h.ready
  | mount => exact mount_agrees h
  | checkpoint => exact .answer h fun _ => admitted trivial
  | release => exact .answer h fun _ => admitted trivial
  | clearCavity =>
    show mouldAgrees (ownClearCavity s).state
    unfold ownClearCavity
    split
    · exact h
    · next m mounted =>
      exact .answer h fun _ => cleared_agrees (m' := m.clearCavity _) h mounted rfl (List.length_modify ..) _
  | clearMould =>
    show mouldAgrees (ownClearMould s).state
    unfold ownClearMould
    split
    · exact h
    · next m mounted => exact cleared_agrees (m' := m.clearAll) h mounted rfl (List.length_map ..) _
  | setReporting =>
    refine .answer h fun _ => ?_
    have set (x : ReportUnit) : mouldAgrees (s.withRu x) := h.within (withRu_within s x)
    exact (set _).evidence (withEu_within _ _ rfl) fun k => ⟨k.unmounted, k.mounted⟩
  | setCounter => exact .answer h fun _ => h.within (withRu_within s _)
  | clearStatus => exact h.within (withRu_within s _)
  | acknowledge => exact .answer h fun _ => h.within (withRu_within s _)

/-! ### Frames and writes -/

/-- After a reset EU is EMPTY, no slot is MOUNTED and no task runs (R18, R33). -/
theorem mouldAgrees_of_empty {s : State} (eu : s.eu = EvidenceUnit.reset)
    (slots : ∀ n : Fin 12, s.tu.directory[n].state = .unchecked) (running : s.tu.running = none)
    (idle : s.tu.pendingTask = none) : mouldAgrees s := by
  refine Ready.rests ⟨⟨fun _ => ?_, fun l => ?_⟩, ⟨fun _ n => ?_, fun l => ?_⟩, fun k e => absurd (idle.symm.trans e) nofun⟩
    running idle
  · rw [eu]
    exact ⟨rfl, rfl, rfl⟩
  · rw [eu] at l
    cases l
  · rw [slots]
    decide
  · rw [eu] at l
    cases l

theorem resetPart_agrees (s : State) : mouldAgrees (resetPart s) := by
  refine mouldAgrees_of_empty rfl (fun n => ?_) rfl rfl
  show (s.tu.directory.map DirEntry.uncheck)[n].state = _
  rw [Fin.getElem_fin, Vector.getElem_map]
  rfl

theorem recordOutcome_agrees (code : Byte) (o : FrameOutcome) {s : State} (h : mouldAgrees s) :
    mouldAgrees (recordOutcome code o s) := .ite (h.same rfl rfl rfl rfl rfl) (h.same rfl rfl rfl rfl rfl)

theorem endFrame_agrees (code : Byte) (o : FrameOutcome) {s : State} (h : mouldAgrees s) : mouldAgrees (endFrame code o s) :=
  (recordOutcome_agrees code o (s := setDecoder .ready s) (h.same rfl rfl rfl rfl rfl)).report _ _

theorem takeCommand_agrees (c : Command) {s : State} (h : mouldAgrees s) : mouldAgrees (takeCommand c s) := by
  unfold takeCommand
  split
  · exact resetPart_agrees s
  · have ended := recordOutcome_agrees c.code (own c s).outcome (s := setDecoder .ready (own c s).state)
      ((own_agrees c h).same rfl rfl rfl rfl rfl)
    have reported : mouldAgrees (answerReport c (own c s) s) :=
      .ite (ended.within (postDirty_within _)) (ended.report _ _)
    unfold followUp
    split
    · exact reported
    · exact reported.evidence (refreshCovered_within _ _) (refreshCovered_evidence _)
    · exact .ite (reported.evidence (locatorTest_within _) locatorTest_evidence) reported

theorem closingWrite_agrees (d : Word) {s : State} (h : mouldAgrees s) : mouldAgrees (closingWrite d s) := by
  have ended (code : Byte) (o : FrameOutcome) : mouldAgrees (endFrame code o s) := endFrame_agrees code o h
  unfold closingWrite
  split
  · exact ended _ _
  · exact ended _ _
  · split
    · exact ended _ _
    · split
      · exact ended _ _
      · unfold closeCommand
        split
        · exact ended _ _
        · exact takeCommand_agrees _ h

theorem cdWrite_agrees (n : Nat) (be : Enables) (d : Word) {s : State} (h : mouldAgrees s) :
    mouldAgrees (cdWrite n be d s) := by
  have cd (x : CommandDecoder) {u : State} (k : mouldAgrees u) : mouldAgrees (u.withCd x) := k.same rfl rfl rfl rfl rfl
  unfold cdWrite
  split
  · unfold poisonFrame
    split
    · exact cd _ h
    all_goals exact h
  · split
    · unfold openingWrite
      split
      · exact cd _ h
      all_goals exact cd _ ((recordOutcome_agrees _ _ h).report _ _)
    · split
      · exact closingWrite_agrees d h
      · unfold parameterWrite
        split
        · exact cd _ h
        all_goals exact h

/-- A write into a slot finds it neither MOUNTED nor CLEARING, since those are protected (R7, R136). -/
theorem slotTouched_agrees {n : Fin 12} {s : State} (h : mouldAgrees s)
    (idle : s.tu.directory[n].state.busy = false) : mouldAgrees (slotTouched n s) := by
  have apart {x : SlotState} (busy : x.busy = true) : s.tu.directory[n].state ≠ x := by
    intro e
    rw [e, busy] at idle
    cases idle
  obtain ⟨ready, runs, behind⟩ := (mouldAgrees_iff s).mp h
  have slots := putSlot_mounted_iff (x := .unchecked) (i := 0) (apart (x := .mounted) rfl) (by decide)
  have put : Ready (putSlot n .unchecked 0 s) := ready.congr rfl slots (.inl rfl)
  have here : (putSlot n .unchecked 0 s).tu.directory[n].state ≠ .mounted := by
    rw [putSlot_state, if_pos rfl]
    decide
  have clearing (k : Fin 12) (was : s.tu.directory[k].state = .clearing) :
      (putSlot n .unchecked 0 s).tu.directory[k].state = .clearing := by
    rw [putSlot_state, if_neg]
    · exact was
    · rintro rfl
      exact apart (x := .clearing) rfl was
  unfold slotTouched
  refine mouldAgrees.report (.ite ?_ ?_) _ _
  · refine (mouldAgrees_iff _).mpr ⟨put.same rfl rfl rfl, fun r e => (runs r e).congr rfl clearing fun _ k checks => ?_, behind⟩
    cases checks
    exact here
  · exact (mouldAgrees_iff _).mpr ⟨put, fun r e => (runs r e).congr rfl clearing fun checked k checks mounted =>
      checked k checks ((slots _).mp mounted), behind⟩

theorem writeArrives_agrees (w : WordAddr) (be : Enables) (d : Word) {s : State} (h : mouldAgrees s) :
    mouldAgrees (writeArrives w be d s) := by
  unfold writeArrives
  split
  · next k _ => exact (h.within (noteDrop_within k _ s)).report _ _
  · next free =>
    have written : mouldAgrees (s.withMem (s.mem.writeWord w be d)) := h.same rfl rfl rfl rfl rfl
    unfold copyWrite
    split
    · exact cdWrite_agrees _ _ _ written
    · exact written.evidence (ringWrite_within _ _ _ _ _) (ringWrite_evidence _ _ _ _)
    · next n _ place =>
      refine slotTouched_agrees written ?_
      rw [place] at free
      have unprotected : s.tu.directory[n].protection = none := free
      by_contra busy
      rw [DirEntry.protection, if_pos (by simpa using busy)] at unprotected
      cases unprotected
    all_goals exact written

theorem performWord_agrees {s : State} (h : mouldAgrees s) : mouldAgrees (performWord s) := by
  obtain ⟨-, e⟩ | ⟨r, rest, -, -, e⟩ | ⟨r, rest, d, ds, -, -, e⟩ := performWord_cases s
  · rw [e]; exact h
  · rw [e]; exact h.same rfl rfl rfl rfl rfl
  · rw [e]
    have performed : mouldAgrees (wordPerformed r d ds rest s) := h.same rfl rfl rfl rfl rfl
    refine .ite ?_ performed
    unfold recordCompletes
    split
    · exact .ite ((imageComplete_agrees _ performed).reportTask _ _ _) performed
    all_goals exact performed

/-! ### Steps -/

theorem reset_slots : ∀ n : Fin 12, TaskUnit.reset.directory[n].state = .unchecked := by decide

theorem mouldAgrees_kept : KeptByParts mouldAgrees where
  assertReset _ := mouldAgrees_of_empty rfl reset_slots rfl rfl
  released _ _ _ h := h.same rfl rfl rfl rfl rfl
  withHolds _ _ _ h := h.same rfl rfl rfl rfl rfl
  withPins _ _ h := h.same rfl rfl rfl rfl rfl
  writeArrives w be d _ _ h := writeArrives_agrees w be d h
  readArrives _ _ _ h := h.same rfl rfl rfl rfl rfl
  performWord h := performWord_agrees h
  askRecords h := h.askRecords 16
  postDirty h := h.within (postDirty_within _)
  serveRead r s h := (taskData_agrees _ (s := s.withPu { s.pu with taskRead := none }) (h.same rfl rfl rfl rfl rfl)).reportTask
    _ _ _
  promoteRead _ _ h := h.same rfl rfl rfl rfl rfl
  timeoutBlock r _ h := h.evidence (timeoutBlock_within r _) (timeoutBlock_evidence r)
  staleRing r _ h := h.evidence (staleRing_within r _) (staleRing_evidence r)
  endPulse h := h.evidence (endPulse_within _) fun k => by
    unfold endPulse
    split
    · exact .ite ⟨k.unmounted, k.mounted⟩ k
    · exact k
  takeBlock h := h.evidence (takeBlock_within _) takeBlock_evidence
  processSample w _ h := h.evidence (processSample_within w _) (processSample_evidence w)

/-- Settles O6: the agreement of the mould, its slot and the tasks is kept by every kind of effect that a row can have. -/
theorem stepKeepsTheMountedMould : Obligations.StepKeepsTheMountedMould := by
  intro s t h e
  refine mouldAgrees_kept.step (fun _ _ h => ?_) (fun _ _ h => ?_) h e
  all_goals exact h.same rfl rfl rfl rfl rfl

end Sys2Proof.Machine
end

section
/-! One cavity at a close, and the two output lines. -/

namespace Sys2Proof.Machine

/-! ### A cavity's figures (R102) -/

theorem flag_zero_eq (p : Prop) [Decidable p] : flag 0 (decide p) = if p then 1 else 0 := by
  by_cases h : p
  · rw [decide_eq_true h, if_pos h]
    rfl
  · rw [decide_eq_false h, if_neg h]
    rfl

/-- Steps 1 to 5 of R102, the hot count that of the new history. -/
theorem foldTally_eq (p : EvidenceParams) (n : CavityTally) {r : CavityRecord} (h : hotMatches r) :
    let history := (r.history <<< 1) ||| (if p.evmin ≤ n.count then 1 else 0)
    foldTally p n r =
      { verdict := r.verdict, history := history, hot := hotCount history
        totalEnergy := min (r.totalEnergy + n.energy) (2 ^ 48 - 1)
        suspectEnergy := if r.verdict = .suspect then min (r.suspectEnergy + n.energy) (2 ^ 48 - 1) else r.suspectEnergy
        lifetime := min (r.lifetime + n.count) (2 ^ 32 - 1), lastCycle := n.count } := by
  intro history
  have new : (foldTally p n r).history = history := congrArg ((r.history <<< 1) ||| ·) (flag_zero_eq _)
  have hot : (foldTally p n r).hot = hotCount history := new ▸ foldTally_hot p n h
  simp only [foldTally, satAdd_eq_min] at new hot ⊢
  rw [new, hot]
  rfl

/-- The rung a cavity stands on after a close, and its suspect energy, by the first step of R103 that holds. -/
def ladder (p : EvidenceParams) (r : CavityRecord) : Verdict × Nat :=
  match r.verdict with
  | .sound => if p.watchOn ≤ r.hot then (.watch, r.suspectEnergy) else (.sound, r.suspectEnergy)
  | .watch =>
    if p.suspectOn ≤ r.hot then (.suspect, 0)
    else if r.hot ≤ p.watchOff then (.sound, r.suspectEnergy) else (.watch, r.suspectEnergy)
  | .suspect =>
    if p.crackOn ≤ r.hot ∧ p.eCrack ≤ r.suspectEnergy then (.cracked, r.suspectEnergy)
    else if r.hot ≤ p.suspectOff then (.watch, 0) else (.suspect, r.suspectEnergy)
  | .cracked => (.cracked, r.suspectEnergy)

theorem stepVerdict_eq (p : EvidenceParams) (r : CavityRecord) :
    stepVerdict p r = { r with verdict := (ladder p r).1, suspectEnergy := (ladder p r).2 } := by
  obtain ⟨v, history, hot, total, energy, life, last⟩ := r
  unfold stepVerdict ladder
  cases v with
  | sound => dsimp only; split_ifs <;> rfl
  | watch => dsimp only; split_ifs <;> rfl
  | suspect => dsimp only; split_ifs <;> rfl
  | cracked => rfl

/-- Settles O58: the figures are folded in first, and the cavity then takes at most one step on the ladder. -/
theorem cavityStepsTheLadder : Obligations.CavityStepsTheLadder := by
  intro p n r h
  rw [closeCavity, foldTally_eq p n h, stepVerdict_eq]
  exact rfl

/-! ### ATTN and ALARM (R108, R109, R160) -/

/-- A mask and a byte meet in some bit. -/
theorem and_ne_zero_iff (a b : Byte) : (a &&& b != 0) = true ↔ ∃ i, i < 8 ∧ a.getLsbD i = true ∧ b.getLsbD i = true := by
  rw [bne_iff_ne]
  constructor
  · intro some
    by_contra none
    refine some (BitVec.eq_of_getLsbD_eq fun i hi => ?_)
    rw [BitVec.getLsbD_and]
    exact (Bool.eq_false_iff.mpr fun both => none ⟨i, hi, Bool.and_eq_true_iff.mp both⟩).trans BitVec.getLsbD_zero.symm
  · rintro ⟨i, -, ha, hb⟩ zero
    have bit := congrArg (·.getLsbD i) zero
    simp [ha, hb] at bit

theorem attn_iff (s : State) : attn s = true ↔ s.ru.masterEnable = true ∧
    ∃ i, i < 8 ∧ s.ru.causes.getLsbD i = true ∧ s.ru.enables.getLsbD i = true := by
  rw [attn, Bool.and_eq_true, and_ne_zero_iff]

theorem anyCracked_iff (m : Mould) : m.anyCracked = true ↔ ∃ r ∈ m.cavities, r.verdict = .cracked := by
  simp [Mould.anyCracked]

theorem alarm_off {s : State} (mode : s.ru.alarmMode = .off) : alarm s = false := by rw [alarm, mode]

theorem alarm_level {s : State} (mode : s.ru.alarmMode = .level) : alarm s = true ↔
    (s.eu.state = .running ∨ s.eu.state = .held) ∧ ∃ m, s.eu.mould = some m ∧ ∃ r ∈ m.cavities, r.verdict = .cracked := by
  rw [alarm, mode]
  show (s.eu.state.live && (s.eu.mould.map Mould.anyCracked).getD false) = true ↔ _
  rw [Bool.and_eq_true, live_iff]
  refine and_congr_right fun _ => ?_
  cases s.eu.mould with
  | none => simp
  | some m => simp [anyCracked_iff]

theorem alarm_pulse {s : State} (mode : s.ru.alarmMode = .pulseCrack ∨ s.ru.alarmMode = .pulseSuspect) :
    alarm s = true ↔ s.eu.pulse ≠ none := by
  have pulse : alarm s = s.eu.pulse.isSome := by
    obtain mode | mode := mode <;> rw [alarm, mode]
  rw [pulse, Option.isSome_iff_ne_none]

/-- Settles O59. -/
theorem linesFollowTheState : Obligations.LinesFollowTheState :=
  fun s => ⟨attn_iff s, alarm_off, alarm_level, alarm_pulse⟩

end Sys2Proof.Machine
end

section
/-! CLEAR CAVITY and CLEAR MOULD: the records cleared, and the verdict words handed over and shown. -/

namespace Sys2Proof.Machine

/-! ### The row of a command that posts verdict words -/

/-- The row of a taken command is one round of reports, where nothing follows it. -/
theorem commandRow_reported {c : Command} {s u : State} {o : FrameOutcome} {posting : Posting} (p : Pins) (h : writesFreely s)
    (t : taken c s) (e : own c (closed (s.withPins p)) = { outcome := o, state := u, posting := posting })
    (reset : c ≠ .resetPart) (layout : c ≠ .defineLayout) (ho : o ≠ .invalidSequence) :
    commandRow c p s = report posting (closed (s.withPins p)) (withOutcome c o u) := by
  have outcome : recordOutcome c.code o (setDecoder .ready u) = withOutcome c o u :=
    answered_of (a := { outcome := o, state := u }) ho rfl rfl
  have reported : answerReport c (own c (closed (s.withPins p))) (closed (s.withPins p)) =
      report posting (closed (s.withPins p)) (withOutcome c o u) := by
    rw [e, answerReport, if_neg fun k => layout k.1, outcome]
  rw [commandRow_taken p h t, takeCommand, if_neg reset, reported, e]
  rfl

/-- The verdict words that a taken command has RU post are shown. -/
theorem row_shows_verdict {c : Command} {s u : State} {cs : List (Fin 48)} {i : Fin 48} (h : writesFreely s) (t : taken c s)
    (e : own c (closed s) = { outcome := .done, state := u, posting := { verdicts := cs } }) (mem : i ∈ cs)
    (whole : wholeCopies (.verdict i) u) (reset : c ≠ .resetPart := by simp) (layout : c ≠ .defineLayout := by simp) :
    Shown (.verdict i) (commandRow c s.pins s) := by
  rw [commandRow_reported s.pins h t e reset layout (by decide)]
  exact (report_verdict _ mem (wholeCopies.congr (t := withOutcome c .done u) whole rfl)).2

/-! ### What they clear (R106, R107) -/

theorem verdictWord_cleared (r : CavityRecord) : verdictWord (some r.cleared) = 0 := by
  simp [verdictWord, CavityRecord.cleared, Verdict.code, field_zero]

/-- Cavity i, counted from 0, with the record r has been cleared, and its word handed over. -/
def cavityCleared (m : Mould) (i : Fin 48) (r : CavityRecord) (s : State) : State :=
  { s with
    eu := { s.eu with mould := some { m with cavities := m.cavities.set i r.cleared } }
    ru := { s.ru with verdictWords := s.ru.verdictWords.set i 0 } }

/-- Every cavity has been cleared, and the words up to the count handed over (log 37). -/
def mouldCleared (m : Mould) (s : State) : State :=
  { s with
    eu := { s.eu with mould := some m.clearAll }
    ru := { s.ru with
      verdictWords := Vector.ofFn fun i : Fin 48 => if i.val < m.header.count then 0 else s.ru.verdictWords[i] } }

theorem handVerdicts_cleared {m : Mould} {i : Fin 48} {r : CavityRecord} (at_i : m.cavities[i.val]? = some r) (s : State) :
    handVerdicts [i] (withMould (some (m.clearCavity i)) s) = cavityCleared m i r s := by
  obtain ⟨within, -⟩ := List.getElem?_eq_some_iff.mp at_i
  have set : m.cavities.modify i CavityRecord.cleared = m.cavities.set i r.cleared := by
    rw [List.modify_eq_set_getElem?, at_i]
    rfl
  have word : verdictWord (m.cavities.set i r.cleared)[i.val]? = 0 := by
    rw [List.getElem?_set_self within, verdictWord_cleared]
  have held : m.clearCavity i = { m with cavities := m.cavities.set i r.cleared } := by rw [Mould.clearCavity, set]
  rw [held, cavityCleared, ← word]
  rfl

theorem handVerdicts_clearAll {m : Mould} (whole : m.cavities.length = m.header.count) (s : State) :
    handVerdicts (cavitiesOf m) (withMould (some m.clearAll) s) = mouldCleared m s := by
  have chosen := setChosen_eq (fun c => decide (c.val < m.header.count))
    (fun c => verdictWord m.clearAll.cavities[c.val]?) s.ru.verdictWords
  have words : (fun i : Fin 48 => if decide (i.val < m.header.count) then verdictWord m.clearAll.cavities[i.val]?
      else s.ru.verdictWords[i]) = fun i : Fin 48 => if i.val < m.header.count then 0 else s.ru.verdictWords[i] := by
    funext i
    by_cases within : i.val < m.header.count
    · have cleared : m.clearAll.cavities[i.val]? = some (m.cavities[i.val]'(whole ▸ within)).cleared := by
        simp [Mould.clearAll, whole, within]
      rw [if_pos (decide_eq_true within), if_pos within, cleared, verdictWord_cleared]
    · rw [if_neg (by simpa using within), if_neg within]
  rw [words] at chosen
  rw [mouldCleared, ← chosen]
  rfl

/-! ### The owners -/

theorem own_clearCavity_unmounted {s : State} (idle : s.eu.state = .empty ∨ s.eu.state = .changing) :
    own .clearCavity s = refuse .refusedState s := by
  show ownClearCavity s = _
  rw [ownClearCavity, liveMould_none idle]

theorem own_clearMould_unmounted {s : State} (idle : s.eu.state = .empty ∨ s.eu.state = .changing) :
    own .clearMould s = refuse .refusedState s := by
  show ownClearMould s = _
  rw [ownClearMould, liveMould_none idle]

theorem own_clearCavity_beyond {s : State} {m : Mould} (live : liveMould s = some m)
    (h : (param1 s).toNat = 0 ∨ m.header.count < (param1 s).toNat) : own .clearCavity s = refuse .refusedParam s := by
  show ownClearCavity s = _
  rw [ownClearCavity, live]
  exact if_pos (h.imp_left fun zero => by omega)

theorem own_clearCavity_clears {s : State} {m : Mould} {i : Fin 48} {r : CavityRecord} (live : liveMould s = some m)
    (cavity : (param1 s).toNat = i.val + 1) (within : i.val < m.header.count) (at_i : m.cavities[i.val]? = some r) :
    own .clearCavity s = { outcome := .done, state := cavityCleared m i r s, posting := { verdicts := [i] } } := by
  have number : (param1 s).toNat - 1 = i.val := by omega
  show ownClearCavity s = _
  rw [ownClearCavity, live]
  dsimp only
  rw [if_neg (by omega), number, fin_of_val rfl, handVerdicts_cleared at_i]
  rfl

theorem own_clearMould_clears {s : State} {m : Mould} (live : liveMould s = some m)
    (whole : m.cavities.length = m.header.count) :
    own .clearMould s = { outcome := .done, state := mouldCleared m s, posting := { verdicts := cavitiesOf m } } := by
  show ownClearMould s = _
  rw [ownClearMould, live]
  dsimp only
  rw [handVerdicts_clearAll whole]
  rfl

theorem mem_cavitiesOf {m : Mould} {i : Fin 48} (h : i.val < m.header.count) : i ∈ cavitiesOf m :=
  List.mem_filter.mpr ⟨mem_allCavities i, decide_eq_true h⟩

/-- Settles O34. -/
theorem clearingEvidence : Obligations.ClearingEvidence := by
  intro s m free cleared mounted
  have live (state : s.eu.state = .running ∨ s.eu.state = .held) (mould : s.eu.mould = some m) :
      liveMould (closed s) = some m := liveMould_of_live (s := closed s) state mould
  refine ⟨fun t => ⟨_, rfl, fun idle => ?_, ?_, ?_⟩, fun t => ⟨_, rfl, fun idle => ?_, ?_⟩⟩
  · exact row_refused s.pins free t (own_clearCavity_unmounted (s := closed s) idle)
  · rintro ⟨state, mould, -⟩ beyond
    exact row_refused s.pins free t (own_clearCavity_beyond (s := closed s) (live state mould) beyond)
  · rintro ⟨state, mould, whole, -⟩ i r cavity at_i
    have within : i.val < m.header.count := whole ▸ (List.getElem?_eq_some_iff.mp at_i).1
    have clears := own_clearCavity_clears (s := closed s) (live state mould) cavity within at_i
    exact ⟨row_done s.pins free t clears,
      fun copies => row_shows_verdict free t clears (List.mem_singleton_self i) (copies.congr rfl)⟩
  · exact row_refused s.pins free t (own_clearMould_unmounted (s := closed s) idle)
  · rintro ⟨state, mould, whole, -⟩
    have clears := own_clearMould_clears (s := closed s) (live state mould) whole
    exact ⟨row_done s.pins free t clears,
      fun i within copies => row_shows_verdict free t clears (mem_cavitiesOf within) (copies.congr rfl)⟩

end Sys2Proof.Machine
end

section
/-! The words of the counter record and the verdict words, and a close of the oldest cycle as one update of the state. -/

namespace Sys2Proof.Machine

/-! ### The counter record and the verdict words (R153) -/

/-- Every field of the counter record at its bits. -/
theorem spellsCounters (s : State) (f : FreeBits) : SpellsCounters s (recordWords f s .counter) where
  length := rfl
  values n := by fin_cases n <;> rfl
  selects n := by
    fin_cases n
    all_goals
      show bits (selectWord _ _) _ 4 = _
      simp (disch := omega) [selectWord, bits_or, bits_field_apart]
  masks n := by
    fin_cases n
    all_goals
      show bits (selectWord _ _) _ 12 = _
      simp (disch := omega) [selectWord, bits_or, bits_field_apart]
  newest n h := by
    show bits (cycleWord f s) 0 16 = _
    simp (disch := omega) [cycleWord, bits_or, bits_field_apart, bits_flag_apart, h]
  noNewest := by
    show bit (cycleWord f s) 19 = _
    simp (disch := omega) [cycleWord]
  depth l := by
    show bits (cycleWord f s) 16 3 = _
    have fits : s.eu.cycles.length < 2 ^ 3 := by omega
    simp (disch := omega) [cycleWord, bits_or, bits_field_apart, bits_flag_apart]
  time := rfl

theorem spellsVerdict (r : CavityRecord) : SpellsVerdict r (verdictWord (some r)) where
  verdict := by
    show bits (verdictWord (some r)) 0 2 = r.verdict.code
    have fits := r.verdict.code_lt
    simp (disch := omega) [verdictWord, bits_or, bits_field_apart]
  hot fits := by simp (disch := omega) [verdictWord, bits_or, bits_field_apart]
  lastCycle fits := by simp (disch := omega) [verdictWord, bits_or, bits_field_apart]
  withinCount := by
    show bit (verdictWord (some r)) 31 = false
    simp (disch := omega) [verdictWord]

/-! ### What a close changes (R102 to R104, R109) -/

/-- The cavities after the close of the entry e. -/
def closedCavities (e : CycleEntry) (m : Mould) (s : State) : List CavityRecord :=
  List.zipWith (closeCavity (profileInUse s).evidence) e.tallies.toList m.cavities

/-- Some cavity enters the verdict, from one list of records to the next. -/
def entersFrom (old new : List CavityRecord) (v : Verdict) : Bool :=
  (old.zip new).any fun x => x.1.verdict != v && x.2.verdict == v

theorem someEnters_eq (v : Verdict) (old new : Mould) : someEnters v old new = entersFrom old.cavities new.cavities v := by
  unfold someEnters entersFrom
  rw [← List.map_uncurry_zip_eq_zipWith, List.any_map]
  congr 1
  funext ⟨a, b⟩
  show (a.verdict != b.verdict && b.verdict == v) = (a.verdict != v && b.verdict == v)
  by_cases h : b.verdict = v
  · rw [h]
  · rw [beq_eq_false_iff_ne.mpr h, Bool.and_false, Bool.and_false]

/-- The alarm mode has the close start a pulse. -/
theorem startsPulse_iff (mode : AlarmMode) (old new : Mould) : startsPulse mode old new = true ↔
    (mode = .pulseCrack ∧ entersFrom old.cavities new.cavities .cracked = true) ∨
    (mode = .pulseSuspect ∧ (entersFrom old.cavities new.cavities .suspect = true ∨
      entersFrom old.cavities new.cavities .cracked = true)) := by
  cases mode <;> simp [startsPulse, someEnters_eq]

theorem raiseIf_eq (b : Bool) (c : Cause) (s : State) :
    raiseIf b c s = { s with ru := { s.ru with causes := s.ru.causes ||| if b then 1#8 <<< c.bitNo else 0 } } := by
  cases b with
  | false =>
    have same : s.ru.causes ||| 0 = s.ru.causes := BitVec.or_zero
    show s = _
    simp only [Bool.false_eq_true, if_false, same]
  | true => rfl

/-- The oldest entry e closed in s, with all that the close reports applied. -/
def cycleClosed (forced : Bool) (e : CycleEntry) (rest : List CycleEntry) (m : Mould) (s : State) : State :=
  let after := closedCavities e m s
  let enters := entersFrom m.cavities after
  counted (.cycleClosed :: if forced then [.cycleForced] else []) { s with
    eu := { s.eu with
      mould := some
        { header := { m.header with observed := min (m.header.observed + 1) (2 ^ 32 - 1), lastClosed := e.cycle }
          cavities := after }
      cycles := rest
      pulse := if (s.ru.alarmMode = .pulseCrack ∧ enters .cracked = true) ∨
          (s.ru.alarmMode = .pulseSuspect ∧ (enters .suspect = true ∨ enters .cracked = true))
        then some s.localTime else s.eu.pulse }
    ru := { s.ru with
      causes := s.ru.causes ||| 0x80 ||| (if enters .suspect then 0x02 else 0) ||| (if enters .cracked then 0x01 else 0)
      verdictWords := Vector.ofFn fun i : Fin 48 =>
        if verdictWordChanged m (closeMould (profileInUse s).evidence e m) i then verdictWord after[i.val]?
        else s.ru.verdictWords[i] } }

theorem closeMould_eq (p : EvidenceParams) (e : CycleEntry) (m : Mould) : closeMould p e m =
    { header := { m.header with observed := min (m.header.observed + 1) (2 ^ 32 - 1), lastClosed := e.cycle }
      cavities := List.zipWith (closeCavity p) e.tallies.toList m.cavities } := by
  rw [closeMould, satAdd_eq_min]
  rfl

/-- The verdict words that a close hands over, among the words as they stood. -/
theorem handVerdicts_changed {t : State} {m m' : Mould} (mould : t.eu.mould = some m') :
    handVerdicts (changedCavities m m') t = { t with
      ru := { t.ru with
        verdictWords := Vector.ofFn fun i : Fin 48 =>
          if verdictWordChanged m m' i then verdictWord m'.cavities[i.val]? else t.ru.verdictWords[i] } } := by
  unfold handVerdicts changedCavities
  simp only [mould]
  rw [setChosen_eq _ fun i => verdictWord m'.cavities[i.val]?]
  rfl

section
variable {s : State} {e : CycleEntry} {rest : List CycleEntry} {m : Mould}

theorem closeEffect_eq (cycles : s.eu.cycles = e :: rest) (mould : s.eu.mould = some m) (forced : Bool) :
    closeEffect forced s = cycleClosed forced e rest m s := by
  have pulse : (if startsPulse s.ru.alarmMode m (closeMould (profileInUse s).evidence e m) = true then some s.localTime
      else s.eu.pulse) = _ := if_congr (startsPulse_iff _ _ _) rfl rfl
  have counts (u : State) : countIf forced .cycleForced (countOccurrence .cycleClosed u) =
      counted (.cycleClosed :: if forced then [.cycleForced] else []) u := by
    rw [countIf_eq_counted, ← counted_cons]
  unfold closeEffect
  simp only [cycles, mould, counts, raiseIf_eq, someEnters_eq, applyClose, pulse]
  refine (handVerdicts_changed rfl).trans ?_
  unfold cycleClosed
  rw [closeMould_eq]
  rfl

theorem closePosting_eq (cycles : s.eu.cycles = e :: rest) (mould : s.eu.mould = some m) : closePosting s =
    { counter := true, verdicts := changedCavities m (closeMould (profileInUse s).evidence e m) } := by
  unfold closePosting
  simp only [cycles, mould]

/-- A round of reports of the close of e that takes the state u to v: the counter record is shown, and each verdict word
that the close changes. -/
structure ClosePosted (e : CycleEntry) (m : Mould) (s u v : State) : Prop where
  posted : PostedFrom u v
  counter : Shown .counter v
  verdicts : ∀ i : Fin 48, verdictWordChanged m (closeMould (profileInUse s).evidence e m) i = true → Shown (.verdict i) v

theorem report_close (cycles : s.eu.cycles = e :: rest) (mould : s.eu.mould = some m) {u : State}
    (counter : wholeCopies .counter u) (verdicts : ∀ i : Fin 48, wholeCopies (.verdict i) u) :
    ClosePosted e m s u (report (closePosting s) s u) where
  posted := report_posted _ _ _ (closePosting_log s)
  counter := (report_counter s (by rw [closePosting_eq cycles mould]) counter).2
  verdicts i changed := by
    have posts : i ∈ (closePosting s).verdicts := by
      rw [closePosting_eq cycles mould]
      exact List.mem_filter.mpr ⟨mem_allCavities i, changed⟩
    exact (report_verdict s posts (verdicts i)).2

end

/-! ### The creation of an entry (R97 to R99) -/

/-- The entry for a block of the cycle c at the tail of u; it is a gap entry by the newest number before. -/
def entryCreated (newest : Option Half) (c : Half) (start : Time) (u : State) : State :=
  counted (match newest with
      | some n => if c = n + 1 then [] else [.cycleGap]
      | none => []) { u with
    eu := { u.eu with
      newest := some c
      cycles := u.eu.cycles ++
        [{ cycle := c, start := start, tallies := Vector.replicate 48 { count := 0, energy := 0 } }] } }

theorem createEntry_eq (c : Half) (start : Time) (u : State) : createEntry c start u = entryCreated u.eu.newest c start u := by
  unfold createEntry entryCreated
  rw [countIf_eq_counted]
  cases u.eu.newest with
  | none => rfl
  | some n => by_cases next : c = n + 1 <;> simp [isGap, next, State.withEu, emptyEntry]

/-- An entry opened with less than four open. -/
theorem openCycle_roomy {s : State} (roomy : s.eu.cycles.length < 4) (c : Half) (start : Time) :
    PostedFrom (entryCreated s.eu.newest c start s) (openCycle c start s) := by
  have opened : openCycle c start s = report {} s (createEntry c start s) := if_pos roomy
  rw [opened, createEntry_eq]
  exact report_posted {} _ _ rfl

/-- An entry opened with four open: the oldest is closed as forced. -/
theorem openCycle_full {s : State} {e : CycleEntry} {rest : List CycleEntry} {m : Mould} (cycles : s.eu.cycles = e :: rest)
    (mould : s.eu.mould = some m) (full : s.eu.cycles.length = 4) (counter : wholeCopies .counter s)
    (verdicts : ∀ i : Fin 48, wholeCopies (.verdict i) s) (c : Half) (start : Time) :
    ClosePosted e m s (entryCreated s.eu.newest c start (cycleClosed true e rest m s)) (openCycle c start s) := by
  have opened : openCycle c start s = report (closePosting s) s (createEntry c start (closeEffect true s)) :=
    if_neg (full ▸ Nat.lt_irrefl 4)
  have same : (cycleClosed true e rest m s).eu.newest = s.eu.newest := rfl
  rw [opened, createEntry_eq, closeEffect_eq cycles mould, same]
  exact report_close cycles mould (counter.congr (t := entryCreated s.eu.newest c start (cycleClosed true e rest m s)) rfl)
    fun i => (verdicts i).congr (t := entryCreated s.eu.newest c start (cycleClosed true e rest m s)) rfl

/-- Settles O57: a close is one update of the state and a round of reports, and so is the creation of an entry. -/
theorem cyclesClose : Obligations.CyclesClose := by
  refine ⟨spellsCounters, rfl, spellsVerdict, fun s => ⟨fun due => ?_, fun rests => ?_, fun c start => ⟨?_, ?_⟩, ?_⟩⟩
  · exact testClose_ready ((closeReady_iff s).mpr due)
  · exact testClose_rest (Bool.eq_false_iff.mpr (mt (closeReady_iff s).mp rests))
  · exact fun shut => blockBegun_rest shut start
  · exact fun opens roomy => ⟨_, openCycle_roomy roomy c start, blockBegun_opens opens start⟩
  · intro e rest m cycles mould _ counter verdicts
    have close : ClosePosted e m s (cycleClosed false e rest m s) (closeOldest s) := by
      rw [closeOldest, closeEffect_eq cycles mould]
      exact report_close cycles mould (counter.congr (t := cycleClosed false e rest m s) rfl)
        fun i => (verdicts i).congr (t := cycleClosed false e rest m s) rfl
    refine ⟨⟨close.posted, close.counter, close.verdicts⟩, fun c start opens full => ?_⟩
    have opened := openCycle_full cycles mould full counter verdicts c start
    exact ⟨_, ⟨opened.posted, opened.counter, opened.verdicts⟩, blockBegun_opens opens start⟩

end Sys2Proof.Machine
end

section
/-! LOAD: its checks as statements about numbers, and the beginning of its reads. -/

namespace Sys2Proof.Machine

/-! ### The checks of LOAD (R121) -/

/-- The kind that a parameter names, where it names one. -/
def namedKind (w : Word) : LoadKind := if w.toNat ≤ 3 then .profile (Fin.ofNat 4 w.toNat) else .zones

theorem loadKindOf_eq (w : Word) : loadKindOf w = if w.toNat ≤ 3 ∨ w.toNat = 0xFF then some (namedKind w) else none := by
  unfold loadKindOf namedKind
  by_cases profile : w.toNat ≤ 3
  · rw [if_pos (by omega), if_pos (.inl profile), if_pos profile]
  · rw [if_neg (by omega), if_neg profile]
    exact if_congr (by omega) rfl rfl

theorem tableFits_namedKind (w source : Word) :
    tableFits (namedKind w) source = true ↔ (w.toNat ≤ 3 → source.toNat + 0x7F ≤ 0xFFFFFF) := by
  unfold namedKind
  split <;> simp [tableFits, *]

theorem wordAligned_iff (w : Word) : bits w 0 2 = 0 ↔ w.toNat % 4 = 0 := by
  rw [bits_low]
  rfl

/-- The kind and the source that the parameters name pass LOAD's own checks. -/
structure LoadFits (s : State) : Prop where
  kind : (param1 s).toNat ≤ 3 ∨ (param1 s).toNat = 0xFF
  inMemory : (param2 s).toNat < 2 ^ 24
  aligned : (param2 s).toNat % 4 = 0
  table : (param1 s).toNat ≤ 3 → (param2 s).toNat + 0x7F ≤ 0xFFFFFF

theorem own_load_admitted {s : State} (h : LoadFits s) :
    own .load s = admitAnswer (.load (namedKind (param1 s)) (addressOf (param2 s))) s := by
  have source : ¬ (addressFits (param2 s) = false ∨ bits (param2 s) 0 2 ≠ 0) := by
    rw [(addressFits_iff _).mpr h.inMemory, (wordAligned_iff _).mpr h.aligned]
    decide
  have table : ¬ tableFits (namedKind (param1 s)) (param2 s) = false := by
    rw [(tableFits_namedKind _ _).mpr h.table]
    decide
  show ownLoad s = _
  rw [ownLoad, loadKindOf_eq, if_pos h.kind]
  dsimp only
  rw [if_neg source, if_neg table]

theorem own_load_refused {s : State} (h : ¬ LoadFits s) : own .load s = refuse .refusedParam s := by
  show ownLoad s = _
  rw [ownLoad, loadKindOf_eq]
  by_cases kind : (param1 s).toNat ≤ 3 ∨ (param1 s).toNat = 0xFF
  · rw [if_pos kind]
    dsimp only
    split
    · rfl
    next source =>
      obtain ⟨inMemory, aligned⟩ := not_or.mp source
      refine if_pos (Bool.eq_false_iff.mpr fun table => h ⟨kind, ?_, ?_, (tableFits_namedKind _ _).mp table⟩)
      · exact (addressFits_iff _).mp (Bool.eq_true_of_not_eq_false inMemory)
      · exact (wordAligned_iff _).mp (not_not.mp aligned)
  · rw [if_neg kind]

/-! ### The beginning of a LOAD (R122) -/

/-- With no task running TU empties its staging and presents the first word of the table. -/
theorem own_load_starts {s : State} (h : LoadFits s) (idle : s.tu.running = none) : own .load s =
    { outcome := .started
      state := { s with
        tu := { s.tu with
          staging := []
          running := some
            { task := .load (namedKind (param1 s)) (BitVec.ofNat 24 (param2 s).toNat), phase := .reading } }
        pu := readPresented (BitVec.ofNat 22 ((param2 s).toNat / 4)) s }
      follow := .profile } := by
  rw [own_load_admitted h, admitAnswer, admitTask_now (by nofun) idle, beginTask, beginLoad,
    addressOf_toNat h.inMemory, addressOf_eq]
  rfl

/-- Settles O28. -/
theorem loadStarts : Obligations.LoadStarts := by
  intro s free t kindOk sourceOk
  refine ⟨_, rfl, fun bad => ?_, fun kind ⟨inMemory, aligned, table⟩ idle => ?_⟩
  · refine row_refused s.pins free t (own_load_refused (s := closed s) fun fits => ?_)
    exact bad.elim (· fits.kind) (· ⟨fits.inMemory, fits.aligned, fits.table⟩)
  · exact (row_task s.pins free t (own_load_starts (s := closed s) ⟨kind, inMemory, aligned, table⟩ idle)).2 rfl

end Sys2Proof.Machine
end

section
/-! How tables and slots are judged: each check of TU as a statement about the numbers in the words, and the bands of a zone map
table at their places. -/

namespace Sys2Proof.Machine

/-! ### Profile tables (R116, R117) -/

theorem profileTableOk_iff (ws : List Word) :
    let n := numberAt ws
    profileTableOk ws = true ↔ wordAt ws 0 = 0x50460020 ∧ (n 1 = 0 ∨ n 1 = 1) ∧
      1 ≤ n 15 ∧ n 15 ≤ n 17 ∧ n 17 ≤ n 19 ∧ n 19 ≤ 32 ∧ n 16 < n 15 ∧ n 18 < n 17 ∧ n 16 ≤ n 18 := by
  simp only [profileTableOk, Bool.and_eq_true, beq_iff_eq, decide_eq_true_eq, and_assoc, Nat.le_one_iff_eq_zero_or_eq_one]

theorem bits_upper (w : Word) : bits w 16 16 = w.toNat / 2 ^ 16 := by
  have := w.isLt
  unfold bits
  omega

theorem bits_upper_eq_zero_iff (w : Word) : bits w 16 16 = 0 ↔ w.toNat < 2 ^ 16 := by
  rw [bits_upper]
  omega

theorem eCrackOf_eq (ws : List Word) : eCrackOf ws =
    if numberAt ws 21 < 2 ^ 16 then numberAt ws 20 + 2 ^ 32 * numberAt ws 21 else 2 ^ 48 - 1 := by
  unfold eCrackOf numberAt
  by_cases small : (wordAt ws 21).toNat < 2 ^ 16
  · rw [if_pos ((bits_upper_eq_zero_iff _).mpr small), if_pos small, bits_low, Nat.mod_eq_of_lt small, Nat.mul_comm]
  · rw [if_neg (mt (bits_upper_eq_zero_iff _).mp small), if_neg small]
    rfl

/-- The phase mask is the low byte of its word. -/
theorem lane_wordAt (ws : List Word) (i : Nat) : lane (wordAt ws i) 0 = BitVec.ofNat 8 (numberAt ws i) := by
  refine BitVec.eq_of_toNat_eq ?_
  unfold lane numberAt
  rw [bits_low, BitVec.toNat_ofNat, BitVec.toNat_ofNat, Nat.mod_mod]

/-- A field brought into its range. -/
def clamped (lo hi v : Nat) : Nat := min (max lo v) hi

theorem clampTo_eq_clamped {lo hi : Nat} (h : lo ≤ hi) (v : Nat) : clampTo lo hi v = clamped lo hi v := clampTo_eq_min h v

/-- MINDUR, once clamped, is a lowest value that MAXDUR's range has. -/
theorem clamped_mindur_le (v : Nat) : clamped 1 15 v ≤ 4095 := by
  unfold clamped
  omega

theorem profileOfTable_eq (ws : List Word) :
    let n := numberAt ws
    profileOfTable ws =
      { extraction :=
          { mode := if n 1 = 0 then .fixed else .floating
            fixedThreshold := clamped 1 65535 (n 2), f := clamped 16 255 (n 3), m := clamped 0 65535 (n 4)
            k := clamped 4 12 (n 5), hdt := clamped 1 255 (n 6), hlt := clamped 0 1023 (n 7), mindur := clamped 1 15 (n 8)
            maxdur := clamped (clamped 1 15 (n 8)) 4095 (n 9) }
        event :=
          { w := clamped 10 5000 (n 10), risemax := clamped 0 4095 (n 11), peakmin := clamped 0 65535 (n 12)
            phaseMask := BitVec.ofNat 8 (n 13) }
        evidence :=
          { evmin := clamped 1 255 (n 14), watchOn := n 15, watchOff := n 16, suspectOn := n 17, suspectOff := n 18
            crackOn := n 19
            eCrack := if n 21 < 2 ^ 16 then n 20 + 2 ^ 32 * n 21 else 2 ^ 48 - 1 } } := by
  simp only [profileOfTable, eCrackOf_eq, lane_wordAt, clampTo_eq_clamped, clamped_mindur_le, Nat.reduceLeDiff]

/-- The clamped fields by word, with the values that are stored. -/
def clampedValues (ws : List Word) : List (Nat × Nat) :=
  (clampedFields ws).map fun x => (x.1, clampTo x.2.1 x.2.2 (numberAt ws x.1))

theorem clampedValues_eq (ws : List Word) :
    let n := numberAt ws
    clampedValues ws =
      [(2, clamped 1 65535 (n 2)), (3, clamped 16 255 (n 3)), (4, clamped 0 65535 (n 4)), (5, clamped 4 12 (n 5)),
       (6, clamped 1 255 (n 6)), (7, clamped 0 1023 (n 7)), (8, clamped 1 15 (n 8)),
       (9, clamped (clamped 1 15 (n 8)) 4095 (n 9)), (10, clamped 10 5000 (n 10)), (11, clamped 0 4095 (n 11)),
       (12, clamped 0 65535 (n 12)), (14, clamped 1 255 (n 14))] := by
  simp only [clampedValues, clampedFields, List.map_cons, List.map_nil, clampTo_eq_clamped, clamped_mindur_le,
    Nat.reduceLeDiff]

/-- A clamp is reported exactly when a stored value is not the table's, or E_CRACK is limited. -/
theorem tableClamped_iff (ws : List Word) : tableClamped ws = true ↔
    (∃ x ∈ clampedValues ws, x.2 ≠ numberAt ws x.1) ∨ 2 ^ 16 ≤ numberAt ws 21 := by
  have limited : bits (wordAt ws 21) 16 16 ≠ 0 ↔ 2 ^ 16 ≤ numberAt ws 21 := by
    rw [Ne, bits_upper_eq_zero_iff, Nat.not_lt]
    rfl
  simp only [tableClamped, clampedValues, Bool.or_eq_true, List.any_eq_true, bne_iff_ne, limited, List.mem_map,
    exists_exists_and_eq_and]

/-! ### Zone map tables (R119, R120) -/

theorem zoneHeaderOk_iff (source : Addr) (header : Word) :
    let count := header.toNat % 2 ^ 16
    zoneHeaderOk source header = true ↔ header.toNat / 2 ^ 16 ≠ 0 ∧ 1 ≤ count ∧ count ≤ 256 ∧
      source.toNat + 4 * (1 + 2 * count) - 1 ≤ 0xFFFFFF := by
  simp only [zoneHeaderOk, bits_upper, bits_low, Bool.and_eq_true, bne_iff_ne, decide_eq_true_eq, and_assoc]

theorem bandOf_eq (a b : Word) : bandOf a b =
    { first := Fin.ofNat 8 a.toNat, second := Fin.ofNat 8 (a.toNat / 2 ^ 4), cavity := a.toNat / 2 ^ 8 % 2 ^ 6
      low := b.toNat % 2 ^ 16, high := b.toNat / 2 ^ 16 } := by
  have channel (n : Nat) : Fin.ofNat 8 (n % 2 ^ 3) = Fin.ofNat 8 n := Fin.ext (Nat.mod_mod n 8)
  rw [bandOf, bits_low, bits_low, bits_upper, channel]
  unfold bits
  rw [channel]

/-- A band that stands behind another has a greater key, or the same key and higher bounds. -/
theorem bandFollows_iff (previous : Option Band) (b : Band) : bandFollows previous b = true ↔
    ∀ x, previous = some x → x.key ≤ b.key ∧ (x.key = b.key → x.high < b.low) := by
  cases previous with
  | none => exact ⟨fun _ => nofun, fun _ => rfl⟩
  | some p =>
    have follows : bandFollows (some p) b = true ↔ p.key < b.key ∨ b.key = p.key ∧ p.high < b.low := by
      simp only [bandFollows, Bool.or_eq_true, Bool.and_eq_true, beq_iff_eq, decide_eq_true_eq]
    rw [follows]
    constructor
    · rintro order x ⟨⟩
      omega
    · intro order
      have := order p rfl
      omega

theorem bandOk_iff (before : List Band) (b : Band) : bandOk before b = true ↔
    b.cavity ≤ 48 ∧ b.low ≤ b.high ∧ (b.first = b.second → b.low = 0 ∧ b.high = 0) ∧
      (∀ x, before.getLast? = some x → x.key ≤ b.key ∧ (x.key = b.key → x.high < b.low)) ∧
      (before.filter fun x => x.key == b.key).length < 8 := by
  simp only [bandOk, Bool.and_eq_true, decide_eq_true_eq, bandFollows_iff, and_assoc, Bool.not_eq_true', Bool.and_eq_false_imp,
    beq_iff_eq, Bool.not_eq_false']

/-! ### A zone map table word by word (R119) -/

theorem wordAt_tail (ws : List Word) (i : Nat) : wordAt ws.tail i = wordAt ws (i + 1) := by
  unfold wordAt
  rw [List.getElem?_tail]

/-- Two words make a band, and the bands stand in the order of the table. -/
theorem bandsOfWords_getElem? : ∀ (k : Nat) (ws : List Word), ws.length = 2 * k →
    (bandsOfWords ws).length = k ∧
      ∀ i < k, (bandsOfWords ws)[i]? = some (bandOf (wordAt ws (2 * i)) (wordAt ws (2 * i + 1)))
  | 0, [], _ => ⟨rfl, fun _ h => absurd h (Nat.not_lt_zero _)⟩
  | k + 1, a :: b :: ws, h => by
    obtain ⟨length, bands⟩ := bandsOfWords_getElem? k ws (by simp only [List.length_cons] at h; omega)
    refine ⟨congrArg (· + 1) length, fun i hi => ?_⟩
    cases i with
    | zero => rfl
    | succ i => exact bands i (Nat.lt_of_succ_lt_succ hi)

theorem zoneState_header (source : Addr) {ws : List Word} (h : ws.length = 1) :
    zoneState source ws = if zoneHeaderOk source (wordAt ws 0) then .reading else .bad := if_pos (by omega)

theorem zoneState_half (source : Addr) {ws : List Word} {k : Nat} (h : ws.length = 2 * k + 2) :
    zoneState source ws = .reading := (if_neg (by omega)).trans (if_pos (by omega))

/-- A word that completes band k has it judged behind the bands before it. -/
theorem zoneState_band (source : Addr) {ws : List Word} {k : Nat} {before : List Band} {b : Band}
    (h : ws.length = 2 * k + 3) (bands : bandsOfWords ws.tail = before ++ [b]) : zoneState source ws =
      if bandOk before b = false then .bad else if k + 1 = (wordAt ws 0).toNat % 2 ^ 16 then .good else .reading := by
  have last : ws.length = 1 + 2 * bits (wordAt ws 0) 0 16 ↔ k + 1 = (wordAt ws 0).toNat % 2 ^ 16 := by
    rw [bits_low]
    omega
  unfold zoneState
  dsimp only
  rw [if_neg (by omega), if_neg (by omega), bands, List.getLast?_concat, List.dropLast_concat]
  simp only [last, Bool.not_eq_true']

/-- The bands of a table whose words end with a band. -/
theorem bandsOfWords_concat {ws : List Word} {k : Nat} (h : ws.length = 2 * k + 3) :
    ∃ before b, bandsOfWords ws.tail = before ++ [b] ∧ before.length = k ∧
      (∀ i < k, before[i]? = some (bandOf (wordAt ws (1 + 2 * i)) (wordAt ws (2 + 2 * i)))) ∧
      b = bandOf (wordAt ws (1 + 2 * k)) (wordAt ws (2 + 2 * k)) := by
  obtain ⟨length, bands⟩ := bandsOfWords_getElem? (k + 1) ws.tail (by rw [List.length_tail]; omega)
  have nonempty : bandsOfWords ws.tail ≠ [] := List.ne_nil_of_length_eq_add_one length
  have split := List.dropLast_concat_getLast nonempty
  have before : (bandsOfWords ws.tail).dropLast.length = k := by rw [List.length_dropLast, length]; rfl
  have place (i : Nat) : bandOf (wordAt ws.tail (2 * i)) (wordAt ws.tail (2 * i + 1)) =
      bandOf (wordAt ws (1 + 2 * i)) (wordAt ws (2 + 2 * i)) := by
    rw [wordAt_tail, wordAt_tail, Nat.add_comm 1, Nat.add_comm 2]
  refine ⟨_, _, split.symm, before, fun i hi => ?_, ?_⟩
  · rw [← place, ← bands i (by omega), List.getElem?_dropLast, if_pos (by omega)]
  · rw [← place]
    refine Option.some.inj ?_
    rw [← bands k (by omega), ← List.getLast?_eq_some_getLast, List.getLast?_eq_getElem?, length]
    rfl

/-! ### Slots (R133) -/

theorem judgeSlot_eq (crc : Half) (ws : List Word) : judgeSlot crc ws =
    if crc.toNat ≠ (wordAt ws 255).toNat % 2 ^ 16 then .bad
    else if wordAt ws 1 ≠ 0x00004E43 ∧ wordAt ws 1 ≠ 0 then .bad
    else if wordAt ws 1 = 0 then .goodEmpty
    else if wordAt ws 0 = 0 ∨ (wordAt ws 2).toNat = 0 ∨ 48 < (wordAt ws 2).toNat then .bad
    else .goodOccupied (wordAt ws 0) (wordAt ws 2).toNat := by
  simp only [judgeSlot, occupiedMarker, ne_eq, crc_eq_lowerHalf_iff, Nat.lt_one_iff]

/-- Settles O39. -/
theorem tablesAndSlotsAreJudged : Obligations.TablesAndSlotsAreJudged := by
  refine ⟨fun ws => ⟨profileTableOk_iff ws, profileOfTable_eq ws, ?_⟩, zoneHeaderOk_iff, bandOf_eq, bandOk_iff,
    fun source ws k => ⟨zoneState_header source, zoneState_half source, fun h => ?_⟩, judgeSlot_eq⟩
  · have reported := tableClamped_iff ws
    rw [clampedValues_eq] at reported
    exact reported
  · obtain ⟨before, b, bands, length, places, last⟩ := bandsOfWords_concat h
    exact ⟨before, b, bands, length, places, last, zoneState_band source h bands⟩

end Sys2Proof.Machine
end

section
/-! The end of a LOAD: the word that completes a table has it judged, a table that passes replaces a profile or the active zone
map, and TU goes on. -/

namespace Sys2Proof.Machine

/-! ### A word of a table (R115, R119) -/

theorem serveRead_load {s : State} {kind : LoadKind} {source : Addr} {ph : TaskPhase}
    (running : s.tu.running = some { task := .load kind source, phase := ph }) (r : TaskRead) : serveRead r s =
      reportTask {} (loadsProfileInUse kind (s.mem.readWord r.addr) (readServed s)) s
        (tableWord kind source (s.mem.readWord r.addr) (readServed s)) := by
  have running : (s.withPu { s.pu with taskRead := none }).tu.running = some { task := .load kind source, phase := ph } :=
    running
  unfold serveRead
  dsimp only
  simp only [readPosting, dataMounts, dataLoadsProfile, taskData, running, Bool.false_eq_true, if_false]
  rfl

/-- While a table is incomplete its word is staged and the next word asked for. -/
theorem tableWord_reading {kind : LoadKind} {source : Addr} {d : Word} {s : State}
    (h : tableState kind source (s.tu.staging ++ [d]) = .reading) : tableWord kind source d s =
      { s with
        pu := readPresented (BitVec.ofNat 22 (source.toNat / 4 + (s.tu.staging ++ [d]).length)) s
        tu := { s.tu with staging := s.tu.staging ++ [d] } } := by
  unfold tableWord
  dsimp only
  rw [h]
  rfl

/-- No table is staged. -/
def unstaged (s : State) : State := { s with tu := { s.tu with staging := [] } }

theorem tableWord_bad {kind : LoadKind} {source : Addr} {d : Word} {s : State}
    (h : tableState kind source (s.tu.staging ++ [d]) = .bad) :
    tableWord kind source d s = endTask (.load kind source) .badTable (unstaged s) := by
  unfold tableWord
  dsimp only
  rw [h]
  rfl

theorem tableWord_good {kind : LoadKind} {source : Addr} {d : Word} {s : State}
    (h : tableState kind source (s.tu.staging ++ [d]) = .good) : tableWord kind source d s =
      endTask (.load kind source) .done (storeTable kind (s.tu.staging ++ [d]) (unstaged s)) := by
  unfold tableWord
  dsimp only
  rw [h]
  rfl

/-! ### The end of a LOAD (R122) -/

/-- A task that leaves the profile in use as it was ends while none is pending: TU goes on, and RU posts. -/
theorem endTask_endsWith {before s : State} (t : Task) (r : TaskResult) (idle : s.tu.pendingTask = none)
    (same : profileNumberInUse before = profileNumberInUse s) :
    EndsWith (taskEnded t r s) (reportTask {} false before (endTask t r s)) := by
  have goes := endTask_goesOn t r idle
  exact ⟨_, goes, reportTask_posted rfl (same.trans (profileNumberInUse_eu goes.leaves.eu).symm)⟩

/-! ### A profile is replaced (R116, R117, R123) -/

theorem profileState_reading {ws : List Word} (h : ws.length < 32) : profileState ws = .reading := if_pos h

theorem profileState_full {ws : List Word} (h : ws.length = 32) :
    profileState ws = if profileTableOk ws then .good else .bad := if_neg (by omega)

/-- The table is profile p, and a clamp has set PARAM_ADJ. -/
def profileReplaced (p : Fin 4) (ws : List Word) (s : State) : State :=
  { s with
    tu := { s.tu with profiles := s.tu.profiles.set p (profileOfTable ws) }
    ru := { s.ru with paramAdj := if tableClamped ws then true else s.ru.paramAdj } }

theorem storeProfile_eq (p : Fin 4) (ws : List Word) (s : State) : storeProfile p ws s = profileReplaced p ws s := by
  unfold storeProfile profileReplaced
  dsimp only
  split <;> rfl

theorem loadsProfileInUse_iff (p : Fin 4) (d : Word) (s : State) : loadsProfileInUse (.profile p) d s = true ↔
    profileState (s.tu.staging ++ [d]) = .good ∧ p = profileNumberInUse s := by
  unfold loadsProfileInUse
  rw [Bool.and_eq_true, beq_iff_eq, beq_iff_eq]

/-- The data do not complete a LOAD of the profile in use, so EL tests nothing. -/
theorem loadsProfileInUse_false {p : Fin 4} {d : Word} {s : State}
    (h : profileState (s.tu.staging ++ [d]) = .good → p ≠ profileNumberInUse s) :
    loadsProfileInUse (.profile p) d s = false :=
  Bool.eq_false_iff.mpr fun loads => have ⟨good, used⟩ := (loadsProfileInUse_iff p d s).mp loads; h good used

/-- Settles O40. -/
theorem profileLoadReadsAndJudges : Obligations.ProfileLoadReadsAndJudges := by
  intro s₀ r p source ph reset read serves running s ws u fits done
  have tu : s.tu = s₀.tu := (reportHolds_within s₀).tu rfl
  rw [← tu] at running
  have row := taskReadData_serves reset read serves
  rw [serveRead_load running] at row
  have size : ws.length = s.tu.staging.length + 1 := List.length_append
  refine ⟨fun early => ⟨_, _, row, rfl, ?_⟩, fun last idle => ⟨_, _, row, rfl, ?_⟩⟩
  · have reading : profileState ws = .reading := profileState_reading (by omega)
    rw [loadsProfileInUse_false (s := readServed s) (nomatch reading.symm.trans ·),
      tableWord_reading (s := readServed s) (kind := .profile p) reading]
    exact reportTask_posted rfl rfl
  · have judged := profileState_full (ws := ws) (by omega)
    refine ⟨fun fails => ?_, fun passes other => ?_, fun passes used => ?_⟩
    · have bad : profileState ws = .bad := judged.trans (if_neg fails)
      rw [loadsProfileInUse_false (s := readServed s) (nomatch bad.symm.trans ·),
        tableWord_bad (s := readServed s) (kind := .profile p) bad]
      exact endTask_endsWith (s := unstaged (readServed s)) _ _ idle rfl
    all_goals
      have good : profileState ws = .good := judged.trans (if_pos passes)
      rw [tableWord_good (s := readServed s) (kind := .profile p) good, storeTable, storeProfile_eq]
    · rw [loadsProfileInUse_false (s := readServed s) fun _ => other]
      exact endTask_endsWith (s := profileReplaced p ws (unstaged (readServed s))) _ _ idle rfl
    · exact ⟨_, endTask_goesOn _ _ idle, reportTask_located _ _ _ _ rfl⟩

/-! ### The active zone map is replaced (R84, R93, R124) -/

/-- EU's state by the comparison of the mounted mould's zone map ID with a map's (R93). -/
def comparedState (id : Half) (eu : EvidenceUnit) : EvidenceState :=
  if eu.state = .running ∨ eu.state = .held then
    match eu.mould with
    | some m => if m.header.zoneId = id then .running else .held
    | none => eu.state
  else eu.state

theorem compareMap_eq (s : State) :
    compareMap s = { s with eu := { s.eu with state := comparedState s.el.zones.id s.eu } } := by
  unfold compareMap comparedState
  by_cases live : s.eu.state = .running ∨ s.eu.state = .held
  · rw [if_pos live, show liveMould s = s.eu.mould from if_pos (live_of live)]
    cases s.eu.mould <;> rfl
  · have unmounted : s.eu.state = .empty ∨ s.eu.state = .changing := by
      revert live
      cases s.eu.state <;> decide
    rw [if_neg live, liveMould_none unmounted]

/-- The table is the active zone map, and EU has compared its ID. -/
def zonesReplaced (ws : List Word) (s : State) : State :=
  { s with
    el := { s.el with zones := { id := BitVec.ofNat 16 ((wordAt ws 0).toNat / 2 ^ 16), bands := bandsOfWords ws.tail } }
    eu := { s.eu with state := comparedState (BitVec.ofNat 16 ((wordAt ws 0).toNat / 2 ^ 16)) s.eu } }

theorem storeZones_eq (ws : List Word) (s : State) : storeZones ws s = zonesReplaced ws s := by
  rw [storeZones, compareMap_eq, zoneMapOf, upperHalf_eq]
  rfl

theorem comparedState_live (id : Half) (eu : EvidenceUnit) : (comparedState id eu).live = eu.state.live := by
  unfold comparedState
  split
  next live =>
    rw [live_of live]
    split
    · split <;> rfl
    · exact live_of live
  · rfl

/-- EU goes between RUNNING and HELD with the mould it holds, so the profile in use stays (R113). -/
theorem profileNumberInUse_zonesReplaced (ws : List Word) (s : State) :
    profileNumberInUse (zonesReplaced ws s) = profileNumberInUse s := by
  have same : liveMould (zonesReplaced ws s) = liveMould s := by
    unfold liveMould
    rw [show (zonesReplaced ws s).eu.state.live = s.eu.state.live from comparedState_live _ _]
    rfl
  rw [profileNumberInUse, same]
  rfl

/-- Settles O41. -/
theorem zoneLoadReplacesTheMap : Obligations.ZoneLoadReplacesTheMap := by
  intro s₀ r source ph reset read serves running s ws u id
  have tu : s.tu = s₀.tu := (reportHolds_within s₀).tu rfl
  rw [← tu] at running
  refine ⟨_, serveRead r s, taskReadData_serves reset read serves, rfl, ?_⟩
  rw [serveRead_load running]
  refine ⟨fun reading => ?_, fun bad idle => ?_, fun good idle => ?_⟩
  · rw [tableWord_reading (s := readServed s) (kind := .zones) reading]
    exact reportTask_posted rfl rfl
  · rw [tableWord_bad (s := readServed s) (kind := .zones) bad]
    exact endTask_endsWith (s := u) _ _ idle rfl
  · rw [tableWord_good (s := readServed s) (kind := .zones) good, storeTable, storeZones_eq]
    exact endTask_endsWith (s := zonesReplaced ws u) _ _ idle (profileNumberInUse_zonesReplaced ws u).symm

end Sys2Proof.Machine
end

section
/-! MOUNT and RELEASE: their checks, the load phase begun with no mould mounted, and the save phase begun with one, where EU
is left without a cycle and the events that form under profile 0 count as EVENTS and LOG only. -/

namespace Sys2Proof.Machine

/-! ### The checks of MOUNT (R143) -/

theorem mountParamsOk_iff (s : State) : mountParamsOk s = true ↔
    (param1 s).toNat ≤ 11 ∧ param2 s ≠ 0 ∧ 1 ≤ (param3 s).toNat ∧ (param3 s).toNat ≤ 48 ∧
      (param4 s).toNat ≤ 3 ∧ (param5 s).toNat < 2 ^ 16 := by
  simp only [mountParamsOk, Bool.and_eq_true, decide_eq_true_eq, bne_iff_ne, beq_iff_eq, bits_upper_eq_zero_iff,
    and_assoc]

theorem mountTargetOk_eq_false_iff (x : SlotState) :
    mountTargetOk x = false ↔ x ∈ [SlotState.damaged, .clearing, .loading, .saving] := by
  cases x <;> decide

theorem mountParamsOf_eq {s : State} {n : Fin 12} (slot : (param1 s).toNat = n.val) : mountParamsOf (closed s) =
    { slot := n, mouldId := param2 s, count := (param3 s).toNat, profile := Fin.ofNat 4 (param4 s).toNat,
      zoneId := BitVec.ofNat 16 (param5 s).toNat } := by
  rw [← fin_of_val slot, ← lowerHalf_eq]
  rfl

/-- With parameters that name p the target's state decides between REFUSED-STATE and the task rules. -/
theorem own_mount_passed {s : State} {p : MountParams} (params : mountParamsOk s = true) (names : mountParamsOf s = p) :
    own .mount s =
      if mountTargetOk (slotEntry s p.slot).state = false then refuse .refusedState s else admitAnswer (.mount p) s := by
  subst names
  exact if_neg (Bool.not_eq_false _ ▸ params)

/-- A task other than a sweep that is admitted with no task running begins at once (R127). -/
theorem admitAnswer_begins {k : Task} {s u : State} (other : k ≠ .sweep) (idle : s.tu.running = none)
    (begins : beginTask k s = u) : admitAnswer k s = { outcome := .started, state := u, follow := .profile } := by
  rw [admitAnswer, admitTask_now other idle, begins]

/-! ### The load phase (R146) -/

/-- With no mould mounted the target becomes LOADING with its cached ID, EU goes to CHANGING, and the target's first word is
asked for. -/
theorem beginTask_mount_unmounted (p : MountParams) {s : State} (empty : s.eu.state = .empty) : beginTask (.mount p) s =
    { s with
      eu := { s.eu with state := .changing }
      tu := { s.tu with
        directory := s.tu.directory.set p.slot.val { slotEntry s p.slot with state := .loading } p.slot.isLt
        running := some { task := .mount p, phase := .reading }
        slotWords := [], slotCrc := 0xFFFF }
      pu := readPresented (slotWordAddr s.pu p.slot 0) s } := by
  have unmounted : mountedMould s = none := by rw [mountedMould, liveMould_none (.inl empty)]
  have loads : beginTask (.mount p) s = openLoad p s := by rw [beginTask, beginMount, unmounted]
  exact loads.trans rfl

/-- Settles O32. -/
theorem mountBeginsItsLoadPhase : Obligations.MountBeginsItsLoadPhase := by
  intro s free t paramsOk
  refine ⟨_, rfl, fun bad => ?_, fun good n names => ?_⟩
  · exact row_refused s.pins free t (if_pos (Bool.eq_false_iff.mpr (mt (mountParamsOk_iff (closed s)).mp bad)))
  · have answer := own_mount_passed ((mountParamsOk_iff (closed s)).mpr good) (mountParamsOf_eq names)
    refine ⟨fun barred => ?_, fun fit idle empty => ?_⟩
    · exact row_refused s.pins free t (answer.trans (if_pos ((mountTargetOk_eq_false_iff _).mpr barred)))
    · have starts := (answer.trans (if_neg (mt (mountTargetOk_eq_false_iff _).mp fit))).trans
        (admitAnswer_begins (by nofun) idle (beginTask_mount_unmounted _ empty))
      have inUse := (profileNumberInUse_unmounted (.inl empty) : profileNumberInUse s = 0).symm
      exact (row_task s.pins free t starts).2 ((profileNumberInUse_unmounted (.inr rfl)).trans inUse)

/-! ### The counters that count neither EVENTS nor LOG -/

/-- The counters of s that count neither EVENTS nor LOG stand in t as they were (R158). -/
def EventsCounted (s t : State) : Prop :=
  ∀ i : Fin 4, (s.ru.counters[i.val]'i.isLt).select ≠ 5 → (s.ru.counters[i.val]'i.isLt).select ≠ 8 →
    t.ru.counters[i.val]'i.isLt = s.ru.counters[i.val]'i.isLt

theorem EventsCounted.of_same {s t : State} (h : t.ru.counters = s.ru.counters) : EventsCounted s t :=
  fun _ _ _ => by rw [h]

theorem EventsCounted.trans {s t u : State} (h : EventsCounted s t) (k : EventsCounted t u) : EventsCounted s u :=
  fun i events log =>
    have same := h i events log
    (k i (same ▸ events) (same ▸ log)).trans same

theorem countOccurrence_eventsCounted {o : Occurrence} (code : o.eventCode = 5 ∨ o.eventCode = 8) (s : State) :
    EventsCounted s (countOccurrence o s) := fun i events log =>
  (Vector.getElem_map _ i.isLt).trans (if_neg fun counts =>
    code.elim (events <| counts.1.trans ·) (log <| counts.1.trans ·))

theorem offerLog_eventsCounted (ws : List Word) (s : State) : EventsCounted s (offerLog ws s) := by
  unfold offerLog
  split
  · next t placed =>
    have counted := countOccurrence_eventsCounted (o := .logWritten) (.inr rfl) t
    exact (EventsCounted.of_same (congrArg _ (enqueue_ru placed))).trans (counted.trans (.of_same rfl))
  · exact countOccurrence_eventsCounted (.inr rfl) s

theorem report_eventsCounted (p : Posting) (before after : State) : EventsCounted after (report p before after) := by
  have plain {q : Posting} (h : q.log = none) (a : State) : EventsCounted a (report q before a) :=
    .of_same ((report_facts q before a).2.1 h).1
  cases h : p.log with
  | none => exact plain h after
  | some ws =>
    rw [report_log h]
    exact (offerLog_eventsCounted ws after).trans (plain rfl _)

theorem reportEvent_eventsCounted (e : EventRecord) (before s : State) : EventsCounted s (reportEvent e before s) := by
  have event := countOccurrence_eventsCounted (o := .event e.outcome) (.inl rfl) s
  have forced (u : State) : EventsCounted u (countIf e.forced .eventForced u) := by
    unfold countIf
    split
    · exact countOccurrence_eventsCounted (.inl rfl) u
    · exact .of_same rfl
  have traced (u : State) : EventsCounted u (countTrace e u) := .of_same (congrArg (·.ru.counters) (countTrace_eq e u))
  exact ((event.trans (forced _)).trans (traced _)).trans (report_eventsCounted _ _ _)

theorem formEvent_eventsCounted (forced : Bool) (s : State) : EventsCounted s (formEvent forced s) := by
  have reported {u : State} {r : EventRecord} (same : u.ru.counters = s.ru.counters) :
      EventsCounted s (reportEvent r s u) := (EventsCounted.of_same same).trans (reportEvent_eventsCounted r s u)
  unfold formEvent
  split
  · exact .of_same rfl
  · extract_lets
    split
    · exact reported (by rfl)
    · split
      · exact reported (by rfl)
      · exact reported (by rfl)

/-- With no cycle open none closes, so the events that form count as EVENTS and LOG only (R79, R100). -/
theorem formLoop_eventsCounted (n : Nat) : ∀ s : State, s.eu.cycles = [] → EventsCounted s (formLoop n s) := by
  induction n with
  | zero => exact fun s _ => .of_same rfl
  | succ n ih =>
    intro s unopened
    have still : (formEvent false s).eu.cycles = [] := (formEvent_leaves unopened false).eu ▸ unopened
    unfold formLoop
    split
    · exact (testClose_no_cycles still).symm ▸ (formEvent_eventsCounted false s).trans (ih _ still)
    · exact .of_same rfl

theorem followProfile_eventsCounted {s : State} (unopened : s.eu.cycles = []) (before : State) :
    EventsCounted s (followProfile false before s) := by
  have loop := formLoop_leaves s.el.pool.length s unopened
  unfold followProfile
  split
  · rw [locatorTest, testClose_no_cycles (loop.eu ▸ unopened)]
    exact formLoop_eventsCounted _ s unopened
  · exact .of_same rfl

/-! ### The save phase (R144, R152) -/

theorem beginTask_saves {s : State} {m : Mould} {n : Fin 12} (live : s.eu.state = .running ∨ s.eu.state = .held)
    (mould : s.eu.mould = some m) (slot : mountedAt s n) :
    beginTask .release s = openSave .release m n s ∧ ∀ p, beginTask (.mount p) s = openSave (.mount p) m n s := by
  have found := mountedMould_of_mountedAt live mould slot
  refine ⟨?_, fun p => ?_⟩
  · rw [beginTask, beginRelease, found]
  · rw [beginTask, beginMount, found]

/-- The row of a command whose task asks for a slot image from the state u, in which EU is CHANGING with no open cycle: the
events that form where another profile than 0 was in use change nothing of EU, and count only EVENTS and LOG (R76, R113). -/
theorem row_saves {c : Command} {k : Task} {s u : State} {q : Fin 4} (free : writesFreely s) (t : taken c s)
    (hc : c ≠ .resetPart) (admitted : own c (closed s) = admitAnswer k (closed s)) (other : k ≠ .sweep)
    (idle : s.tu.running = none) (begins : beginTask k (closed s) = askRecords 16 u) (changing : u.eu.state = .changing)
    (unopened : u.eu.cycles = []) (inUse : profileNumberInUse s = q) :
    let w := askRecords 16 (withOutcome c .started u)
    let v := commandRow c s.pins s
    Located w v ∧ v.eu = w.eu ∧ v.tu = w.tu ∧ EventsCounted w v ∧ (q = 0 → PostedFrom w v) := by
  have starts := admitted.trans (admitAnswer_begins (s := closed s) other idle begins)
  obtain ⟨located, posted⟩ := row_task s.pins free t starts hc
  obtain ⟨x, post, row⟩ := commandRow_answered s.pins free t hc
  replace starts : own c (closed (s.withPins s.pins)) = _ := starts
  rw [starts] at row post
  rw [answered_of (by nofun) _ rfl rfl] at post
  have eu : x.eu = (askRecords 16 u).eu := post.within.eu rfl
  rw [askRecords_withOutcome]
  have still : x.eu.cycles = [] := by rw [eu, askRecords_eu, unopened]
  refine ⟨located, row ▸ (followProfile_leaves still false _).eu.trans eu, located.within.tu rfl,
    row ▸ (EventsCounted.of_same post.counters.1).trans (followProfile_eventsCounted still _), fun zero => posted ?_⟩
  rw [profileNumberInUse_unmounted (.inr (askRecords_eu 16 u ▸ changing)), inUse, zero]

/-- Settles O33. -/
theorem savePhaseOpens : Obligations.SavePhaseOpens := by
  intro s m n free u mounted opened
  have inUse (live : s.eu.state = .running ∨ s.eu.state = .held) (mould : s.eu.mould = some m) :
      profileNumberInUse s = m.header.profile := by
    rw [profileNumberInUse, liveMould_of_live live mould]
    rfl
  refine ⟨fun t => ⟨_, rfl, fun unmounted => ?_, fun ⟨live, mould, slot, idle⟩ => ?_⟩,
    fun t p asks => ⟨_, rfl, fun ⟨live, mould, slot, idle⟩ => ?_⟩⟩
  · exact row_refused s.pins free t (if_pos (not_live_of unmounted))
  · exact row_saves free t (by nofun) (if_neg (Bool.not_eq_false _ ▸ live_of live)) (by nofun) idle
      ((beginTask_saves (s := closed s) live mould slot).1.trans (openSave_eq ..)) rfl rfl (inUse live mould)
  · obtain ⟨checks, named⟩ := Option.ite_none_right_eq_some.mp asks
    obtain ⟨params, target⟩ := Bool.and_eq_true_iff.mp checks
    have names : mountParamsOf (closed s) = p := Task.mount.inj (Option.some.inj named)
    have admitted := (own_mount_passed (s := closed s) params names).trans
      (if_neg (Bool.not_eq_false _ ▸ names ▸ target))
    exact row_saves free t (by nofun) admitted (by nofun) idle
      (((beginTask_saves (s := closed s) live mould slot).2 p).trans (openSave_eq ..)) rfl rfl (inUse live mould)

end Sys2Proof.Machine
end

section
/-! CLEAR STATUS and ACKNOWLEDGE: the flags and the causes they clear (R159, R161). -/

set_option Elab.async false

namespace Sys2Proof.Machine

/-- Bits lo and up are zero exactly below 2 ^ lo. -/
theorem bits_top_eq_zero_iff (w : Word) {lo width : Nat} (top : lo + width = 32) :
    bits w lo width = 0 ↔ w.toNat < 2 ^ lo := by
  have below : w.toNat / 2 ^ lo < 2 ^ width := Nat.div_lt_of_lt_mul (by rw [← Nat.pow_add, top]; exact w.isLt)
  exact (Nat.mod_eq_of_lt below).congr_left.trans (Nat.div_eq_zero_iff_lt (Nat.two_pow_pos lo))

theorem lane_zero (w : Word) : lane w 0 = BitVec.ofNat 8 w.toNat := lane_wordAt [w] 0

/-- Settles O37: CLEAR STATUS is one update of RU, and ACKNOWLEDGE is one where its mask is a byte. -/
theorem clearStatusAndAcknowledge : Obligations.ClearStatusAndAcknowledge := by
  refine fun s free => ⟨fun t => ⟨_, rfl, ?_⟩, fun t => ⟨_, rfl, fun wide => ?_, fun narrow => ?_⟩⟩
  · exact row_done (u := (ownClearStatus (closed s)).state) s.pins free t rfl
  · exact row_refused s.pins free t (if_pos (mt (bits_top_eq_zero_iff _ rfl).mp (Nat.not_lt.mpr wide)))
  · rw [← lane_zero]
    exact row_done s.pins free t
      (if_neg (not_not.mpr ((bits_top_eq_zero_iff _ rfl).mpr narrow)))

end Sys2Proof.Machine
end

namespace Sys2Proof.Machine

theorem step_of_pending_cons {c : Instr} {rest : List Instr} {s : State} (waits : s.pending = c :: rest) :
    step s = exec c (s.withPending rest) := by
  unfold step
  rw [waits]

theorem step_of_pending_nil {s : State} (empty : s.pending = []) : step s = .next (tick s) := by
  unfold step
  rw [empty]

/-- Settles O1: a step is decided by the queue alone, and on an empty queue it is the tick. -/
theorem stepRunsFrontCommand : Obligations.StepRunsFrontCommand :=
  ⟨fun _ _ _ => step_of_pending_cons, fun _ => step_of_pending_nil⟩

end Sys2Proof.Machine
